-- ==== Sys2Proof/Word.lean ====
section
/-! DEFINITION. The two machine widths of the spec: the byte (00_scope.md R20) and the 32-bit register word (R8). -/

namespace Sys2Proof

/-- A byte: 8 bits (00_scope.md R20), the unit of system memory (20_memory.md R100). -/
abbrev Byte := BitVec 8

/-- A register of the window: `XLEN` = 32 bits (00_scope.md R8). -/
abbrev Word := BitVec 32

end Sys2Proof
end

