-- ==== Sys2Proof/Syntax.lean ====
section
/-! DEFINITION. The instruction set (00_scope.md R3), one constructor per row of spec/opcode_table.json: the 15
commands of the CMD register, which carry no operand field (30_encoding.md R153: their operands are the latched
registers), and the 6 token forms of the LZ stream, which the token decoder executes (30_encoding.md R170). -/

namespace Sys2Proof

/-- One command, or one token of an LZ stream. -/
inductive Instr where
  /-- NOP, opcode 0x00 (41_pipeline.md R300). -/
  | nop
  /-- COMPRESS, opcode 0x01 (41_pipeline.md R277). -/
  | compress
  /-- DECOMPRESS, opcode 0x02 (41_pipeline.md R285). -/
  | decompress
  /-- CHUNK_SIZES, opcode 0x03 (40_header.md R230). -/
  | chunkSizes
  /-- GET_ITEM_RANGE, opcode 0x04 (41_pipeline.md R293). -/
  | getItemRange
  /-- HDR_ENCODE, opcode 0x05 (40_header.md R233). -/
  | hdrEncode
  /-- LZ_COMPRESS, opcode 0x10 (43_lz_codec.md R395). -/
  | lzCompress
  /-- LZ_DECOMPRESS, opcode 0x11 (43_lz_codec.md R410). -/
  | lzDecompress
  /-- SHUFFLE, opcode 0x20 (42_filters.md R321). -/
  | shuffle
  /-- UNSHUFFLE, opcode 0x21 (42_filters.md R322). -/
  | unshuffle
  /-- BITSHUFFLE, opcode 0x22 (42_filters.md R333). -/
  | bitshuffle
  /-- BITUNSHUFFLE, opcode 0x23 (42_filters.md R334). -/
  | bitunshuffle
  /-- DELTA_ENCODE, opcode 0x24 (42_filters.md R343). -/
  | deltaEncode
  /-- DELTA_DECODE, opcode 0x25 (42_filters.md R344). -/
  | deltaDecode
  /-- TRUNC_PREC, opcode 0x26 (42_filters.md R352). -/
  | truncPrec
  /-- LIT_FIRST: the first token of a stream, a literal run whose control byte's bits 7:5 are the format marker
  (30_encoding.md R172, 43_lz_codec.md R420). -/
  | litFirst (marker : BitVec 3) (lits : List Byte)
  /-- LIT: a later literal run (30_encoding.md R171, 43_lz_codec.md R421). -/
  | lit (lits : List Byte)
  /-- MATCH_SHORT_NEAR: length `l` + 3 at distance `d` + 1 (30_encoding.md R173, R176; 43_lz_codec.md R422). -/
  | matchShortNear (l : BitVec 3) (d : BitVec 13)
  /-- MATCH_SHORT_FAR: length `l` + 3 at distance 8192 + `x` (30_encoding.md R173, R177; 43_lz_codec.md R423). -/
  | matchShortFar (l : BitVec 3) (x : BitVec 16)
  /-- MATCH_LONG_NEAR: length 10 + `ext`, the sum of the extension bytes, at distance `d` + 1
  (30_encoding.md R174 to R176; 43_lz_codec.md R424). -/
  | matchLongNear (ext : Nat) (d : BitVec 13)
  /-- MATCH_LONG_FAR: length 10 + `ext` at distance 8192 + `x` (30_encoding.md R174, R175, R177;
  43_lz_codec.md R425). -/
  | matchLongFar (ext : Nat) (x : BitVec 16)
deriving DecidableEq, Repr

end Sys2Proof
end

