-- ==== Sys2Proof/WellFormed.lean ====
section
/-! DEFINITION. Which terms of `Instr` an encoding of the spec stands for (30_encoding.md R171 to R177). -/

namespace Sys2Proof

/-- A literal run has 1 to 32 bytes (30_encoding.md R171, R172). -/
def literalsFit (lits : List Byte) : Bool := decide (1 ≤ lits.length) && decide (lits.length ≤ 32)

/-- The L field of a short match is 1 to 6 (30_encoding.md R173). -/
def shortLengthFits (l : BitVec 3) : Bool := decide (1 ≤ l.toNat) && decide (l.toNat ≤ 6)

/-- A near distance field is not the far escape 0x1FFF (30_encoding.md R176). -/
def nearFits (d : BitVec 13) : Bool := decide (d ≠ 0x1FFF)

/-- The terms that some encoding stands for. A command has no field, so it is always well formed. -/
def Instr.wellFormed : Instr → Bool
  | .nop => true
  | .compress => true
  | .decompress => true
  | .chunkSizes => true
  | .getItemRange => true
  | .hdrEncode => true
  | .lzCompress => true
  | .lzDecompress => true
  | .shuffle => true
  | .unshuffle => true
  | .bitshuffle => true
  | .bitunshuffle => true
  | .deltaEncode => true
  | .deltaDecode => true
  | .truncPrec => true
  | .litFirst _ lits => literalsFit lits
  | .lit lits => literalsFit lits
  | .matchShortNear l d => shortLengthFits l && nearFits d
  | .matchShortFar l _ => shortLengthFits l
  | .matchLongNear _ d => nearFits d
  | .matchLongFar _ _ => true

/-- Whether a term is a token of an LZ stream (30_encoding.md section 3) and not a command. -/
def Instr.isToken : Instr → Bool
  | .nop => false
  | .compress => false
  | .decompress => false
  | .chunkSizes => false
  | .getItemRange => false
  | .hdrEncode => false
  | .lzCompress => false
  | .lzDecompress => false
  | .shuffle => false
  | .unshuffle => false
  | .bitshuffle => false
  | .bitunshuffle => false
  | .deltaEncode => false
  | .deltaDecode => false
  | .truncPrec => false
  | .litFirst _ _ => true
  | .lit _ => true
  | .matchShortNear _ _ => true
  | .matchShortFar _ _ => true
  | .matchLongNear _ _ => true
  | .matchLongFar _ _ => true

/-- Whether a term is the first token of a stream, which its control byte's place decides and not its bits
(30_encoding.md R170 item 1). -/
def Instr.isFirstToken : Instr → Bool
  | .nop => false
  | .compress => false
  | .decompress => false
  | .chunkSizes => false
  | .getItemRange => false
  | .hdrEncode => false
  | .lzCompress => false
  | .lzDecompress => false
  | .shuffle => false
  | .unshuffle => false
  | .bitshuffle => false
  | .bitunshuffle => false
  | .deltaEncode => false
  | .deltaDecode => false
  | .truncPrec => false
  | .litFirst _ _ => true
  | .lit _ => false
  | .matchShortNear _ _ => false
  | .matchShortFar _ _ => false
  | .matchLongNear _ _ => false
  | .matchLongFar _ _ => false

end Sys2Proof
end

