-- ==== Sys2Proof/Decode.lean ====
section
/-! DEFINITION. The decoder of both instruction levels, total on any bytes and refusing by name, and the
encoder written from the same tables (30_encoding.md sections 1 and 3). -/

namespace Sys2Proof

/-- Why an encoding stands for no instruction. -/
inductive DecodeError where
  /-- CMD[7:0] is no opcode of 30_encoding.md R150. -/
  | unknownOpcode (opcode : Byte)
  /-- There is no control byte. -/
  | emptyStream
  /-- A literal run's bytes extend past the input (43_lz_codec.md R404 case 1). -/
  | literalsMissing
  /-- The input ends inside a length extension (43_lz_codec.md R404 case 3). -/
  | extensionUnterminated
  /-- The input ends before the distance byte (43_lz_codec.md R404 case 4). -/
  | distanceMissing
  /-- The input ends inside the two far-distance bytes (43_lz_codec.md R404 case 5). -/
  | farBytesMissing
  /-- Bytes follow the one token that was asked for. -/
  | trailingBytes
deriving DecidableEq, Repr

/-- The opcode table of the commands (30_encoding.md R150). -/
def opcodeTable : List (Byte × Instr) :=
  [(0x00, .nop), (0x01, .compress), (0x02, .decompress), (0x03, .chunkSizes), (0x04, .getItemRange),
   (0x05, .hdrEncode), (0x10, .lzCompress), (0x11, .lzDecompress), (0x20, .shuffle), (0x21, .unshuffle),
   (0x22, .bitshuffle), (0x23, .bitunshuffle), (0x24, .deltaEncode), (0x25, .deltaDecode), (0x26, .truncPrec)]

/-- The command an OPCODE selects (30_encoding.md R150); any other value is no command. -/
def decodeCommand (opcode : Byte) : Except DecodeError Instr :=
  match opcodeTable.find? (fun row => row.1 == opcode) with
  | some row => .ok row.2
  | none => .error (.unknownOpcode opcode)

/-- A distance field as the decoder reads it (30_encoding.md R176, R177). -/
inductive Distance where
  /-- D[12:0] of a near match. -/
  | near (d : BitVec 13)
  /-- X of a far match. -/
  | far (x : BitVec 16)
deriving DecidableEq, Repr

/-- The length extension (30_encoding.md R175): every byte is added, the first that is not 255 ends it. The
answer is the sum and the bytes after it; none where the input ends first. -/
def readExtension : List Byte → Option (Nat × List Byte)
  | [] => none
  | e :: rest =>
    if e = 255 then
      match readExtension rest with
      | some (sum, after) => some (255 + sum, after)
      | none => none
    else some (e.toNat, rest)

/-- The distance bytes (30_encoding.md R176, R177): F carries D[12:8] and the next byte D[7:0], except that
0x1FFF is the escape before two more bytes, high byte first. -/
def readDistance (f : BitVec 5) : List Byte → Except DecodeError (Distance × List Byte)
  | [] => .error .distanceMissing
  | dlo :: rest =>
    if f ++ dlo = (0x1FFF : BitVec 13) then
      match rest with
      | dfh :: dfl :: after => .ok (.far (dfh ++ dfl), after)
      | [_] => .error .farBytesMissing
      | [] => .error .farBytesMissing
    else .ok (.near (f ++ dlo), rest)

/-- A literal run of `n` bytes from the bytes after its control byte (30_encoding.md R171). -/
def readLiterals (mk : List Byte → Instr) (n : Nat) (rest : List Byte) : Except DecodeError (Instr × List Byte) :=
  if rest.length < n then .error .literalsMissing else .ok (mk (rest.take n), rest.drop n)

/-- A short match from the bytes after its control byte (30_encoding.md R173). -/
def readShortMatch (l : BitVec 3) (f : BitVec 5) (rest : List Byte) : Except DecodeError (Instr × List Byte) :=
  match readDistance f rest with
  | .ok (.near d, after) => .ok (.matchShortNear l d, after)
  | .ok (.far x, after) => .ok (.matchShortFar l x, after)
  | .error e => .error e

/-- A long match from the bytes after its control byte: the extension comes before the distance
(30_encoding.md R174). -/
def readLongMatch (f : BitVec 5) (rest : List Byte) : Except DecodeError (Instr × List Byte) :=
  match readExtension rest with
  | none => .error .extensionUnterminated
  | some (ext, after) =>
    match readDistance f after with
    | .ok (.near d, after') => .ok (.matchLongNear ext d, after')
    | .ok (.far x, after') => .ok (.matchLongFar ext x, after')
    | .error e => .error e

/-- The L field of a control byte, bits 7:5 (30_encoding.md section 3). -/
def controlL (ctrl : Byte) : BitVec 3 := ctrl.extractLsb' 5 3

/-- The F field of a control byte, bits 4:0 (30_encoding.md section 3). -/
def controlF (ctrl : Byte) : BitVec 5 := ctrl.extractLsb' 0 5

/-- The token at the head of a byte sequence and the bytes after it, by the classes of 30_encoding.md R170.
`first` says whether it is the first token of its stream, which is always a literal run. -/
def decodeToken (first : Bool) : List Byte → Except DecodeError (Instr × List Byte)
  | [] => .error .emptyStream
  | ctrl :: rest =>
    if first then readLiterals (.litFirst (controlL ctrl)) ((controlF ctrl).toNat + 1) rest
    else if controlL ctrl = 0 then readLiterals .lit ((controlF ctrl).toNat + 1) rest
    else if controlL ctrl = 7 then readLongMatch (controlF ctrl) rest
    else readShortMatch (controlL ctrl) (controlF ctrl) rest

/-- An encoding of one instruction: a command is a CMD word (30_encoding.md R153), a token a byte sequence. -/
inductive Encoding where
  /-- The 32-bit word that selects a command. -/
  | word (w : Word)
  /-- The bytes of a token, in stream order. -/
  | stream (bytes : List Byte)
deriving DecidableEq, Repr

/-- The instruction an encoding stands for. CMD[31:8] are hardwired and select nothing (30_encoding.md R150). -/
def decode (first : Bool) : Encoding → Except DecodeError Instr
  | .word w => decodeCommand (w.extractLsb' 0 8)
  | .stream bytes =>
    match decodeToken first bytes with
    | .ok (i, []) => .ok i
    | .ok (_, _ :: _) => .error .trailingBytes
    | .error e => .error e

/-- A control byte LLL FFFFF (30_encoding.md section 3). -/
def control (l : BitVec 3) (f : BitVec 5) : Byte := l ++ f

/-- The extension bytes of a sum (30_encoding.md R175). -/
def extensionBytes (ext : Nat) : List Byte := List.replicate (ext / 255) 255 ++ [BitVec.ofNat 8 (ext % 255)]

/-- A literal run: its control byte with the given bits 7:5, then its bytes (30_encoding.md R171, R172). -/
def literalBytes (l : BitVec 3) (lits : List Byte) : List Byte :=
  control l (BitVec.ofNat 5 (lits.length - 1)) :: lits

/-- A near match: control byte with D[12:8], the extension bytes, then D[7:0] (30_encoding.md R173 to R176). -/
def nearBytes (l : BitVec 3) (ext : List Byte) (d : BitVec 13) : List Byte :=
  control l (d.extractLsb' 8 5) :: (ext ++ [d.extractLsb' 0 8])

/-- A far match: F = 31, the extension bytes, 0xFF, then X high byte first (30_encoding.md R173 to R177). -/
def farBytes (l : BitVec 3) (ext : List Byte) (x : BitVec 16) : List Byte :=
  control l 31 :: (ext ++ [0xFF, x.extractLsb' 8 8, x.extractLsb' 0 8])

/-- The bytes of a token, none for a command (30_encoding.md R171 to R177). -/
def tokenBytes : Instr → List Byte
  | .nop => []
  | .compress => []
  | .decompress => []
  | .chunkSizes => []
  | .getItemRange => []
  | .hdrEncode => []
  | .lzCompress => []
  | .lzDecompress => []
  | .shuffle => []
  | .unshuffle => []
  | .bitshuffle => []
  | .bitunshuffle => []
  | .deltaEncode => []
  | .deltaDecode => []
  | .truncPrec => []
  | .litFirst marker lits => literalBytes marker lits
  | .lit lits => literalBytes 0 lits
  | .matchShortNear l d => nearBytes l [] d
  | .matchShortFar l x => farBytes l [] x
  | .matchLongNear ext d => nearBytes 7 (extensionBytes ext) d
  | .matchLongFar ext x => farBytes 7 (extensionBytes ext) x

/-- The encoding of an instruction (30_encoding.md R150 and R171 to R177). -/
def encode : Instr → Encoding
  | .nop => .word 0x00
  | .compress => .word 0x01
  | .decompress => .word 0x02
  | .chunkSizes => .word 0x03
  | .getItemRange => .word 0x04
  | .hdrEncode => .word 0x05
  | .lzCompress => .word 0x10
  | .lzDecompress => .word 0x11
  | .shuffle => .word 0x20
  | .unshuffle => .word 0x21
  | .bitshuffle => .word 0x22
  | .bitunshuffle => .word 0x23
  | .deltaEncode => .word 0x24
  | .deltaDecode => .word 0x25
  | .truncPrec => .word 0x26
  | .litFirst marker lits => .stream (tokenBytes (.litFirst marker lits))
  | .lit lits => .stream (tokenBytes (.lit lits))
  | .matchShortNear l d => .stream (tokenBytes (.matchShortNear l d))
  | .matchShortFar l x => .stream (tokenBytes (.matchShortFar l x))
  | .matchLongNear ext d => .stream (tokenBytes (.matchLongNear ext d))
  | .matchLongFar ext x => .stream (tokenBytes (.matchLongFar ext x))

/-- The byte length of a token (30_encoding.md R178), 0 for a command. -/
def tokenLength : Instr → Nat
  | .nop => 0
  | .compress => 0
  | .decompress => 0
  | .chunkSizes => 0
  | .getItemRange => 0
  | .hdrEncode => 0
  | .lzCompress => 0
  | .lzDecompress => 0
  | .shuffle => 0
  | .unshuffle => 0
  | .bitshuffle => 0
  | .bitunshuffle => 0
  | .deltaEncode => 0
  | .deltaDecode => 0
  | .truncPrec => 0
  | .litFirst _ lits => 1 + lits.length
  | .lit lits => 1 + lits.length
  | .matchShortNear _ _ => 2
  | .matchShortFar _ _ => 4
  | .matchLongNear ext _ => 2 + (ext / 255 + 1)
  | .matchLongFar ext _ => 4 + (ext / 255 + 1)

/-- Whether a number of spec/opcode_table.json is a CMD word: 8 bits (the mask 0x000000FF), or 32 bits without
the fixed bits 28:16 = 0x1FFF of the one 32-bit token row, MATCH_SHORT_FAR (log 19). -/
def isCommandNumber (nbits w : Nat) : Bool :=
  decide (nbits = 8) || (decide (nbits = 32) && decide ((w >>> 16) % 8192 ≠ 8191))

/-- The bytes of a token number: the table writes a token's bytes in stream order, each byte MSB first, and reads
them as one number whose bit 0 is its least significant, so the first byte is the most significant one; every
bit after them is 0 (log 19). -/
def tableStream (nbits w : Nat) : List Byte :=
  (List.range (nbits / 8)).map (fun k => BitVec.ofNat 8 (w >>> (8 * (nbits / 8 - 1 - k)))) ++ List.replicate 64 0

/-- The instruction the decoder reads from a number of spec/opcode_table.json. A token number is read as a later
token, never as the first of a stream (log 19). -/
def decodeTableWord (nbits w : Nat) : Option Instr :=
  if isCommandNumber nbits w then
    match decode false (.word (BitVec.ofNat 32 w)) with
    | .ok i => some i
    | .error _ => none
  else
    match decodeToken false (tableStream nbits w) with
    | .ok (i, _) => some i
    | .error _ => none

end Sys2Proof
end

