-- ==== Sys2Proof/Machine/Bytes.lean ====
section
/-! DEFINITION. Byte sequences and the byte orders of the spec (00_scope.md R20 to R22, 20_memory.md R105, R106). -/

namespace Sys2Proof.Machine

/-- `b[i]` (00_scope.md R20). -/
def byteAt (b : List Byte) (i : Nat) : Byte := b.getD i 0

/-- `b[a .. a + n)` (00_scope.md R20), as much of it as there is. -/
def slice (b : List Byte) (a n : Nat) : List Byte := (b.drop a).take n

/-- The unsigned little-endian value of a byte sequence (00_scope.md R22, LE16 and LE32 among its cases). -/
def leNat : List Byte → Nat
  | [] => 0
  | b :: rest => b.toNat + 256 * leNat rest

/-- The little-endian bytes of a value, `n` of them (00_scope.md R22, le32bytes among its cases). -/
def leBytes : Nat → Nat → List Byte
  | 0, _ => []
  | n + 1, v => BitVec.ofNat 8 v :: leBytes n (v / 256)

/-- `LE32(b, i)` (00_scope.md R22). -/
def le32 (b : List Byte) (i : Nat) : Nat := leNat (slice b i 4)

/-- `le32bytes(v)` (00_scope.md R22). -/
def le32Bytes (v : Nat) : List Byte := leBytes 4 v

/-- `cdiv(a, b)` = ⌈a / b⌉ for b > 0 (00_scope.md R21). -/
def cdiv (a b : Nat) : Nat := (a + b - 1) / b

/-- `bit(x, a)`, bits numbered LSB-first across the sequence (42_filters.md R330). -/
def bitAt (x : List Byte) (a : Nat) : Bool := (byteAt x (a / 8)).getLsbD (a % 8)

/-- The byte whose bit b is `f b` (bit 0 the least significant, 00_scope.md R20). -/
def byteOfBits (f : Nat → Bool) : Byte :=
  BitVec.ofBool (f 7) ++ BitVec.ofBool (f 6) ++ BitVec.ofBool (f 5) ++ BitVec.ofBool (f 4)
    ++ BitVec.ofBool (f 3) ++ BitVec.ofBool (f 2) ++ BitVec.ofBool (f 1) ++ BitVec.ofBool (f 0)

/-- The number of equal bytes at the heads of two sequences. -/
def commonHead : List Byte → List Byte → Nat
  | a :: as, b :: bs => if a = b then commonHead as bs + 1 else 0
  | [], _ => 0
  | _ :: _, [] => 0

end Sys2Proof.Machine
end

