-- ==== Sys2Proof/Config.lean ====
section
/-! DEFINITION. What an implementation fixes (the parameters of 00_scope.md section 3, at the values the spec
gives "this spec's hardware"), and the free values the spec leaves open (93_implementation_defined.md). A free
value is an opaque constant: nothing can be proved of it, so a claim holds whatever it is. -/

namespace Sys2Proof.Config

/-- `2^ADDR_WIDTH`, the number of bytes of system memory (00_scope.md R8, 20_memory.md R100). -/
def memBytes : Nat := 4294967296

/-- What a byte of system memory that nothing has written reads as. DESIGN CHOICE (log 4): the spec gives system
memory no contents; unsafe if a claim leaned on this zero. -/
def unlistedByte : Byte := 0

/-- The constant of the ID register, "LZ77" (10_state.md R35). -/
def idValue : Word := 0x4C5A3737

/-- `HDR_MIN` (00_scope.md R9). -/
def hdrMin : Nat := 16

/-- `HDR_EXT` (00_scope.md R9). -/
def hdrExt : Nat := 32

/-- `EFFORT_MAX` (00_scope.md R11). -/
def effortMax : Nat := 9

/-- `MIN_BUFFERSIZE` (00_scope.md R12), at its default. -/
def minBufferSize : Nat := 32

/-- `MAX_BLOCKSIZE` (00_scope.md R13), at its default. -/
def maxBlockSize : Nat := 262144

/-- `MAX_NBYTES` (00_scope.md R14), at its default 2^31 - 33. -/
def maxNBytes : Nat := 2147483615

/-- `HASH_LOG(e)` (00_scope.md R15), at its default. -/
def hashLog (e : Nat) : Nat := min (9 + e) 14

/-- The number of entries of the hash table, `2^HASH_LOG_MAX` (10_state.md R47). -/
def hashEntries : Nat := 16384

/-- `HASH_MUL` (00_scope.md R16). -/
def hashMul : Nat := 2654435761

/-- `BS_BASE[e]` (00_scope.md R17), at its default. -/
def bsBase (e : Nat) : Nat :=
  [16384, 16384, 16384, 32768, 32768, 65536, 65536, 131072, 262144, 262144].getD e 262144

/-- `BS_TS_MULT(ts)` (00_scope.md R17), at its default. -/
def bsTsMult (ts : Nat) : Nat := if 16 ≤ ts then 2 else 1

/-- `NEAR_LIMIT` (00_scope.md R18). -/
def nearLimit : Nat := 8191

/-- `MAX_DIST` (00_scope.md R18). -/
def maxDist : Nat := 73727

/-- `EXT_CODECS` (00_scope.md R19), at its default, the empty set. -/
def extCodecs : List Byte := []

/-- FREE VALUE (log 8). The byte that an address holds after the spec calls it unspecified: the first argument
is the counter `free` of the state, the second the address (93_implementation_defined.md U7 to U10, U12). -/
opaque freeByte : Nat → Nat → Byte

/-- FREE VALUE (log 11). A register value that the spec calls unspecified: the first argument is the counter
`free`, the second tells the registers of one outcome apart (20_memory.md R111). -/
opaque freeWord : Nat → Nat → Word

/-- FREE VALUE (log 11). STORED of a success among the outcomes that the spec leaves open (20_memory.md R111, R120). -/
opaque freeFlag : Nat → Bool

/-- FREE VALUE (log 11, log 17). Which outcome a command has where the spec leaves it open: 0 success,
1 to 8 the error code of 60_exceptions.md R440, anything above read as 8 (20_memory.md R111, R120). -/
opaque freeOutcome : Nat → Nat

/-- FREE VALUE (log 9). Whether a pending ABORT stops the command at this sampling point (60_exceptions.md R452,
93_implementation_defined.md U11). -/
opaque abortTaken : Nat → Bool

end Sys2Proof.Config
end

