-- ==== Sys2Proof/Machine/State.lean ====
section
/-! DEFINITION. The machine's state as plain data, its faults and refusals, and the state after reset
(10_state.md, 70_reset_and_hazards.md R500). -/

namespace Sys2Proof.Machine

/-- System memory (20_memory.md R100): the listed bytes, addresses strictly rising, none of them equal to what an
unlisted byte reads as (log 4). -/
abbrev Memory := List Host.Cell

/-- The match-finder hash table HT (10_state.md R47): the entries that are not EMPTY, as (index, position),
indices strictly rising. -/
abbrev HashTable := List (Nat × Nat)

/-- The sequencer state SEQ (10_state.md R46). -/
inductive Seq where
  | idle
  | busy
deriving DecidableEq, Repr

/-- The parameter registers, those START latches (10_state.md R34), each under its own name (10_state.md R38 to
R44). The same record holds the registers of the window and the latched copy. -/
structure Params where
  /-- CMD.OPCODE, bits 7:0 of CMD; bits 31:8 are hardwired 0 (10_state.md R38). -/
  opcode : Byte
  srcAddr : Word
  srcLen : Word
  dstAddr : Word
  dstCap : Word
  /-- CFG (10_state.md R41); its reserved bits are hardwired 0. -/
  cfg : Word
  bsize : Word
  fcode0 : Word
  /-- FCODE1 (10_state.md R43); bits 31:16 are hardwired 0. -/
  fcode1 : Word
  fmeta0 : Word
  /-- FMETA1 (10_state.md R43); bits 31:16 are hardwired 0. -/
  fmeta1 : Word
  arg0 : Word
  arg1 : Word
deriving DecidableEq, Repr

/-- The fields of STATUS but BUSY, which is SEQ = BUSY (10_state.md R37). -/
structure Status where
  done : Bool
  err : Bool
  stored : Bool
  errCode : Byte
deriving DecidableEq, Repr

/-- RESULT0 .. RESULT8 (10_state.md R45). -/
structure Results where
  result0 : Word
  result1 : Word
  result2 : Word
  result3 : Word
  result4 : Word
  result5 : Word
  result6 : Word
  result7 : Word
  result8 : Word
deriving DecidableEq, Repr

/-- The engine-internal arrays (10_state.md R47, R48): HT and the block buffers, each buffer as the bytes that
have been written into it from its start (log 6). -/
structure Scratch where
  ht : HashTable
  bufA : List Byte
  bufB : List Byte
  bufR : List Byte
deriving DecidableEq, Repr

/-- The token decoder's state during LZ_DECOMPRESS (43_lz_codec.md R400): `ip` is its program counter (R371). -/
structure Decoder where
  running : Bool
  ip : Nat
  op : Nat
  first : Bool
deriving DecidableEq, Repr

/-- The width of a host access to the register window (10_state.md R32). -/
inductive AccessSize where
  | byte
  | half
  | word
  | double
deriving DecidableEq, Repr

/-- What the outside world does next (log 1): a host access, another agent's access, what the platform's bus does to
the running command, the reset input, or nothing. -/
inductive HostEvent where
  /-- The host writes the register window. -/
  | regWrite (size : AccessSize) (offset : Nat) (value : Word)
  /-- The host reads the register window. -/
  | regRead (size : AccessSize) (offset : Nat)
  /-- Another agent writes a byte of system memory. -/
  | memWrite (addr : Word) (value : Byte)
  /-- Another agent reads a byte of system memory. -/
  | memRead (addr : Word)
  /-- The host looks at the interrupt output (60_exceptions.md R456, R457). -/
  | irqRead
  /-- The platform's bus rejects an access of the running command, or answers it from memory with read side effects
  (20_memory.md R120, R121). -/
  | busError
  /-- The platform's bus never answers an access of the running command (70_reset_and_hazards.md R508). -/
  | busHang
  /-- The platform asserts the reset input RST (70_reset_and_hazards.md R490). -/
  | rst
  /-- The outside world does nothing: the engine moves. -/
  | wait
deriving DecidableEq, Repr

/-- The whole machine: the register window, the sequencer, the engine-internal arrays, the token decoder, system
memory, and the model's own fields. -/
structure State where
  /-- The parameter registers of the window. -/
  regs : Params
  /-- CTRL.IE (10_state.md R36). -/
  ie : Bool
  status : Status
  results : Results
  errInfo : Word
  seq : Seq
  /-- The latched copy of the parameter registers (10_state.md R34). -/
  latched : Params
  /-- ABORT_REQ (10_state.md R46). -/
  abortReq : Bool
  work : Scratch
  dec : Decoder
  mem : Memory
  /-- The model's own: the outside world's coming events (log 1). -/
  host : List HostEvent
  /-- The model's own: the data the last host read returned (log 1). -/
  rdata : Word
  /-- The model's own: the engine has gone past one sampling point since ABORT was written (log 9). -/
  abortPassed : Bool
  /-- The model's own: the last command still owns its regions, no one having observed its end (log 11). -/
  owned : Bool
  /-- The model's own: the latched registers of the commands before the last one whose end no one has observed either; they
  still own their regions (log 11). -/
  unobserved : List Params
  /-- The model's own: the bus has rejected an access of the running command (log 17). -/
  rejected : Bool
  /-- The model's own: another agent has written into the running command's regions or read its destination (log 11). -/
  misused : Bool
  /-- The model's own: an access of the running command waits for a bus that never answers (log 17). -/
  hung : Bool
  /-- The model's own: the counter the free values are applied to (log 8). -/
  free : Nat
deriving DecidableEq, Repr

/-- Why a step stops with no next state. -/
inductive Fault where
  /-- Raised by a token step whose stream or destination region runs past the last of the 2^32 bytes of system
  memory (20_memory.md R100), where no byte exists. Safe: START refuses such regions (20_memory.md R108), so no
  run from reset raises it (log 16). -/
  | outsideSystemMemory
deriving DecidableEq, Repr

/-- Why a step has no meaning. -/
inductive Refusal where
  /-- Raised only by an arm of `exec` for an instruction that has no meaning yet; no arm does. Safe. -/
  | notModelled (mnemonic : String)
deriving DecidableEq, Repr

/-- Every parameter register at 0 (70_reset_and_hazards.md R500). -/
def Params.zero : Params :=
  ⟨0, 0, 0, 0, 0, 0, 0, 0, 0, 0, 0, 0, 0⟩

/-- STATUS with every flag clear. -/
def Status.clear : Status := ⟨false, false, false, 0⟩

/-- Every RESULT register at 0. -/
def Results.zero : Results := ⟨0, 0, 0, 0, 0, 0, 0, 0, 0⟩

/-- The engine-internal arrays with HT all EMPTY and no buffer byte written (log 6). -/
def Scratch.empty : Scratch := ⟨[], [], [], []⟩

/-- No token program runs; the positions of 43_lz_codec.md R400 stand at their starting values (log 5). -/
def Decoder.idle : Decoder := ⟨false, 0, 0, true⟩

/-- The state after reset (70_reset_and_hazards.md R500). The latched copy, HT and the buffers, which the spec
leaves unspecified, are at the values of log 5 and log 6; system memory lists nothing (log 4). -/
def State.reset : State where
  regs := Params.zero
  ie := false
  status := Status.clear
  results := Results.zero
  errInfo := 0
  seq := .idle
  latched := Params.zero
  abortReq := false
  work := Scratch.empty
  dec := Decoder.idle
  mem := []
  host := []
  rdata := 0
  abortPassed := false
  owned := false
  unobserved := []
  rejected := false
  misused := false
  hung := false
  free := 0

end Sys2Proof.Machine
end

