-- ==== Sys2Proof/Machine/Flags.lean ====
section
/-! DEFINITION. Error codes, and every computation on the STATUS flags and the interrupt output (10_state.md R36,
R37, R49; 60_exceptions.md R440, R450, R451, R456). -/

namespace Sys2Proof.Machine

/-- The errors a command can end with (60_exceptions.md R440). -/
inductive Err where
  | short
  | header
  | destSmall
  | unsupported
  | truncated
  | arg
  | badCmd
  | aborted
deriving DecidableEq, Repr

/-- The code of an error (60_exceptions.md R440). -/
def Err.code : Err → Byte
  | .short => 1
  | .header => 2
  | .destSmall => 3
  | .unsupported => 4
  | .truncated => 5
  | .arg => 6
  | .badCmd => 7
  | .aborted => 8

/-- STATUS as the host reads it (10_state.md R37): BUSY, DONE, ERR, STORED in bits 0 to 3, ERRCODE in 15:8. -/
def statusWord (q : Seq) (st : Status) : Word :=
  (0 : BitVec 16) ++ st.errCode ++ (0 : BitVec 4) ++ BitVec.ofBool st.stored ++ BitVec.ofBool st.err
    ++ BitVec.ofBool st.done ++ BitVec.ofBool (decide (q = .busy))

/-- CTRL as the host reads it: IE in bit 2, the action bits read 0 (10_state.md R36). -/
def ctrlWord (ie : Bool) : Word := (0 : BitVec 29) ++ BitVec.ofBool ie ++ (0 : BitVec 2)

/-- A write of `v` to STATUS: a 1 in bit 1 clears DONE, a 1 in bit 2 clears ERR, ERRCODE stays (10_state.md R37). -/
def Status.acknowledge (v : Word) (st : Status) : Status :=
  { st with done := st.done && !v.getLsbD 1, err := st.err && !v.getLsbD 2 }

/-- The flags at a successful completion (60_exceptions.md R451): DONE set, STORED as the command's rule says,
ERR and ERRCODE as START left them. -/
def Status.succeed (stored : Bool) (st : Status) : Status := { st with done := true, stored := stored }

/-- The flags at a failure (60_exceptions.md R450): ERRCODE written, ERR and DONE set, STORED as START left it. -/
def Status.fail (e : Err) (st : Status) : Status := { st with done := true, err := true, errCode := e.code }

/-- The interrupt output, IRQ = CTRL.IE and STATUS.DONE (60_exceptions.md R456). -/
def State.irq (s : State) : Bool := s.ie && s.status.done

end Sys2Proof.Machine
end

