-- ==== Sys2Proof/Machine/Memory.lean ====
section
/-! DEFINITION. System memory: reading and writing single bytes (20_memory.md R100, R103), sequences of them, and
the canonical form of the list. -/

namespace Sys2Proof.Machine

/-- The canonical form: addresses strictly rising, every listed address one of the 2^32, and no listed byte equal
to what an unlisted byte reads as. -/
abbrev Memory.wf (m : Memory) : Prop :=
  m.Pairwise (fun c d => c.1 < d.1) ∧ ∀ c ∈ m, c.1 < Config.memBytes ∧ c.2 ≠ Config.unlistedByte

/-- The byte at an address (20_memory.md R103); an unlisted address reads as `Config.unlistedByte` (log 4). -/
def Memory.read : Memory → Nat → Byte
  | [], _ => Config.unlistedByte
  | (k, v) :: rest, a => if k = a then v else Memory.read rest a

/-- Puts a byte at its place in the list, or takes the entry out where the byte is what an unlisted one reads as. -/
def Memory.put : Memory → Nat → Byte → Memory
  | [], a, b => if b = Config.unlistedByte then [] else [(a, b)]
  | (k, v) :: rest, a, b =>
    if a < k then (if b = Config.unlistedByte then (k, v) :: rest else (a, b) :: (k, v) :: rest)
    else if k = a then (if b = Config.unlistedByte then rest else (a, b) :: rest)
    else (k, v) :: Memory.put rest a b

/-- The single-byte write (20_memory.md R103). Beyond the last address no byte exists, so nothing is stored there. -/
def Memory.write (m : Memory) (a : Nat) (b : Byte) : Memory :=
  if a < Config.memBytes then Memory.put m a b else m

/-- `MemRead(addr, n)` (00_scope.md R23): composed of single-byte reads. -/
def Memory.readBytes (m : Memory) (a n : Nat) : List Byte := (List.range n).map (fun k => m.read (a + k))

/-- `MemWrite(addr, n, v)` (00_scope.md R23): composed of single-byte writes, in address order. -/
def Memory.writeBytes : Memory → Nat → List Byte → Memory
  | m, _, [] => m
  | m, a, b :: rest => Memory.writeBytes (m.write a b) (a + 1) rest

/-- Gives each byte of [a, a + n) the value `f` of its address. -/
def Memory.fill (m : Memory) (a : Nat) (f : Nat → Byte) : Nat → Memory
  | 0 => m
  | n + 1 => (Memory.fill m a f n).write (a + n) (f (a + n))

end Sys2Proof.Machine
end

