-- ==== Sys2Proof/Machine/Operands.lean ====
section
/-! DEFINITION. The operand forms of the commands, read from the latched registers (00_scope.md R25; 10_state.md
R39, R41, R43, R44). -/

namespace Sys2Proof.Machine

/-- CFG.EFFORT, bits 3:0 (10_state.md R41). -/
def Params.effort (p : Params) : Nat := (p.cfg.extractLsb' 0 4).toNat

/-- CFG.TYPESIZE, bits 15:8, as the byte it is (10_state.md R41). -/
def Params.typesizeByte (p : Params) : Byte := p.cfg.extractLsb' 8 8

/-- CFG.TYPESIZE as a number (10_state.md R41). -/
def Params.typesize (p : Params) : Nat := p.typesizeByte.toNat

/-- CFG.SHUF, bit 16 (10_state.md R41). -/
def Params.shuf (p : Params) : Bool := p.cfg.getLsbD 16

/-- CFG.BSHUF, bit 17 (10_state.md R41). -/
def Params.bshuf (p : Params) : Bool := p.cfg.getLsbD 17

/-- CFG.DELTA, bit 18 (10_state.md R41). -/
def Params.delta (p : Params) : Bool := p.cfg.getLsbD 18

/-- CFG.EXT_HDR, bit 19 (10_state.md R41). -/
def Params.extHdr (p : Params) : Bool := p.cfg.getLsbD 19

/-- CFG.REF_BLOCK, bit 20 (10_state.md R41). -/
def Params.refBlock (p : Params) : Bool := p.cfg.getLsbD 20

/-- The six slot bytes of a pair of slot registers: 0 to 3 in the first, 4 and 5 in the second (10_state.md R43). -/
def slotBytes (w0 w1 : Word) : List Byte :=
  [w0.extractLsb' 0 8, w0.extractLsb' 8 8, w0.extractLsb' 16 8, w0.extractLsb' 24 8,
   w1.extractLsb' 0 8, w1.extractLsb' 8 8]

/-- `fcode[k]`, k = 0 .. 5 (10_state.md R43). -/
def Params.fcode (p : Params) : List Byte := slotBytes p.fcode0 p.fcode1

/-- `fmeta[k]`, k = 0 .. 5 (10_state.md R43). -/
def Params.fmeta (p : Params) : List Byte := slotBytes p.fmeta0 p.fmeta1

/-- `sext_8` of a byte (00_scope.md R21). -/
def sext8 (b : Byte) : Int := b.toInt

/-- The precision parameter of TRUNC_PREC: ARG0[7:0], signed (10_state.md R44, 42_filters.md R352). -/
def Params.precision (p : Params) : Int := sext8 (p.arg0.extractLsb' 0 8)

/-- The stored flag that HDR_ENCODE encodes: ARG0[0] (10_state.md R44). -/
def Params.storedArg (p : Params) : Bool := p.arg0.getLsbD 0

/-- A region [base, base + len) of system memory (00_scope.md R25). -/
structure Region where
  base : Nat
  len : Nat
deriving DecidableEq, Repr

/-- `src` = [SRC_ADDR, SRC_ADDR + SRC_LEN) (00_scope.md R25). -/
def Params.src (p : Params) : Region := ⟨p.srcAddr.toNat, p.srcLen.toNat⟩

/-- `dst` = [DST_ADDR, DST_ADDR + DST_CAP) (00_scope.md R25). -/
def Params.dst (p : Params) : Region := ⟨p.dstAddr.toNat, p.dstCap.toNat⟩

/-- `ref` = [ARG0, ARG0 + SRC_LEN) (00_scope.md R25). -/
def Params.ref (p : Params) : Region := ⟨p.arg0.toNat, p.srcLen.toNat⟩

/-- A region is valid when it does not run past 2^32 (20_memory.md R108). -/
def Region.valid (r : Region) : Bool := decide (r.base + r.len ≤ Config.memBytes)

/-- Two regions intersect (20_memory.md R109). -/
def Region.meets (r q : Region) : Bool :=
  decide (0 < r.len) && decide (0 < q.len) && decide (r.base < q.base + q.len) && decide (q.base < r.base + r.len)

/-- An address lies in a region. -/
def Region.holds (r : Region) (a : Nat) : Bool := decide (r.base ≤ a) && decide (a < r.base + r.len)

/-- The bytes of the source region. -/
def State.srcBytes (s : State) : List Byte := s.mem.readBytes s.latched.src.base s.latched.src.len

/-- The bytes of the reference region. -/
def State.refBytes (s : State) : List Byte := s.mem.readBytes s.latched.ref.base s.latched.ref.len

end Sys2Proof.Machine
end

