-- ==== Sys2Proof/Machine/Ops.lean ====
section
/-! DEFINITION. The named operations that the meanings share: the START latch, the region checks, writing the
destination, completing a command and raising an error (the engine's "exception entry", 60_exceptions.md section 2),
the reset, and the places where the spec leaves bytes or outcomes unspecified. -/

namespace Sys2Proof.Machine

/-! ## Regions of a command -/

/-- Whether a command uses the source region (30_encoding.md R151). A token has no region of its own: it runs in
those of its LZ_DECOMPRESS. -/
def usesSrc : Instr → Bool
  | .nop => false
  | .compress => true
  | .decompress => true
  | .chunkSizes => true
  | .getItemRange => true
  | .hdrEncode => false
  | .lzCompress => true
  | .lzDecompress => true
  | .shuffle => true
  | .unshuffle => true
  | .bitshuffle => true
  | .bitunshuffle => true
  | .deltaEncode => true
  | .deltaDecode => true
  | .truncPrec => true
  | .litFirst _ _ => false
  | .lit _ => false
  | .matchShortNear _ _ => false
  | .matchShortFar _ _ => false
  | .matchLongNear _ _ => false
  | .matchLongFar _ _ => false

/-- Whether a command uses the destination region (30_encoding.md R151). -/
def usesDst : Instr → Bool
  | .nop => false
  | .compress => true
  | .decompress => true
  | .chunkSizes => false
  | .getItemRange => true
  | .hdrEncode => true
  | .lzCompress => true
  | .lzDecompress => true
  | .shuffle => true
  | .unshuffle => true
  | .bitshuffle => true
  | .bitunshuffle => true
  | .deltaEncode => true
  | .deltaDecode => true
  | .truncPrec => true
  | .litFirst _ _ => false
  | .lit _ => false
  | .matchShortNear _ _ => false
  | .matchShortFar _ _ => false
  | .matchLongNear _ _ => false
  | .matchLongFar _ _ => false

/-- Whether a command uses the reference region: the delta commands with CFG.REF_BLOCK = 0 (30_encoding.md R151). -/
def usesRef (i : Instr) (p : Params) : Bool := (i == .deltaEncode || i == .deltaDecode) && !p.refBlock

/-- The region checks that come before every other check of a command, as the E_ARG number of the first that
fails: 0 for a used region that wraps, 1 for a destination that meets the source, 2 for one that meets the
reference (20_memory.md R108, R109; 60_exceptions.md R458). -/
def regionError (i : Instr) (p : Params) : Option Nat :=
  if (usesSrc i && !p.src.valid) || (usesDst i && !p.dst.valid) || (usesRef i p && !p.ref.valid) then some 0
  else if usesSrc i && usesDst i && p.dst.meets p.src then some 1
  else if usesRef i p && p.ref.meets p.dst then some 2
  else none

/-- Whether the running command accesses system memory at all: it uses a region, and its region checks pass
(20_memory.md R108; 60_exceptions.md R448). -/
def State.usesBus (s : State) : Bool :=
  match decodeCommand s.latched.opcode with
  | .ok i => (usesSrc i || usesDst i) && (regionError i s.latched).isNone
  | .error _ => false

/-- The latched registers name a command with a destination region, be it a valid one or not (30_encoding.md R151). -/
def Params.namesDst (p : Params) : Bool :=
  match decodeCommand p.opcode with
  | .ok i => usesDst i
  | .error _ => false

/-- Whether the latched command is one whose success may set STORED (40_header.md R230; 41_pipeline.md R277, R285,
R293). -/
def State.reportsStored (s : State) : Bool :=
  match decodeCommand s.latched.opcode with
  | .ok i => i == .compress || i == .decompress || i == .chunkSizes || i == .getItemRange
  | .error _ => false

/-- Whether an address lies in a region that a command reads (20_memory.md R101, R111). -/
def Params.readsAt (p : Params) (a : Nat) : Bool :=
  match decodeCommand p.opcode with
  | .ok i => (usesSrc i && p.src.holds a) || (usesRef i p && p.ref.holds a)
  | .error _ => false

/-- Whether an address lies in a command's destination region (20_memory.md R102, R111). -/
def Params.writesAt (p : Params) (a : Nat) : Bool := p.namesDst && p.dst.holds a

/-- Whether an address lies in one of a command's regions (20_memory.md R111). -/
def Params.holds (p : Params) (a : Nat) : Bool := p.readsAt a || p.writesAt a

/-! ## Writing the destination -/

/-- `dst[off .. off + len(v)) <- v` (00_scope.md R25). -/
def State.writeDst (s : State) (off : Nat) (v : List Byte) : State :=
  { s with mem := s.mem.writeBytes (s.latched.dst.base + off) v }

/-- The bytes `dst[off .. DST_CAP)` become unspecified, each a free value (log 8). -/
def State.unspecifyDstFrom (s : State) (off : Nat) : State :=
  { s with
    mem := s.mem.fill (s.latched.dst.base + off) (Config.freeByte s.free) (s.latched.dst.len - off)
    free := s.free + 1 }

/-- Every byte of the destination region becomes unspecified (60_exceptions.md R453). -/
def State.unspecifyDst (s : State) : State := s.unspecifyDstFrom 0

/-- The same, where the latched command names a destination region, although its region checks may fail: what an abort, a
reset or another agent's misuse of a region leaves of it (60_exceptions.md R452, 70_reset_and_hazards.md R501, 20_memory.md
R111). Of a region that runs past the last byte of memory only the bytes that exist are meant. -/
def State.unspecifyNamedDst (s : State) : State := if s.latched.namesDst then s.unspecifyDst else s

/-- Every byte of the destination of another command becomes unspecified, where it names one (20_memory.md R111). -/
def State.unspecifyDstOf (p : Params) (s : State) : State :=
  { s with
    mem := if p.namesDst then s.mem.fill p.dst.base (Config.freeByte s.free) p.dst.len else s.mem
    free := s.free + 1 }

/-! ## Completion and failure -/

/-- The RESULT registers of a success: the named values in order, every other register 0 (60_exceptions.md R451). -/
def Results.ofList (r : List Nat) : Results :=
  ⟨BitVec.ofNat 32 (r.getD 0 0), BitVec.ofNat 32 (r.getD 1 0), BitVec.ofNat 32 (r.getD 2 0),
   BitVec.ofNat 32 (r.getD 3 0), BitVec.ofNat 32 (r.getD 4 0), BitVec.ofNat 32 (r.getD 5 0),
   BitVec.ofNat 32 (r.getD 6 0), BitVec.ofNat 32 (r.getD 7 0), BitVec.ofNat 32 (r.getD 8 0)⟩

/-- `complete(r0, ..., rk)`, one atomic update (60_exceptions.md R451). -/
def complete (r : List Nat) (stored : Bool) (s : State) : State :=
  { s with
    results := Results.ofList r
    status := s.status.succeed stored
    seq := .idle
    dec := Decoder.idle }

/-- `raise E(info)`, one atomic update (60_exceptions.md R450): the error code, ERRINFO, ERR and DONE are written,
RESULT and STORED stay as START left them, and nothing else is saved or changed. -/
def raiseError (e : Err) (info : Nat) (s : State) : State :=
  { s with
    errInfo := BitVec.ofNat 32 info
    status := s.status.fail e
    seq := .idle
    dec := Decoder.idle }

/-- A failure that leaves the destination unspecified (60_exceptions.md R453). -/
def raiseUnspecified (e : Err) (info : Nat) (s : State) : State := raiseError e info s.unspecifyDst

/-- The first check of a list that fails, with its error and ERRINFO (60_exceptions.md R458). -/
def firstFailing : List (Bool × Err × Nat) → Option (Err × Nat)
  | [] => none
  | (fails, e, info) :: rest => if fails then some (e, info) else firstFailing rest

/-- What a step of the machine answers. -/
abbrev Step := Host.Outcome State Fault Refusal

/-- A command's own part, run after its region checks (60_exceptions.md R458 items 2 and 3). -/
def afterRegions (i : Instr) (s : State) (own : Step) : Step :=
  match regionError i s.latched with
  | some n => .next (raiseError .arg n s)
  | none => own

/-- A command's own part, run after its own argument checks in the order its rule lists them
(60_exceptions.md R458 item 4). -/
def afterChecks (checks : List (Bool × Err × Nat)) (s : State) (own : Step) : Step :=
  match firstFailing checks with
  | some (e, info) => .next (raiseError e info s)
  | none => own

/-! ## START, ABORT and reset -/

/-- The START action while IDLE (10_state.md R34): latch the parameter registers, clear the results and flags, set
BUSY; it also clears ABORT_REQ (R46). The command owns its regions from here on, and one before it whose end no one has
observed goes on owning its own (20_memory.md R111, log 11). -/
def startCommand (s : State) : State :=
  { s with
    latched := s.regs
    status := Status.clear
    results := Results.zero
    errInfo := 0
    seq := .busy
    abortReq := false
    dec := Decoder.idle
    abortPassed := false
    owned := true
    unobserved := if s.owned then s.latched :: s.unobserved else []
    rejected := false
    misused := false
    hung := false }

/-- Reset (70_reset_and_hazards.md R500, R501): every piece of engine state takes its reset value. System memory is
unchanged, except that a reset during BUSY leaves the ended command's destination region unspecified. The outside
world's own fields and the counter of free values stay. It ends the ownership of regions: a host that cannot wait for an
end resets the engine (R502, R518; log 11). -/
def resetEngine (s : State) : State :=
  let ended := if s.seq = .busy then s.unspecifyNamedDst else s
  { State.reset with
    mem := ended.mem
    host := s.host
    rdata := s.rdata
    free := ended.free }

/-! ## Outcomes the spec leaves open -/

/-- The error that a free outcome number stands for (log 11). -/
def freeErr : Nat → Option Err
  | 0 => none
  | 1 => some .short
  | 2 => some .header
  | 3 => some .destSmall
  | 4 => some .unsupported
  | 5 => some .truncated
  | 6 => some .arg
  | 7 => some .badCmd
  | _ => some .aborted

/-- RESULT0 .. RESULT8, each any value (20_memory.md R111). -/
def freeResults (n : Nat) : Results :=
  ⟨Config.freeWord n 0, Config.freeWord n 1, Config.freeWord n 2, Config.freeWord n 3, Config.freeWord n 4,
   Config.freeWord n 5, Config.freeWord n 6, Config.freeWord n 7, Config.freeWord n 8⟩

/-- The flags of an outcome that is any outcome: success with this STORED, or any error (20_memory.md R111). -/
def freeStatus (n : Nat) (stored : Bool) : Status :=
  match freeErr (Config.freeOutcome n) with
  | none => Status.clear.succeed stored
  | some e => Status.clear.fail e

/-- What another agent's write into the regions of a command that has ended leaves of its outcome (20_memory.md R111), and
a rejected access of one that runs (R120): success or any error, the RESULT registers, ERRINFO and every destination byte
are any value. DONE, STORED and SEQ stay (log 11). -/
def State.unspecifyOutcome (s : State) : State :=
  { s.unspecifyNamedDst with
    results := freeResults s.free
    errInfo := Config.freeWord s.free 9
    status := { freeStatus s.free false with done := s.status.done, stored := s.status.stored }
    free := s.free + 2 }

/-- The completion of a command one of whose accesses the bus has rejected (20_memory.md R120): any outcome, with STORED
open where the command's success has one (log 17). -/
def finishUnspecified (s : State) : State :=
  { s.unspecifyOutcome with
    status := freeStatus s.free (s.reportsStored && Config.freeFlag s.free)
    seq := .idle
    dec := Decoder.idle }

/-- E_ABORTED (60_exceptions.md R452, R453): ERRINFO 0, every destination byte unspecified. The counter moves on even
where no destination is owned, so that a later ABORT has a free choice of its own (log 9). -/
def finishAborted (s : State) : State := raiseError .aborted 0 { s.unspecifyNamedDst with free := s.free + 1 }

/-- What a misuse of the running command's regions that raises no error leaves open once the command has ended: every
destination byte, and the RESULT registers of a success (70_reset_and_hazards.md R512; 92_eei_decisions.md D50;
log 11). -/
def State.afterMisuse (s : State) : State :=
  { s.unspecifyNamedDst with
    results := if s.status.err then s.results else freeResults s.free
    free := s.free + 1 }

end Sys2Proof.Machine
end

