-- ==== Sys2Proof/Machine/Filters.lean ====
section
/-! DEFINITION. The filter unit: the filter functions and the seven raw filter commands (42_filters.md). -/

namespace Sys2Proof.Machine

/-! ## The filter functions (42_filters.md R354: pure functions of element size and input) -/

/-- `shuffle(ts, x)` (42_filters.md R320): byte k of element i goes to k·N + i; the tail stays. -/
def shuffle (ts : Nat) (x : List Byte) : List Byte :=
  let n := x.length / ts
  (List.range x.length).map fun t =>
    if t < n * ts then byteAt x (t % n * ts + t / n) else byteAt x t

/-- `unshuffle(ts, x)` (42_filters.md R323): byte k·N + i goes to i·ts + k; the tail stays. -/
def unshuffle (ts : Nat) (x : List Byte) : List Byte :=
  let n := x.length / ts
  (List.range x.length).map fun t =>
    if t < n * ts then byteAt x (t % ts * n + t / ts) else byteAt x t

/-- `bitshuffle(ts, x)` (42_filters.md R330): bit q of element i goes to bit q·N + i; the tail stays. -/
def bitshuffle (ts : Nat) (x : List Byte) : List Byte :=
  let n := x.length / ts
  (List.range x.length).map fun t =>
    if t < n * ts then
      byteOfBits fun b => bitAt x ((8 * t + b) % n * (8 * ts) + (8 * t + b) / n)
    else byteAt x t

/-- `bitunshuffle(ts, x)` (42_filters.md R332): bit q·N + i goes to bit q of element i; the tail stays. -/
def bitunshuffle (ts : Nat) (x : List Byte) : List Byte :=
  let n := x.length / ts
  (List.range x.length).map fun t =>
    if t < n * ts then
      byteOfBits fun b => bitAt x ((8 * t + b) % (8 * ts) * n + (8 * t + b) / (8 * ts))
    else byteAt x t

/-- The bytes of the largest run of whole elements whose count is a multiple of 8 (42_filters.md R335). -/
def alignedBytes (ts : Nat) (x : List Byte) : Nat := (x.length / ts - x.length / ts % 8) * ts

/-- `bitshuffle_prefix(ts, x)` (42_filters.md R335). -/
def bitshuffleAligned (ts : Nat) (x : List Byte) : List Byte :=
  bitshuffle ts (x.take (alignedBytes ts x)) ++ x.drop (alignedBytes ts x)

/-- `bitunshuffle_prefix(ts, x)` (42_filters.md R336). -/
def bitunshuffleAligned (ts : Nat) (x : List Byte) : List Byte :=
  bitunshuffle ts (x.take (alignedBytes ts x)) ++ x.drop (alignedBytes ts x)

/-- `dw(ts)`, the byte distance of the previous element (42_filters.md R340). -/
def deltaWidth (ts : Nat) : Nat :=
  if ts = 1 ∨ ts = 2 ∨ ts = 4 ∨ ts = 8 then ts else if ts % 8 = 0 ∧ 8 < ts then 8 else 1

/-- `delta_ref(ts, x)` (42_filters.md R340): each byte against the source byte w back. -/
def deltaRef (ts : Nat) (x : List Byte) : List Byte :=
  (List.range x.length).map fun b =>
    byteAt x b ^^^ (if deltaWidth ts ≤ b then byteAt x (b - deltaWidth ts) else 0)

/-- `delta_xor(x, R)` (42_filters.md R340). -/
def deltaXor (x r : List Byte) : List Byte :=
  (List.range x.length).map fun b => byteAt x b ^^^ byteAt r b

/-- The loop of `undelta_ref`: each byte against the already decoded byte w back. -/
def undeltaLoop (w : Nat) : List Byte → List Byte → List Byte
  | [], out => out
  | b :: rest, out =>
    undeltaLoop w rest (out ++ [b ^^^ (if w ≤ out.length then byteAt out (out.length - w) else 0)])

/-- `undelta_ref(ts, x)` (42_filters.md R341). -/
def undeltaRef (ts : Nat) (x : List Byte) : List Byte := undeltaLoop (deltaWidth ts) x []

/-- M, the width of the fraction of a 4- or 8-byte float (42_filters.md R350). -/
def fractionBits (ts : Nat) : Option Nat := if ts = 4 then some 23 else if ts = 8 then some 52 else none

/-- z, the number of low bits that a precision parameter clears (42_filters.md R350). -/
def clearedBits (m : Nat) (p : Int) : Nat := if 0 ≤ p then m - p.toNat else (-p).toNat

/-- `trunc_ok(ts, p)` (42_filters.md R350). -/
def truncOk (ts : Nat) (p : Int) : Bool :=
  match fractionBits ts with
  | none => false
  | some m => decide (p.natAbs ≤ m) && decide (clearedBits m p < m)

/-- `trunc_prec(ts, x, p)` (42_filters.md R350): the low z bits of every little-endian element are cleared; the
tail stays. It is called only where `trunc_ok` holds. -/
def truncPrec (ts : Nat) (p : Int) (x : List Byte) : List Byte :=
  let n := x.length / ts
  let z := clearedBits ((fractionBits ts).getD 0) p
  (List.range x.length).map fun t =>
    if t < n * ts then
      byteAt (leBytes ts ((leNat (slice x (t / ts * ts) ts) >>> z) <<< z)) (t % ts)
    else byteAt x t

/-! ## The raw filter commands -/

/-- The filter command frame (42_filters.md R321): the shared checks around the command's own ones, then the
filtered source to the destination. The source block stands in BUF_A and its image in BUF_B (10_state.md R48). -/
def filterCommand (i : Instr) (own : List (Bool × Err × Nat)) (f : List Byte → List Byte) (s : State) : Step :=
  let n := s.latched.src.len
  afterRegions i s <|
    afterChecks
      ([(decide (Config.maxBlockSize < n), .arg, 5)] ++ own ++ [(decide (s.latched.dst.len < n), .destSmall, 0)]) s <|
      let x := s.srcBytes
      let y := f x
      .next (complete [n] false ({ s with work := { s.work with bufA := x, bufB := y } }.writeDst 0 y))

/-- The check `ts = 0` of the frame, E_ARG(4) (42_filters.md R321). -/
def typesizeCheck (s : State) : Bool × Err × Nat := (decide (s.latched.typesize = 0), .arg, 4)

/-- The element-count check of the raw bit shuffles, E_ARG(7) (42_filters.md R333). -/
def octetCheck (s : State) : Bool × Err × Nat :=
  (decide (s.latched.src.len / s.latched.typesize % 8 ≠ 0), .arg, 7)

/-- SHUFFLE (42_filters.md R321). -/
def execShuffle (s : State) : Step :=
  filterCommand .shuffle [typesizeCheck s] (shuffle s.latched.typesize) s

/-- UNSHUFFLE (42_filters.md R322). -/
def execUnshuffle (s : State) : Step :=
  filterCommand .unshuffle [typesizeCheck s] (unshuffle s.latched.typesize) s

/-- BITSHUFFLE (42_filters.md R333). -/
def execBitshuffle (s : State) : Step :=
  filterCommand .bitshuffle [typesizeCheck s, octetCheck s] (bitshuffle s.latched.typesize) s

/-- BITUNSHUFFLE (42_filters.md R334). -/
def execBitunshuffle (s : State) : Step :=
  filterCommand .bitunshuffle [typesizeCheck s, octetCheck s] (bitunshuffle s.latched.typesize) s

/-- DELTA_ENCODE (42_filters.md R343): against the previous element, or against the reference region. -/
def execDeltaEncode (s : State) : Step :=
  filterCommand .deltaEncode [typesizeCheck s]
    (fun x => if s.latched.refBlock then deltaRef s.latched.typesize x else deltaXor x s.refBytes) s

/-- DELTA_DECODE (42_filters.md R344). -/
def execDeltaDecode (s : State) : Step :=
  filterCommand .deltaDecode [typesizeCheck s]
    (fun x => if s.latched.refBlock then undeltaRef s.latched.typesize x else deltaXor x s.refBytes) s

/-- TRUNC_PREC (42_filters.md R352): its own checks of the element size and of the parameter are both E_ARG(8). -/
def execTruncPrec (s : State) : Step :=
  filterCommand .truncPrec
    [(decide (s.latched.typesize ≠ 4 ∧ s.latched.typesize ≠ 8), .arg, 8),
     (!truncOk s.latched.typesize s.latched.precision, .arg, 8)]
    (truncPrec s.latched.typesize s.latched.precision) s

end Sys2Proof.Machine
end

