-- ==== Sys2Proof/Machine/Header.lean ====
section
/-! DEFINITION. The chunk header codec and its two commands, CHUNK_SIZES and HDR_ENCODE (40_header.md). -/

namespace Sys2Proof.Machine

/-- The header record (40_header.md R220). For a minimal header the slots, `cmeta`, `b30` and `xflags` are absent
and held as 0, which is what any rule that reports them reports. -/
structure Header where
  /-- H, the header length. -/
  hlen : Nat
  version : Byte
  fmtver : Byte
  flags : Byte
  ts : Byte
  nbytes : Nat
  bs : Nat
  cbytes : Nat
  ext : Bool
  stored : Bool
  codec : Byte
  fcode : List Byte
  cmeta : Byte
  fmeta : List Byte
  b30 : Byte
  xflags : Byte
deriving DecidableEq, Repr

/-- The extended-header marker: flags bits 0 and 2 both 1 (30_encoding.md R157). -/
def extendedMarker (flags : Byte) : Bool := flags.getLsbD 0 && flags.getLsbD 2

/-- The checks of a header's fields, in order, for `len` available bytes (40_header.md R221 to R227). -/
def headerChecks (b : List Byte) (len : Nat) : List (Bool × Err × Nat) :=
  let version := byteAt b 0
  let ts := byteAt b 3
  let nbytes := le32 b 4
  let bs := le32 b 8
  let cbytes := le32 b 12
  let ext := extendedMarker (byteAt b 2)
  [(decide (len < Config.hdrMin), .short, 0),
   (decide (version ≠ 2 ∧ version ≠ 3), .header, 0),
   (decide (cbytes < Config.hdrMin), .header, 0),
   (decide (0 < nbytes ∧ (bs = 0 ∨ nbytes < bs)), .header, 0),
   (decide (Config.maxBlockSize < bs), .header, 0),
   (decide (ts = 0 ∧ 0 < nbytes), .header, 0),
   (ext && decide (len < Config.hdrExt), .short, 0),
   (ext && decide (cbytes < Config.hdrExt), .header, 0)]

/-- The record of a header whose checks pass (40_header.md R220, R221). -/
def parseHeader (b : List Byte) : Header :=
  let flags := byteAt b 2
  let ext := extendedMarker flags
  { hlen := if ext then Config.hdrExt else Config.hdrMin
    version := byteAt b 0
    fmtver := byteAt b 1
    flags := flags
    ts := byteAt b 3
    nbytes := le32 b 4
    bs := le32 b 8
    cbytes := le32 b 12
    ext := ext
    stored := flags.getLsbD 1
    codec := if ext then byteAt b 22 else (flags.extractLsb' 5 3).setWidth 8
    fcode := if ext then (List.range 6).map (fun k => byteAt b (16 + k)) else List.replicate 6 0
    cmeta := if ext then byteAt b 23 else 0
    fmeta := if ext then (List.range 6).map (fun k => byteAt b (24 + k)) else List.replicate 6 0
    b30 := if ext then byteAt b 30 else 0
    xflags := if ext then byteAt b 31 else 0 }

/-- `decode_header(b, len)` (40_header.md R221): `b` holds the bytes at hand, `len` says how many the region has. -/
def decodeHeader (b : List Byte) (len : Nat) : Except (Err × Nat) Header :=
  match firstFailing (headerChecks b len) with
  | some e => .error e
  | none => .ok (parseHeader b)

/-- The header of the chunk in the source region; at most its first 32 bytes are read (40_header.md R221). -/
def State.sourceHeader (s : State) : Except (Err × Nat) Header :=
  decodeHeader (s.mem.readBytes s.latched.src.base (min Config.hdrExt s.latched.src.len)) s.latched.src.len

/-- The parameters of encode_header (40_header.md R229). -/
structure HeaderParams where
  ext : Bool
  stored : Bool
  ts : Byte
  nbytes : Nat
  bs : Nat
  cbytes : Nat
  shuf : Bool
  bshuf : Bool
  delta : Bool
  fcode : List Byte
  fmeta : List Byte
deriving DecidableEq, Repr

/-- The length of the header that encode_header writes (40_header.md R229). -/
def HeaderParams.hlen (p : HeaderParams) : Nat := if p.ext then Config.hdrExt else Config.hdrMin

/-- The flags byte that encode_header writes (40_header.md R229): the extended marker, or no filter for a stored
chunk, or the three filter flags; and the stored flag. -/
def HeaderParams.flags (p : HeaderParams) : Byte :=
  let filters : Byte :=
    if p.ext then 0x05
    else if p.stored then 0x00
    else (0 : BitVec 4) ++ BitVec.ofBool p.delta ++ BitVec.ofBool p.bshuf ++ (0 : BitVec 1) ++ BitVec.ofBool p.shuf
  filters ||| (if p.stored then 0x02 else 0x00)

/-- A slot byte as encode_header writes it: cleared in a stored chunk (40_header.md R229). -/
def HeaderParams.slot (p : HeaderParams) (slots : List Byte) (k : Nat) : Byte :=
  if p.stored then 0 else byteAt slots k

/-- `encode_header(p)` (40_header.md R229). -/
def encodeHeader (p : HeaderParams) : List Byte :=
  [if p.ext then 3 else 2, 1, p.flags, p.ts] ++ le32Bytes p.nbytes ++ le32Bytes p.bs ++ le32Bytes p.cbytes ++
    (if p.ext then
      (List.range 6).map (p.slot p.fcode) ++ [0, 0] ++ (List.range 6).map (p.slot p.fmeta) ++ [0, 0]
     else [])

/-- `valid_params(p)` (40_header.md R234): the header would pass the field checks of R221. -/
def HeaderParams.valid (p : HeaderParams) : Bool :=
  decide (p.hlen ≤ p.cbytes) && decide (p.bs ≤ Config.maxBlockSize)
    && decide (p.nbytes = 0 ∨ (0 < p.bs ∧ p.bs ≤ p.nbytes)) && decide (p.ts ≠ 0 ∨ p.nbytes = 0)

/-- The values CHUNK_SIZES returns (40_header.md R230). -/
def headerResults (h : Header) : List Nat :=
  [h.nbytes, h.cbytes, h.bs, leNat [h.version, h.fmtver, h.flags, h.ts], h.hlen,
   leNat (h.fcode.take 4), leNat (h.fcode.drop 4 ++ [h.codec, h.cmeta]),
   leNat (h.fmeta.take 4), leNat (h.fmeta.drop 4 ++ [h.b30, h.xflags])]

/-- CHUNK_SIZES (40_header.md R230). -/
def execChunkSizes (s : State) : Step :=
  afterRegions .chunkSizes s <|
    match s.sourceHeader with
    | .error (e, info) => .next (raiseError e info s)
    | .ok h => .next (complete (headerResults h) h.stored s)

/-- The record that HDR_ENCODE encodes, from the latched registers (40_header.md R233). -/
def Params.headerParams (p : Params) : HeaderParams where
  ext := p.extHdr
  stored := p.storedArg
  ts := p.typesizeByte
  nbytes := p.srcLen.toNat
  bs := p.bsize.toNat
  cbytes := p.arg1.toNat
  shuf := p.shuf
  bshuf := p.bshuf
  delta := p.delta
  fcode := p.fcode
  fmeta := p.fmeta

/-- HDR_ENCODE (40_header.md R233, R234). -/
def execHdrEncode (s : State) : Step :=
  let p := s.latched.headerParams
  afterRegions .hdrEncode s <|
    afterChecks
      [(!p.ext && p.shuf && p.bshuf, .arg, 9),
       (!p.valid, .arg, 10),
       (decide (s.latched.dst.len < p.hlen), .destSmall, 0)] s <|
      .next (complete [p.hlen] false (s.writeDst 0 (encodeHeader p)))

end Sys2Proof.Machine
end

