-- ==== Sys2Proof/Machine/Lz.lean ====
section
/-! DEFINITION. The LZ codec: match finder, token encoder, token decoder, the two codec commands and the six token
forms (43_lz_codec.md). -/

namespace Sys2Proof.Machine

/-! ## Match finder -/

/-- The candidate position of an entry, none for EMPTY (10_state.md R47). -/
def HashTable.find : HashTable → Nat → Option Nat
  | [], _ => none
  | (k, p) :: rest, h => if k = h then some p else HashTable.find rest h

/-- `HT[h] <- p` (43_lz_codec.md R384). -/
def HashTable.set : HashTable → Nat → Nat → HashTable
  | [], h, p => [(h, p)]
  | (k, q) :: rest, h, p =>
    if h < k then (h, p) :: (k, q) :: rest
    else if k = h then (h, p) :: rest
    else (k, q) :: HashTable.set rest h p

/-- The hash of the 4 bytes at a position (43_lz_codec.md R380). -/
def hashAt (e : Nat) (inp : List Byte) (p : Nat) : Nat :=
  (le32 inp p * Config.hashMul % 4294967296) >>> (32 - Config.hashLog e)

/-- `cost(L, d)`, the byte length of a match token (43_lz_codec.md R387). -/
def matchCost (len dist : Nat) : Nat :=
  2 + (if len ≤ 9 then 0 else 1 + (len - 10) / 255) + (if Config.nearLimit ≤ dist - 1 then 2 else 0)

/-- The match the encoder takes at `p` for a candidate: usable (43_lz_codec.md R385), extended byte by byte, and
cheaper than the literals it replaces (R387). The answer is its length and distance. -/
def usableMatch (inp : List Byte) (candidate : Option Nat) (p : Nat) : Option (Nat × Nat) :=
  match candidate with
  | none => none
  | some c =>
    if p - c ≤ Config.maxDist ∧ slice inp c 4 = slice inp p 4 then
      let len := commonHead (inp.drop c) (inp.drop p)
      if matchCost len (p - c) < len then some (len, p - c) else none
    else none

/-! ## Token encoder -/

/-- The match token of a length and a distance (43_lz_codec.md R390). -/
def matchToken (len dist : Nat) : Instr :=
  if len ≤ 9 then
    if dist - 1 < Config.nearLimit then .matchShortNear (BitVec.ofNat 3 (len - 3)) (BitVec.ofNat 13 (dist - 1))
    else .matchShortFar (BitVec.ofNat 3 (len - 3)) (BitVec.ofNat 16 (dist - 1 - Config.nearLimit))
  else
    if dist - 1 < Config.nearLimit then .matchLongNear (len - 10) (BitVec.ofNat 13 (dist - 1))
    else .matchLongFar (len - 10) (BitVec.ofNat 16 (dist - 1 - Config.nearLimit))

/-- Splits pending literals into runs of 32, the last one shorter (43_lz_codec.md R389). The first argument bounds
the number of runs. -/
def literalRuns : Nat → List Byte → List (List Byte)
  | 0, _ => []
  | n + 1, lits => if lits = [] then [] else lits.take 32 :: literalRuns n (lits.drop 32)

/-- The tokens of literal runs; the first token of a stream carries the marker 001 (43_lz_codec.md R389,
30_encoding.md R172). -/
def literalTokens : Bool → List (List Byte) → List Instr
  | _, [] => []
  | first, run :: rest => (if first then .litFirst 1 run else .lit run) :: literalTokens false rest

/-- What the encoder holds at a position: the tokens it has emitted, the pending literals, and HT. -/
structure Encoder where
  tokens : List Instr
  lits : List Byte
  ht : HashTable
deriving DecidableEq, Repr

/-- `flush_literals()` (43_lz_codec.md R389): the stream's first token is the one emitted when none is before it. -/
def Encoder.flush (s : Encoder) : Encoder :=
  { s with tokens := s.tokens ++ literalTokens s.tokens.isEmpty (literalRuns s.lits.length s.lits), lits := [] }

/-- The encoder's loop from position `p` (43_lz_codec.md R381). Each round advances p by at least 1, so `fuel`
rounds from p reach the end of an input of at most p + `fuel` bytes. -/
def encodeLoop (e : Nat) (inp : List Byte) : Nat → Nat → Encoder → Encoder
  | 0, _, s => s
  | fuel + 1, p, s =>
    if p < inp.length then
      if p + 4 ≤ inp.length then
        let h := hashAt e inp p
        let ht := s.ht.set h p
        match usableMatch inp (s.ht.find h) p with
        | some (len, dist) =>
          encodeLoop e inp fuel (p + len)
            { s.flush with tokens := s.flush.tokens ++ [matchToken len dist], ht := ht }
        | none => encodeLoop e inp fuel (p + 1) { s with lits := s.lits ++ [byteAt inp p], ht := ht }
      else encodeLoop e inp fuel (p + 1) { s with lits := s.lits ++ [byteAt inp p] }
    else s

/-- The tokens of an input and the hash table the encoder leaves, HT starting EMPTY (43_lz_codec.md R381, R382). -/
def encodeTokens (e : Nat) (inp : List Byte) : Encoder := (encodeLoop e inp inp.length 0 ⟨[], [], []⟩).flush

/-- The bytes of a token sequence, with nothing before, between or after them (30_encoding.md section 3). -/
def streamBytes (tokens : List Instr) : List Byte := tokens.flatMap tokenBytes

/-- `lz_encode(in, cap, e)` (43_lz_codec.md R381, R391): the stream, or none for the return value 0; and HT as the
call leaves it. -/
def lzEncode (inp : List Byte) (cap e : Nat) (ht : HashTable) : Option (List Byte) × HashTable :=
  if e = 0 ∨ inp = [] then (none, ht)
  else
    let enc := encodeTokens e inp
    let out := streamBytes enc.tokens
    if cap < out.length ∨ inp.length ≤ out.length then (none, enc.ht) else (some out, enc.ht)

/-! ## Token decoder -/

/-- The match copy (43_lz_codec.md R405): `len` bytes one at a time, each from `dist` back in the output so far. -/
def copyMatch (dist : Nat) : Nat → List Byte → List Byte
  | 0, out => out
  | len + 1, out => copyMatch dist len (out ++ [byteAt out (out.length - dist)])

/-- The bytes a match appends to the output, none where it reaches before its start (43_lz_codec.md R404 case 6). -/
def matchOutput (len dist : Nat) (out : List Byte) : Option (List Byte) :=
  if out.length < dist then none else some ((copyMatch dist len out).drop out.length)

/-- The bytes a token appends to the output so far (43_lz_codec.md R420 to R425), none where it fails. A command is
no token and appends nothing. -/
def tokenOutput (i : Instr) (out : List Byte) : Option (List Byte) :=
  match i with
  | .nop => none
  | .compress => none
  | .decompress => none
  | .chunkSizes => none
  | .getItemRange => none
  | .hdrEncode => none
  | .lzCompress => none
  | .lzDecompress => none
  | .shuffle => none
  | .unshuffle => none
  | .bitshuffle => none
  | .bitunshuffle => none
  | .deltaEncode => none
  | .deltaDecode => none
  | .truncPrec => none
  | .litFirst _ lits => some lits
  | .lit lits => some lits
  | .matchShortNear l d => matchOutput (l.toNat + 3) (d.toNat + 1) out
  | .matchShortFar l x => matchOutput (l.toNat + 3) (8192 + x.toNat) out
  | .matchLongNear ext d => matchOutput (10 + ext) (d.toNat + 1) out
  | .matchLongFar ext x => matchOutput (10 + ext) (8192 + x.toNat) out

/-- The decoder's loop on a byte sequence (43_lz_codec.md R401): the output, or the offset of the failing token and
the output of the tokens before it (R406). A match past the capacity fails whatever an example of R412 shows (log 27).
Every token takes at least one byte, so `fuel` rounds decode `fuel` bytes. -/
def decodeLoop (cap : Nat) : Nat → Bool → Nat → List Byte → List Byte → Except (Nat × List Byte) (List Byte)
  | 0, _, _, _, out => .ok out
  | _ + 1, _, _, [], out => .ok out
  | fuel + 1, first, ip, b :: rest, out =>
    match decodeToken first (b :: rest) with
    | .error _ => .error (ip, out)
    | .ok (i, after) =>
      match tokenOutput i out with
      | none => .error (ip, out)
      | some new =>
        if cap < out.length + new.length then .error (ip, out)
        else decodeLoop cap fuel false (ip + tokenLength i) after (out ++ new)

/-- `lz_decode(in, cap)` (43_lz_codec.md R401). -/
def lzDecode (inp : List Byte) (cap : Nat) : Except (Nat × List Byte) (List Byte) :=
  decodeLoop cap inp.length true 0 inp []

/-! ## The codec commands -/

/-- LZ_COMPRESS (43_lz_codec.md R395). With r = 0 the whole destination is unspecified. -/
def execLzCompress (s : State) : Step :=
  afterRegions .lzCompress s <|
    afterChecks
      [(decide (Config.effortMax < s.latched.effort), .arg, 3),
       (decide (Config.maxBlockSize < s.latched.src.len), .arg, 5)] s <|
      let x := s.srcBytes
      match lzEncode x s.latched.dst.len s.latched.effort s.work.ht with
      | (some out, ht) =>
        .next (complete [out.length] false ({ s with work := { s.work with ht := ht, bufA := x } }.writeDst 0 out))
      | (none, ht) =>
        .next (complete [0] false ({ s with work := { s.work with ht := ht, bufA := x } }.unspecifyDst))

/-- LZ_DECOMPRESS (43_lz_codec.md R410): after the region checks the token decoder starts at ip = 0, op = 0 on the
source region, and the engine stays BUSY while the steps that follow execute one token each; the token that ends
at SRC_LEN completes the command, and a failing token fails it. An empty stream completes at once (R407). -/
def execLzDecompress (s : State) : Step :=
  afterRegions .lzDecompress s <|
    if s.latched.src.len = 0 then .next (complete [0] false s)
    else .next { s with dec := ⟨true, 0, 0, true⟩ }

/-! ## The tokens as instructions (43_lz_codec.md R371) -/

/-- The output of the tokens before this one, which the engine has written to dst and reads back from there
(43_lz_codec.md R410). -/
def State.decoded (s : State) : List Byte := s.mem.readBytes s.latched.dst.base s.dec.op

/-- The move past a token that appended `n` bytes (43_lz_codec.md R400). -/
def State.passToken (i : Instr) (n : Nat) (s : State) : State :=
  { s with dec := { s.dec with ip := s.dec.ip + tokenLength i, op := s.dec.op + n, first := false } }

/-- A token's effect: all its checks come before its first write (43_lz_codec.md R404, R406), then its bytes are
appended to dst, ip and op move on, and the end of the stream completes the command (R407, R410). A match past the
capacity fails whatever an example of R412 shows (log 27). -/
def runToken (i : Instr) (s : State) : Step :=
  if s.latched.src.valid && s.latched.dst.valid then
    match tokenOutput i s.decoded with
    | none => .next (raiseError .truncated s.dec.ip s)
    | some new =>
      if s.latched.src.len < s.dec.ip + tokenLength i ∨ s.latched.dst.len < s.dec.op + new.length then
        .next (raiseError .truncated s.dec.ip s)
      else
        let t := (s.writeDst s.dec.op new).passToken i new.length
        if t.dec.ip = s.latched.src.len then .next (complete [t.dec.op] false t) else .next t
  else .fault .outsideSystemMemory

/-- LIT_FIRST (43_lz_codec.md R420): the marker is ignored. -/
def execLitFirst (marker : BitVec 3) (lits : List Byte) (s : State) : Step := runToken (.litFirst marker lits) s

/-- LIT (43_lz_codec.md R421). -/
def execLit (lits : List Byte) (s : State) : Step := runToken (.lit lits) s

/-- MATCH_SHORT_NEAR (43_lz_codec.md R422). -/
def execMatchShortNear (l : BitVec 3) (d : BitVec 13) (s : State) : Step := runToken (.matchShortNear l d) s

/-- MATCH_SHORT_FAR (43_lz_codec.md R423). -/
def execMatchShortFar (l : BitVec 3) (x : BitVec 16) (s : State) : Step := runToken (.matchShortFar l x) s

/-- MATCH_LONG_NEAR (43_lz_codec.md R424). -/
def execMatchLongNear (ext : Nat) (d : BitVec 13) (s : State) : Step := runToken (.matchLongNear ext d) s

/-- MATCH_LONG_FAR (43_lz_codec.md R425). -/
def execMatchLongFar (ext : Nat) (x : BitVec 16) (s : State) : Step := runToken (.matchLongFar ext x) s

end Sys2Proof.Machine
end

