-- ==== Sys2Proof/Machine/Pipeline.lean ====
section
/-! DEFINITION. The block pipeline and framing controller: COMPRESS, DECOMPRESS, GET_ITEM_RANGE and NOP
(41_pipeline.md). -/

namespace Sys2Proof.Machine

/-! ## Pipelines -/

/-- A filter of a pipeline (30_encoding.md R164). -/
inductive Filter where
  | shuffle
  | bitshuffle
  | delta
  | truncPrec (precision : Int)
deriving DecidableEq, Repr

/-- The filter of a slot (30_encoding.md R164, R165): code 0 is no filter, and codes from 5 on are refused before a
pipeline runs. -/
def filterOf (code slotMeta : Byte) : Option Filter :=
  if code = 1 then some .shuffle
  else if code = 2 then some .bitshuffle
  else if code = 3 then some .delta
  else if code = 4 then some (.truncPrec (sext8 slotMeta))
  else none

/-- The pipeline of the six slots, in slot order (41_pipeline.md R262). -/
def slotPipeline (fcode fmeta : List Byte) : List Filter :=
  (fcode.zip fmeta).filterMap (fun c => filterOf c.1 c.2)

/-- The pipeline of a minimal header: delta first, then the shuffles (41_pipeline.md R262). -/
def flagPipeline (delta shuf bshuf : Bool) : List Filter :=
  (if delta then [.delta] else []) ++ (if shuf then [.shuffle] else []) ++ (if bshuf then [.bitshuffle] else [])

/-- The pipeline that COMPRESS takes from the latched configuration (41_pipeline.md R262). -/
def Params.pipeline (p : Params) : List Filter :=
  if p.extHdr then slotPipeline p.fcode p.fmeta else flagPipeline p.delta p.shuf p.bshuf

/-- The pipeline of a decoded header (41_pipeline.md R262). -/
def Header.pipeline (h : Header) : List Filter :=
  if h.ext then slotPipeline h.fcode h.fmeta
  else flagPipeline (h.flags.getLsbD 3) (h.flags.getLsbD 0) (h.flags.getLsbD 2)

/-- One forward filter on block `j`, with `r` the delta reference (41_pipeline.md R263). -/
def forwardFilter (ts j : Nat) (r x : List Byte) : Filter → List Byte
  | .shuffle => Machine.shuffle ts x
  | .bitshuffle => bitshuffleAligned ts x
  | .delta => if j = 0 then deltaRef ts x else deltaXor x r
  | .truncPrec p => Machine.truncPrec ts p x

/-- One inverse filter on block `j` (41_pipeline.md R264); truncation has no inverse (42_filters.md R351). -/
def inverseFilter (ts j : Nat) (r x : List Byte) : Filter → List Byte
  | .shuffle => unshuffle ts x
  | .bitshuffle => bitunshuffleAligned ts x
  | .delta => if j = 0 then undeltaRef ts x else deltaXor x r
  | .truncPrec _ => x

/-- `forward(F, ts, x, j, R)` (41_pipeline.md R263). -/
def forward (f : List Filter) (ts j : Nat) (r x : List Byte) : List Byte := f.foldl (forwardFilter ts j r) x

/-- `inverse(F, ts, x, j, R)` (41_pipeline.md R264): in reverse list order. -/
def inverse (f : List Filter) (ts j : Nat) (r x : List Byte) : List Byte :=
  f.reverse.foldl (inverseFilter ts j r) x

/-! ## Blocks -/

/-- Block `j` of a buffer (41_pipeline.md R261). -/
def blockBytes (bs : Nat) (b : List Byte) (j : Nat) : List Byte := slice b (j * bs) bs

/-- `bl_j` for a buffer of n bytes (41_pipeline.md R261). -/
def blockLength (n bs j : Nat) : Nat := min bs (n - j * bs)

/-- `block_size(e, ts, n, ovr)` (41_pipeline.md R267). -/
def blockSize (e ts n ovr : Nat) : Nat :=
  let b := min (min (if ovr ≠ 0 then ovr else Config.bsBase e * Config.bsTsMult ts) Config.maxBlockSize) n
  if ts ≤ b then b - b % ts else b

/-- The bytes of the block-offset table: present iff there is more than one block (30_encoding.md R158). -/
def tableLength (nb : Nat) : Nat := if 1 < nb then 4 * nb else 0

/-! ## COMPRESS -/

/-- The argument checks of COMPRESS, in order (41_pipeline.md R275). -/
def compressChecks (p : Params) : List (Bool × Err × Nat) :=
  [(decide (Config.effortMax < p.effort), .arg, 3),
   (decide (p.typesize = 0), .arg, 4),
   (decide (Config.maxNBytes < p.src.len), .arg, 5),
   (!p.extHdr && p.shuf && p.bshuf, .arg, 9)] ++
  (if p.extHdr then
    (p.fcode.zip p.fmeta).flatMap fun c =>
      [(decide (5 ≤ c.1.toNat), .unsupported, 0), (decide (c.1 = 4) && !truncOk p.typesize (sext8 c.2), .arg, 8)]
   else [])

/-- What COMPRESS has when it has coded some blocks: the table entries, the payloads, and the internal arrays. -/
structure Coded where
  starts : List Nat
  payload : List Byte
  work : Scratch
deriving DecidableEq, Repr

/-- The block loop of COMPRESS (41_pipeline.md R277) over the blocks that are left; `pos` is the chunk offset of the
first payload. BUF_A holds the block, BUF_B the filtered block, BUF_R the delta reference (10_state.md R48;
41_pipeline.md R265). A block that cannot be coded ends the loop (R270 condition 3). -/
def codeBlocks (f : List Filter) (ts e bs : Nat) (src : List Byte) (pos : Nat) :
    List Nat → Coded → Except Scratch Coded
  | [], c => .ok c
  | j :: js, c =>
    let x := blockBytes bs src j
    let y := forward f ts j c.work.bufR x
    let r := if j = 0 then inverse f ts 0 [] y else c.work.bufR
    match lzEncode y (y.length - 1) e c.work.ht with
    | (none, ht) => .error ⟨ht, x, y, r⟩
    | (some out, ht) =>
      codeBlocks f ts e bs src pos js
        ⟨c.starts ++ [pos + c.payload.length], c.payload ++ out, ⟨ht, x, y, r⟩⟩

/-- The chunk COMPRESS makes: whether it is stored, its bytes, RESULT1 and RESULT2, and the internal arrays. -/
structure Compressed where
  stored : Bool
  chunk : List Byte
  blocks : Nat
  bs : Nat
  work : Scratch
deriving DecidableEq, Repr

/-- The header parameters of COMPRESS (41_pipeline.md R277). -/
def chunkParams (p : Params) (n bs : Nat) (stored : Bool) (cbytes : Nat) : HeaderParams where
  ext := p.extHdr
  stored := stored
  ts := p.typesizeByte
  nbytes := n
  bs := bs
  cbytes := cbytes
  shuf := p.shuf
  bshuf := p.bshuf
  delta := p.delta
  fcode := p.fcode
  fmeta := p.fmeta

/-- The length of the header COMPRESS writes. -/
def Params.hlen (p : Params) : Nat := if p.extHdr then Config.hdrExt else Config.hdrMin

/-- The stored chunk (41_pipeline.md R271). -/
def storedChunk (p : Params) (src : List Byte) (bs : Nat) (work : Scratch) : Compressed where
  stored := true
  chunk := encodeHeader (chunkParams p src.length bs true (p.hlen + src.length)) ++ src
  blocks := 0
  bs := bs
  work := work

/-- The chunk of a source: coded, or stored by the conditions of 41_pipeline.md R270 (R277). -/
def compressChunk (p : Params) (src : List Byte) (work : Scratch) : Compressed :=
  let n := src.length
  let bs := blockSize p.effort p.typesize n p.bsize.toNat
  if p.effort = 0 ∨ n < Config.minBufferSize then storedChunk p src bs work
  else
    let nb := cdiv n bs
    let pos := p.hlen + tableLength nb
    match codeBlocks p.pipeline p.typesize p.effort bs src pos (List.range nb) ⟨[], [], work⟩ with
    | .error work' => storedChunk p src bs work'
    | .ok c =>
      let total := pos + c.payload.length
      if p.hlen + n ≤ total then storedChunk p src bs c.work
      else
        { stored := false
          chunk := encodeHeader (chunkParams p n bs false total) ++
            (if 1 < nb then c.starts.flatMap le32Bytes else []) ++ c.payload
          blocks := nb
          bs := bs
          work := c.work }

/-- COMPRESS (41_pipeline.md R277). After a success the bytes beyond the chunk are unspecified (R274); a coded chunk
that does not fit leaves the whole destination unspecified, a stored one leaves it unchanged (60_exceptions.md R453,
log 12). -/
def execCompress (s : State) : Step :=
  afterRegions .compress s <|
    afterChecks (compressChecks s.latched) s <|
      let r := compressChunk s.latched s.srcBytes s.work
      let t := { s with work := r.work }
      if s.latched.dst.len < r.chunk.length then
        .next (if r.stored then raiseError .destSmall 0 t else raiseUnspecified .destSmall 0 t)
      else
        .next (complete [r.chunk.length, r.blocks, r.bs] r.stored
          ((t.writeDst 0 r.chunk).unspecifyDstFrom r.chunk.length))

/-! ## DECOMPRESS and GET_ITEM_RANGE -/

/-- The checks of `check_supported(h)`, all skipped for a stored chunk (41_pipeline.md R286). -/
def supportChecks (h : Header) : List (Bool × Err × Nat) :=
  [(!h.stored && decide (h.codec ≠ 0 ∧ h.codec ∉ Config.extCodecs), .unsupported, 0),
   (!h.stored && h.ext && decide (h.xflags ≠ 0), .unsupported, 0),
   (!h.stored && h.ext && h.fcode.any (fun c => decide (5 ≤ c.toNat)), .unsupported, 0)]

/-- A block that does not decode: E_TRUNCATED (41_pipeline.md R289). Before the command's first write it leaves the
destination unchanged, once a block has been written it leaves it unspecified (92_eei_decisions.md D11; 60_exceptions.md
R453; the order of the writes is the pseudocode's, 20_memory.md R114; log 13). -/
def blockFailure (written : List Byte) (s : State) : State :=
  if written = [] then raiseError .truncated 0 s else raiseUnspecified .truncated 0 s

/-- `payload_map(h)` on the chunk's bytes (41_pipeline.md R288): the offsets of the payloads. -/
def payloadMap (h : Header) (chunk : List Byte) : Except (Err × Nat) (List Nat) :=
  let nb := cdiv h.nbytes h.bs
  let te := h.hlen + tableLength nb
  if h.cbytes < te then .error (.truncated, 0)
  else if nb = 1 then .ok [h.hlen]
  else
    let st := (List.range nb).map (fun j => le32 chunk (h.hlen + 4 * j))
    match firstFailing
      [(decide (st.getD 0 0 ≠ te), .header, 0),
       ((st.zip st.tail).any (fun c => decide (c.2 ≤ c.1)), .header, 0),
       (decide (h.cbytes < st.getD (nb - 1) 0), .truncated, 0)] with
    | some e => .error e
    | none => .ok st

/-- `src[starts[j] .. end_j)` (41_pipeline.md R288, R289). -/
def payloadBytes (h : Header) (chunk : List Byte) (starts : List Nat) (j : Nat) : List Byte :=
  let a := starts.getD j 0
  let z := if j + 1 < starts.length then starts.getD (j + 1) 0 else h.cbytes
  slice chunk a (z - a)

/-- `decode_block(h, F, starts, j, R)` (41_pipeline.md R289): the decoder's output and the block after its inverse
filters, none for E_TRUNCATED. -/
def decodeBlock (h : Header) (chunk : List Byte) (starts : List Nat) (j : Nat) (r : List Byte) :
    Option (List Byte × List Byte) :=
  match lzDecode (payloadBytes h chunk starts j) (blockLength h.nbytes h.bs j) with
  | .error _ => none
  | .ok x =>
    if x.length = blockLength h.nbytes h.bs j then some (x, inverse h.pipeline h.ts.toNat j r x) else none

/-- The block loop of DECOMPRESS (41_pipeline.md R285, R290): BUF_A holds the decoder's output, BUF_B the block after
its inverse filters, BUF_R the final bytes of block 0. Where a block fails, the answer is what was written before. -/
def decodeBlocks (h : Header) (chunk : List Byte) (starts : List Nat) :
    List Nat → Scratch → List Byte → Except (List Byte) (Scratch × List Byte)
  | [], w, out => .ok (w, out)
  | j :: js, w, out =>
    match decodeBlock h chunk starts j w.bufR with
    | none => .error out
    | some (x, y) =>
      decodeBlocks h chunk starts js ⟨w.ht, x, y, if j = 0 then y else w.bufR⟩ (out ++ y)

/-- `stored_copy(h, a, c)` (41_pipeline.md R287), with the completion that follows it. -/
def storedCopy (h : Header) (a c : Nat) (s : State) : Step :=
  if h.cbytes ≠ h.hlen + h.nbytes then .next (raiseError .header 0 s)
  else
    .next (complete [c - a] true
      (s.writeDst 0 (s.mem.readBytes (s.latched.src.base + h.hlen + a) (c - a))))

/-- DECOMPRESS (41_pipeline.md R285). ERRINFO holds the number of an E_ARG, and 0 for every other error (log 26). -/
def execDecompress (s : State) : Step :=
  afterRegions .decompress s <|
    match s.sourceHeader with
    | .error (e, info) => .next (raiseError e info s)
    | .ok h =>
      if s.latched.src.len < h.cbytes then .next (raiseError .truncated 0 s)
      else
        afterChecks (supportChecks h ++ [(decide (s.latched.dst.len < h.nbytes), .destSmall, 0)]) s <|
          if h.stored then storedCopy h 0 h.nbytes s
          else if h.nbytes = 0 then .next (complete [0] false s)
          else
            let chunk := s.mem.readBytes s.latched.src.base h.cbytes
            match payloadMap h chunk with
            | .error (e, info) => .next (raiseError e info s)
            | .ok starts =>
              match decodeBlocks h chunk starts (List.range (cdiv h.nbytes h.bs)) s.work [] with
              | .error written => .next (blockFailure written s)
              | .ok (work, out) => .next (complete [h.nbytes] false ({ s with work := work }.writeDst 0 out))

/-- Whether a pipeline has a delta step (41_pipeline.md R293). -/
def hasDelta (f : List Filter) : Bool := f.any (fun c => decide (c = .delta))

/-- The part of block `j` that lies in the byte range [a, z) (41_pipeline.md R293). -/
def rangePart (h : Header) (a z j : Nat) (x : List Byte) : List Byte :=
  let lo := max a (j * h.bs)
  let hi := min z (j * h.bs + blockLength h.nbytes h.bs j)
  slice x (lo - j * h.bs) (hi - lo)

/-- The block loop of GET_ITEM_RANGE (41_pipeline.md R293): block 0 is taken from BUF_R where it was decoded there as
the delta reference (R295). Where a block fails, the answer is what was written before. -/
def decodeRange (h : Header) (chunk : List Byte) (starts : List Nat) (a z : Nat) :
    List Nat → Scratch → List Byte → Except (List Byte) (Scratch × List Byte)
  | [], w, out => .ok (w, out)
  | j :: js, w, out =>
    if j = 0 ∧ hasDelta h.pipeline then
      decodeRange h chunk starts a z js w (out ++ rangePart h a z j w.bufR)
    else
      match decodeBlock h chunk starts j w.bufR with
      | none => .error out
      | some (x, y) => decodeRange h chunk starts a z js ⟨w.ht, x, y, w.bufR⟩ (out ++ rangePart h a z j y)

/-- Block 0 into BUF_R first, where the pipeline has a delta step (41_pipeline.md R295). -/
def decodeReference (h : Header) (chunk : List Byte) (starts : List Nat) (w : Scratch) : Option Scratch :=
  if hasDelta h.pipeline then
    match decodeBlock h chunk starts 0 [] with
    | none => none
    | some (x, y) => some ⟨w.ht, x, y, y⟩
  else some w

/-- The blocks that overlap the byte range [a, z), in increasing order (41_pipeline.md R295). -/
def rangeBlocks (bs a z : Nat) : List Nat := (List.range ((z - 1) / bs + 1 - a / bs)).map (fun k => a / bs + k)

/-- GET_ITEM_RANGE (41_pipeline.md R293). ERRINFO holds the number of an E_ARG, and 0 for every other error (log 26). -/
def execGetItemRange (s : State) : Step :=
  afterRegions .getItemRange s <|
    match s.sourceHeader with
    | .error (e, info) => .next (raiseError e info s)
    | .ok h =>
      if s.latched.src.len < h.cbytes then .next (raiseError .truncated 0 s)
      else
        let a := s.latched.arg0.toNat * h.ts.toNat
        let z := (s.latched.arg0.toNat + s.latched.arg1.toNat) * h.ts.toNat
        afterChecks
          (supportChecks h ++
            [(decide (h.nbytes < z), .arg, 6), (decide (s.latched.dst.len < z - a), .destSmall, 0)]) s <|
          if h.stored then storedCopy h a z s
          else if z = a then .next (complete [0] false s)
          else
            let chunk := s.mem.readBytes s.latched.src.base h.cbytes
            match payloadMap h chunk with
            | .error (e, info) => .next (raiseError e info s)
            | .ok starts =>
              match decodeReference h chunk starts s.work with
              | none => .next (blockFailure [] s)
              | some work =>
                match decodeRange h chunk starts a z (rangeBlocks h.bs a z) work [] with
                | .error written => .next (blockFailure written s)
                | .ok (work', out) =>
                  .next (complete [z - a] false ({ s with work := work' }.writeDst 0 out))

/-! ## NOP -/

/-- NOP (41_pipeline.md R300): it has no operands, uses no region and completes. -/
def execNop (s : State) : Step := .next (complete [] false s)

end Sys2Proof.Machine
end

