-- ==== Sys2Proof/Machine/Dispatch.lean ====
section
/-! DEFINITION. Which meaning each instruction has: one arm per constructor of `Instr`. -/

namespace Sys2Proof.Machine

def exec (i : Instr) (s : State) : Host.Outcome State Fault Refusal :=
  match i with
  -- the commands (30_encoding.md R150)
  | .nop => Sys2Proof.Machine.execNop s
  | .compress => Sys2Proof.Machine.execCompress s
  | .decompress => Sys2Proof.Machine.execDecompress s
  | .chunkSizes => Sys2Proof.Machine.execChunkSizes s
  | .getItemRange => Sys2Proof.Machine.execGetItemRange s
  | .hdrEncode => Sys2Proof.Machine.execHdrEncode s
  | .lzCompress => Sys2Proof.Machine.execLzCompress s
  | .lzDecompress => Sys2Proof.Machine.execLzDecompress s
  | .shuffle => Sys2Proof.Machine.execShuffle s
  | .unshuffle => Sys2Proof.Machine.execUnshuffle s
  | .bitshuffle => Sys2Proof.Machine.execBitshuffle s
  | .bitunshuffle => Sys2Proof.Machine.execBitunshuffle s
  | .deltaEncode => Sys2Proof.Machine.execDeltaEncode s
  | .deltaDecode => Sys2Proof.Machine.execDeltaDecode s
  | .truncPrec => Sys2Proof.Machine.execTruncPrec s
  -- the token forms (30_encoding.md R170)
  | .litFirst marker lits => Sys2Proof.Machine.execLitFirst marker lits s
  | .lit lits => Sys2Proof.Machine.execLit lits s
  | .matchShortNear l d => Sys2Proof.Machine.execMatchShortNear l d s
  | .matchShortFar l x => Sys2Proof.Machine.execMatchShortFar l x s
  | .matchLongNear ext d => Sys2Proof.Machine.execMatchLongNear ext d s
  | .matchLongFar ext x => Sys2Proof.Machine.execMatchLongFar ext x s

end Sys2Proof.Machine
end

