-- ==== Sys2Proof/Machine/Engine.lean ====
section
/-! DEFINITION. The engine's own move while BUSY: fetching and running the latched command, fetching and running the
next token, and sampling ABORT_REQ (10_state.md R34, R46; 43_lz_codec.md R401; 60_exceptions.md R448, R452, R458). -/

namespace Sys2Proof.Machine

/-- The bytes of the token stream from ip to its end (43_lz_codec.md R400). -/
def State.fetchBytes (s : State) : List Byte :=
  s.mem.readBytes (s.latched.src.base + s.dec.ip) (s.latched.src.len - s.dec.ip)

/-- The decoder's move: fetch the token at ip and execute it. A token that the input cuts short fails the command
with E_TRUNCATED(ip0) (43_lz_codec.md R401, R404). -/
def tokenStep (s : State) : Step :=
  if s.latched.src.valid then
    match decodeToken s.dec.first s.fetchBytes with
    | .error _ => .next (raiseError .truncated s.dec.ip s)
    | .ok (i, _) => exec i s
  else .fault .outsideSystemMemory

/-- The sequencer's move: run the latched command; an opcode that is no command fails with E_BADCMD before any
region check (60_exceptions.md R448). -/
def commandStep (s : State) : Step :=
  match decodeCommand s.latched.opcode with
  | .error _ => .next (raiseError .badCmd 0 s)
  | .ok i => exec i s

/-- The move of a BUSY engine that no abort stops: a token while a token program runs, else the command. -/
def runStep (s : State) : Step := if s.dec.running then tokenStep s else commandStep s

/-- Whether an abort may still replace the outcome: E_BADCMD and the region checks come first
(60_exceptions.md R458). -/
def State.abortable (s : State) : Bool :=
  s.dec.running ||
    match decodeCommand s.latched.opcode with
    | .ok i => (regionError i s.latched).isNone
    | .error _ => false

/-- Whether the engine honours a pending ABORT at this sampling point: the spec does not say, so the first time it
is a free choice; the next point must honour it, since every token and block boundary is one (60_exceptions.md
R452, log 9). -/
def State.honoursAbort (s : State) : Bool := s.abortPassed || Config.abortTaken s.free

/-- The end of a command whose regions another agent misused while it ran (70_reset_and_hazards.md R512, log 11). -/
def settle (misused : Bool) (o : Step) : Step :=
  match o with
  | .next t => .next (if misused && decide (t.seq = .idle) then t.afterMisuse else t)
  | .fault f => .fault f
  | .refused r => .refused r

/-- The engine's move. While IDLE it does nothing (60_exceptions.md R470); on a bus that never answers it makes no move
until a reset (93_implementation_defined.md U14). -/
def engineStep (s : State) : Step :=
  if s.seq = .idle then .next s
  else if s.hung then .next s
  else if s.rejected then .next (finishUnspecified s)
  else if s.abortReq && s.abortable then
    if s.honoursAbort then .next (finishAborted s)
    else settle s.misused (runStep { s with abortPassed := true, free := s.free + 1 })
  else settle s.misused (runStep s)

end Sys2Proof.Machine
end

