-- ==== Sys2Proof/Machine/Window.lean ====
section
/-! DEFINITION. What the outside world does to the machine: the register window (10_state.md R31 to R45), system
memory as other agents see it (20_memory.md R111, R112), the bus that fails a command (R120, R121), and the reset
input (70_reset_and_hazards.md R490). -/

namespace Sys2Proof.Machine

/-- Only an aligned 32-bit access below 0x80 reaches the window (10_state.md R32). -/
def reachesWindow (size : AccessSize) (offset : Nat) : Bool :=
  decide (size = .word) && decide (offset % 4 = 0) && decide (offset < 0x80)

/-- The word at a word-aligned offset (10_state.md R31, R35 to R45); reserved offsets read 0 (R33). -/
def State.windowWord (s : State) (offset : Nat) : Word :=
  match offset with
  | 0x00 => Config.idValue
  | 0x04 => ctrlWord s.ie
  | 0x08 => statusWord s.seq s.status
  | 0x0C => s.regs.opcode.setWidth 32
  | 0x10 => s.regs.srcAddr
  | 0x14 => s.regs.srcLen
  | 0x18 => s.regs.dstAddr
  | 0x1C => s.regs.dstCap
  | 0x20 => s.regs.cfg
  | 0x24 => s.regs.bsize
  | 0x28 => s.regs.fcode0
  | 0x2C => s.regs.fcode1
  | 0x30 => s.regs.fmeta0
  | 0x34 => s.regs.fmeta1
  | 0x38 => s.regs.arg0
  | 0x3C => s.regs.arg1
  | 0x40 => s.results.result0
  | 0x44 => s.results.result1
  | 0x48 => s.results.result2
  | 0x4C => s.results.result3
  | 0x50 => s.results.result4
  | 0x54 => s.results.result5
  | 0x58 => s.results.result6
  | 0x5C => s.results.result7
  | 0x60 => s.results.result8
  | 0x64 => s.errInfo
  | _ => 0

/-- A host read of the window (10_state.md R32): any access that does not reach it returns 0. -/
def State.windowRead (s : State) (size : AccessSize) (offset : Nat) : Word :=
  if reachesWindow size offset then s.windowWord offset else 0

/-- The bits of CFG that exist; the others are hardwired 0 (10_state.md R41). -/
def cfgBits : Word := 0x001FFF0F

/-- The bits of FCODE1 and FMETA1 that exist (10_state.md R43). -/
def slotPairBits : Word := 0x0000FFFF

/-- A write to CTRL (10_state.md R36): SRST wins and ignores the rest; else IE is stored, and of ABORT and START only
the higher one acts. ABORT acts while BUSY only, START while IDLE only (R34, R46). -/
def writeCtrl (v : Word) (s : State) : State :=
  if v.getLsbD 3 then resetEngine s
  else
    let t := { s with ie := v.getLsbD 2 }
    if v.getLsbD 1 then (if s.seq = .busy then { t with abortReq := true } else t)
    else if v.getLsbD 0 then (if s.seq = .idle then startCommand t else t)
    else t

/-- A write of the word at a word-aligned offset (10_state.md R31 to R45). Read-only and reserved offsets ignore it
(R33); a parameter register takes it in either SEQ state (R34). -/
def writeWindow (offset : Nat) (v : Word) (s : State) : State :=
  match offset with
  | 0x04 => writeCtrl v s
  | 0x08 => { s with status := s.status.acknowledge v }
  | 0x0C => { s with regs := { s.regs with opcode := v.extractLsb' 0 8 } }
  | 0x10 => { s with regs := { s.regs with srcAddr := v } }
  | 0x14 => { s with regs := { s.regs with srcLen := v } }
  | 0x18 => { s with regs := { s.regs with dstAddr := v } }
  | 0x1C => { s with regs := { s.regs with dstCap := v } }
  | 0x20 => { s with regs := { s.regs with cfg := v &&& cfgBits } }
  | 0x24 => { s with regs := { s.regs with bsize := v } }
  | 0x28 => { s with regs := { s.regs with fcode0 := v } }
  | 0x2C => { s with regs := { s.regs with fcode1 := v &&& slotPairBits } }
  | 0x30 => { s with regs := { s.regs with fmeta0 := v } }
  | 0x34 => { s with regs := { s.regs with fmeta1 := v &&& slotPairBits } }
  | 0x38 => { s with regs := { s.regs with arg0 := v } }
  | 0x3C => { s with regs := { s.regs with arg1 := v } }
  | _ => s

/-- A host write to the window (10_state.md R32): any access that does not reach it is ignored. -/
def windowWrite (size : AccessSize) (offset : Nat) (v : Word) (s : State) : State :=
  if reachesWindow size offset then writeWindow offset v s else s

/-- Whoever sees DONE = 1 or BUSY = 0 observes the end of the last command, and with it every command so far gives its
regions back (20_memory.md R111). The marks are the model's own (log 11): no register changes. -/
def State.observe (s : State) : State :=
  let seen := s.status.done || decide (s.seq = .idle)
  { s with
    owned := s.owned && !seen
    unobserved := if seen then [] else s.unobserved }

/-- A host read of the register window (10_state.md R32, R33). A read of STATUS observes. -/
def hostRead (size : AccessSize) (offset : Nat) (s : State) : State :=
  let t := { s with rdata := s.windowRead size offset }
  if reachesWindow size offset && decide (offset = 0x08) then t.observe else t

/-- The host's look at IRQ: a host that sees it asserted has seen DONE = 1 (60_exceptions.md R456, R457). -/
def irqLook (s : State) : State :=
  let t := { s with rdata := (BitVec.ofBool s.irq).setWidth 32 }
  if s.irq then t.observe else t

/-- Another agent's write of a byte in the regions of earlier commands whose end no one has observed: what is left of
their results, the bytes of their destinations, is unspecified (20_memory.md R111, log 11). -/
def State.misuseEarlier (a : Nat) (s : State) : State :=
  (s.unobserved.filter (fun p => p.holds a)).foldl (fun t p => t.unspecifyDstOf p) s

/-- Another agent's write of a system-memory byte. A write into regions that a command still owns is a misuse: while
BUSY it leaves its mark, and no error is raised for it (70_reset_and_hazards.md R512; 92_eei_decisions.md D50;
93_implementation_defined.md U12); afterwards the command's outcome is unspecified at once (20_memory.md R111, log 11). -/
def agentWrite (a : Nat) (b : Byte) (s : State) : State :=
  let t := { s with mem := s.mem.write a b }.misuseEarlier a
  if s.owned && s.latched.holds a then
    if s.seq = .busy then { t with misused := true } else t.unspecifyOutcome
  else t

/-- Another agent's read of a system-memory byte. A byte of a destination that a command still owns reads as any value
(20_memory.md R111), and while BUSY the read of the running command's leaves its mark (92_eei_decisions.md D50, log 11). -/
def agentRead (a : Nat) (s : State) : State :=
  let running := s.owned && s.latched.writesAt a
  if running || s.unobserved.any (fun p => p.writesAt a) then
    { s with
      rdata := (Config.freeByte s.free a).setWidth 32
      free := s.free + 1
      misused := s.misused || (running && decide (s.seq = .busy)) }
  else { s with rdata := (s.mem.read a).setWidth 32 }

/-- The bus answers an access of the running command with an error, or from memory whose reads have side effects
(20_memory.md R120, R121): the outcome is unspecified. A command that accesses no memory is not touched (log 17). -/
def busRejects (s : State) : State :=
  { s with rejected := s.rejected || (decide (s.seq = .busy) && s.usesBus) }

/-- The bus never answers an access of the running command: it is stuck until a reset (93_implementation_defined.md U14,
log 17). -/
def busStops (s : State) : State := { s with hung := s.hung || (decide (s.seq = .busy) && s.usesBus) }

/-- The effect of an event in which the outside world acts; `wait` is none. -/
def outsideStep (ev : HostEvent) (s : State) : State :=
  match ev with
  | .regWrite size offset v => windowWrite size offset v s
  | .regRead size offset => hostRead size offset s
  | .memWrite a b => agentWrite a.toNat b s
  | .memRead a => agentRead a.toNat s
  | .irqRead => irqLook s
  | .busError => busRejects s
  | .busHang => busStops s
  | .rst => resetEngine s
  | .wait => s

end Sys2Proof.Machine
end

