-- ==== Sys2Proof/Machine/Step.lean ====
section
/-! DEFINITION. One step of the machine, and the placing of one instruction where the next step fetches it. -/

namespace Sys2Proof.Machine

/-- One step: the outside world's next event if there is one, and the engine's move where that event is `wait` or
where no event is left (log 1). -/
def step (s : State) : Host.Outcome State Fault Refusal :=
  match s.host with
  | [] => engineStep s
  | .wait :: rest => engineStep { s with host := rest }
  | ev :: rest => .next (outsideStep ev { s with host := rest })

/-- The engine BUSY with the next move its own: no outside event, no abort, no rejected access, a bus that answers. -/
def State.atEngineMove (s : State) : State :=
  { s with
    host := []
    seq := .busy
    abortReq := false
    abortPassed := false
    owned := true
    unobserved := []
    rejected := false
    misused := false
    hung := false }

/-- Places the instruction of a number of spec/opcode_table.json where `step` fetches its next instruction (log 2).
A CMD word becomes the latched command of a BUSY engine. A token's bytes become the whole stream of a running
LZ_DECOMPRESS, from address 0, read as a token that is not the first. -/
def State.withFetchWord (s : State) (nbits w : Nat) : State :=
  if isCommandNumber nbits w then
    { s.atEngineMove with
      latched := { s.latched with opcode := BitVec.ofNat 8 w }
      dec := Decoder.idle }
  else
    { s.atEngineMove with
      latched :=
        { s.latched with
          opcode := 0x11
          srcAddr := 0
          srcLen := BitVec.ofNat 32 (tableStream nbits w).length }
      dec := ⟨true, 0, s.dec.op, false⟩
      mem := s.mem.writeBytes 0 (tableStream nbits w) }

end Sys2Proof.Machine
end

