-- ==== Sys2Proof/Safety.lean ====
section
/-! DEFINITION. What claims are stated in: what a completion and a failure leave, the frames, runs of several steps,
the invariant that every step keeps, and the hypotheses under which a command has its effect. -/

namespace Sys2Proof.Machine

/-! ## Completion, failure and frames -/

/-- What no move of the engine changes: the window's parameter registers, IE, the latched copy, ABORT_REQ
(10_state.md R34, R36, R46) and the model's own fields for the outside world. -/
structure SameHostSide (s t : State) : Prop where
  regs : t.regs = s.regs
  ie : t.ie = s.ie
  latched : t.latched = s.latched
  abortReq : t.abortReq = s.abortReq
  host : t.host = s.host
  rdata : t.rdata = s.rdata
  owned : t.owned = s.owned
  unobserved : t.unobserved = s.unobserved
  rejected : t.rejected = s.rejected
  misused : t.misused = s.misused
  hung : t.hung = s.hung

/-- `t` is what a successful completion leaves of `s` (60_exceptions.md R451). -/
structure Completed (s t : State) (r : Results) (stored : Bool) : Prop where
  results : t.results = r
  status : t.status = ⟨true, s.status.err, stored, s.status.errCode⟩
  errInfo : t.errInfo = s.errInfo
  seq : t.seq = .idle
  dec : t.dec = Decoder.idle
  kept : SameHostSide s t

/-- `t` is what `raise E(info)` leaves of `s` (60_exceptions.md R450). -/
structure Failed (s t : State) (e : Err) (info : Word) : Prop where
  results : t.results = s.results
  status : t.status = ⟨true, true, s.status.stored, e.code⟩
  errInfo : t.errInfo = info
  seq : t.seq = .idle
  dec : t.dec = Decoder.idle
  kept : SameHostSide s t

/-- A failure that leaves every byte of memory as it was (60_exceptions.md R453). Neither here nor in any other frame is
anything said of HT and the block buffers, whose contents after a command no rule states (10_state.md R47, R48). -/
structure FailedUntouched (s t : State) (e : Err) (info : Word) : Prop where
  failed : Failed s t e info
  mem : t.mem = s.mem

/-- Every byte of memory outside [base, base + len) reads as before. -/
def SameOutside (s t : State) (base len : Nat) : Prop :=
  ∀ a, a < base ∨ base + len ≤ a → t.mem.read a = s.mem.read a

/-- RESULT0 to RESULT2, the others 0. -/
def resultsOf (r0 r1 r2 : Word) : Results := ⟨r0, r1, r2, 0, 0, 0, 0, 0, 0⟩

/-- A filter command's success (42_filters.md R321): `n` bytes of the destination are written and no other byte. -/
structure Filtered (s t : State) (n : Nat) : Prop where
  completed : Completed s t (resultsOf s.latched.srcLen 0 0) false
  outside : SameOutside s t s.latched.dstAddr.toNat n

/-! ## Operands as bytes of memory (00_scope.md R25) -/

/-- `src[i]`. -/
def State.srcByte (s : State) (i : Nat) : Byte := s.mem.read (s.latched.srcAddr.toNat + i)

/-- `dst[i]`. -/
def State.dstByte (s : State) (i : Nat) : Byte := s.mem.read (s.latched.dstAddr.toNat + i)

/-- `ref[i]`. -/
def State.refByte (s : State) (i : Nat) : Byte := s.mem.read (s.latched.arg0.toNat + i)

/-- Bit `a` of the source, numbered LSB-first across the sequence (42_filters.md R330). -/
def State.srcBit (s : State) (a : Nat) : Bool := (s.srcByte (a / 8)).getLsbD (a % 8)

/-- Bit `a` of the destination. -/
def State.dstBit (s : State) (a : Nat) : Bool := (s.dstByte (a / 8)).getLsbD (a % 8)

/-- The little-endian word at offset `k` of the source (00_scope.md R22). -/
def State.srcWord (s : State) (k : Nat) : Word :=
  s.srcByte (k + 3) ++ s.srcByte (k + 2) ++ s.srcByte (k + 1) ++ s.srcByte k

/-- The little-endian word at offset `k` of the destination. -/
def State.dstWord (s : State) (k : Nat) : Word :=
  s.dstByte (k + 3) ++ s.dstByte (k + 2) ++ s.dstByte (k + 1) ++ s.dstByte k

/-- The number of whole elements in the source (42_filters.md section 1). -/
def State.elements (s : State) : Nat := s.latched.srcLen.toNat / s.latched.typesize

/-- The header in the source carries the extended marker (30_encoding.md R157). -/
def State.srcExtended (s : State) : Bool := (s.srcByte 2).getLsbD 0 && (s.srcByte 2).getLsbD 2

/-- The length of the header in the source. -/
def State.srcHeaderLength (s : State) : Nat := if s.srcExtended then 32 else 16

/-- The field checks of a minimal header pass (40_header.md R221, R223 to R226). -/
structure FieldsAccepted (s : State) : Prop where
  version : s.srcByte 0 = 2 ∨ s.srcByte 0 = 3
  cbytes : 16 ≤ (s.srcWord 12).toNat
  block : (s.srcWord 8).toNat ≤ 262144
  blockFits : 0 < (s.srcWord 4).toNat → 0 < (s.srcWord 8).toNat ∧ (s.srcWord 8).toNat ≤ (s.srcWord 4).toNat
  typesize : 0 < (s.srcWord 4).toNat → s.srcByte 3 ≠ 0

/-- decode_header accepts the header in the source (40_header.md R221). -/
structure HeaderAccepted (s : State) : Prop where
  long : 16 ≤ s.latched.srcLen.toNat
  fields : FieldsAccepted s
  extended : s.srcExtended = true → 32 ≤ s.latched.srcLen.toNat ∧ 32 ≤ (s.srcWord 12).toNat

/-! ## Hypotheses on operands -/

/-- The source and destination regions lie in memory and do not meet (20_memory.md R108, R109). -/
structure RegionsFit (p : Params) : Prop where
  src : p.srcAddr.toNat + p.srcLen.toNat ≤ 4294967296
  dst : p.dstAddr.toNat + p.dstCap.toNat ≤ 4294967296
  apart : p.srcLen = 0 ∨ p.dstCap = 0 ∨ p.dstAddr.toNat + p.dstCap.toNat ≤ p.srcAddr.toNat ∨
    p.srcAddr.toNat + p.srcLen.toNat ≤ p.dstAddr.toNat

/-- The reference region lies in memory and does not meet the destination (20_memory.md R108, R109). -/
structure ReferenceFits (p : Params) : Prop where
  ref : p.arg0.toNat + p.srcLen.toNat ≤ 4294967296
  apart : p.srcLen = 0 ∨ p.dstCap = 0 ∨ p.dstAddr.toNat + p.dstCap.toNat ≤ p.arg0.toNat ∨
    p.arg0.toNat + p.srcLen.toNat ≤ p.dstAddr.toNat

/-- What a raw filter command needs beside its own argument checks (42_filters.md R321). -/
structure FilterFits (p : Params) : Prop where
  regions : RegionsFit p
  block : p.srcLen.toNat ≤ 262144
  room : p.srcLen.toNat ≤ p.dstCap.toNat

/-- The argument checks of COMPRESS pass (41_pipeline.md R275). -/
structure CompressAccepts (p : Params) : Prop where
  regions : RegionsFit p
  effort : p.effort ≤ 9
  typesize : 1 ≤ p.typesize
  size : p.srcLen.toNat ≤ 2147483615
  shuffles : p.extHdr = false → ¬ (p.shuf = true ∧ p.bshuf = true)
  slots : p.extHdr = true → ∀ c ∈ p.fcode.zip p.fmeta,
    c.1.toNat < 5 ∧ (c.1 = 4 → truncOk p.typesize (sext8 c.2) = true)

/-- 42_filters.md R340: the byte distance `w` of the previous element for an element size. -/
def PreviousElement (ts w : Nat) : Prop :=
  ((ts = 1 ∨ ts = 2 ∨ ts = 4 ∨ ts = 8) ∧ w = ts) ∨ (ts % 8 = 0 ∧ 8 < ts ∧ w = 8) ∨
  (¬ (ts = 1 ∨ ts = 2 ∨ ts = 4 ∨ ts = 8) ∧ ¬ (ts % 8 = 0 ∧ 8 < ts) ∧ w = 1)

/-- 42_filters.md R350: the fraction width `m` of an element size, and a parameter `p` that clears `z` of its bits. -/
def PrecisionAccepted (ts m : Nat) (p : Int) (z : Nat) : Prop :=
  ((ts = 4 ∧ m = 23) ∨ (ts = 8 ∧ m = 52)) ∧
  ((1 ≤ p ∧ p ≤ m ∧ (z : Int) = m - p) ∨ (1 - (m : Int) ≤ p ∧ p ≤ -1 ∧ (z : Int) = -p))

/-- A pipeline without the lossy filter. -/
def Lossless (f : List Filter) : Prop := ∀ p, Filter.truncPrec p ∉ f

/-- The engine is BUSY with the command of an opcode, its next move is its own, no abort, misuse or rejected access is
pending, and the bus answers. -/
structure RunsAlone (s : State) : Prop where
  host : s.host = []
  busy : s.seq = .busy
  abortReq : s.abortReq = false
  rejected : s.rejected = false
  misused : s.misused = false
  hung : s.hung = false

/-- HDR_ENCODE accepts its parameters (40_header.md R233, R234). -/
structure HdrEncodeAccepts (p : Params) : Prop where
  shuffles : p.extHdr = false → ¬ (p.shuf = true ∧ p.bshuf = true)
  cbytes : p.hlen ≤ p.arg1.toNat
  block : p.bsize.toNat ≤ 262144
  blockFits : 0 < p.srcLen.toNat → 0 < p.bsize.toNat ∧ p.bsize.toNat ≤ p.srcLen.toNat
  typesize : 0 < p.srcLen.toNat → 1 ≤ p.typesize

/-- The destination of `t` starts with the header that encode_header makes of the configuration `p`
(40_header.md R229; 30_encoding.md R155, R156, R160 to R166): in a stored chunk every filter indication but the
extended marker is 0. -/
structure HeaderAt (t : State) (p : Params) (stored : Bool) (nbytes bs cbytes : Word) : Prop where
  version : t.dstByte 0 = if p.extHdr then 3 else 2
  fmtver : t.dstByte 1 = 1
  shuf : (t.dstByte 2).getLsbD 0 = (p.extHdr || (!stored && p.shuf))
  flagStored : (t.dstByte 2).getLsbD 1 = stored
  bshuf : (t.dstByte 2).getLsbD 2 = (p.extHdr || (!stored && p.bshuf))
  delta : (t.dstByte 2).getLsbD 3 = (!p.extHdr && !stored && p.delta)
  codec : (t.dstByte 2).toNat < 16
  typesize : t.dstByte 3 = p.typesizeByte
  nbytes : t.dstWord 4 = nbytes
  bs : t.dstWord 8 = bs
  cbytes : t.dstWord 12 = cbytes
  slots0 : p.extHdr = true → t.dstWord 16 = if stored then 0 else p.fcode0
  slots1 : p.extHdr = true → t.dstWord 20 = if stored then 0 else p.fcode1.extractLsb' 0 16 |>.setWidth 32
  meta0 : p.extHdr = true → t.dstWord 24 = if stored then 0 else p.fmeta0
  meta1 : p.extHdr = true → t.dstWord 28 = if stored then 0 else p.fmeta1.extractLsb' 0 16 |>.setWidth 32

/-- check_supported passes for the header in the source (41_pipeline.md R286): the chunk is stored, or its codec is 0
and, in an extended header, XFLAGS is 0 and every slot holds an allocated filter code. -/
def ChunkSupported (s : State) : Prop :=
  (s.srcByte 2).getLsbD 1 = true ∨
  ((if s.srcExtended then s.srcByte 22 else ((s.srcByte 2).extractLsb' 5 3).setWidth 8) = 0 ∧
    (s.srcExtended = true → s.srcByte 31 = 0 ∧ ∀ k, k < 6 → (s.srcByte (16 + k)).toNat < 5))

/-- A chunk whose header is accepted and whose bytes are all in the source (41_pipeline.md R285). -/
structure ChunkAtHand (s : State) : Prop where
  mem : s.mem.wf
  regions : RegionsFit s.latched
  header : HeaderAccepted s
  whole : (s.srcWord 12).toNat ≤ s.latched.srcLen.toNat

/-- What a token needs to be run: a running program whose regions lie in memory. -/
structure TokenRuns (s : State) : Prop where
  mem : s.mem.wf
  src : s.latched.srcAddr.toNat + s.latched.srcLen.toNat ≤ 4294967296
  dst : s.latched.dstAddr.toNat + s.latched.dstCap.toNat ≤ 4294967296

/-- `t` is `s` after a token of `len` bytes appended `n` bytes: ip and op have moved, and the end of the stream has
completed the command (43_lz_codec.md R400, R407, R410); only the appended bytes of memory have changed. -/
structure Appended (s t : State) (len n : Nat) : Prop where
  outside : SameOutside s t (s.latched.dstAddr.toNat + s.dec.op) n
  kept : SameHostSide s t
  errInfo : t.errInfo = s.errInfo
  on : s.dec.ip + len ≠ s.latched.srcLen.toNat →
    t.dec = ⟨s.dec.running, s.dec.ip + len, s.dec.op + n, false⟩ ∧ t.seq = s.seq ∧ t.status = s.status ∧
      t.results = s.results
  done : s.dec.ip + len = s.latched.srcLen.toNat →
    Completed s t (resultsOf (BitVec.ofNat 32 (s.dec.op + n)) 0 0) false

/-- The length and the distance of a match token (30_encoding.md R173 to R177), none for any other instruction. -/
def matchForm : Instr → Option (Nat × Nat)
  | .nop => none
  | .compress => none
  | .decompress => none
  | .chunkSizes => none
  | .getItemRange => none
  | .hdrEncode => none
  | .lzCompress => none
  | .lzDecompress => none
  | .shuffle => none
  | .unshuffle => none
  | .bitshuffle => none
  | .bitunshuffle => none
  | .deltaEncode => none
  | .deltaDecode => none
  | .truncPrec => none
  | .litFirst _ _ => none
  | .lit _ => none
  | .matchShortNear l d => some (l.toNat + 3, d.toNat + 1)
  | .matchShortFar l x => some (l.toNat + 3, 8192 + x.toNat)
  | .matchLongNear ext d => some (10 + ext, d.toNat + 1)
  | .matchLongFar ext x => some (10 + ext, 8192 + x.toNat)

/-! ## The stream that the encoder must write (43_lz_codec.md R380 to R391) -/

/-- The hash of the 4 bytes at `p`, read little-endian (43_lz_codec.md R380). -/
def hashOf (e : Nat) (x : List Byte) (p : Nat) : Nat :=
  ((byteAt x p).toNat + 256 * (byteAt x (p + 1)).toNat + 65536 * (byteAt x (p + 2)).toNat +
    16777216 * (byteAt x (p + 3)).toNat) * 2654435761 % 4294967296 / 2 ^ (32 - min (9 + e) 14)

/-- The number of bytes from `p` on that equal those from `c` on (43_lz_codec.md R385). -/
def matchLength (x : List Byte) (c p : Nat) : Nat :=
  ((List.range (x.length - p)).takeWhile (fun k => decide (byteAt x (c + k) = byteAt x (p + k)))).length

/-- The byte length of a match token (43_lz_codec.md R387). -/
def tokenCost (len dist : Nat) : Nat :=
  2 + (if len ≤ 9 then 0 else 1 + (len - 10) / 255) + (if 8191 ≤ dist - 1 then 2 else 0)

/-- The match taken at `p`: the one candidate is the latest position looked up with the same hash, however far back; it
is taken if it is near enough, 4 bytes agree, and its token is shorter than the bytes it stands for
(43_lz_codec.md R384 to R387). The answer is its length and its distance. -/
def matchAt (e : Nat) (x : List Byte) (seen : List Nat) (p : Nat) : Option (Nat × Nat) :=
  match seen.find? (fun c => decide (hashOf e x c = hashOf e x p)) with
  | none => none
  | some c =>
    if p - c ≤ 73727 ∧ 4 ≤ matchLength x c p ∧ tokenCost (matchLength x c p) (p - c) < matchLength x c p then
      some (matchLength x c p, p - c)
    else none

/-- The bytes of pending literals: runs of 32, each after its length less one, the first control byte of a stream with
the marker 001 (43_lz_codec.md R389). -/
def literalStream (first : Bool) (lits : List Byte) : List Byte :=
  (List.range (cdiv lits.length 32)).flatMap fun k =>
    BitVec.ofNat 8 ((if first && decide (k = 0) then 32 else 0) + ((slice lits (32 * k) 32).length - 1)) ::
      slice lits (32 * k) 32

/-- The bytes of a match (43_lz_codec.md R390). -/
def matchStream (len dist : Nat) : List Byte :=
  BitVec.ofNat 8 (32 * min (len - 3) 7 + (if dist - 1 < 8191 then (dist - 1) / 256 else 31)) ::
    ((if 10 ≤ len then List.replicate ((len - 10) / 255) 255 ++ [BitVec.ofNat 8 ((len - 10) % 255)] else []) ++
      (if dist - 1 < 8191 then [BitVec.ofNat 8 ((dist - 1) % 256)]
       else [255, BitVec.ofNat 8 ((dist - 1 - 8191) / 256), BitVec.ofNat 8 ((dist - 1 - 8191) % 256)]))

/-- The stream of the input from position `p` on, greedy and with no look-up inside a match: `seen` holds the positions
looked up so far, the latest first, `lits` the pending literals (43_lz_codec.md R381, R383, R388). -/
def greedyFrom (e : Nat) (x : List Byte) : Nat → Nat → List Nat → List Byte → Bool → List Byte
  | 0, _, _, lits, first => literalStream first lits
  | fuel + 1, p, seen, lits, first =>
    if p < x.length then
      if p + 4 ≤ x.length then
        match matchAt e x seen p with
        | some (len, dist) =>
          literalStream first lits ++ (matchStream len dist ++ greedyFrom e x fuel (p + len) (p :: seen) [] false)
        | none => greedyFrom e x fuel (p + 1) (p :: seen) (lits ++ [byteAt x p]) first
      else greedyFrom e x fuel (p + 1) seen (lits ++ [byteAt x p]) first
    else literalStream first lits

/-- The finished output of the encoder for an input. -/
def greedyStream (e : Nat) (x : List Byte) : List Byte := greedyFrom e x x.length 0 [] [] true

/-- The encoder returns 0 (43_lz_codec.md R391). -/
def NotCompressible (e : Nat) (x : List Byte) (cap : Nat) : Prop :=
  e = 0 ∨ x = [] ∨ cap < (greedyStream e x).length ∨ x.length ≤ (greedyStream e x).length

/-! ## Blocks and pipelines -/

/-- The filters of a list on block `j` in order, with delta reference `r` (41_pipeline.md R263). -/
def applyFilters (ts j : Nat) (r : List Byte) : List Filter → List Byte → List Byte
  | [], x => x
  | .shuffle :: f, x => applyFilters ts j r f (Machine.shuffle ts x)
  | .bitshuffle :: f, x => applyFilters ts j r f (bitshuffleAligned ts x)
  | .delta :: f, x => applyFilters ts j r f (if j = 0 then deltaRef ts x else deltaXor x r)
  | .truncPrec p :: f, x => applyFilters ts j r f (Machine.truncPrec ts p x)

/-- The inverses of the filters of a list on block `j`, the last filter's first; truncation has none
(41_pipeline.md R264). -/
def undoFilters (ts j : Nat) (r : List Byte) : List Filter → List Byte → List Byte
  | [], x => x
  | .shuffle :: f, x => unshuffle ts (undoFilters ts j r f x)
  | .bitshuffle :: f, x => bitunshuffleAligned ts (undoFilters ts j r f x)
  | .delta :: f, x =>
    if j = 0 then undeltaRef ts (undoFilters ts j r f x) else deltaXor (undoFilters ts j r f x) r
  | .truncPrec _ :: f, x => undoFilters ts j r f x

/-- The default block size of an effort (00_scope.md R17). -/
def effortBlock : Nat → Nat
  | 0 => 16384
  | 1 => 16384
  | 2 => 16384
  | 3 => 32768
  | 4 => 32768
  | 5 => 65536
  | 6 => 65536
  | 7 => 131072
  | _ => 262144

/-- `bs` is the block size of an effort, an element size, a source length and an override (41_pipeline.md R267). -/
def BlockSizeIs (e ts n ovr bs : Nat) : Prop :=
  ∃ want b, want = (if ovr = 0 then (if 16 ≤ ts then 2 * effortBlock e else effortBlock e) else ovr) ∧
    b = min (min want 262144) n ∧ ((ts ≤ b ∧ bs = b - b % ts) ∨ (b < ts ∧ bs = b))

/-- The source bytes of block `j` (41_pipeline.md R261). -/
def State.sourceBlock (s : State) (bs j : Nat) : List Byte :=
  s.mem.readBytes (s.latched.srcAddr.toNat + j * bs) (min bs (s.latched.srcLen.toNat - j * bs))

/-- Block `j` after the configured filters, its delta reference the reconstructed block 0 (41_pipeline.md R263, R265). -/
def State.filteredBlock (s : State) (bs j : Nat) : List Byte :=
  let f := s.latched.pipeline
  let ts := s.latched.typesize
  applyFilters ts j (undoFilters ts 0 [] f (applyFilters ts 0 [] f (s.sourceBlock bs 0))) f (s.sourceBlock bs j)

/-- The payload of block `j` (41_pipeline.md R269). -/
def State.codedBlock (s : State) (bs j : Nat) : List Byte := greedyStream s.latched.effort (s.filteredBlock bs j)

/-- Where the payload of block `j` starts in the coded chunk: after the header, the table of a chunk of several blocks,
and the payloads before it (41_pipeline.md R268). -/
def State.codedOffset (s : State) (bs j : Nat) : Nat :=
  s.latched.hlen + (if 1 < cdiv s.latched.srcLen.toNat bs then 4 * cdiv s.latched.srcLen.toNat bs else 0) +
    ((List.range j).map (fun k => (s.codedBlock bs k).length)).sum

/-- The length of the coded chunk (41_pipeline.md R268). -/
def State.codedLength (s : State) (bs : Nat) : Nat := s.codedOffset bs (cdiv s.latched.srcLen.toNat bs)

/-- COMPRESS writes a stored chunk (41_pipeline.md R270). -/
def StoresVerbatim (s : State) (bs : Nat) : Prop :=
  s.latched.effort = 0 ∨ s.latched.srcLen.toNat < 32 ∨
  (∃ j, j < cdiv s.latched.srcLen.toNat bs ∧ (s.sourceBlock bs j).length ≤ (s.codedBlock bs j).length) ∨
  s.latched.hlen + s.latched.srcLen.toNat ≤ s.codedLength bs

/-! ## The chunk in the source -/

/-- The pipeline that the header in the source names (41_pipeline.md R262). -/
def State.sourceFilters (s : State) : List Filter :=
  if s.srcExtended then
    slotPipeline ((List.range 6).map (fun k => s.srcByte (16 + k))) ((List.range 6).map (fun k => s.srcByte (24 + k)))
  else flagPipeline ((s.srcByte 2).getLsbD 3) ((s.srcByte 2).getLsbD 0) ((s.srcByte 2).getLsbD 2)

/-- The number of blocks of the chunk in the source (41_pipeline.md R261). -/
def State.chunkBlocks (s : State) : Nat := cdiv (s.srcWord 4).toNat (s.srcWord 8).toNat

/-- The length of block `j` of the chunk in the source (41_pipeline.md R261). -/
def State.chunkBlockLength (s : State) (j : Nat) : Nat :=
  min (s.srcWord 8).toNat ((s.srcWord 4).toNat - j * (s.srcWord 8).toNat)

/-- The end of the block-offset table, which only a chunk of several blocks has (41_pipeline.md R288). -/
def State.tableEnd (s : State) : Nat := s.srcHeaderLength + (if 1 < s.chunkBlocks then 4 * s.chunkBlocks else 0)

/-- Entry `j` of the block-offset table (41_pipeline.md R288). -/
def State.tableEntry (s : State) (j : Nat) : Nat := (s.srcWord (s.srcHeaderLength + 4 * j)).toNat

/-- The entries of the table stand in order (41_pipeline.md R288): the first payload follows the table, and every entry
is above the one before it. -/
structure TableInOrder (s : State) : Prop where
  first : s.tableEntry 0 = s.tableEnd
  rising : ∀ j, j + 1 < s.chunkBlocks → s.tableEntry j < s.tableEntry (j + 1)

/-- payload_map accepts the chunk in the source (41_pipeline.md R288). -/
structure TableAccepted (s : State) : Prop where
  room : s.tableEnd ≤ (s.srcWord 12).toNat
  order : 1 < s.chunkBlocks → TableInOrder s
  last : 1 < s.chunkBlocks → s.tableEntry (s.chunkBlocks - 1) ≤ (s.srcWord 12).toNat

/-- The bytes of payload `j` (41_pipeline.md R288): of one block, all that follows the header; of several, from its entry
to the next, and for the last one to the end of the chunk. -/
def State.payload (s : State) (j : Nat) : List Byte :=
  let a := if 1 < s.chunkBlocks then s.tableEntry j else s.srcHeaderLength
  let z := if j + 1 < s.chunkBlocks then s.tableEntry (j + 1) else (s.srcWord 12).toNat
  s.mem.readBytes (s.latched.srcAddr.toNat + a) (z - a)

/-- Payload `j` decodes to the block `x`, which has the block's length (41_pipeline.md R289). -/
def BlockDecodes (s : State) (j : Nat) (x : List Byte) : Prop :=
  lzDecode (s.payload j) (s.chunkBlockLength j) = .ok x ∧ x.length = s.chunkBlockLength j

/-- Byte `b` of the buffer in the chunk whose payloads decode to the blocks `x`: it lies in block `b / bs`, after the
inverse filters, the delta reference being the final block 0 (41_pipeline.md R264, R290). -/
def State.chunkByte (s : State) (x : Nat → List Byte) (b : Nat) : Byte :=
  let f := s.sourceFilters
  let ts := (s.srcByte 3).toNat
  let bs := (s.srcWord 8).toNat
  byteAt (undoFilters ts (b / bs) (undoFilters ts 0 [] f (x 0)) f (x (b / bs))) (b % bs)

/-- The byte range [rangeStart, rangeEnd) that GET_ITEM_RANGE asks for (41_pipeline.md R294). -/
def State.rangeStart (s : State) : Nat := s.latched.arg0.toNat * (s.srcByte 3).toNat

/-- The end of the range. -/
def State.rangeEnd (s : State) : Nat := (s.latched.arg0.toNat + s.latched.arg1.toNat) * (s.srcByte 3).toNat

/-- Every check of a chunk reader before payload_map passes, and it has bytes of blocks to give
(41_pipeline.md R285, R293). -/
structure ReachesBlocks (s : State) (i : Instr) : Prop where
  whole : (s.srcWord 12).toNat ≤ s.latched.srcLen.toNat
  supported : ChunkSupported s
  coded : (s.srcByte 2).getLsbD 1 = false
  asked : (i = .decompress ∧ 1 ≤ (s.srcWord 4).toNat ∧ (s.srcWord 4).toNat ≤ s.latched.dstCap.toNat) ∨
    (i = .getItemRange ∧ s.rangeStart < s.rangeEnd ∧ s.rangeEnd ≤ (s.srcWord 4).toNat ∧
      s.rangeEnd - s.rangeStart ≤ s.latched.dstCap.toNat)

/-- A chunk reader decodes block `j`: DECOMPRESS every block, GET_ITEM_RANGE those that meet the range and, for a
pipeline with a delta step, block 0 (41_pipeline.md R285, R295). -/
def ReadsBlock (s : State) (i : Instr) (j : Nat) : Prop :=
  j < s.chunkBlocks ∧ (i = .decompress ∨ (j = 0 ∧ Filter.delta ∈ s.sourceFilters) ∨
    (s.rangeStart < (j + 1) * (s.srcWord 8).toNat ∧ j * (s.srcWord 8).toNat < s.rangeEnd))

/-! ## Other agents -/

/-- The commands with a source region (30_encoding.md R151). -/
def hasSource : List Instr :=
  [.compress, .decompress, .chunkSizes, .getItemRange, .lzCompress, .lzDecompress, .shuffle, .unshuffle, .bitshuffle,
   .bitunshuffle, .deltaEncode, .deltaDecode, .truncPrec]

/-- The commands with a destination region (30_encoding.md R151). -/
def hasDestination : List Instr :=
  [.compress, .decompress, .getItemRange, .hdrEncode, .lzCompress, .lzDecompress, .shuffle, .unshuffle, .bitshuffle,
   .bitunshuffle, .deltaEncode, .deltaDecode, .truncPrec]

/-- The latched registers name a command with the address in its destination region (20_memory.md R102). -/
def InDestination (p : Params) (a : Nat) : Prop :=
  ∃ i ∈ hasDestination, decode false (.word (p.opcode.setWidth 32)) = .ok i ∧ p.dst.holds a = true

/-- The latched registers name a command with the address in one of its regions (20_memory.md R101, R102). -/
def InRegions (p : Params) (a : Nat) : Prop :=
  InDestination p a ∨
  (∃ i ∈ hasSource, decode false (.word (p.opcode.setWidth 32)) = .ok i ∧ p.src.holds a = true) ∨
  (∃ i ∈ ([.deltaEncode, .deltaDecode] : List Instr),
    decode false (.word (p.opcode.setWidth 32)) = .ok i ∧ p.refBlock = false ∧ p.ref.holds a = true)

/-- The latched command accesses system memory: it uses a region, and its region checks pass (20_memory.md R108). -/
def AccessesMemory (s : State) : Prop :=
  ∃ i, decode false (.word (s.latched.opcode.setWidth 32)) = .ok i ∧ (i ∈ hasSource ∨ i ∈ hasDestination) ∧
    regionError i s.latched = none

/-- `t` is `s` with any outcome of its command (20_memory.md R111): the results, ERRINFO, ERR with its code, and the
bytes of the destination are any value; nothing else has changed. -/
structure AnyOutcome (s t : State) : Prop where
  done : t.status.done = s.status.done
  stored : t.status.stored = s.status.stored
  errCode : t.status.errCode.toNat ≤ 8
  err : t.status.err = true ↔ t.status.errCode ≠ 0
  outside : SameOutside s t s.latched.dstAddr.toNat s.latched.dstCap.toNat
  seq : t.seq = s.seq
  kept : SameHostSide s t

/-! ## Runs -/

/-- `k` steps, none where one of them is a fault or a refusal. -/
def runSteps : Nat → State → Option State
  | 0, s => some s
  | k + 1, s =>
    match step s with
    | .next t => runSteps k t
    | .fault _ => none
    | .refused _ => none

/-! ## The invariant -/

/-- The bits of the parameter registers that a rule calls reserved are 0 (10_state.md R33, R41, R43). -/
structure Params.Legal (p : Params) : Prop where
  cfg : p.cfg &&& 0xFFE000F0 = 0
  fcode1 : p.fcode1 &&& 0xFFFF0000 = 0
  fmeta1 : p.fmeta1 &&& 0xFFFF0000 = 0

/-- The engine-internal arrays are as wide as the spec makes them: HT has 16384 entries, each a position in a block
(10_state.md R47), and no buffer holds more than MAX_BLOCKSIZE bytes (R48). -/
structure Scratch.Fits (w : Scratch) : Prop where
  rising : w.ht.Pairwise (fun c d => c.1 < d.1)
  entries : ∀ c ∈ w.ht, c.1 < 16384 ∧ c.2 < 262144
  bufA : w.bufA.length ≤ 262144
  bufB : w.bufB.length ≤ 262144
  bufR : w.bufR.length ≤ 262144

/-- What holds of a running token program (43_lz_codec.md R400, R410): it is an LZ_DECOMPRESS whose regions passed
their checks, a token is left to read, the output so far fits, and only at ip = 0 is the token the first. -/
structure TokenProgram (s : State) : Prop where
  busy : s.seq = .busy
  opcode : s.latched.opcode = 0x11
  regions : RegionsFit s.latched
  ip : s.dec.ip < s.latched.srcLen.toNat
  op : s.dec.op ≤ s.latched.dstCap.toNat
  first : s.dec.first = decide (s.dec.ip = 0)
  start : s.dec.ip = 0 → s.dec.op = 0

/-- The invariant of the machine. -/
structure State.Inv (s : State) : Prop where
  /-- Memory is in its canonical form. -/
  mem : s.mem.wf
  regs : s.regs.Legal
  latched : s.latched.Legal
  work : s.work.Fits
  /-- Codes 9 to 255 are never written (60_exceptions.md R440). -/
  errCode : s.status.errCode.toNat ≤ 8
  /-- ERR is set only with a code (60_exceptions.md R450). -/
  err : s.status.err = true → s.status.errCode ≠ 0
  /-- Results before completion read 0 (70_reset_and_hazards.md R511). -/
  clear : s.seq = .busy → s.status = Status.clear ∧ s.results = Results.zero ∧ s.errInfo = 0
  /-- The positions of the LZ codec stand at their starting values outside a token program. -/
  still : s.dec.running = false → s.dec = Decoder.idle
  program : s.dec.running = true → TokenProgram s
  /-- ABORT acts while BUSY only, and START clears ABORT_REQ (10_state.md R46). -/
  passed : s.abortPassed = true → s.abortReq = true
  /-- A running command owns its regions (20_memory.md R111). -/
  owned : s.seq = .busy → s.owned = true

end Sys2Proof.Machine
end

