-- ==== Sys2Proof/Certificates/Slice0/Obligations.lean ====
section
/-! DEFINITION. The statements for the provers, from the numbered rules of the spec. -/

open Sys2Proof Sys2Proof.Machine

/-! ## Encodings -/

/-- One word or byte sequence written out by hand from 30_encoding.md R150 and R171 to R177 for each family. -/
def Obligations.WrittenEncodingsDecode : Prop :=
  decode false (.word 0x00000000) = .ok .nop ∧
  decode false (.word 0x00000001) = .ok .compress ∧
  decode false (.word 0x00000005) = .ok .hdrEncode ∧
  decode false (.word 0x00000011) = .ok .lzDecompress ∧
  decode false (.word 0x00000026) = .ok .truncPrec ∧
  decode true (.stream [0x23, 0x61, 0x62, 0x63, 0x64]) = .ok (.litFirst 1 [0x61, 0x62, 0x63, 0x64]) ∧
  decode false (.stream [0x02, 0x78, 0x79, 0x7A]) = .ok (.lit [0x78, 0x79, 0x7A]) ∧
  decode false (.stream [0xC0, 0x02]) = .ok (.matchShortNear 6 2) ∧
  decode false (.stream [0x3F, 0xFF, 0x00, 0x0A]) = .ok (.matchShortFar 1 10) ∧
  decode false (.stream [0xE0, 0xFF, 0x22, 0x00]) = .ok (.matchLongNear 289 0) ∧
  decode false (.stream [0xFF, 0x05, 0xFF, 0x03, 0x2F]) = .ok (.matchLongFar 5 0x032F)

/-- Decoding the encoding of any well-formed instruction gives it back, with every operand at every value
(30_encoding.md sections 1 and 3). -/
def Obligations.DecodeOfEncode : Prop :=
  ∀ i : Instr, i.wellFormed = true → decode i.isFirstToken (encode i) = .ok i

/-- Whatever token the decoder reads is well formed, and the bytes it took are exactly that token's encoding. -/
def Obligations.TokenReadIsItsEncoding : Prop :=
  ∀ (first : Bool) (bytes : List Byte) (i : Instr) (rest : List Byte),
    decodeToken first bytes = .ok (i, rest) →
      bytes = tokenBytes i ++ rest ∧ i.isToken = true ∧ i.wellFormed = true ∧ i.isFirstToken = first

/-- 30_encoding.md R170: every control-byte value starts some token, in the first place and in a later one. -/
def Obligations.EveryControlByteStartsAToken : Prop :=
  ∀ (first : Bool) (ctrl : Byte), ∃ (rest : List Byte) (i : Instr),
    decodeToken first (ctrl :: rest) = .ok (i, []) ∧ i.wellFormed = true

/-- 30_encoding.md R179: a match of a length and a distance in the token format's range has exactly one encoding. -/
def Obligations.MatchHasOneEncoding : Prop :=
  ∀ len dist : Nat, 4 ≤ len → 1 ≤ dist → dist ≤ 73727 →
    (matchToken len dist).wellFormed = true ∧ matchForm (matchToken len dist) = some (len, dist) ∧
    ∀ i : Instr, i.wellFormed = true → matchForm i = some (len, dist) → i = matchToken len dist

/-! ## What a step runs -/

/-- A step of an engine that is alone and BUSY with a command runs what CMD decodes to; and after the event `wait` as
well (log 1). -/
def Obligations.StepRunsTheCommand : Prop :=
  ∀ (s : State) (i : Instr), s.seq = .busy → s.abortReq = false → s.rejected = false → s.misused = false →
    s.hung = false → s.dec.running = false →
    decode false (.word (s.latched.opcode.setWidth 32)) = .ok i →
      (s.host = [] → step s = exec i s) ∧
      ∀ rest, s.host = .wait :: rest → step s = exec i { s with host := rest }

/-- A step of a running token program runs the token that stands at ip in the source (43_lz_codec.md R371, R401). -/
def Obligations.StepRunsTheTokenAtIp : Prop :=
  ∀ (s : State) (i : Instr) (rest : List Byte), RunsAlone s → s.dec.running = true →
    s.latched.srcAddr.toNat + s.latched.srcLen.toNat ≤ 4294967296 →
    decodeToken s.dec.first
      (s.mem.readBytes (s.latched.srcAddr.toNat + s.dec.ip) (s.latched.srcLen.toNat - s.dec.ip)) = .ok (i, rest) →
    step s = exec i s

/-- A number of the opcode table that is placed where the machine fetches runs as the next instruction (log 2). -/
def Obligations.PlacedNumberIsRun : Prop :=
  ∀ (s : State) (nbits w : Nat) (i : Instr), s.mem.wf → nbits ≤ 4096 → decodeTableWord nbits w = some i →
    step (s.withFetchWord nbits w) = exec i (s.withFetchWord nbits w)

/-- 60_exceptions.md R448: an opcode that 30_encoding.md R150 does not allocate fails with E_BADCMD before any region
check, whatever abort is pending, and touches no memory. -/
def Obligations.UnallocatedOpcodeIsRefused : Prop :=
  ∀ s : State, s.host = [] → s.seq = .busy → s.rejected = false → s.hung = false → s.dec.running = false →
    s.latched.opcode ∉ ([0x00, 0x01, 0x02, 0x03, 0x04, 0x05, 0x10, 0x11, 0x20, 0x21, 0x22, 0x23, 0x24, 0x25, 0x26] :
      List Byte) →
    ∃ t, step s = .next t ∧ FailedUntouched s t .badCmd 0

/-- 43_lz_codec.md R404, cases 1, 3, 4 and 5: a token that the end of the stream cuts short fails the command with the
offset of its control byte, and writes nothing. -/
def Obligations.TokenCutShortFails : Prop :=
  ∀ (s : State) (e : DecodeError), RunsAlone s → s.dec.running = true →
    s.latched.srcAddr.toNat + s.latched.srcLen.toNat ≤ 4294967296 →
    decodeToken s.dec.first
      (s.mem.readBytes (s.latched.srcAddr.toNat + s.dec.ip) (s.latched.srcLen.toNat - s.dec.ip)) = .error e →
    ∃ t, step s = .next t ∧ FailedUntouched s t .truncated (BitVec.ofNat 32 s.dec.ip)

/-! ## The register window -/

/-- 10_state.md R34: START while IDLE latches the parameter registers, clears results and flags, and sets BUSY; the
command owns its regions from then on, and one before it whose end no one has observed goes on owning its own
(20_memory.md R111; the records are the model's own, log 11). -/
def Obligations.StartLatches : Prop :=
  ∀ (s : State) (v : Word) (rest : List HostEvent), s.host = .regWrite .word 0x04 v :: rest → s.seq = .idle →
    v.getLsbD 0 = true → v.getLsbD 1 = false → v.getLsbD 3 = false →
    ∃ t, step s = .next t ∧ t.latched = s.regs ∧ t.regs = s.regs ∧ t.status = Status.clear ∧
      t.results = Results.zero ∧ t.errInfo = 0 ∧ t.seq = .busy ∧ t.abortReq = false ∧ t.ie = v.getLsbD 2 ∧
      t.mem = s.mem ∧ t.work = s.work ∧ t.host = rest ∧ t.windowRead .word 0x08 = 1 ∧
      t.owned = true ∧ t.unobserved = (if s.owned then s.latched :: s.unobserved else []) ∧
      t.rejected = false ∧ t.misused = false ∧ t.hung = false

/-- 10_state.md R34, R36, R46: of a CTRL write without SRST, ABORT acts before START and only while BUSY; START while
BUSY latches and clears nothing; and IE is stored whatever else the write does. -/
def Obligations.ControlWriteActsByPriority : Prop :=
  ∀ (s : State) (v : Word) (rest : List HostEvent), s.host = .regWrite .word 0x04 v :: rest → v.getLsbD 3 = false →
    (v.getLsbD 1 = true →
      step s = .next { s with host := rest, ie := v.getLsbD 2, abortReq := s.abortReq || decide (s.seq = .busy) }) ∧
    (v.getLsbD 1 = false → s.seq = .busy → step s = .next { s with host := rest, ie := v.getLsbD 2 }) ∧
    (v.getLsbD 1 = false → v.getLsbD 0 = false → step s = .next { s with host := rest, ie := v.getLsbD 2 })

/-- 70_reset_and_hazards.md R500, R501, R502: after RST, or a CTRL write with SRST = 1, in either SEQ state, every
register reads as the table says, and memory outside a running command's destination is unchanged. That the token
positions, which do not exist outside a command, stand at their starting values is the model's choice (log 5). -/
def Obligations.ResetLeavesTheResetState : Prop :=
  ∀ (s : State) (rest : List HostEvent),
    (s.host = .rst :: rest ∨ ∃ v : Word, v.getLsbD 3 = true ∧ s.host = .regWrite .word 0x04 v :: rest) →
    ∃ t, step s = .next t ∧ (∀ off, t.windowRead .word off = if off = 0 then 0x4C5A3737 else 0) ∧
      t.seq = .idle ∧ t.abortReq = false ∧ t.irq = false ∧ t.dec = Decoder.idle ∧ t.host = rest ∧
      (s.seq = .idle → t.mem = s.mem) ∧
      SameOutside s t s.latched.dstAddr.toNat s.latched.dstCap.toNat

/-- 10_state.md R32: an access of another width, at an unaligned offset or beyond the window changes nothing, and
reads 0. -/
def Obligations.OnlyAlignedWordsReachTheWindow : Prop :=
  ∀ (s : State) (size : AccessSize) (off : Nat) (rest : List HostEvent),
    (size ≠ .word ∨ off % 4 ≠ 0 ∨ 0x80 ≤ off) →
    (∀ v : Word, s.host = .regWrite size off v :: rest → step s = .next { s with host := rest }) ∧
    (s.host = .regRead size off :: rest → step s = .next { s with host := rest, rdata := 0 })

/-- 10_state.md R31 to R45: of the aligned words of the window, a parameter register takes the written bits that exist,
in either SEQ state, no other register changes, and the running command keeps its latched copy; a write to a read-only
or reserved offset is ignored; and a read returns the register of its offset and changes nothing. The two records that a
read leaves, its data and that the end of the command has been observed, are the model's own (log 1, log 11). -/
def Obligations.ParameterWriteReadsBack : Prop :=
  ∀ (s : State) (off : Nat) (rest : List HostEvent), off % 4 = 0 → off < 0x80 →
    (∀ v : Word, s.host = .regWrite .word off v :: rest → 0x0C ≤ off → off ≤ 0x3C →
      ∃ t, step s = .next t ∧
        t.windowRead .word off =
          v &&& (if off = 0x0C then 0xFF else if off = 0x20 then 0x001FFF0F
                 else if off = 0x2C ∨ off = 0x34 then 0xFFFF else 0xFFFFFFFF) ∧
        (∀ o, o ≠ off → t.windowRead .word o = s.windowRead .word o) ∧
        t.latched = s.latched ∧ t.seq = s.seq ∧ t.dec = s.dec ∧ t.mem = s.mem ∧ t.work = s.work ∧ t.irq = s.irq) ∧
    (∀ v : Word, s.host = .regWrite .word off v :: rest → off = 0x00 ∨ 0x40 ≤ off →
      step s = .next { s with host := rest }) ∧
    (s.host = .regRead .word off :: rest →
      step s = .next
        { s with
          host := rest
          rdata := s.windowRead .word off
          owned := s.owned && !(decide (off = 0x08) && (s.status.done || decide (s.seq = .idle)))
          unobserved := if off = 0x08 ∧ (s.status.done = true ∨ s.seq = .idle) then [] else s.unobserved }) ∧
    (off, s.windowRead .word off) ∈
      ([(0x00, 0x4C5A3737), (0x04, if s.ie then 4 else 0),
        (0x08, (0 : BitVec 16) ++ s.status.errCode ++ (0 : BitVec 4) ++ BitVec.ofBool s.status.stored ++
          BitVec.ofBool s.status.err ++ BitVec.ofBool s.status.done ++ BitVec.ofBool (decide (s.seq = .busy))),
        (0x0C, s.regs.opcode.setWidth 32), (0x10, s.regs.srcAddr), (0x14, s.regs.srcLen), (0x18, s.regs.dstAddr),
        (0x1C, s.regs.dstCap), (0x20, s.regs.cfg), (0x24, s.regs.bsize), (0x28, s.regs.fcode0),
        (0x2C, s.regs.fcode1), (0x30, s.regs.fmeta0), (0x34, s.regs.fmeta1), (0x38, s.regs.arg0),
        (0x3C, s.regs.arg1), (0x40, s.results.result0), (0x44, s.results.result1), (0x48, s.results.result2),
        (0x4C, s.results.result3), (0x50, s.results.result4), (0x54, s.results.result5), (0x58, s.results.result6),
        (0x5C, s.results.result7), (0x60, s.results.result8), (0x64, s.errInfo), (0x68, 0), (0x6C, 0), (0x70, 0),
        (0x74, 0), (0x78, 0), (0x7C, 0)] : List (Nat × Word))

/-- 70_reset_and_hazards.md R517: STATUS bits 1 and 2 are cleared by writing 1, and no other register changes. -/
def Obligations.StatusWriteClearsDoneAndErr : Prop :=
  ∀ (s : State) (v : Word) (rest : List HostEvent), s.host = .regWrite .word 0x08 v :: rest →
    ∃ t, step s = .next t ∧ t.windowRead .word 0x08 = s.windowRead .word 0x08 &&& ~~~(v &&& 6) ∧
      (∀ o, o ≠ 0x08 → t.windowRead .word o = s.windowRead .word o) ∧
      t.irq = (s.irq && !v.getLsbD 1) ∧ t.mem = s.mem ∧ t.latched = s.latched ∧ t.seq = s.seq

/-! ## Interrupt, abort and interference -/

/-- 60_exceptions.md R456, R457: no interrupt while a command runs, and at the engine's move that ends it the output
is IE. A host that looks at the output sees it, and one that sees it asserted has observed the end of the command (the
record of both is the model's own, log 1 and log 11). -/
def Obligations.InterruptComesWithCompletion : Prop :=
  (∀ s t : State, s.Inv → s.seq = .busy → s.host = [] → step s = .next t →
    s.irq = false ∧ (t.seq = .idle → t.status.done = true ∧ t.irq = s.ie) ∧ (t.seq = .busy → t.irq = false)) ∧
  ∀ (s : State) (rest : List HostEvent), s.host = .irqRead :: rest →
    step s = .next
      { s with
        host := rest
        rdata := if s.irq then 1 else 0
        owned := s.owned && !s.irq
        unobserved := if s.irq then [] else s.unobserved }

/-- The model's reading of 60_exceptions.md R452 (log 9, DESIGN CHOICE): the first engine move after an ABORT either
ends the command with E_ABORTED or runs on as without the ABORT; where it ran on and the command is still BUSY, the
second one ends it with E_ABORTED. A region check that fails comes before the ABORT (R458): the move then runs the
command, which fails as WrappingRegionIsRefused and OverlappingRegionsAreRefused say (ERRINFO 1 of DECOMPRESS and
GET_ITEM_RANGE: log 26, DEDUCED). -/
def Obligations.AbortEndsWithinTwoMoves : Prop :=
  ∀ s : State, s.Inv → s.host = [] → s.seq = .busy → s.rejected = false → s.hung = false → s.abortReq = true →
    (∀ (i : Instr) (n : Nat), decode false (.word (s.latched.opcode.setWidth 32)) = .ok i →
      regionError i s.latched = some n → s.misused = false →
      ∃ t, step s = .next t ∧ exec i s = .next t ∧ FailedUntouched s t .arg (BitVec.ofNat 32 n)) ∧
    ((s.dec.running = true ∨ ∃ i, decode false (.word (s.latched.opcode.setWidth 32)) = .ok i ∧
        regionError i s.latched = none) →
      (∃ t, step s = .next t ∧ Failed s t .aborted 0 ∧
        SameOutside s t s.latched.dstAddr.toNat s.latched.dstCap.toNat) ∨
      (s.abortPassed = false ∧
        (s.misused = false → step s = runStep { s with abortPassed := true, free := s.free + 1 }) ∧
        ∃ t, step s = .next t ∧
          (t.seq = .busy → t.abortPassed = true ∧ ∃ u, step t = .next u ∧ Failed t u .aborted 0 ∧
            SameOutside t u t.latched.dstAddr.toNat t.latched.dstCap.toNat)))

/-- 20_memory.md R111, R120, 70_reset_and_hazards.md R512: what other agents and the bus do to a command, and how it ends
then. Outside the regions that commands own, another agent's accesses are plain ones. Inside those of the last command, a
write while BUSY and a read of the destination while BUSY leave a mark, with which the command runs on and only its
destination and the RESULT registers of a success are any value at its end; a write after the end but before anyone has
observed it makes the outcome any value at once. Of an earlier command whose end no one has observed a write makes the
destination any value. A read of an owned destination returns any value. A rejected access of the running command leaves
another mark, with which it ends with any outcome but changes no byte outside its destination; one that is never answered
stops the engine. The marks and the records of ownership are the model's own (log 11, log 17). -/
def Obligations.InterferenceEndsInSomeOutcome : Prop :=
  (∀ s : State, s.host = [] → s.seq = .busy → s.rejected = true → s.hung = false →
    ∃ t, step s = .next t ∧ t.seq = .idle ∧ t.status.done = true ∧ t.status.errCode.toNat ≤ 8 ∧
      (t.status.err = true ↔ t.status.errCode ≠ 0) ∧
      SameOutside s t s.latched.dstAddr.toNat s.latched.dstCap.toNat) ∧
  (∀ (s : State) (a : Word) (b : Byte) (rest : List HostEvent), s.host = .memWrite a b :: rest →
    ∃ (m : Memory) (f : Nat),
      (∀ c, (∀ p ∈ s.unobserved, InRegions p a.toNat → ¬ InDestination p c) →
        m.read c = (s.mem.write a.toNat b).read c) ∧
      ((∀ p ∈ s.unobserved, ¬ InRegions p a.toNat) → m = s.mem.write a.toNat b ∧ f = s.free) ∧
      (s.owned = false ∨ ¬ InRegions s.latched a.toNat →
        step s = .next { s with host := rest, mem := m, free := f }) ∧
      (s.owned = true → InRegions s.latched a.toNat → s.seq = .busy →
        step s = .next { s with host := rest, mem := m, free := f, misused := true }) ∧
      (s.owned = true → InRegions s.latched a.toNat → s.seq = .idle →
        ∃ t, step s = .next t ∧ AnyOutcome { s with host := rest, mem := m, free := f } t)) ∧
  (∀ (s : State) (a : Word) (rest : List HostEvent), s.host = .memRead a :: rest →
    (s.owned = false ∨ ¬ InDestination s.latched a.toNat → (∀ p ∈ s.unobserved, ¬ InDestination p a.toNat) →
      step s = .next { s with host := rest, rdata := (s.mem.read a.toNat).setWidth 32 }) ∧
    (s.owned = false ∨ ¬ InDestination s.latched a.toNat → (∃ p ∈ s.unobserved, InDestination p a.toNat) →
      ∃ b : Byte, step s = .next { s with host := rest, rdata := b.setWidth 32, free := s.free + 1 }) ∧
    (s.owned = true → InDestination s.latched a.toNat →
      ∃ b : Byte, step s = .next
        { s with
          host := rest
          rdata := b.setWidth 32
          free := s.free + 1
          misused := s.misused || decide (s.seq = .busy) })) ∧
  (∀ s t : State, s.host = [] → s.seq = .busy → s.misused = true → s.rejected = false → s.hung = false →
    step { s with misused := false } = .next t →
    ∃ u, step s = .next u ∧ SameOutside t u s.latched.dstAddr.toNat s.latched.dstCap.toNat ∧
      u.status = t.status ∧ u.errInfo = t.errInfo ∧ u.seq = t.seq ∧ u.dec = t.dec ∧
      (t.seq = .busy ∨ t.status.err = true → u.results = t.results) ∧
      SameHostSide { t with misused := true } u) ∧
  (∀ (s : State) (rest : List HostEvent),
    (s.host = .busError :: rest → (s.seq = .busy ∧ AccessesMemory s →
        step s = .next { s with host := rest, rejected := true }) ∧
      (¬ (s.seq = .busy ∧ AccessesMemory s) → step s = .next { s with host := rest })) ∧
    (s.host = .busHang :: rest → (s.seq = .busy ∧ AccessesMemory s →
        step s = .next { s with host := rest, hung := true }) ∧
      (¬ (s.seq = .busy ∧ AccessesMemory s) → step s = .next { s with host := rest })) ∧
    (s.host = [] → s.seq = .busy → s.hung = true → step s = .next s))

/-! ## Errors found before a command's own part -/

/-- 20_memory.md R108: a command one of whose regions runs past 2^32 fails with E_ARG(0) and accesses no memory. -/
def Obligations.WrappingRegionIsRefused : Prop :=
  ∀ (s : State) (i : Instr),
    (i ∈ ([.compress, .decompress, .chunkSizes, .getItemRange, .lzCompress, .lzDecompress, .shuffle, .unshuffle,
        .bitshuffle, .bitunshuffle, .deltaEncode, .deltaDecode, .truncPrec] : List Instr) ∧
      4294967296 < s.latched.srcAddr.toNat + s.latched.srcLen.toNat) ∨
    (i ∈ ([.compress, .decompress, .getItemRange, .hdrEncode, .lzCompress, .lzDecompress, .shuffle, .unshuffle,
        .bitshuffle, .bitunshuffle, .deltaEncode, .deltaDecode, .truncPrec] : List Instr) ∧
      4294967296 < s.latched.dstAddr.toNat + s.latched.dstCap.toNat) ∨
    (i ∈ ([.deltaEncode, .deltaDecode] : List Instr) ∧ s.latched.refBlock = false ∧
      4294967296 < s.latched.arg0.toNat + s.latched.srcLen.toNat) →
    ∃ t, exec i s = .next t ∧ FailedUntouched s t .arg 0

/-- 20_memory.md R109: with every region in memory, a destination that has an address in common with the source fails
with E_ARG(1), and else one that has an address in common with the delta reference with E_ARG(2). That ERRINFO is 1 for
DECOMPRESS and GET_ITEM_RANGE too is the model's reading of R109 and R446 against 41_pipeline.md R289 (log 26,
DEDUCED). -/
def Obligations.OverlappingRegionsAreRefused : Prop :=
  ∀ (s : State) (i : Instr),
    i ∈ ([.compress, .decompress, .getItemRange, .lzCompress, .lzDecompress, .shuffle, .unshuffle, .bitshuffle,
      .bitunshuffle, .deltaEncode, .deltaDecode, .truncPrec] : List Instr) →
    s.latched.srcAddr.toNat + s.latched.srcLen.toNat ≤ 4294967296 →
    s.latched.dstAddr.toNat + s.latched.dstCap.toNat ≤ 4294967296 →
    (i ∈ ([.deltaEncode, .deltaDecode] : List Instr) → s.latched.refBlock = false →
      s.latched.arg0.toNat + s.latched.srcLen.toNat ≤ 4294967296) →
    ((∃ a, s.latched.src.holds a = true ∧ s.latched.dst.holds a = true) →
      ∃ t, exec i s = .next t ∧ FailedUntouched s t .arg 1) ∧
    ((¬ ∃ a, s.latched.src.holds a = true ∧ s.latched.dst.holds a = true) →
      i ∈ ([.deltaEncode, .deltaDecode] : List Instr) → s.latched.refBlock = false →
      (∃ a, s.latched.ref.holds a = true ∧ s.latched.dst.holds a = true) →
      ∃ t, exec i s = .next t ∧ FailedUntouched s t .arg 2)

/-! ## The filter commands -/

/-- 42_filters.md R320, R321: SHUFFLE moves byte k of element i to byte i of plane k and copies the tail. -/
def Obligations.ShuffleMovesBytesToPlanes : Prop :=
  ∀ s : State, s.mem.wf → FilterFits s.latched → 1 ≤ s.latched.typesize →
    ∃ t, exec .shuffle s = .next t ∧ Filtered s t s.latched.srcLen.toNat ∧
      (∀ i k, i < s.elements → k < s.latched.typesize →
        t.dstByte (k * s.elements + i) = s.srcByte (i * s.latched.typesize + k)) ∧
      ∀ b, s.elements * s.latched.typesize ≤ b → b < s.latched.srcLen.toNat → t.dstByte b = s.srcByte b

/-- 42_filters.md R322, R323: UNSHUFFLE moves byte i of plane k to byte k of element i and copies the tail. -/
def Obligations.UnshuffleMovesBytesToElements : Prop :=
  ∀ s : State, s.mem.wf → FilterFits s.latched → 1 ≤ s.latched.typesize →
    ∃ t, exec .unshuffle s = .next t ∧ Filtered s t s.latched.srcLen.toNat ∧
      (∀ i k, i < s.elements → k < s.latched.typesize →
        t.dstByte (i * s.latched.typesize + k) = s.srcByte (k * s.elements + i)) ∧
      ∀ b, s.elements * s.latched.typesize ≤ b → b < s.latched.srcLen.toNat → t.dstByte b = s.srcByte b

/-- 42_filters.md R330, R333: BITSHUFFLE moves bit q of element i to bit i of plane q and copies the tail. -/
def Obligations.BitshuffleMovesBitsToPlanes : Prop :=
  ∀ s : State, s.mem.wf → FilterFits s.latched → 1 ≤ s.latched.typesize → s.elements % 8 = 0 →
    ∃ t, exec .bitshuffle s = .next t ∧ Filtered s t s.latched.srcLen.toNat ∧
      (∀ i q, i < s.elements → q < 8 * s.latched.typesize →
        t.dstBit (q * s.elements + i) = s.srcBit (i * (8 * s.latched.typesize) + q)) ∧
      ∀ b, s.elements * s.latched.typesize ≤ b → b < s.latched.srcLen.toNat → t.dstByte b = s.srcByte b

/-- 42_filters.md R332, R334: BITUNSHUFFLE moves bit i of plane q to bit q of element i and copies the tail. -/
def Obligations.BitunshuffleMovesBitsToElements : Prop :=
  ∀ s : State, s.mem.wf → FilterFits s.latched → 1 ≤ s.latched.typesize → s.elements % 8 = 0 →
    ∃ t, exec .bitunshuffle s = .next t ∧ Filtered s t s.latched.srcLen.toNat ∧
      (∀ i q, i < s.elements → q < 8 * s.latched.typesize →
        t.dstBit (i * (8 * s.latched.typesize) + q) = s.srcBit (q * s.elements + i)) ∧
      ∀ b, s.elements * s.latched.typesize ≤ b → b < s.latched.srcLen.toNat → t.dstByte b = s.srcByte b

/-- 42_filters.md R340, R343: DELTA_ENCODE of a reference block XORs each byte with the source byte one element
back. -/
def Obligations.DeltaEncodeAgainstPreviousElement : Prop :=
  ∀ (s : State) (w : Nat), s.mem.wf → FilterFits s.latched → 1 ≤ s.latched.typesize → s.latched.refBlock = true →
    PreviousElement s.latched.typesize w →
    ∃ t, exec .deltaEncode s = .next t ∧ Filtered s t s.latched.srcLen.toNat ∧
      ∀ b, b < s.latched.srcLen.toNat → t.dstByte b = s.srcByte b ^^^ (if w ≤ b then s.srcByte (b - w) else 0)

/-- 42_filters.md R341, R344: DELTA_DECODE of a reference block XORs each byte with the destination byte one element
back. -/
def Obligations.DeltaDecodeAgainstPreviousElement : Prop :=
  ∀ (s : State) (w : Nat), s.mem.wf → FilterFits s.latched → 1 ≤ s.latched.typesize → s.latched.refBlock = true →
    PreviousElement s.latched.typesize w →
    ∃ t, exec .deltaDecode s = .next t ∧ Filtered s t s.latched.srcLen.toNat ∧
      ∀ b, b < s.latched.srcLen.toNat → t.dstByte b = s.srcByte b ^^^ (if w ≤ b then t.dstByte (b - w) else 0)

/-- 42_filters.md R340, R343, R344: with REF_BLOCK = 0 both delta commands XOR each byte with the reference block's. -/
def Obligations.DeltaAgainstReferenceBlock : Prop :=
  ∀ (s : State) (i : Instr), i = .deltaEncode ∨ i = .deltaDecode → s.mem.wf → FilterFits s.latched →
    1 ≤ s.latched.typesize → s.latched.refBlock = false → ReferenceFits s.latched →
    ∃ t, exec i s = .next t ∧ Filtered s t s.latched.srcLen.toNat ∧
      ∀ b, b < s.latched.srcLen.toNat → t.dstByte b = s.srcByte b ^^^ s.refByte b

/-- 42_filters.md R350, R352: TRUNC_PREC clears the low z bits of every little-endian element and copies the tail. -/
def Obligations.TruncPrecClearsLowBits : Prop :=
  ∀ (s : State) (m z : Nat), s.mem.wf → FilterFits s.latched →
    PrecisionAccepted s.latched.typesize m (s.latched.arg0.extractLsb' 0 8).toInt z →
    ∃ t, exec .truncPrec s = .next t ∧ Filtered s t s.latched.srcLen.toNat ∧
      (∀ i, i < s.elements →
        leNat (t.mem.readBytes (s.latched.dstAddr.toNat + i * s.latched.typesize) s.latched.typesize) =
          leNat (s.mem.readBytes (s.latched.srcAddr.toNat + i * s.latched.typesize) s.latched.typesize)
            / 2 ^ z * 2 ^ z) ∧
      ∀ b, s.elements * s.latched.typesize ≤ b → b < s.latched.srcLen.toNat → t.dstByte b = s.srcByte b

/-- 42_filters.md R321, R333, R352: the argument checks of the filter commands, in their order, each leaving memory
as it was. -/
def Obligations.FilterArgumentErrors : Prop :=
  ∀ (s : State) (i : Instr),
    i ∈ ([.shuffle, .unshuffle, .bitshuffle, .bitunshuffle, .deltaEncode, .deltaDecode, .truncPrec] : List Instr) →
    RegionsFit s.latched →
    (i ∈ ([.deltaEncode, .deltaDecode] : List Instr) → s.latched.refBlock = false → ReferenceFits s.latched) →
    (262144 < s.latched.srcLen.toNat → ∃ t, exec i s = .next t ∧ FailedUntouched s t .arg 5) ∧
    (s.latched.srcLen.toNat ≤ 262144 → i ≠ .truncPrec → s.latched.typesize = 0 →
      ∃ t, exec i s = .next t ∧ FailedUntouched s t .arg 4) ∧
    (s.latched.srcLen.toNat ≤ 262144 → i = .truncPrec →
      (∀ m z, ¬ PrecisionAccepted s.latched.typesize m (s.latched.arg0.extractLsb' 0 8).toInt z) →
      ∃ t, exec i s = .next t ∧ FailedUntouched s t .arg 8) ∧
    (s.latched.srcLen.toNat ≤ 262144 → i ∈ ([.bitshuffle, .bitunshuffle] : List Instr) → 1 ≤ s.latched.typesize →
      s.elements % 8 ≠ 0 → ∃ t, exec i s = .next t ∧ FailedUntouched s t .arg 7) ∧
    (s.latched.srcLen.toNat ≤ 262144 → (i ≠ .truncPrec → 1 ≤ s.latched.typesize) →
      (i ∈ ([.bitshuffle, .bitunshuffle] : List Instr) → s.elements % 8 = 0) →
      (i = .truncPrec → ∃ m z, PrecisionAccepted s.latched.typesize m (s.latched.arg0.extractLsb' 0 8).toInt z) →
      s.latched.dstCap.toNat < s.latched.srcLen.toNat →
      ∃ t, exec i s = .next t ∧ FailedUntouched s t .destSmall 0)

/-- 42_filters.md R324: the byte shuffles are inverses of each other. -/
def Obligations.ShuffleInverse : Prop :=
  ∀ (ts : Nat) (x : List Byte), 1 ≤ ts → unshuffle ts (shuffle ts x) = x ∧ shuffle ts (unshuffle ts x) = x

/-- 42_filters.md R337: the bit shuffles are inverses, on 8-aligned element counts and on the aligned prefix. -/
def Obligations.BitshuffleInverse : Prop :=
  ∀ (ts : Nat) (x : List Byte), 1 ≤ ts →
    (x.length / ts % 8 = 0 → bitunshuffle ts (bitshuffle ts x) = x) ∧
    bitunshuffleAligned ts (bitshuffleAligned ts x) = x

/-- 42_filters.md R342: the delta forms are inverses. -/
def Obligations.DeltaInverse : Prop :=
  ∀ (ts : Nat) (x r : List Byte), 1 ≤ ts → x.length ≤ r.length →
    undeltaRef ts (deltaRef ts x) = x ∧ deltaXor (deltaXor x r) r = x

/-! ## The header commands -/

/-- 40_header.md R230: CHUNK_SIZES of an accepted header reports its fields and leaves memory as it was. -/
def Obligations.ChunkSizesReportsTheHeader : Prop :=
  ∀ s : State, s.latched.srcAddr.toNat + s.latched.srcLen.toNat ≤ 4294967296 → HeaderAccepted s →
    ∃ t, exec .chunkSizes s = .next t ∧ t.mem = s.mem ∧
      Completed s t
        (if s.srcExtended then
          ⟨s.srcWord 4, s.srcWord 12, s.srcWord 8, s.srcWord 0, 32, s.srcWord 16, s.srcWord 20, s.srcWord 24,
            s.srcWord 28⟩
         else
          ⟨s.srcWord 4, s.srcWord 12, s.srcWord 8, s.srcWord 0, 16, 0,
            ((s.srcByte 2).extractLsb' 5 3).setWidth 32 <<< 16, 0, 0⟩)
        ((s.srcByte 2).getLsbD 1)

/-- 40_header.md R221 to R227: CHUNK_SIZES, DECOMPRESS and GET_ITEM_RANGE answer a source shorter than the header it
announces with E_SHORT, and a header with a bad field with E_HEADER. -/
def Obligations.HeaderErrors : Prop :=
  ∀ (s : State) (i : Instr), (i = .chunkSizes ∨ i = .decompress ∨ i = .getItemRange) → RegionsFit s.latched →
    (s.latched.srcLen.toNat < 16 → ∃ t, exec i s = .next t ∧ FailedUntouched s t .short 0) ∧
    (16 ≤ s.latched.srcLen.toNat → ¬ FieldsAccepted s → ∃ t, exec i s = .next t ∧ FailedUntouched s t .header 0) ∧
    (16 ≤ s.latched.srcLen.toNat → FieldsAccepted s → s.srcExtended = true → s.latched.srcLen.toNat < 32 →
      ∃ t, exec i s = .next t ∧ FailedUntouched s t .short 0) ∧
    (32 ≤ s.latched.srcLen.toNat → FieldsAccepted s → s.srcExtended = true → (s.srcWord 12).toNat < 32 →
      ∃ t, exec i s = .next t ∧ FailedUntouched s t .header 0)

/-- 40_header.md R229, R233: HDR_ENCODE of accepted parameters writes their header to the destination and returns its
length. -/
def Obligations.HdrEncodeWritesTheHeader : Prop :=
  ∀ (s : State), s.mem.wf → s.latched.dstAddr.toNat + s.latched.dstCap.toNat ≤ 4294967296 →
    HdrEncodeAccepts s.latched → s.latched.hlen ≤ s.latched.dstCap.toNat →
    ∃ t, exec .hdrEncode s = .next t ∧
      Completed s t (resultsOf (BitVec.ofNat 32 s.latched.hlen) 0 0) false ∧
      SameOutside s t s.latched.dstAddr.toNat s.latched.hlen ∧
      HeaderAt t s.latched s.latched.storedArg s.latched.srcLen s.latched.bsize s.latched.arg1

/-- 40_header.md R233, R234: HDR_ENCODE refuses both shuffles in a minimal header with E_ARG(9), then parameters that
fail the header checks with E_ARG(10), then a destination that is too small, and writes nothing. -/
def Obligations.HdrEncodeErrors : Prop :=
  ∀ s : State, s.latched.dstAddr.toNat + s.latched.dstCap.toNat ≤ 4294967296 →
    (s.latched.extHdr = false → s.latched.shuf = true → s.latched.bshuf = true →
      ∃ t, exec .hdrEncode s = .next t ∧ FailedUntouched s t .arg 9) ∧
    (¬ (s.latched.extHdr = false ∧ s.latched.shuf = true ∧ s.latched.bshuf = true) →
      ¬ HdrEncodeAccepts s.latched → ∃ t, exec .hdrEncode s = .next t ∧ FailedUntouched s t .arg 10) ∧
    (HdrEncodeAccepts s.latched → s.latched.dstCap.toNat < s.latched.hlen →
      ∃ t, exec .hdrEncode s = .next t ∧ FailedUntouched s t .destSmall 0)

/-- 40_header.md R235: CHUNK_SIZES, run on the bytes HDR_ENCODE wrote, gives the operands back. -/
def Obligations.HeaderRoundTrip : Prop :=
  ∀ s t u : State, s.mem.wf → s.latched.dstAddr.toNat + s.latched.dstCap.toNat ≤ 4294967296 →
    HdrEncodeAccepts s.latched → s.latched.hlen ≤ s.latched.dstCap.toNat →
    (s.latched.storedArg = true → s.latched.fcode0 = 0 ∧ s.latched.fcode1 = 0 ∧ s.latched.fmeta0 = 0 ∧
      s.latched.fmeta1 = 0) →
    (s.latched.extHdr = false → s.latched.fcode0 = 0 ∧ s.latched.fcode1 = 0 ∧ s.latched.fmeta0 = 0 ∧
      s.latched.fmeta1 = 0) →
    s.latched.Legal → exec .hdrEncode s = .next t → u.mem = t.mem →
    u.latched.srcAddr = s.latched.dstAddr → u.latched.srcLen.toNat = s.latched.hlen →
    ∃ v, exec .chunkSizes u = .next v ∧ v.mem = u.mem ∧
      Completed u v
        ⟨s.latched.srcLen, s.latched.arg1, s.latched.bsize,
          s.latched.typesizeByte ++ s.latched.headerParams.flags ++ (1 : Byte) ++
            (if s.latched.extHdr then (3 : Byte) else 2),
          BitVec.ofNat 32 s.latched.hlen, s.latched.fcode0, s.latched.fcode1, s.latched.fmeta0, s.latched.fmeta1⟩
        s.latched.storedArg

/-! ## The pipeline commands -/

/-- 41_pipeline.md R300 and 60_exceptions.md R451: NOP completes with every result 0 and does nothing else; in a state
that the invariant allows, where START has cleared the flags, it leaves DONE = 1 and every other flag 0. -/
def Obligations.NopCompletes : Prop :=
  ∀ s : State, ∃ t, exec .nop s = .next t ∧ Completed s t Results.zero false ∧ t.mem = s.mem ∧
    (s.Inv → s.seq = .busy → t.status = ⟨true, false, false, 0⟩)

/-- 41_pipeline.md R267 to R271, R273, R277: what COMPRESS of an accepted configuration writes, byte for byte up to the
end of the chunk, and which chunk it is. The stored chunk is written exactly under the four conditions; otherwise the
coded one, whose payloads are the encoder's streams of the filtered blocks. A chunk that fits succeeds (so H + n bytes
of room always do); one that does not is E_DEST_SMALL, which leaves memory as it was if the chunk is stored
(log 12). -/
def Obligations.CompressSucceedsWithRoom : Prop :=
  ∀ (s : State) (n h bs nb : Nat), s.mem.wf → CompressAccepts s.latched →
    n = s.latched.srcLen.toNat → h = s.latched.hlen →
    BlockSizeIs s.latched.effort s.latched.typesize n s.latched.bsize.toNat bs → nb = cdiv n bs →
    (StoresVerbatim s bs →
      (h + n ≤ s.latched.dstCap.toNat → ∃ t, exec .compress s = .next t ∧
        Completed s t (resultsOf (BitVec.ofNat 32 (h + n)) 0 (BitVec.ofNat 32 bs)) true ∧
        SameOutside s t s.latched.dstAddr.toNat s.latched.dstCap.toNat ∧
        HeaderAt t s.latched true s.latched.srcLen (BitVec.ofNat 32 bs) (BitVec.ofNat 32 (h + n)) ∧
        ∀ k, k < n → t.dstByte (h + k) = s.srcByte k) ∧
      (s.latched.dstCap.toNat < h + n → ∃ t, exec .compress s = .next t ∧ FailedUntouched s t .destSmall 0)) ∧
    (¬ StoresVerbatim s bs → 1 ≤ nb ∧ h < s.codedLength bs ∧ s.codedLength bs < h + n ∧
      (s.codedLength bs ≤ s.latched.dstCap.toNat → ∃ t, exec .compress s = .next t ∧
        Completed s t
          (resultsOf (BitVec.ofNat 32 (s.codedLength bs)) (BitVec.ofNat 32 nb) (BitVec.ofNat 32 bs)) false ∧
        SameOutside s t s.latched.dstAddr.toNat s.latched.dstCap.toNat ∧
        HeaderAt t s.latched false s.latched.srcLen (BitVec.ofNat 32 bs) (BitVec.ofNat 32 (s.codedLength bs)) ∧
        (1 < nb → ∀ j, j < nb → t.dstWord (h + 4 * j) = BitVec.ofNat 32 (s.codedOffset bs j)) ∧
        ∀ j, j < nb → t.mem.readBytes (s.latched.dstAddr.toNat + s.codedOffset bs j) (s.codedBlock bs j).length =
          s.codedBlock bs j) ∧
      (s.latched.dstCap.toNat < s.codedLength bs → ∃ t, exec .compress s = .next t ∧ Failed s t .destSmall 0 ∧
        SameOutside s t s.latched.dstAddr.toNat s.latched.dstCap.toNat))

/-- 41_pipeline.md R275, 43_lz_codec.md R395: the argument checks of COMPRESS and of LZ_COMPRESS, in order, each leaving
memory as it was. -/
def Obligations.CompressArgumentErrors : Prop :=
  ∀ s : State, RegionsFit s.latched →
    (9 < s.latched.effort → ∃ t, exec .compress s = .next t ∧ FailedUntouched s t .arg 3) ∧
    (s.latched.effort ≤ 9 → s.latched.typesize = 0 → ∃ t, exec .compress s = .next t ∧ FailedUntouched s t .arg 4) ∧
    (s.latched.effort ≤ 9 → 1 ≤ s.latched.typesize → 2147483615 < s.latched.srcLen.toNat →
      ∃ t, exec .compress s = .next t ∧ FailedUntouched s t .arg 5) ∧
    (s.latched.effort ≤ 9 → 1 ≤ s.latched.typesize → s.latched.srcLen.toNat ≤ 2147483615 →
      s.latched.extHdr = false → s.latched.shuf = true → s.latched.bshuf = true →
      ∃ t, exec .compress s = .next t ∧ FailedUntouched s t .arg 9) ∧
    (s.latched.effort ≤ 9 → 1 ≤ s.latched.typesize → s.latched.srcLen.toNat ≤ 2147483615 →
      s.latched.extHdr = true → ∀ (k : Nat) (c m : Byte), s.latched.fcode[k]? = some c → s.latched.fmeta[k]? = some m →
      (∀ (j : Nat) (c' m' : Byte), j < k → s.latched.fcode[j]? = some c' → s.latched.fmeta[j]? = some m' →
        c'.toNat < 5 ∧ (c' = 4 → truncOk s.latched.typesize m'.toInt = true)) →
      (5 ≤ c.toNat → ∃ t, exec .compress s = .next t ∧ FailedUntouched s t .unsupported 0) ∧
      (c = 4 → truncOk s.latched.typesize m.toInt = false →
        ∃ t, exec .compress s = .next t ∧ FailedUntouched s t .arg 8)) ∧
    (9 < s.latched.effort → ∃ t, exec .lzCompress s = .next t ∧ FailedUntouched s t .arg 3) ∧
    (s.latched.effort ≤ 9 → 262144 < s.latched.srcLen.toNat →
      ∃ t, exec .lzCompress s = .next t ∧ FailedUntouched s t .arg 5)

/-- 41_pipeline.md R285, R287: DECOMPRESS of a stored chunk copies its bytes after the header. -/
def Obligations.DecompressCopiesAStoredChunk : Prop :=
  ∀ (s : State) (n : Nat), ChunkAtHand s → n = (s.srcWord 4).toNat → (s.srcByte 2).getLsbD 1 = true →
    n ≤ s.latched.dstCap.toNat → (s.srcWord 12).toNat = s.srcHeaderLength + n →
    ∃ t, exec .decompress s = .next t ∧ Completed s t (resultsOf (s.srcWord 4) 0 0) true ∧
      SameOutside s t s.latched.dstAddr.toNat n ∧
      ∀ k, k < n → t.dstByte k = s.srcByte (s.srcHeaderLength + k)

/-- 41_pipeline.md R285, R288 to R290: DECOMPRESS of a coded chunk, of one block or of several and with any filters,
writes each block's decoded payload after the inverse filters, the delta reference of the later blocks being the bytes
it wrote for block 0; of an empty one it writes nothing. -/
def Obligations.DecompressDecodesOneBlock : Prop :=
  ∀ (s : State) (n : Nat), ChunkAtHand s → ChunkSupported s → (s.srcByte 2).getLsbD 1 = false →
    n = (s.srcWord 4).toNat → n ≤ s.latched.dstCap.toNat →
    (n = 0 → ∃ t, exec .decompress s = .next t ∧ Completed s t (resultsOf 0 0 0) false ∧ t.mem = s.mem) ∧
    ∀ x : Nat → List Byte, 1 ≤ n → TableAccepted s → (∀ j, j < s.chunkBlocks → BlockDecodes s j (x j)) →
      ∃ t, exec .decompress s = .next t ∧ Completed s t (resultsOf (s.srcWord 4) 0 0) false ∧
        SameOutside s t s.latched.dstAddr.toNat n ∧
        ∀ j, j < s.chunkBlocks →
          t.mem.readBytes (s.latched.dstAddr.toNat + j * (s.srcWord 8).toNat) (s.chunkBlockLength j) =
            undoFilters (s.srcByte 3).toNat j (t.mem.readBytes s.latched.dstAddr.toNat (s.srcWord 8).toNat)
              s.sourceFilters (x j)

/-- 41_pipeline.md R285 to R289, R293, R302 and 60_exceptions.md R453: the failures of the two chunk readers after the
header, in order: the chunk's length, its support, the range and the room, the stored length, the block-offset table,
the blocks. Only the E_TRUNCATED of a block may change the destination; where the first block that is decoded fails,
nothing has been written and memory is as it was (92_eei_decisions.md D11; the model's reading, log 13). That ERRINFO is 6
for a range past the end is the model's reading of R293 and R294 against R289 (log 26, DEDUCED). -/
def Obligations.ChunkReaderErrors : Prop :=
  ∀ (s : State) (a z : Nat), RegionsFit s.latched → HeaderAccepted s →
    a = s.latched.arg0.toNat * (s.srcByte 3).toNat →
    z = (s.latched.arg0.toNat + s.latched.arg1.toNat) * (s.srcByte 3).toNat →
    (s.latched.srcLen.toNat < (s.srcWord 12).toNat → ∀ i : Instr, i = .decompress ∨ i = .getItemRange →
      ∃ t, exec i s = .next t ∧ FailedUntouched s t .truncated 0) ∧
    ((s.srcWord 12).toNat ≤ s.latched.srcLen.toNat → ¬ ChunkSupported s →
      ∀ i : Instr, i = .decompress ∨ i = .getItemRange →
        ∃ t, exec i s = .next t ∧ FailedUntouched s t .unsupported 0) ∧
    ((s.srcWord 12).toNat ≤ s.latched.srcLen.toNat → ChunkSupported s →
      (s.latched.dstCap.toNat < (s.srcWord 4).toNat →
        ∃ t, exec .decompress s = .next t ∧ FailedUntouched s t .destSmall 0) ∧
      ((s.srcWord 4).toNat ≤ s.latched.dstCap.toNat → (s.srcByte 2).getLsbD 1 = true →
        (s.srcWord 12).toNat ≠ s.srcHeaderLength + (s.srcWord 4).toNat →
        ∃ t, exec .decompress s = .next t ∧ FailedUntouched s t .header 0) ∧
      ((s.srcWord 4).toNat < z → ∃ t, exec .getItemRange s = .next t ∧ FailedUntouched s t .arg 6) ∧
      (z ≤ (s.srcWord 4).toNat → s.latched.dstCap.toNat < z - a →
        ∃ t, exec .getItemRange s = .next t ∧ FailedUntouched s t .destSmall 0) ∧
      (z ≤ (s.srcWord 4).toNat → z - a ≤ s.latched.dstCap.toNat → (s.srcByte 2).getLsbD 1 = true →
        (s.srcWord 12).toNat ≠ s.srcHeaderLength + (s.srcWord 4).toNat →
        ∃ t, exec .getItemRange s = .next t ∧ FailedUntouched s t .header 0)) ∧
    ∀ i : Instr, ReachesBlocks s i →
      ((s.srcWord 12).toNat < s.tableEnd → ∃ t, exec i s = .next t ∧ FailedUntouched s t .truncated 0) ∧
      (s.tableEnd ≤ (s.srcWord 12).toNat → 1 < s.chunkBlocks → ¬ TableInOrder s →
        ∃ t, exec i s = .next t ∧ FailedUntouched s t .header 0) ∧
      (s.tableEnd ≤ (s.srcWord 12).toNat → 1 < s.chunkBlocks → TableInOrder s →
        (s.srcWord 12).toNat < s.tableEntry (s.chunkBlocks - 1) →
        ∃ t, exec i s = .next t ∧ FailedUntouched s t .truncated 0) ∧
      (TableAccepted s → ∀ j, ReadsBlock s i j → (¬ ∃ x, BlockDecodes s j x) →
        ∃ t, exec i s = .next t ∧ Failed s t .truncated 0 ∧
          SameOutside s t s.latched.dstAddr.toNat s.latched.dstCap.toNat ∧
          ((∀ k, ReadsBlock s i k → j ≤ k) → t.mem = s.mem))

/-- 41_pipeline.md R287, R293: GET_ITEM_RANGE of a stored chunk copies the items asked for. -/
def Obligations.GetItemRangeCopiesFromAStoredChunk : Prop :=
  ∀ (s : State) (a z : Nat), ChunkAtHand s → (s.srcByte 2).getLsbD 1 = true →
    a = s.latched.arg0.toNat * (s.srcByte 3).toNat →
    z = (s.latched.arg0.toNat + s.latched.arg1.toNat) * (s.srcByte 3).toNat → z ≤ (s.srcWord 4).toNat →
    z - a ≤ s.latched.dstCap.toNat → (s.srcWord 12).toNat = s.srcHeaderLength + (s.srcWord 4).toNat →
    ∃ t, exec .getItemRange s = .next t ∧ Completed s t (resultsOf (BitVec.ofNat 32 (z - a)) 0 0) true ∧
      SameOutside s t s.latched.dstAddr.toNat (z - a) ∧
      ∀ k, k < z - a → t.dstByte k = s.srcByte (s.srcHeaderLength + a + k)

/-- 41_pipeline.md R293, R295, R296 item 4: of a chunk that DECOMPRESS reads, GET_ITEM_RANGE gives the bytes of the range.
It reads no more than it needs: it gives them as soon as the block-offset table is accepted and the blocks that meet the
range decode, with block 0 beside them where a delta filter needs it, whatever the payloads of the other blocks are; and
of an empty range it reads no block and no table. -/
def Obligations.GetItemRangeIsASliceOfDecompress : Prop :=
  (∀ (s t u : State) (a z : Nat), s.mem.wf → u.mem = s.mem → RegionsFit s.latched → RegionsFit u.latched →
    u.latched.srcAddr = s.latched.srcAddr → u.latched.srcLen = s.latched.srcLen →
    exec .decompress s = .next t → t.status.err = false →
    a = u.latched.arg0.toNat * (s.srcByte 3).toNat →
    z = (u.latched.arg0.toNat + u.latched.arg1.toNat) * (s.srcByte 3).toNat →
    z ≤ (s.srcWord 4).toNat → z - a ≤ u.latched.dstCap.toNat →
    ∃ v, exec .getItemRange u = .next v ∧
      Completed u v (resultsOf (BitVec.ofNat 32 (z - a)) 0 0) ((s.srcByte 2).getLsbD 1) ∧
      SameOutside u v u.latched.dstAddr.toNat (z - a) ∧ ∀ k, k < z - a → v.dstByte k = t.dstByte (a + k)) ∧
  ∀ s : State, ChunkAtHand s →
    (∀ x : Nat → List Byte, ReachesBlocks s .getItemRange → TableAccepted s →
      (∀ j, ReadsBlock s .getItemRange j → BlockDecodes s j (x j)) →
      ∃ t, exec .getItemRange s = .next t ∧
        Completed s t (resultsOf (BitVec.ofNat 32 (s.rangeEnd - s.rangeStart)) 0 0) false ∧
        SameOutside s t s.latched.dstAddr.toNat (s.rangeEnd - s.rangeStart) ∧
        ∀ k, k < s.rangeEnd - s.rangeStart → t.dstByte k = s.chunkByte x (s.rangeStart + k)) ∧
    (ChunkSupported s → (s.srcByte 2).getLsbD 1 = false → s.rangeStart = s.rangeEnd →
      s.rangeEnd ≤ (s.srcWord 4).toNat →
      ∃ t, exec .getItemRange s = .next t ∧ Completed s t (resultsOf 0 0 0) false ∧ t.mem = s.mem)

/-- 41_pipeline.md R279: DECOMPRESS of the chunk that COMPRESS wrote gives the source back, for every configuration
that COMPRESS accepts without the lossy filter. -/
def Obligations.CompressDecompressRoundTrip : Prop :=
  ∀ s t u : State, s.mem.wf → CompressAccepts s.latched → Lossless s.latched.pipeline →
    exec .compress s = .next t → t.status.err = false → u.mem = t.mem → RegionsFit u.latched →
    u.latched.srcAddr = s.latched.dstAddr → u.latched.srcLen = t.results.result0 →
    s.latched.srcLen.toNat ≤ u.latched.dstCap.toNat →
    ∃ v, exec .decompress u = .next v ∧ Completed u v (resultsOf s.latched.srcLen 0 0) t.status.stored ∧
      SameOutside u v u.latched.dstAddr.toNat s.latched.srcLen.toNat ∧
      ∀ k, k < s.latched.srcLen.toNat → v.dstByte k = s.srcByte k

/-! ## The codec commands and the tokens -/

/-- 43_lz_codec.md R381 to R391, R395, R396, R415: LZ_COMPRESS of an accepted source returns 0 exactly where the encoder
does, and otherwise writes the encoder's stream and its length; the stream is shorter than the source and decodes to
it. -/
def Obligations.LzCompressWritesADecodableStream : Prop :=
  ∀ (s : State) (x z : List Byte), s.mem.wf → RegionsFit s.latched → s.latched.effort ≤ 9 →
    s.latched.srcLen.toNat ≤ 262144 → x = s.mem.readBytes s.latched.srcAddr.toNat s.latched.srcLen.toNat →
    z = greedyStream s.latched.effort x →
    (NotCompressible s.latched.effort x s.latched.dstCap.toNat →
      ∃ t, exec .lzCompress s = .next t ∧ Completed s t (resultsOf 0 0 0) false ∧
        SameOutside s t s.latched.dstAddr.toNat s.latched.dstCap.toNat) ∧
    (¬ NotCompressible s.latched.effort x s.latched.dstCap.toNat →
      ∃ t, exec .lzCompress s = .next t ∧ Completed s t (resultsOf (BitVec.ofNat 32 z.length) 0 0) false ∧
        SameOutside s t s.latched.dstAddr.toNat z.length ∧
        t.mem.readBytes s.latched.dstAddr.toNat z.length = z ∧
        0 < z.length ∧ z.length ≤ s.latched.dstCap.toNat ∧ z.length < s.latched.srcLen.toNat ∧
        lzDecode z s.latched.srcLen.toNat = .ok x) ∧
    (s.latched.srcLen.toNat ≤ 4 ∨ s.latched.dstCap = 0 →
      NotCompressible s.latched.effort x s.latched.dstCap.toNat)

/-- 43_lz_codec.md R400, R407, R410: LZ_DECOMPRESS of an empty stream returns 0; of any other it starts the token
decoder at ip = 0 and op = 0 and changes nothing else. -/
def Obligations.LzDecompressStartsTheDecoder : Prop :=
  ∀ s : State, RegionsFit s.latched →
    (s.latched.srcLen = 0 → ∃ t, exec .lzDecompress s = .next t ∧ Completed s t (resultsOf 0 0 0) false ∧
      t.mem = s.mem) ∧
    (s.latched.srcLen ≠ 0 → exec .lzDecompress s = .next { s with dec := ⟨true, 0, 0, true⟩ })

/-- 43_lz_codec.md R401, R406, R410: run alone, LZ_DECOMPRESS ends after at most one step for each byte of its source
and one more, with the output of the stream in the destination, or with E_TRUNCATED, the failing token's offset in
ERRINFO, and the output of the tokens before it. -/
def Obligations.LzDecompressRunsTheStream : Prop :=
  ∀ s : State, s.mem.wf → RunsAlone s → s.dec = Decoder.idle → s.latched.opcode = 0x11 → RegionsFit s.latched →
    ∃ (k : Nat) (t : State), k ≤ s.latched.srcLen.toNat + 1 ∧ runSteps k s = some t ∧
      match lzDecode (s.mem.readBytes s.latched.srcAddr.toNat s.latched.srcLen.toNat) s.latched.dstCap.toNat with
      | .ok out =>
        Completed s t (resultsOf (BitVec.ofNat 32 out.length) 0 0) false ∧
          t.mem.readBytes s.latched.dstAddr.toNat out.length = out ∧
          SameOutside s t s.latched.dstAddr.toNat out.length
      | .error (ip0, out) =>
        Failed s t .truncated (BitVec.ofNat 32 ip0) ∧
          t.mem.readBytes s.latched.dstAddr.toNat out.length = out ∧
          SameOutside s t s.latched.dstAddr.toNat out.length

/-- 43_lz_codec.md R391, R415: the encoder returns 0 exactly in the cases of the rule, and otherwise the greedy stream of
its input, which decodes to the input at any capacity that holds it. -/
def Obligations.CodecRoundTrip : Prop :=
  ∀ (inp : List Byte) (cap e : Nat) (ht : HashTable),
    (NotCompressible e inp cap → (lzEncode inp cap e ht).1 = none) ∧
    (¬ NotCompressible e inp cap → ∃ out, (lzEncode inp cap e ht).1 = some out ∧ out = greedyStream e inp ∧
      0 < out.length ∧ out.length ≤ cap ∧ out.length < inp.length ∧
      ∀ c, inp.length ≤ c → lzDecode out c = .ok inp)

/-- 43_lz_codec.md R420, R421: a literal token appends its bytes, whatever the marker of a first one. -/
def Obligations.LiteralTokenAppendsItsBytes : Prop :=
  ∀ (s : State) (i : Instr) (lits : List Byte), (i = .lit lits ∨ ∃ marker, i = .litFirst marker lits) →
    i.wellFormed = true → TokenRuns s → s.dec.ip + 1 + lits.length ≤ s.latched.srcLen.toNat →
    s.dec.op + lits.length ≤ s.latched.dstCap.toNat →
    ∃ t, exec i s = .next t ∧ Appended s t (1 + lits.length) lits.length ∧
      t.mem.readBytes (s.latched.dstAddr.toNat + s.dec.op) lits.length = lits

/-- 43_lz_codec.md R405, R422 to R425: a match token appends `len` bytes, each the byte `dist` before it in the output,
among them those it has just written. -/
def Obligations.MatchTokenCopiesEarlierOutput : Prop :=
  ∀ (s : State) (i : Instr) (len dist : Nat), i.wellFormed = true → matchForm i = some (len, dist) → TokenRuns s →
    s.dec.ip + tokenLength i ≤ s.latched.srcLen.toNat → dist ≤ s.dec.op →
    s.dec.op + len ≤ s.latched.dstCap.toNat →
    ∃ t, exec i s = .next t ∧ Appended s t (tokenLength i) len ∧
      ∀ k, k < len → t.dstByte (s.dec.op + k) = t.dstByte (s.dec.op + k - dist)

/-- 43_lz_codec.md R404 cases 1, 2, 6 and 7, R406: a token whose bytes are not all there, whose output does not fit, or
whose match reaches before the start of the output fails with its offset and writes nothing. -/
def Obligations.TokenBoundsErrors : Prop :=
  ∀ (s : State) (i : Instr) (n : Nat), i.wellFormed = true → TokenRuns s →
    (((∃ lits, (i = .lit lits ∨ ∃ marker, i = .litFirst marker lits) ∧ n = lits.length) ∨
      (∃ dist, matchForm i = some (n, dist) ∧ dist ≤ s.dec.op)) ∧
        (s.latched.srcLen.toNat < s.dec.ip + tokenLength i ∨ s.latched.dstCap.toNat < s.dec.op + n)) ∨
    (∃ dist, matchForm i = some (n, dist) ∧ s.dec.op < dist) →
    ∃ t, exec i s = .next t ∧ FailedUntouched s t .truncated (BitVec.ofNat 32 s.dec.ip)

/-- The model's one fault (log 16): a token whose regions run past the last byte of system memory. No state of the
invariant meets it. -/
def Obligations.TokenOutsideMemoryFaults : Prop :=
  ∀ (s : State) (i : Instr), i.isToken = true →
    (4294967296 < s.latched.srcAddr.toNat + s.latched.srcLen.toNat ∨
      4294967296 < s.latched.dstAddr.toNat + s.latched.dstCap.toNat) →
    exec i s = .fault .outsideSystemMemory

/-! ## The whole machine -/

/-- The reset state has the invariant. -/
def Obligations.InvariantAtReset : Prop := State.reset.Inv

/-- Every step keeps the invariant. -/
def Obligations.InvariantKeptByEveryStep : Prop :=
  ∀ s t : State, s.Inv → step s = .next t → t.Inv

/-- From every state of the invariant the machine goes on: no fault and no refusal. -/
def Obligations.EveryStepGoesOn : Prop :=
  ∀ s : State, s.Inv → ∃ t, step s = .next t

/-- 70_reset_and_hazards.md R503: what a command does depends on no internal array: with other contents of HT and the
buffers it leaves the same state but for those arrays. -/
def Obligations.NoStateSurvivesACommand : Prop :=
  ∀ (s t : State) (i : Instr) (w : Scratch), exec i s = .next t →
    ∃ w', exec i { s with work := w } = .next { t with work := w' }

/-- 20_memory.md R102, 60_exceptions.md R453, 10_state.md R34: the engine's own move writes no byte outside the
destination region, does nothing while IDLE, and changes no parameter register, neither IE nor the latched copy nor
ABORT_REQ. -/
def Obligations.EngineTouchesOnlyItsOwn : Prop :=
  ∀ s t : State, s.host = [] → step s = .next t →
    SameOutside s t s.latched.dstAddr.toNat s.latched.dstCap.toNat ∧ (s.seq = .idle → t = s) ∧
    t.regs = s.regs ∧ t.ie = s.ie ∧ t.latched = s.latched ∧ t.abortReq = s.abortReq ∧ t.host = [] ∧ t.rdata = s.rdata
end

