-- ==== Sys2Proof/Laws/Memory.lean ====
section
/-! SUPPORT. The laws of system memory: what each operation leaves at each address, and that each keeps the canonical
form. -/

namespace Sys2Proof.Machine

/-! ## The canonical form -/

theorem Memory.wf_nil : Memory.wf [] := ⟨List.Pairwise.nil, by simp⟩

theorem Memory.wf_tail {c : Host.Cell} {m : Memory} (h : Memory.wf (c :: m)) : Memory.wf m :=
  ⟨(List.pairwise_cons.mp h.1).2, fun d hd => h.2 d (List.mem_cons_of_mem _ hd)⟩

/-- An address below every listed one is unlisted. -/
theorem Memory.read_below {m : Memory} {a : Nat} (h : ∀ c ∈ m, a < c.1) : m.read a = Config.unlistedByte := by
  induction m with
  | nil => rfl
  | cons c m ih =>
    obtain ⟨k, v⟩ := c
    have hk : a < k := h (k, v) (by simp)
    simp only [Memory.read]
    rw [if_neg (by omega)]
    exact ih fun d hd => h d (List.mem_cons_of_mem _ hd)

/-- The addresses a put leaves listed: those listed before, and its own. -/
theorem Memory.mem_put {m : Memory} {a : Nat} {b : Byte} {c : Host.Cell} (h : c ∈ m.put a b) :
    c ∈ m ∨ (c = (a, b) ∧ b ≠ Config.unlistedByte) := by
  induction m with
  | nil =>
    simp only [Memory.put] at h
    split at h
    · simp at h
    · exact .inr ⟨by simpa using h, ‹_›⟩
  | cons d m ih =>
    obtain ⟨k, v⟩ := d
    simp only [Memory.put] at h
    split at h
    · split at h
      · exact .inl h
      · rcases List.mem_cons.mp h with rfl | h
        · exact .inr ⟨rfl, ‹_›⟩
        · exact .inl h
    · split at h
      · split at h
        · exact .inl (List.mem_cons_of_mem _ h)
        · rcases List.mem_cons.mp h with rfl | h
          · exact .inr ⟨rfl, ‹_›⟩
          · exact .inl (List.mem_cons_of_mem _ h)
      · rcases List.mem_cons.mp h with rfl | h
        · exact .inl (by simp)
        · rcases ih h with h | h
          · exact .inl (List.mem_cons_of_mem _ h)
          · exact .inr h

theorem Memory.put_wf {m : Memory} {a : Nat} {b : Byte} (h : m.wf) (ha : a < Config.memBytes) :
    Memory.wf (m.put a b) := by
  refine ⟨?_, fun c hc => ?_⟩
  · induction m with
    | nil =>
      simp only [Memory.put]
      split <;> simp
    | cons d m ih =>
      obtain ⟨k, v⟩ := d
      have hp := List.pairwise_cons.mp h.1
      simp only [Memory.put]
      split
      · split
        · exact h.1
        · refine List.pairwise_cons.mpr ⟨fun c hc => ?_, h.1⟩
          rcases List.mem_cons.mp hc with rfl | hc
          · assumption
          · have : k < c.1 := hp.1 c hc
            show a < c.1
            omega
      · split
        · split
          · exact hp.2
          · subst k
            exact List.pairwise_cons.mpr ⟨hp.1, hp.2⟩
        · refine List.pairwise_cons.mpr ⟨fun c hc => ?_, ih (Memory.wf_tail h)⟩
          rcases Memory.mem_put hc with hc | ⟨rfl, -⟩
          · exact hp.1 c hc
          · show k < a
            omega
  · rcases Memory.mem_put hc with hc | ⟨rfl, hb⟩
    · exact h.2 c hc
    · exact ⟨ha, hb⟩

theorem Memory.write_wf {m : Memory} (h : m.wf) (a : Nat) (b : Byte) : Memory.wf (m.write a b) := by
  unfold Memory.write
  split
  · exact Memory.put_wf h ‹_›
  · exact h

theorem Memory.writeBytes_wf {m : Memory} (h : m.wf) (a : Nat) (v : List Byte) : Memory.wf (m.writeBytes a v) := by
  induction v generalizing m a with
  | nil => exact h
  | cons b v ih => exact ih (Memory.write_wf h a b) (a + 1)

theorem Memory.fill_wf {m : Memory} (h : m.wf) (a : Nat) (f : Nat → Byte) (n : Nat) : Memory.wf (m.fill a f n) := by
  induction n with
  | zero => exact h
  | succ n ih => exact Memory.write_wf ih _ _

/-! ## One byte -/

theorem Memory.read_put_ne {m : Memory} {a c : Nat} (b : Byte) (h : c ≠ a) : (m.put a b).read c = m.read c := by
  induction m with
  | nil =>
    simp only [Memory.put]
    split
    · rfl
    · simp [Memory.read, Ne.symm h]
  | cons d m ih =>
    obtain ⟨k, v⟩ := d
    simp only [Memory.put]
    split
    · split
      · rfl
      · rw [Memory.read, if_neg (Ne.symm h)]
    · split
      · subst k
        split
        · rw [Memory.read, if_neg (Ne.symm h)]
        · rw [Memory.read, Memory.read, if_neg (Ne.symm h), if_neg (Ne.symm h)]
      · simp only [Memory.read]
        rw [ih]

theorem Memory.read_put_self {m : Memory} {a : Nat} {b : Byte} (h : m.wf) : (m.put a b).read a = b := by
  induction m with
  | nil =>
    simp only [Memory.put]
    split
    · exact Eq.symm ‹_›
    · simp [Memory.read]
  | cons d m ih =>
    obtain ⟨k, v⟩ := d
    have hp := List.pairwise_cons.mp h.1
    simp only [Memory.put]
    split
    · split
      · rw [Memory.read_below]
        · exact Eq.symm ‹_›
        · intro c hc
          rcases List.mem_cons.mp hc with rfl | hc
          · assumption
          · have : k < c.1 := hp.1 c hc
            omega
      · simp [Memory.read]
    · split
      · subst k
        split
        · rw [Memory.read_below]
          · exact Eq.symm ‹_›
          · exact hp.1
        · simp [Memory.read]
      · rw [Memory.read, if_neg ‹_›, ih (Memory.wf_tail h)]

/-- A write leaves every other address as it was. -/
theorem Memory.read_write_ne {m : Memory} {a c : Nat} (b : Byte) (h : c ≠ a) : (m.write a b).read c = m.read c := by
  unfold Memory.write
  split
  · exact Memory.read_put_ne b h
  · rfl

/-- A read after a write to the same address gives the byte written. -/
theorem Memory.read_write_self {m : Memory} {a : Nat} {b : Byte} (h : m.wf) (ha : a < Config.memBytes) :
    (m.write a b).read a = b := by
  unfold Memory.write
  rw [if_pos ha]
  exact Memory.read_put_self h

/-! ## Sequences -/

theorem Memory.readBytes_length (m : Memory) (a n : Nat) : (m.readBytes a n).length = n := by
  simp [Memory.readBytes]

theorem Memory.readBytes_getElem (m : Memory) (a n k : Nat) (h : k < (m.readBytes a n).length) :
    (m.readBytes a n)[k] = m.read (a + k) := by
  simp [Memory.readBytes]

/-- A sequence write leaves every address outside it as it was. -/
theorem Memory.read_writeBytes_outside {m : Memory} {a c : Nat} {v : List Byte} (h : c < a ∨ a + v.length ≤ c) :
    (m.writeBytes a v).read c = m.read c := by
  induction v generalizing m a with
  | nil => rfl
  | cons b v ih =>
    simp only [List.length_cons] at h
    rw [Memory.writeBytes, ih (by omega), Memory.read_write_ne _ (by omega)]

/-- A sequence write leaves at each of its addresses the byte of its place. -/
theorem Memory.read_writeBytes_inside {m : Memory} {a : Nat} {v : List Byte} (hm : m.wf)
    (hv : a + v.length ≤ Config.memBytes) (k : Nat) (h : k < v.length) :
    (m.writeBytes a v).read (a + k) = v[k] := by
  induction v generalizing m a k with
  | nil => simp at h
  | cons b v ih =>
    simp only [List.length_cons] at h hv
    rw [Memory.writeBytes]
    cases k with
    | zero =>
      rw [Memory.read_writeBytes_outside (by omega), Nat.add_zero, Memory.read_write_self hm (by omega)]
      rfl
    | succ k =>
      have := ih (Memory.write_wf hm a b) (a := a + 1) (by omega) k (by omega)
      rw [show a + (k + 1) = a + 1 + k by omega, this]
      rfl

/-- What was written is what is read back. -/
theorem Memory.readBytes_writeBytes {m : Memory} {a : Nat} {v : List Byte} (hm : m.wf)
    (hv : a + v.length ≤ Config.memBytes) : (m.writeBytes a v).readBytes a v.length = v := by
  apply List.ext_getElem (by simp [Memory.readBytes])
  intro k h _
  rw [Memory.readBytes_getElem, Memory.read_writeBytes_inside hm hv]

/-- A sequence read depends only on the bytes at its addresses. -/
theorem Memory.readBytes_congr {m m' : Memory} {a n : Nat} (h : ∀ k < n, m'.read (a + k) = m.read (a + k)) :
    m'.readBytes a n = m.readBytes a n := by
  unfold Memory.readBytes
  exact List.map_congr_left fun k hk => h k (List.mem_range.mp hk)

/-- A fill leaves every address outside it as it was. -/
theorem Memory.read_fill_outside {m : Memory} {a c n : Nat} {f : Nat → Byte} (h : c < a ∨ a + n ≤ c) :
    (m.fill a f n).read c = m.read c := by
  induction n with
  | zero => rfl
  | succ n ih => rw [Memory.fill, Memory.read_write_ne _ (by omega), ih (by omega)]

/-- A fill leaves at each of its addresses the value of the function there. -/
theorem Memory.read_fill_inside {m : Memory} {a c n : Nat} {f : Nat → Byte} (hm : m.wf)
    (hn : a + n ≤ Config.memBytes) (h : a ≤ c) (h' : c < a + n) : (m.fill a f n).read c = f c := by
  induction n with
  | zero => omega
  | succ n ih =>
    rw [Memory.fill]
    by_cases hc : c = a + n
    · subst hc
      rw [Memory.read_write_self (Memory.fill_wf hm _ _ _) (by omega)]
    · rw [Memory.read_write_ne _ hc, ih (by omega) (by omega)]

end Sys2Proof.Machine
end

