-- ==== Sys2Proof/Laws/Bytes.lean ====
section
/-! SUPPORT. Byte sequences: bytes at a place, slices, the little-endian packing, and bits. -/

namespace Sys2Proof.Machine

/-! ## Bytes at a place -/

theorem byteAt_eq {b : List Byte} {i : Nat} (h : i < b.length) : byteAt b i = b[i] := by
  simp [byteAt, List.getD, h]

theorem byteAt_beyond {b : List Byte} {i : Nat} (h : b.length ≤ i) : byteAt b i = 0 := by
  simp [byteAt, List.getD, h]

theorem byteAt_map_range (n : Nat) (f : Nat → Byte) {i : Nat} (h : i < n) :
    byteAt ((List.range n).map f) i = f i := by
  rw [byteAt_eq (by simpa using h)]
  simp

theorem byteAt_append_left {a b : List Byte} {i : Nat} (h : i < a.length) : byteAt (a ++ b) i = byteAt a i := by
  rw [byteAt_eq (by simp; omega), byteAt_eq h, List.getElem_append_left h]

theorem byteAt_append_right {a b : List Byte} {i : Nat} (h : a.length ≤ i) :
    byteAt (a ++ b) i = byteAt b (i - a.length) := by
  simp [byteAt, List.getD, List.getElem?_append_right h]

theorem byteAt_take {b : List Byte} {n i : Nat} (h : i < n) : byteAt (b.take n) i = byteAt b i := by
  simp [byteAt, List.getD, h]

theorem byteAt_drop (b : List Byte) (n i : Nat) : byteAt (b.drop n) i = byteAt b (n + i) := by
  simp [byteAt, List.getD]

/-- Two sequences of one length with the same bytes are equal. -/
theorem ext_byteAt {x y : List Byte} (hl : x.length = y.length) (h : ∀ i < x.length, byteAt x i = byteAt y i) :
    x = y := by
  apply List.ext_getElem hl
  intro i hi hj
  rw [← byteAt_eq hi, ← byteAt_eq hj]
  exact h i hi

theorem byteAt_readBytes (m : Memory) (a n : Nat) {i : Nat} (h : i < n) : byteAt (m.readBytes a n) i = m.read (a + i) :=
  byteAt_map_range _ _ h

/-! ## Slices -/

theorem slice_length {b : List Byte} {a n : Nat} (h : a + n ≤ b.length) : (slice b a n).length = n := by
  simp [slice]
  omega

theorem byteAt_slice {b : List Byte} {a n i : Nat} (h : i < n) : byteAt (slice b a n) i = byteAt b (a + i) := by
  rw [slice, byteAt_take h, byteAt_drop]

/-- A slice of what was read is what is read at the slice's place. -/
theorem slice_readBytes (m : Memory) (a n o k : Nat) (h : o + k ≤ n) :
    slice (m.readBytes a n) o k = m.readBytes (a + o) k := by
  have hl : (slice (m.readBytes a n) o k).length = k := slice_length (by rw [Memory.readBytes_length]; exact h)
  apply ext_byteAt (by rw [hl, Memory.readBytes_length])
  intro i hi
  rw [hl] at hi
  rw [byteAt_slice hi, byteAt_readBytes _ _ _ (by omega), byteAt_readBytes _ _ _ hi, Nat.add_assoc]

/-! ## Little-endian packing -/

theorem leBytes_length (n v : Nat) : (leBytes n v).length = n := by
  induction n generalizing v with
  | zero => rfl
  | succ n ih => simp [leBytes, ih]

theorem leNat_lt (b : List Byte) : leNat b < 256 ^ b.length := by
  induction b with
  | nil => simp [leNat]
  | cons x b ih =>
    have := x.isLt
    simp only [leNat, List.length_cons, Nat.pow_succ]
    omega

/-- Packing and unpacking a value of `n` bytes gives it back, up to the width. -/
theorem leNat_leBytes (n v : Nat) : leNat (leBytes n v) = v % 256 ^ n := by
  induction n generalizing v with
  | zero => simp [leBytes, leNat, Nat.mod_one]
  | succ n ih =>
    rw [leBytes, leNat, ih, BitVec.toNat_ofNat, show (2 : Nat) ^ 8 = 256 from rfl, Nat.pow_succ,
      Nat.mul_comm (256 ^ n) 256, Nat.mod_mul]

/-- Unpacking and packing a sequence gives it back. -/
theorem leBytes_leNat (b : List Byte) : leBytes b.length (leNat b) = b := by
  induction b with
  | nil => rfl
  | cons x b ih =>
    have hx := x.isLt
    have h1 : BitVec.ofNat 8 (leNat (x :: b)) = x := by
      apply BitVec.eq_of_toNat_eq
      simp only [leNat, BitVec.toNat_ofNat]
      omega
    have h2 : leNat (x :: b) / 256 = leNat b := by
      simp only [leNat]
      omega
    simp only [List.length_cons, leBytes, h1, h2, ih]

/-! ## Bits -/

theorem byteOfBits_getLsbD (f : Nat → Bool) {j : Nat} (h : j < 8) : (byteOfBits f).getLsbD j = f j := by
  unfold byteOfBits
  have : j = 0 ∨ j = 1 ∨ j = 2 ∨ j = 3 ∨ j = 4 ∨ j = 5 ∨ j = 6 ∨ j = 7 := by omega
  rcases this with rfl | rfl | rfl | rfl | rfl | rfl | rfl | rfl <;>
    simp only [BitVec.getLsbD_append] <;> simp

/-- Two bytes with the same bits are equal. -/
theorem byte_ext {a b : Byte} (h : ∀ j < 8, a.getLsbD j = b.getLsbD j) : a = b :=
  BitVec.eq_of_getLsbD_eq h

end Sys2Proof.Machine
end

