-- ==== Sys2Proof/Laws/State.lean ====
section
/-! SUPPORT. One lemma per field of the state per update, true by unfolding, so that no later proof unfolds a record
update. -/

namespace Sys2Proof.Machine

/-! ## Completion and failure -/

@[simp] theorem complete_regs (r : List Nat) (b : Bool) (s : State) : (complete r b s).regs = s.regs := rfl
@[simp] theorem complete_ie (r : List Nat) (b : Bool) (s : State) : (complete r b s).ie = s.ie := rfl
@[simp] theorem complete_status (r : List Nat) (b : Bool) (s : State) : (complete r b s).status = s.status.succeed b := rfl
@[simp] theorem complete_results (r : List Nat) (b : Bool) (s : State) : (complete r b s).results = Results.ofList r := rfl
@[simp] theorem complete_errInfo (r : List Nat) (b : Bool) (s : State) : (complete r b s).errInfo = s.errInfo := rfl
@[simp] theorem complete_seq (r : List Nat) (b : Bool) (s : State) : (complete r b s).seq = .idle := rfl
@[simp] theorem complete_latched (r : List Nat) (b : Bool) (s : State) : (complete r b s).latched = s.latched := rfl
@[simp] theorem complete_abortReq (r : List Nat) (b : Bool) (s : State) : (complete r b s).abortReq = s.abortReq := rfl
@[simp] theorem complete_work (r : List Nat) (b : Bool) (s : State) : (complete r b s).work = s.work := rfl
@[simp] theorem complete_dec (r : List Nat) (b : Bool) (s : State) : (complete r b s).dec = Decoder.idle := rfl
@[simp] theorem complete_mem (r : List Nat) (b : Bool) (s : State) : (complete r b s).mem = s.mem := rfl
@[simp] theorem complete_host (r : List Nat) (b : Bool) (s : State) : (complete r b s).host = s.host := rfl
@[simp] theorem complete_rdata (r : List Nat) (b : Bool) (s : State) : (complete r b s).rdata = s.rdata := rfl
@[simp] theorem complete_abortPassed (r : List Nat) (b : Bool) (s : State) : (complete r b s).abortPassed = s.abortPassed := rfl
@[simp] theorem complete_owned (r : List Nat) (b : Bool) (s : State) : (complete r b s).owned = s.owned := rfl
@[simp] theorem complete_unobserved (r : List Nat) (b : Bool) (s : State) : (complete r b s).unobserved = s.unobserved := rfl
@[simp] theorem complete_rejected (r : List Nat) (b : Bool) (s : State) : (complete r b s).rejected = s.rejected := rfl
@[simp] theorem complete_misused (r : List Nat) (b : Bool) (s : State) : (complete r b s).misused = s.misused := rfl
@[simp] theorem complete_hung (r : List Nat) (b : Bool) (s : State) : (complete r b s).hung = s.hung := rfl
@[simp] theorem complete_free (r : List Nat) (b : Bool) (s : State) : (complete r b s).free = s.free := rfl

@[simp] theorem raiseError_regs (e : Err) (n : Nat) (s : State) : (raiseError e n s).regs = s.regs := rfl
@[simp] theorem raiseError_ie (e : Err) (n : Nat) (s : State) : (raiseError e n s).ie = s.ie := rfl
@[simp] theorem raiseError_status (e : Err) (n : Nat) (s : State) : (raiseError e n s).status = s.status.fail e := rfl
@[simp] theorem raiseError_results (e : Err) (n : Nat) (s : State) : (raiseError e n s).results = s.results := rfl
@[simp] theorem raiseError_errInfo (e : Err) (n : Nat) (s : State) : (raiseError e n s).errInfo = BitVec.ofNat 32 n := rfl
@[simp] theorem raiseError_seq (e : Err) (n : Nat) (s : State) : (raiseError e n s).seq = .idle := rfl
@[simp] theorem raiseError_latched (e : Err) (n : Nat) (s : State) : (raiseError e n s).latched = s.latched := rfl
@[simp] theorem raiseError_abortReq (e : Err) (n : Nat) (s : State) : (raiseError e n s).abortReq = s.abortReq := rfl
@[simp] theorem raiseError_work (e : Err) (n : Nat) (s : State) : (raiseError e n s).work = s.work := rfl
@[simp] theorem raiseError_dec (e : Err) (n : Nat) (s : State) : (raiseError e n s).dec = Decoder.idle := rfl
@[simp] theorem raiseError_mem (e : Err) (n : Nat) (s : State) : (raiseError e n s).mem = s.mem := rfl
@[simp] theorem raiseError_host (e : Err) (n : Nat) (s : State) : (raiseError e n s).host = s.host := rfl
@[simp] theorem raiseError_rdata (e : Err) (n : Nat) (s : State) : (raiseError e n s).rdata = s.rdata := rfl
@[simp] theorem raiseError_abortPassed (e : Err) (n : Nat) (s : State) : (raiseError e n s).abortPassed = s.abortPassed := rfl
@[simp] theorem raiseError_owned (e : Err) (n : Nat) (s : State) : (raiseError e n s).owned = s.owned := rfl
@[simp] theorem raiseError_unobserved (e : Err) (n : Nat) (s : State) : (raiseError e n s).unobserved = s.unobserved := rfl
@[simp] theorem raiseError_rejected (e : Err) (n : Nat) (s : State) : (raiseError e n s).rejected = s.rejected := rfl
@[simp] theorem raiseError_misused (e : Err) (n : Nat) (s : State) : (raiseError e n s).misused = s.misused := rfl
@[simp] theorem raiseError_hung (e : Err) (n : Nat) (s : State) : (raiseError e n s).hung = s.hung := rfl
@[simp] theorem raiseError_free (e : Err) (n : Nat) (s : State) : (raiseError e n s).free = s.free := rfl

/-! ## Writing the destination -/

@[simp] theorem writeDst_regs (s : State) (o : Nat) (v : List Byte) : (s.writeDst o v).regs = s.regs := rfl
@[simp] theorem writeDst_ie (s : State) (o : Nat) (v : List Byte) : (s.writeDst o v).ie = s.ie := rfl
@[simp] theorem writeDst_status (s : State) (o : Nat) (v : List Byte) : (s.writeDst o v).status = s.status := rfl
@[simp] theorem writeDst_results (s : State) (o : Nat) (v : List Byte) : (s.writeDst o v).results = s.results := rfl
@[simp] theorem writeDst_errInfo (s : State) (o : Nat) (v : List Byte) : (s.writeDst o v).errInfo = s.errInfo := rfl
@[simp] theorem writeDst_seq (s : State) (o : Nat) (v : List Byte) : (s.writeDst o v).seq = s.seq := rfl
@[simp] theorem writeDst_latched (s : State) (o : Nat) (v : List Byte) : (s.writeDst o v).latched = s.latched := rfl
@[simp] theorem writeDst_abortReq (s : State) (o : Nat) (v : List Byte) : (s.writeDst o v).abortReq = s.abortReq := rfl
@[simp] theorem writeDst_work (s : State) (o : Nat) (v : List Byte) : (s.writeDst o v).work = s.work := rfl
@[simp] theorem writeDst_dec (s : State) (o : Nat) (v : List Byte) : (s.writeDst o v).dec = s.dec := rfl
@[simp] theorem writeDst_mem (s : State) (o : Nat) (v : List Byte) : (s.writeDst o v).mem = s.mem.writeBytes (s.latched.dst.base + o) v := rfl
@[simp] theorem writeDst_host (s : State) (o : Nat) (v : List Byte) : (s.writeDst o v).host = s.host := rfl
@[simp] theorem writeDst_rdata (s : State) (o : Nat) (v : List Byte) : (s.writeDst o v).rdata = s.rdata := rfl
@[simp] theorem writeDst_abortPassed (s : State) (o : Nat) (v : List Byte) : (s.writeDst o v).abortPassed = s.abortPassed := rfl
@[simp] theorem writeDst_owned (s : State) (o : Nat) (v : List Byte) : (s.writeDst o v).owned = s.owned := rfl
@[simp] theorem writeDst_unobserved (s : State) (o : Nat) (v : List Byte) : (s.writeDst o v).unobserved = s.unobserved := rfl
@[simp] theorem writeDst_rejected (s : State) (o : Nat) (v : List Byte) : (s.writeDst o v).rejected = s.rejected := rfl
@[simp] theorem writeDst_misused (s : State) (o : Nat) (v : List Byte) : (s.writeDst o v).misused = s.misused := rfl
@[simp] theorem writeDst_hung (s : State) (o : Nat) (v : List Byte) : (s.writeDst o v).hung = s.hung := rfl
@[simp] theorem writeDst_free (s : State) (o : Nat) (v : List Byte) : (s.writeDst o v).free = s.free := rfl

@[simp] theorem unspecifyDstFrom_regs (s : State) (o : Nat) : (s.unspecifyDstFrom o).regs = s.regs := rfl
@[simp] theorem unspecifyDstFrom_ie (s : State) (o : Nat) : (s.unspecifyDstFrom o).ie = s.ie := rfl
@[simp] theorem unspecifyDstFrom_status (s : State) (o : Nat) : (s.unspecifyDstFrom o).status = s.status := rfl
@[simp] theorem unspecifyDstFrom_results (s : State) (o : Nat) : (s.unspecifyDstFrom o).results = s.results := rfl
@[simp] theorem unspecifyDstFrom_errInfo (s : State) (o : Nat) : (s.unspecifyDstFrom o).errInfo = s.errInfo := rfl
@[simp] theorem unspecifyDstFrom_seq (s : State) (o : Nat) : (s.unspecifyDstFrom o).seq = s.seq := rfl
@[simp] theorem unspecifyDstFrom_latched (s : State) (o : Nat) : (s.unspecifyDstFrom o).latched = s.latched := rfl
@[simp] theorem unspecifyDstFrom_abortReq (s : State) (o : Nat) : (s.unspecifyDstFrom o).abortReq = s.abortReq := rfl
@[simp] theorem unspecifyDstFrom_work (s : State) (o : Nat) : (s.unspecifyDstFrom o).work = s.work := rfl
@[simp] theorem unspecifyDstFrom_dec (s : State) (o : Nat) : (s.unspecifyDstFrom o).dec = s.dec := rfl
@[simp] theorem unspecifyDstFrom_mem (s : State) (o : Nat) : (s.unspecifyDstFrom o).mem = s.mem.fill (s.latched.dst.base + o) (Config.freeByte s.free) (s.latched.dst.len - o) := rfl
@[simp] theorem unspecifyDstFrom_host (s : State) (o : Nat) : (s.unspecifyDstFrom o).host = s.host := rfl
@[simp] theorem unspecifyDstFrom_rdata (s : State) (o : Nat) : (s.unspecifyDstFrom o).rdata = s.rdata := rfl
@[simp] theorem unspecifyDstFrom_abortPassed (s : State) (o : Nat) : (s.unspecifyDstFrom o).abortPassed = s.abortPassed := rfl
@[simp] theorem unspecifyDstFrom_owned (s : State) (o : Nat) : (s.unspecifyDstFrom o).owned = s.owned := rfl
@[simp] theorem unspecifyDstFrom_unobserved (s : State) (o : Nat) : (s.unspecifyDstFrom o).unobserved = s.unobserved := rfl
@[simp] theorem unspecifyDstFrom_rejected (s : State) (o : Nat) : (s.unspecifyDstFrom o).rejected = s.rejected := rfl
@[simp] theorem unspecifyDstFrom_misused (s : State) (o : Nat) : (s.unspecifyDstFrom o).misused = s.misused := rfl
@[simp] theorem unspecifyDstFrom_hung (s : State) (o : Nat) : (s.unspecifyDstFrom o).hung = s.hung := rfl
@[simp] theorem unspecifyDstFrom_free (s : State) (o : Nat) : (s.unspecifyDstFrom o).free = s.free + 1 := rfl

@[simp] theorem unspecifyDst_regs (s : State) : (s.unspecifyDst).regs = s.regs := rfl
@[simp] theorem unspecifyDst_ie (s : State) : (s.unspecifyDst).ie = s.ie := rfl
@[simp] theorem unspecifyDst_status (s : State) : (s.unspecifyDst).status = s.status := rfl
@[simp] theorem unspecifyDst_results (s : State) : (s.unspecifyDst).results = s.results := rfl
@[simp] theorem unspecifyDst_errInfo (s : State) : (s.unspecifyDst).errInfo = s.errInfo := rfl
@[simp] theorem unspecifyDst_seq (s : State) : (s.unspecifyDst).seq = s.seq := rfl
@[simp] theorem unspecifyDst_latched (s : State) : (s.unspecifyDst).latched = s.latched := rfl
@[simp] theorem unspecifyDst_abortReq (s : State) : (s.unspecifyDst).abortReq = s.abortReq := rfl
@[simp] theorem unspecifyDst_work (s : State) : (s.unspecifyDst).work = s.work := rfl
@[simp] theorem unspecifyDst_dec (s : State) : (s.unspecifyDst).dec = s.dec := rfl
@[simp] theorem unspecifyDst_mem (s : State) : (s.unspecifyDst).mem = s.mem.fill (s.latched.dst.base + 0) (Config.freeByte s.free) (s.latched.dst.len - 0) := rfl
@[simp] theorem unspecifyDst_host (s : State) : (s.unspecifyDst).host = s.host := rfl
@[simp] theorem unspecifyDst_rdata (s : State) : (s.unspecifyDst).rdata = s.rdata := rfl
@[simp] theorem unspecifyDst_abortPassed (s : State) : (s.unspecifyDst).abortPassed = s.abortPassed := rfl
@[simp] theorem unspecifyDst_owned (s : State) : (s.unspecifyDst).owned = s.owned := rfl
@[simp] theorem unspecifyDst_unobserved (s : State) : (s.unspecifyDst).unobserved = s.unobserved := rfl
@[simp] theorem unspecifyDst_rejected (s : State) : (s.unspecifyDst).rejected = s.rejected := rfl
@[simp] theorem unspecifyDst_misused (s : State) : (s.unspecifyDst).misused = s.misused := rfl
@[simp] theorem unspecifyDst_hung (s : State) : (s.unspecifyDst).hung = s.hung := rfl
@[simp] theorem unspecifyDst_free (s : State) : (s.unspecifyDst).free = s.free + 1 := rfl

/-! ## The token decoder -/

@[simp] theorem passToken_regs (i : Instr) (n : Nat) (s : State) : (s.passToken i n).regs = s.regs := rfl
@[simp] theorem passToken_ie (i : Instr) (n : Nat) (s : State) : (s.passToken i n).ie = s.ie := rfl
@[simp] theorem passToken_status (i : Instr) (n : Nat) (s : State) : (s.passToken i n).status = s.status := rfl
@[simp] theorem passToken_results (i : Instr) (n : Nat) (s : State) : (s.passToken i n).results = s.results := rfl
@[simp] theorem passToken_errInfo (i : Instr) (n : Nat) (s : State) : (s.passToken i n).errInfo = s.errInfo := rfl
@[simp] theorem passToken_seq (i : Instr) (n : Nat) (s : State) : (s.passToken i n).seq = s.seq := rfl
@[simp] theorem passToken_latched (i : Instr) (n : Nat) (s : State) : (s.passToken i n).latched = s.latched := rfl
@[simp] theorem passToken_abortReq (i : Instr) (n : Nat) (s : State) : (s.passToken i n).abortReq = s.abortReq := rfl
@[simp] theorem passToken_work (i : Instr) (n : Nat) (s : State) : (s.passToken i n).work = s.work := rfl
@[simp] theorem passToken_dec (i : Instr) (n : Nat) (s : State) : (s.passToken i n).dec = ⟨s.dec.running, s.dec.ip + tokenLength i, s.dec.op + n, false⟩ := rfl
@[simp] theorem passToken_mem (i : Instr) (n : Nat) (s : State) : (s.passToken i n).mem = s.mem := rfl
@[simp] theorem passToken_host (i : Instr) (n : Nat) (s : State) : (s.passToken i n).host = s.host := rfl
@[simp] theorem passToken_rdata (i : Instr) (n : Nat) (s : State) : (s.passToken i n).rdata = s.rdata := rfl
@[simp] theorem passToken_abortPassed (i : Instr) (n : Nat) (s : State) : (s.passToken i n).abortPassed = s.abortPassed := rfl
@[simp] theorem passToken_owned (i : Instr) (n : Nat) (s : State) : (s.passToken i n).owned = s.owned := rfl
@[simp] theorem passToken_unobserved (i : Instr) (n : Nat) (s : State) : (s.passToken i n).unobserved = s.unobserved := rfl
@[simp] theorem passToken_rejected (i : Instr) (n : Nat) (s : State) : (s.passToken i n).rejected = s.rejected := rfl
@[simp] theorem passToken_misused (i : Instr) (n : Nat) (s : State) : (s.passToken i n).misused = s.misused := rfl
@[simp] theorem passToken_hung (i : Instr) (n : Nat) (s : State) : (s.passToken i n).hung = s.hung := rfl
@[simp] theorem passToken_free (i : Instr) (n : Nat) (s : State) : (s.passToken i n).free = s.free := rfl

/-! ## START -/

@[simp] theorem startCommand_regs (s : State) : (startCommand s).regs = s.regs := rfl
@[simp] theorem startCommand_ie (s : State) : (startCommand s).ie = s.ie := rfl
@[simp] theorem startCommand_status (s : State) : (startCommand s).status = Status.clear := rfl
@[simp] theorem startCommand_results (s : State) : (startCommand s).results = Results.zero := rfl
@[simp] theorem startCommand_errInfo (s : State) : (startCommand s).errInfo = 0 := rfl
@[simp] theorem startCommand_seq (s : State) : (startCommand s).seq = .busy := rfl
@[simp] theorem startCommand_latched (s : State) : (startCommand s).latched = s.regs := rfl
@[simp] theorem startCommand_abortReq (s : State) : (startCommand s).abortReq = false := rfl
@[simp] theorem startCommand_work (s : State) : (startCommand s).work = s.work := rfl
@[simp] theorem startCommand_dec (s : State) : (startCommand s).dec = Decoder.idle := rfl
@[simp] theorem startCommand_mem (s : State) : (startCommand s).mem = s.mem := rfl
@[simp] theorem startCommand_host (s : State) : (startCommand s).host = s.host := rfl
@[simp] theorem startCommand_rdata (s : State) : (startCommand s).rdata = s.rdata := rfl
@[simp] theorem startCommand_abortPassed (s : State) : (startCommand s).abortPassed = false := rfl
@[simp] theorem startCommand_owned (s : State) : (startCommand s).owned = true := rfl
@[simp] theorem startCommand_unobserved (s : State) : (startCommand s).unobserved = if s.owned then s.latched :: s.unobserved else [] := rfl
@[simp] theorem startCommand_rejected (s : State) : (startCommand s).rejected = false := rfl
@[simp] theorem startCommand_misused (s : State) : (startCommand s).misused = false := rfl
@[simp] theorem startCommand_hung (s : State) : (startCommand s).hung = false := rfl
@[simp] theorem startCommand_free (s : State) : (startCommand s).free = s.free := rfl

/-! ## Reset -/

@[simp] theorem resetEngine_regs (s : State) : (resetEngine s).regs = State.reset.regs := rfl
@[simp] theorem resetEngine_ie (s : State) : (resetEngine s).ie = State.reset.ie := rfl
@[simp] theorem resetEngine_status (s : State) : (resetEngine s).status = State.reset.status := rfl
@[simp] theorem resetEngine_results (s : State) : (resetEngine s).results = State.reset.results := rfl
@[simp] theorem resetEngine_errInfo (s : State) : (resetEngine s).errInfo = State.reset.errInfo := rfl
@[simp] theorem resetEngine_seq (s : State) : (resetEngine s).seq = State.reset.seq := rfl
@[simp] theorem resetEngine_latched (s : State) : (resetEngine s).latched = State.reset.latched := rfl
@[simp] theorem resetEngine_abortReq (s : State) : (resetEngine s).abortReq = State.reset.abortReq := rfl
@[simp] theorem resetEngine_work (s : State) : (resetEngine s).work = State.reset.work := rfl
@[simp] theorem resetEngine_dec (s : State) : (resetEngine s).dec = State.reset.dec := rfl
@[simp] theorem resetEngine_host (s : State) : (resetEngine s).host = s.host := rfl
@[simp] theorem resetEngine_rdata (s : State) : (resetEngine s).rdata = s.rdata := rfl
@[simp] theorem resetEngine_abortPassed (s : State) : (resetEngine s).abortPassed = State.reset.abortPassed := rfl
@[simp] theorem resetEngine_owned (s : State) : (resetEngine s).owned = State.reset.owned := rfl
@[simp] theorem resetEngine_unobserved (s : State) : (resetEngine s).unobserved = State.reset.unobserved := rfl
@[simp] theorem resetEngine_rejected (s : State) : (resetEngine s).rejected = State.reset.rejected := rfl
@[simp] theorem resetEngine_misused (s : State) : (resetEngine s).misused = State.reset.misused := rfl
@[simp] theorem resetEngine_hung (s : State) : (resetEngine s).hung = State.reset.hung := rfl

end Sys2Proof.Machine
end

