-- ==== Sys2Proof/Laws/Ops.lean ====
section
/-! SUPPORT. One lemma for each shared operation that says what it can answer; later proofs cite these and unfold none
of the operations. -/

namespace Sys2Proof.Machine

/-! ## Regions -/

theorem Region.valid_iff (r : Region) : r.valid = true ↔ r.base + r.len ≤ 4294967296 := by
  unfold Region.valid
  exact decide_eq_true_iff

theorem Region.meets_iff (r q : Region) :
    r.meets q = true ↔ 0 < r.len ∧ 0 < q.len ∧ r.base < q.base + q.len ∧ q.base < r.base + r.len := by
  simp [Region.meets, and_assoc]

/-- Two regions meet iff some address lies in both. -/
theorem Region.meets_iff_exists (r q : Region) :
    r.meets q = true ↔ ∃ a, r.holds a = true ∧ q.holds a = true := by
  rw [Region.meets_iff]
  simp only [Region.holds, Bool.and_eq_true, decide_eq_true_eq]
  constructor
  · rintro ⟨h1, h2, h3, h4⟩
    exact ⟨max r.base q.base, by omega⟩
  · rintro ⟨a, h⟩
    omega

/-- The source and destination checks of a command that uses no reference pass iff its regions fit. -/
theorem regionError_none_iff {i : Instr} {p : Params} (hs : usesSrc i = true) (hd : usesDst i = true)
    (hr : usesRef i p = false) : regionError i p = none ↔ RegionsFit p := by
  have hm := Region.meets_iff p.dst p.src
  have hv := Region.valid_iff p.src
  have hw := Region.valid_iff p.dst
  simp only [Params.src, Params.dst] at hm hv hw
  simp only [regionError, hs, hd, hr, Params.src, Params.dst, Bool.true_and, Bool.false_and, Bool.or_false]
  constructor
  · intro h
    split at h
    · cases h
    · split at h
      · cases h
      · simp only [Bool.or_eq_true, Bool.not_eq_true', not_or, Bool.not_eq_false] at *
        refine ⟨hv.mp (by tauto), hw.mp (by tauto), ?_⟩
        have : ¬ (_ ∧ _) := fun c => absurd (hm.mpr c) ‹_›
        rw [← BitVec.toNat_inj, ← BitVec.toNat_inj]
        simp only [BitVec.ofNat_eq_ofNat, BitVec.toNat_ofNat]
        omega
  · rintro ⟨h1, h2, h3⟩
    rw [hv.mpr h1, hw.mpr h2]
    rw [← BitVec.toNat_inj, ← BitVec.toNat_inj] at h3
    simp only [BitVec.ofNat_eq_ofNat, BitVec.toNat_ofNat] at h3
    rw [if_neg (by simp), if_neg, if_neg (by simp)]
    intro c
    have := hm.mp c
    omega

/-- A command whose regions pass their checks runs its own part. -/
theorem afterRegions_pass {i : Instr} {s : State} {own : Step} (h : regionError i s.latched = none) :
    afterRegions i s own = own := by
  rw [afterRegions, h]

/-- A command of the source and destination runs its own part when its regions fit. -/
theorem afterRegions_fit {i : Instr} {s : State} {own : Step} (hs : usesSrc i = true) (hd : usesDst i = true)
    (hr : usesRef i s.latched = false) (h : RegionsFit s.latched) : afterRegions i s own = own := by
  rw [afterRegions, (regionError_none_iff hs hd hr).mpr h]

/-- The delta commands, with the reference region among those they use. -/
theorem regionError_delta {i : Instr} {p : Params} (hi : i = .deltaEncode ∨ i = .deltaDecode)
    (h : RegionsFit p) (hr : p.refBlock = false → ReferenceFits p) : regionError i p = none := by
  cases hb : p.refBlock with
  | true =>
    rw [regionError_none_iff (by rcases hi with rfl | rfl <;> rfl) (by rcases hi with rfl | rfl <;> rfl)
      (by simp [usesRef, hb])]
    exact h
  | false =>
    have hu : usesRef i p = true := by rcases hi with rfl | rfl <;> simp [usesRef, hb]
    have hs : usesSrc i = true := by rcases hi with rfl | rfl <;> rfl
    have hd : usesDst i = true := by rcases hi with rfl | rfl <;> rfl
    obtain ⟨hr1, hr2⟩ := hr hb
    obtain ⟨h1, h2, h3⟩ := h
    rw [← BitVec.toNat_inj, ← BitVec.toNat_inj] at h3 hr2
    simp only [BitVec.ofNat_eq_ofNat, BitVec.toNat_ofNat] at h3 hr2
    have v1 := (Region.valid_iff p.src).mpr h1
    have v2 := (Region.valid_iff p.dst).mpr h2
    have v3 := (Region.valid_iff p.ref).mpr hr1
    have m1 : p.dst.meets p.src = false := by
      rw [Bool.eq_false_iff]
      intro c
      have := (Region.meets_iff _ _).mp c
      simp only [Params.src, Params.dst] at this
      omega
    have m2 : p.ref.meets p.dst = false := by
      rw [Bool.eq_false_iff]
      intro c
      have := (Region.meets_iff _ _).mp c
      simp only [Params.ref, Params.dst] at this
      omega
    simp [regionError, hs, hd, hu, v1, v2, v3, m1, m2]

/-! ## Checks -/

/-- A check list passes iff no check fails. -/
theorem firstFailing_none_iff (l : List (Bool × Err × Nat)) : firstFailing l = none ↔ ∀ c ∈ l, c.1 = false := by
  induction l with
  | nil => simp [firstFailing]
  | cons c l ih =>
    obtain ⟨b, e, n⟩ := c
    cases b <;> simp [firstFailing, ih]

theorem firstFailing_append_none {l k : List (Bool × Err × Nat)} (h : firstFailing l = none) :
    firstFailing (l ++ k) = firstFailing k := by
  induction l with
  | nil => rfl
  | cons c l ih =>
    obtain ⟨b, e, n⟩ := c
    cases b
    · exact ih h
    · simp [firstFailing] at h

/-- What a command that may fail its region checks answers: the failure, or its own part. -/
theorem afterRegions_cases (i : Instr) (s : State) (own : Step) :
    (∃ n, regionError i s.latched = some n ∧ afterRegions i s own = .next (raiseError .arg n s)) ∨
    (regionError i s.latched = none ∧ afterRegions i s own = own) := by
  unfold afterRegions
  cases h : regionError i s.latched with
  | none => exact .inr ⟨rfl, rfl⟩
  | some n => exact .inl ⟨n, rfl, rfl⟩

/-- What a command that may fail its own checks answers: the failure, or what follows them. -/
theorem afterChecks_cases (l : List (Bool × Err × Nat)) (s : State) (own : Step) :
    (∃ e n, firstFailing l = some (e, n) ∧ afterChecks l s own = .next (raiseError e n s)) ∨
    (firstFailing l = none ∧ afterChecks l s own = own) := by
  unfold afterChecks
  cases h : firstFailing l with
  | none => exact .inr ⟨rfl, rfl⟩
  | some c => exact .inl ⟨c.1, c.2, rfl, rfl⟩

theorem afterChecks_pass {l : List (Bool × Err × Nat)} {s : State} {own : Step} (h : firstFailing l = none) :
    afterChecks l s own = own := by
  rw [afterChecks, h]

/-! ## Completion and failure -/

theorem SameHostSide.refl (s : State) : SameHostSide s s := ⟨rfl, rfl, rfl, rfl, rfl, rfl, rfl, rfl, rfl, rfl, rfl⟩

/-- A completion after an update that leaves the host side, the flags and ERRINFO as they were. -/
theorem complete_completed {s u : State} (r : List Nat) (b : Bool) (h : SameHostSide s u)
    (hs : u.status = s.status) (he : u.errInfo = s.errInfo) : Completed s (complete r b u) (Results.ofList r) b :=
  ⟨rfl, by simp [Status.succeed, hs], he, rfl, rfl, ⟨h.regs, h.ie, h.latched, h.abortReq, h.host, h.rdata, h.owned,
    h.unobserved, h.rejected, h.misused, h.hung⟩⟩

/-- A failure after such an update. -/
theorem raiseError_failed {s u : State} (e : Err) (n : Nat) (h : SameHostSide s u)
    (hs : u.status = s.status) (hr : u.results = s.results) : Failed s (raiseError e n u) e (BitVec.ofNat 32 n) :=
  ⟨hr, by simp [Status.fail, hs], rfl, rfl, rfl, ⟨h.regs, h.ie, h.latched, h.abortReq, h.host, h.rdata, h.owned,
    h.unobserved, h.rejected, h.misused, h.hung⟩⟩

/-- A failure raised before anything was written leaves memory as it was. -/
theorem raiseError_untouched (e : Err) (n : Nat) (s : State) :
    FailedUntouched s (raiseError e n s) e (BitVec.ofNat 32 n) :=
  ⟨raiseError_failed e n (SameHostSide.refl s) rfl rfl, rfl⟩

/-- The registers of a completion with one result. -/
theorem ofList_one (w : Word) : Results.ofList [w.toNat] = resultsOf w 0 0 := by
  simp [Results.ofList, resultsOf]

/-! ## Writing the destination -/

theorem writeDst_hostSide (s : State) (o : Nat) (v : List Byte) : SameHostSide s (s.writeDst o v) :=
  ⟨rfl, rfl, rfl, rfl, rfl, rfl, rfl, rfl, rfl, rfl, rfl⟩

theorem unspecifyDstFrom_hostSide (s : State) (o : Nat) : SameHostSide s (s.unspecifyDstFrom o) :=
  ⟨rfl, rfl, rfl, rfl, rfl, rfl, rfl, rfl, rfl, rfl, rfl⟩

/-- The addresses outside the written part of the destination. -/
theorem read_writeDst_outside {s : State} {o a : Nat} {v : List Byte}
    (h : a < s.latched.dst.base + o ∨ s.latched.dst.base + o + v.length ≤ a) :
    (s.writeDst o v).mem.read a = s.mem.read a :=
  Memory.read_writeBytes_outside h

/-- The addresses of the written part of the destination. -/
theorem read_writeDst_inside {s : State} {o : Nat} {v : List Byte} (hm : s.mem.wf)
    (hv : s.latched.dst.base + o + v.length ≤ 4294967296) (k : Nat) (h : k < v.length) :
    (s.writeDst o v).mem.read (s.latched.dst.base + o + k) = v[k] :=
  Memory.read_writeBytes_inside hm hv k h

/-- The addresses outside the part of the destination that becomes unspecified. -/
theorem read_unspecifyDstFrom_outside {s : State} {o a : Nat}
    (h : a < s.latched.dst.base + o ∨ s.latched.dst.base + s.latched.dst.len ≤ a)
    (ho : o ≤ s.latched.dst.len) : (s.unspecifyDstFrom o).mem.read a = s.mem.read a := by
  apply Memory.read_fill_outside
  omega

end Sys2Proof.Machine
end

