-- ==== Sys2Proof/Laws/Step.lean ====
section
/-! SUPPORT. What a step does, case by case: an outside event, or the engine's move. -/

namespace Sys2Proof.Machine

/-- With no outside event the engine moves. -/
theorem step_engine {s : State} (h : s.host = []) : step s = engineStep s := by
  rw [step, h]

/-- After the event `wait` the engine moves. -/
theorem step_wait {s : State} {rest : List HostEvent} (h : s.host = .wait :: rest) :
    step s = engineStep { s with host := rest } := by
  rw [step, h]

/-- Any other event is the outside world's move. -/
theorem step_outside {s : State} {ev : HostEvent} {rest : List HostEvent} (h : s.host = ev :: rest)
    (hw : ev ≠ .wait) : step s = .next (outsideStep ev { s with host := rest }) := by
  rw [step, h]
  cases ev <;> first | rfl | exact absurd rfl hw

/-- An aligned word write below the window's end. -/
theorem step_wordWrite {s : State} {off : Nat} {v : Word} {rest : List HostEvent}
    (h : s.host = .regWrite .word off v :: rest) (h4 : off % 4 = 0) (hb : off < 0x80) :
    step s = .next (writeWindow off v { s with host := rest }) := by
  rw [step_outside h (by simp), outsideStep, windowWrite, if_pos (by simp [reachesWindow, h4, hb])]

/-- A CTRL write with SRST. -/
theorem writeCtrl_reset {v : Word} {s : State} (h3 : v.getLsbD 3 = true) : writeCtrl v s = resetEngine s := by
  rw [writeCtrl, if_pos h3]

/-- A CTRL write with ABORT and without SRST. -/
theorem writeCtrl_abort {v : Word} {s : State} (h3 : v.getLsbD 3 = false) (h1 : v.getLsbD 1 = true) :
    writeCtrl v s = { s with ie := v.getLsbD 2, abortReq := s.abortReq || decide (s.seq = .busy) } := by
  rw [writeCtrl, if_neg (by rw [h3]; exact Bool.false_ne_true), if_pos h1]
  split
  · rw [decide_eq_true ‹_›, Bool.or_true]
  · rw [decide_eq_false ‹_›, Bool.or_false]

/-- A CTRL write with START alone, while IDLE. -/
theorem writeCtrl_start {v : Word} {s : State} (h3 : v.getLsbD 3 = false) (h1 : v.getLsbD 1 = false)
    (h0 : v.getLsbD 0 = true) (hs : s.seq = .idle) :
    writeCtrl v s = startCommand { s with ie := v.getLsbD 2 } := by
  rw [writeCtrl, if_neg (by rw [h3]; exact Bool.false_ne_true), if_neg (by rw [h1]; exact Bool.false_ne_true),
    if_pos h0]
  exact if_pos hs

/-- A CTRL write that acts on nothing: no action bit, or a START while BUSY. -/
theorem writeCtrl_still {v : Word} {s : State} (h3 : v.getLsbD 3 = false) (h1 : v.getLsbD 1 = false)
    (h0 : v.getLsbD 0 = false ∨ s.seq = .busy) : writeCtrl v s = { s with ie := v.getLsbD 2 } := by
  rw [writeCtrl, if_neg (by rw [h3]; exact Bool.false_ne_true), if_neg (by rw [h1]; exact Bool.false_ne_true)]
  rcases h0 with h0 | hs
  · rw [if_neg (by rw [h0]; exact Bool.false_ne_true)]
  · split
    · exact if_neg (by rw [hs]; simp)
    · rfl

/-- Where no other agent read the destination, the end of a command is its own. -/
@[simp] theorem settle_false (o : Step) : settle false o = o := by
  cases o <;> rfl

/-- Whatever another agent read, a command that goes on goes on as it would. -/
theorem settle_next_of_busy {b : Bool} {t : State} (h : t.seq = .busy) : settle b (.next t) = .next t := by
  simp [settle, h]

/-- A move of the engine answers a next state whether or not another agent read the destination. -/
theorem settle_next {b : Bool} {o : Step} {u : State} (h : settle b o = .next u) :
    ∃ t, o = .next t ∧ u = if b && decide (t.seq = .idle) then t.afterMisuse else t := by
  cases o with
  | next t => exact ⟨t, rfl, by simpa [settle] using h.symm⟩
  | fault f => cases h
  | refused r => cases h

/-- An engine that is alone and BUSY runs its command or its token. -/
theorem step_alone {s : State} (h : RunsAlone s) : step s = runStep s := by
  rw [step_engine h.host, engineStep, if_neg (by rw [h.busy]; simp), if_neg (by rw [h.hung]; simp),
    if_neg (by rw [h.rejected]; simp), if_neg (by rw [h.abortReq]; simp), h.misused, settle_false]

/-- What the engine's move can be. -/
theorem engineStep_cases (s : State) :
    (s.seq = .idle ∧ engineStep s = .next s) ∨
    (s.seq = .busy ∧ s.hung = true ∧ engineStep s = .next s) ∨
    (s.seq = .busy ∧ s.hung = false ∧ s.rejected = true ∧ engineStep s = .next (finishUnspecified s)) ∨
    (s.seq = .busy ∧ s.hung = false ∧ s.rejected = false ∧ s.abortReq = true ∧ s.abortable = true ∧
      s.honoursAbort = true ∧ engineStep s = .next (finishAborted s)) ∨
    (s.seq = .busy ∧ s.hung = false ∧ s.rejected = false ∧ s.abortReq = true ∧ s.abortable = true ∧
      s.honoursAbort = false ∧
      engineStep s = settle s.misused (runStep { s with abortPassed := true, free := s.free + 1 })) ∨
    (s.seq = .busy ∧ s.hung = false ∧ s.rejected = false ∧ (s.abortReq = false ∨ s.abortable = false) ∧
      engineStep s = settle s.misused (runStep s)) := by
  rw [engineStep]
  cases hs : s.seq with
  | idle => simp
  | busy =>
    cases s.hung <;> cases s.rejected <;> cases s.abortReq <;> cases s.abortable <;> cases s.honoursAbort <;> simp

/-- The parts of memory that an unspecified destination may change. -/
theorem read_unspecifyNamedDst {s : State} {a : Nat}
    (h : a < s.latched.dst.base ∨ s.latched.dst.base + s.latched.dst.len ≤ a) :
    s.unspecifyNamedDst.mem.read a = s.mem.read a := by
  unfold State.unspecifyNamedDst
  split
  · exact read_unspecifyDstFrom_outside (by omega) (by omega)
  · rfl

theorem unspecifyNamedDst_wf {s : State} (h : s.mem.wf) : Memory.wf s.unspecifyNamedDst.mem := by
  unfold State.unspecifyNamedDst
  split
  · exact Memory.fill_wf h _ _ _
  · exact h

/-- An unspecified destination changes memory and the counter of free values only. -/
theorem unspecifyNamedDst_eq (s : State) :
    s.unspecifyNamedDst = { s with mem := s.unspecifyNamedDst.mem, free := s.unspecifyNamedDst.free } := by
  unfold State.unspecifyNamedDst
  split <;> rfl

/-- What a misuse without an error leaves open is inside memory, the RESULT registers and the counter of free values. -/
theorem afterMisuse_eq (s : State) :
    s.afterMisuse = { s with
      mem := s.unspecifyNamedDst.mem
      results := s.afterMisuse.results
      free := s.free + 1 } := by
  unfold State.afterMisuse
  rw [unspecifyNamedDst_eq]

/-- An outcome that another agent's write left open is inside memory, the results, ERR with its code, ERRINFO and the
counter of free values. -/
theorem unspecifyOutcome_eq (s : State) :
    s.unspecifyOutcome = { s with
      mem := s.unspecifyNamedDst.mem
      results := freeResults s.free
      errInfo := Config.freeWord s.free 9
      status := { freeStatus s.free false with done := s.status.done, stored := s.status.stored }
      free := s.free + 2 } := by
  unfold State.unspecifyOutcome
  rw [unspecifyNamedDst_eq]

/-- A completion with an open outcome. -/
theorem finishUnspecified_eq (s : State) :
    finishUnspecified s = { s with
      mem := s.unspecifyNamedDst.mem
      results := freeResults s.free
      errInfo := Config.freeWord s.free 9
      status := freeStatus s.free (s.reportsStored && Config.freeFlag s.free)
      seq := .idle
      dec := Decoder.idle
      free := s.free + 2 } := by
  unfold finishUnspecified
  rw [unspecifyOutcome_eq]

/-- E_ABORTED. -/
theorem finishAborted_eq (s : State) :
    finishAborted s = raiseError .aborted 0 { s with mem := s.unspecifyNamedDst.mem, free := s.free + 1 } := by
  unfold finishAborted
  rw [unspecifyNamedDst_eq]

/-- Every open outcome has a code of the table, and ERR exactly with a code other than 0 (60_exceptions.md R440). -/
theorem freeStatus_ok (n : Nat) (stored : Bool) :
    (freeStatus n stored).done = true ∧ (freeStatus n stored).errCode.toNat ≤ 8 ∧
      ((freeStatus n stored).err = true ↔ (freeStatus n stored).errCode ≠ 0) := by
  unfold freeStatus
  split
  · cases stored <;> exact ⟨rfl, by decide, by decide⟩
  · rename_i e _
    cases e <;> exact ⟨rfl, by decide, by decide⟩

/-- What another agent's write leaves of earlier commands: memory stays canonical, only bytes of the destinations of those
whose regions hold the address may change, and beside memory only the counter of free values does. -/
theorem misuseEarlier_spec (a : Nat) (s : State) :
    ∃ (m : Memory) (f : Nat), s.misuseEarlier a = { s with mem := m, free := f } ∧ (s.mem.wf → m.wf) ∧
      (∀ c, (∀ p ∈ s.unobserved, p.holds a = true → p.writesAt c = false) → m.read c = s.mem.read c) ∧
      ((∀ p ∈ s.unobserved, p.holds a = false) → m = s.mem ∧ f = s.free) := by
  have key : ∀ (l : List Params) (t : State), ∃ (m : Memory) (f : Nat),
      l.foldl (fun t p => t.unspecifyDstOf p) t = { t with mem := m, free := f } ∧ (t.mem.wf → m.wf) ∧
        (∀ c, (∀ p ∈ l, p.writesAt c = false) → m.read c = t.mem.read c) ∧ (l = [] → m = t.mem ∧ f = t.free) := by
    intro l
    induction l with
    | nil => exact fun t => ⟨t.mem, t.free, rfl, id, fun _ _ => rfl, fun _ => ⟨rfl, rfl⟩⟩
    | cons p l ih =>
      intro t
      obtain ⟨m, f, h1, h2, h3, -⟩ := ih (t.unspecifyDstOf p)
      refine ⟨m, f, h1, fun h => h2 ?_, fun c hc => ?_, fun h => by cases h⟩
      · unfold State.unspecifyDstOf
        dsimp only
        split
        · exact Memory.fill_wf h _ _ _
        · exact h
      · rw [h3 c (fun q hq => hc q (List.mem_cons_of_mem _ hq))]
        have hp := hc p List.mem_cons_self
        unfold State.unspecifyDstOf
        dsimp only
        split
        · rename_i hn
          rw [Params.writesAt, hn, Bool.true_and] at hp
          refine Memory.read_fill_outside ?_
          simp [Region.holds] at hp
          omega
        · rfl
  obtain ⟨m, f, h1, h2, h3, h4⟩ := key (s.unobserved.filter (fun p => p.holds a)) s
  refine ⟨m, f, h1, h2, fun c hc => h3 c fun p hp => ?_, fun h => h4 (List.filter_eq_nil_iff.mpr fun p hp => ?_)⟩
  · exact hc p (List.mem_of_mem_filter hp) (List.mem_filter.mp hp).2
  · rw [h p hp]; exact Bool.false_ne_true

/-- A running token program stays one where SEQ, the latched copy and the positions stay. -/
theorem TokenProgram.congr {s t : State} (h : TokenProgram s) (h1 : t.seq = s.seq) (h2 : t.latched = s.latched)
    (h3 : t.dec = s.dec) : TokenProgram t := by
  obtain ⟨a, b, c, d, e, f, g⟩ := h
  exact ⟨h1 ▸ a, h2 ▸ b, h2 ▸ c, by rw [h3, h2]; exact d, by rw [h3, h2]; exact e, by rw [h3]; exact f,
    by rw [h3]; exact g⟩

end Sys2Proof.Machine
end

