-- ==== Sys2Proof/Laws/Commands.lean ====
section
/-! SUPPORT. What every command shares: its region checks come first. -/

namespace Sys2Proof.Machine

/-- A command but NOP whose region checks fail answers that failure, and nothing of its own part has run
(60_exceptions.md R458). -/
theorem exec_regionError {i : Instr} {s : State} {n : Nat} (hi : i.isToken = false)
    (h : regionError i s.latched = some n) : exec i s = .next (raiseError .arg n s) := by
  have key : ∀ own, afterRegions i s own = .next (raiseError .arg n s) := fun own => by rw [afterRegions, h]
  cases i
  case nop => simp [regionError, usesSrc, usesDst, usesRef] at h
  case compress => exact key _
  case decompress => exact key _
  case chunkSizes => exact key _
  case getItemRange => exact key _
  case hdrEncode => exact key _
  case lzCompress => exact key _
  case lzDecompress => exact key _
  case shuffle => exact key _
  case unshuffle => exact key _
  case bitshuffle => exact key _
  case bitunshuffle => exact key _
  case deltaEncode => exact key _
  case deltaDecode => exact key _
  case truncPrec => exact key _
  all_goals simp [Instr.isToken] at hi

/-- A used region that wraps is the first failure. -/
theorem regionError_wrap {i : Instr} {p : Params}
    (h : (usesSrc i = true ∧ p.src.valid = false) ∨ (usesDst i = true ∧ p.dst.valid = false) ∨
      (usesRef i p = true ∧ p.ref.valid = false)) : regionError i p = some 0 := by
  rw [regionError, if_pos]
  rcases h with ⟨h, h'⟩ | ⟨h, h'⟩ | ⟨h, h'⟩ <;> simp [h, h']

end Sys2Proof.Machine
end

