-- ==== Sys2Proof/Laws/Decode.lean ====
section
/-! SUPPORT. The parts of a token's encoding, each read back by the decoder's part for it, and the other way round. -/

namespace Sys2Proof

/-! ## The control byte -/

@[simp] theorem controlL_control (l : BitVec 3) (f : BitVec 5) : controlL (control l f) = l := by
  ext k hk
  simp only [controlL, control, BitVec.getElem_extractLsb', BitVec.getLsbD_append]
  rw [if_neg (by omega), show 5 + k - 5 = k by omega, BitVec.getLsbD_eq_getElem hk]

@[simp] theorem controlF_control (l : BitVec 3) (f : BitVec 5) : controlF (control l f) = f := by
  ext k hk
  simp only [controlF, control, BitVec.getElem_extractLsb', BitVec.getLsbD_append, Nat.zero_add]
  rw [if_pos hk, BitVec.getLsbD_eq_getElem hk]

/-- A byte is its own two fields put together. -/
theorem control_fields (b : Byte) : control (controlL b) (controlF b) = b := by
  apply BitVec.eq_of_getLsbD_eq
  intro k hk
  simp only [control, controlL, controlF, BitVec.getLsbD_append, BitVec.getLsbD_extractLsb']
  split
  · simp only [Nat.zero_add, decide_eq_true ‹k < 5›, Bool.true_and]
  · rw [decide_eq_true (by omega), Bool.true_and, show 5 + (k - 5) = k by omega]

/-- The high and low part of a near distance put together. -/
theorem near_fields (d : BitVec 13) : d.extractLsb' 8 5 ++ d.extractLsb' 0 8 = d := by
  apply BitVec.eq_of_getLsbD_eq
  intro k hk
  simp only [BitVec.getLsbD_append, BitVec.getLsbD_extractLsb']
  split
  · simp only [Nat.zero_add, decide_eq_true ‹k < 8›, Bool.true_and]
  · rw [decide_eq_true (by omega), Bool.true_and, show 8 + (k - 8) = k by omega]

theorem near_high (f : BitVec 5) (b : Byte) : (f ++ b : BitVec 13).extractLsb' 8 5 = f := by
  apply BitVec.eq_of_getLsbD_eq
  intro k hk
  simp only [BitVec.getLsbD_append, BitVec.getLsbD_extractLsb', decide_eq_true hk, Bool.true_and]
  rw [if_neg (by omega), show 8 + k - 8 = k by omega]

theorem near_low (f : BitVec 5) (b : Byte) : (f ++ b : BitVec 13).extractLsb' 0 8 = b := by
  apply BitVec.eq_of_getLsbD_eq
  intro k hk
  simp only [BitVec.getLsbD_append, BitVec.getLsbD_extractLsb', decide_eq_true hk, Bool.true_and, Nat.zero_add]
  rw [if_pos hk]

/-- The high and low byte of a far distance put together. -/
theorem far_fields (x : BitVec 16) : x.extractLsb' 8 8 ++ x.extractLsb' 0 8 = x := by
  apply BitVec.eq_of_getLsbD_eq
  intro k hk
  simp only [BitVec.getLsbD_append, BitVec.getLsbD_extractLsb']
  split
  · simp only [Nat.zero_add, decide_eq_true ‹k < 8›, Bool.true_and]
  · rw [decide_eq_true (by omega), Bool.true_and, show 8 + (k - 8) = k by omega]

theorem far_high (a b : Byte) : (a ++ b : BitVec 16).extractLsb' 8 8 = a := by
  apply BitVec.eq_of_getLsbD_eq
  intro k hk
  simp only [BitVec.getLsbD_append, BitVec.getLsbD_extractLsb', decide_eq_true hk, Bool.true_and]
  rw [if_neg (by omega), show 8 + k - 8 = k by omega]

theorem far_low (a b : Byte) : (a ++ b : BitVec 16).extractLsb' 0 8 = b := by
  apply BitVec.eq_of_getLsbD_eq
  intro k hk
  simp only [BitVec.getLsbD_append, BitVec.getLsbD_extractLsb', decide_eq_true hk, Bool.true_and, Nat.zero_add]
  rw [if_pos hk]

/-! ## The length extension -/

theorem extensionBytes_length (ext : Nat) : (extensionBytes ext).length = ext / 255 + 1 := by
  simp [extensionBytes]

/-- Every sum below 255 is one byte. -/
theorem extensionBytes_lt {ext : Nat} (h : ext < 255) : extensionBytes ext = [BitVec.ofNat 8 ext] := by
  simp [extensionBytes, Nat.div_eq_of_lt h, Nat.mod_eq_of_lt h]

/-- 255 more is one byte 255 more. -/
theorem extensionBytes_add (ext : Nat) : extensionBytes (255 + ext) = 255 :: extensionBytes ext := by
  have h1 : (255 + ext) / 255 = ext / 255 + 1 := by omega
  have h2 : (255 + ext) % 255 = ext % 255 := by omega
  rw [extensionBytes, h1, h2, List.replicate_succ, List.cons_append, extensionBytes]

/-- The extension's bytes give their sum back, with whatever follows them. -/
theorem readExtension_extensionBytes (ext : Nat) (rest : List Byte) :
    readExtension (extensionBytes ext ++ rest) = some (ext, rest) := by
  induction ext using Nat.strong_induction_on with
  | _ ext ih =>
    by_cases h : ext < 255
    · rw [extensionBytes_lt h, List.singleton_append, readExtension, if_neg]
      · rw [BitVec.toNat_ofNat, Nat.mod_eq_of_lt (by omega)]
      · intro c
        have := congrArg BitVec.toNat c
        rw [BitVec.toNat_ofNat, Nat.mod_eq_of_lt (by omega)] at this
        simp at this
        omega
    · obtain ⟨k, rfl⟩ : ∃ k, ext = 255 + k := ⟨ext - 255, by omega⟩
      rw [extensionBytes_add, List.cons_append, readExtension, if_pos rfl, ih k (by omega)]

/-- What is read as an extension is the extension's bytes, and what follows them. -/
theorem readExtension_some {b rest : List Byte} {ext : Nat} (h : readExtension b = some (ext, rest)) :
    b = extensionBytes ext ++ rest := by
  induction b generalizing ext with
  | nil => cases h
  | cons e b ih =>
    rw [readExtension] at h
    split at h
    · split at h
      · cases h
        subst e
        rw [extensionBytes_add, List.cons_append, ← ih ‹_›]
      · cases h
    · cases h
      have : e.toNat < 255 := by
        have := e.isLt
        have : e.toNat ≠ 255 := fun c => ‹¬ e = 255› (BitVec.eq_of_toNat_eq c)
        omega
      rw [extensionBytes_lt this, BitVec.ofNat_toNat, BitVec.setWidth_eq, List.singleton_append]

/-! ## The distance -/

/-- A near distance is read back from its two parts. -/
theorem readDistance_near {d : BitVec 13} (h : nearFits d = true) (rest : List Byte) :
    readDistance (d.extractLsb' 8 5) (d.extractLsb' 0 8 :: rest) = .ok (.near d, rest) := by
  simp only [readDistance, near_fields]
  rw [if_neg (of_decide_eq_true h)]

/-- A far distance is read back from the escape and its two bytes. -/
theorem readDistance_far (x : BitVec 16) (rest : List Byte) :
    readDistance 31 (0xFF :: x.extractLsb' 8 8 :: x.extractLsb' 0 8 :: rest) = .ok (.far x, rest) := by
  simp only [readDistance, far_fields]
  exact if_pos (by decide)

/-- What is read as a near distance is its own low byte, below the escape. -/
theorem readDistance_ok_near {f : BitVec 5} {b rest : List Byte} {d : BitVec 13}
    (h : readDistance f b = .ok (.near d, rest)) :
    f = d.extractLsb' 8 5 ∧ b = d.extractLsb' 0 8 :: rest ∧ nearFits d = true := by
  cases b with
  | nil => cases h
  | cons lo b =>
    simp only [readDistance] at h
    split at h
    · split at h <;> cases h
    · cases h
      exact ⟨(near_high f lo).symm, by rw [near_low], decide_eq_true ‹_›⟩

/-- What is read as a far distance is the escape and its two bytes. -/
theorem readDistance_ok_far {f : BitVec 5} {b rest : List Byte} {x : BitVec 16}
    (h : readDistance f b = .ok (.far x, rest)) :
    f = 31 ∧ b = 0xFF :: x.extractLsb' 8 8 :: x.extractLsb' 0 8 :: rest := by
  cases b with
  | nil => cases h
  | cons lo b =>
    simp only [readDistance] at h
    split at h
    · rename_i he
      split at h
      · cases h
        have hf : f = 31 := by rw [← near_high f lo, he]; decide
        have hb : lo = 0xFF := by rw [← near_low f lo, he]; decide
        rw [hf, hb, far_high, far_low]
        exact ⟨rfl, rfl⟩
      · cases h
      · cases h
    · cases h

/-! ## Literal runs -/

/-- The count of a literal run of 1 to 32 bytes is its field and 1 more. -/
theorem literalCount {lits : List Byte} (h : literalsFit lits = true) :
    (BitVec.ofNat 5 (lits.length - 1)).toNat + 1 = lits.length := by
  simp only [literalsFit, Bool.and_eq_true, decide_eq_true_eq] at h
  rw [BitVec.toNat_ofNat, Nat.mod_eq_of_lt (by omega)]
  omega

/-- A literal run is read back from its bytes. -/
theorem readLiterals_append {mk : List Byte → Instr} (lits rest : List Byte) :
    readLiterals mk lits.length (lits ++ rest) = .ok (mk lits, rest) := by
  rw [readLiterals, if_neg (by simp), List.take_left, List.drop_left]

/-- What is read as a literal run is its bytes. -/
theorem readLiterals_ok {mk : List Byte → Instr} {n : Nat} {b rest : List Byte} {i : Instr}
    (h : readLiterals mk n b = .ok (i, rest)) : ∃ lits, i = mk lits ∧ lits.length = n ∧ b = lits ++ rest := by
  rw [readLiterals] at h
  split at h
  · cases h
  · cases h
    exact ⟨b.take n, rfl, by rw [List.length_take]; omega, (List.take_append_drop n b).symm⟩

end Sys2Proof
end

