-- ==== Sys2Proof/Laws/Header.lean ====
section
/-! SUPPORT. The header in the source region as the header codec reads it: its fields are bytes of memory, and its checks
pass exactly when `HeaderAccepted` holds. -/

namespace Sys2Proof.Machine

/-! ## Words -/

theorem append_toNat {n : Nat} (x : BitVec n) (b : Byte) : (x ++ b).toNat = x.toNat * 256 + b.toNat := by
  rw [BitVec.toNat_append, ← Nat.shiftLeft_add_eq_or_of_lt b.isLt, Nat.shiftLeft_eq]

/-- The value of four bytes put together, the last one lowest. -/
theorem word_toNat (b3 b2 b1 b0 : Byte) :
    (b3 ++ b2 ++ b1 ++ b0 : Word).toNat = leNat [b0, b1, b2, b3] := by
  simp only [append_toNat, leNat]
  omega

theorem word_ofNat (b3 b2 b1 b0 : Byte) : BitVec.ofNat 32 (leNat [b0, b1, b2, b3]) = (b3 ++ b2 ++ b1 ++ b0 : Word) := by
  rw [← word_toNat, BitVec.ofNat_toNat]
  exact BitVec.setWidth_eq _

/-- The little-endian word of a sequence is the word of its four bytes. -/
theorem le32_eq {b : List Byte} {i : Nat} (h : i + 4 ≤ b.length) :
    le32 b i = leNat [byteAt b i, byteAt b (i + 1), byteAt b (i + 2), byteAt b (i + 3)] := by
  have hl := slice_length h
  have : slice b i 4 = [byteAt b i, byteAt b (i + 1), byteAt b (i + 2), byteAt b (i + 3)] := by
    apply ext_byteAt (by simpa using hl)
    intro k hk
    rw [hl] at hk
    rw [byteAt_slice hk]
    have : k = 0 ∨ k = 1 ∨ k = 2 ∨ k = 3 := by omega
    rcases this with rfl | rfl | rfl | rfl <;> rfl
  rw [le32, this]

/-! ## The header in the source -/

/-- The bytes of the source that the header codec may read. -/
def State.headBytes (s : State) : List Byte :=
  s.mem.readBytes s.latched.src.base (min Config.hdrExt s.latched.src.len)

theorem byteAt_headBytes {s : State} {k : Nat} (h : k < 32) (h' : k < s.latched.srcLen.toNat) :
    byteAt s.headBytes k = s.srcByte k :=
  byteAt_readBytes _ _ _ (Nat.lt_min.mpr ⟨h, h'⟩)

theorem le32_headBytes {s : State} {k : Nat} (h : k + 4 ≤ 32) (h' : k + 4 ≤ s.latched.srcLen.toNat) :
    le32 s.headBytes k = (s.srcWord k).toNat := by
  rw [le32_eq, byteAt_headBytes (by omega) (by omega), byteAt_headBytes (by omega) (by omega),
    byteAt_headBytes (by omega) (by omega), byteAt_headBytes (by omega) (by omega), State.srcWord, word_toNat]
  rw [State.headBytes, Memory.readBytes_length]
  exact le_min h h'

/-- The header record of the source, field by field from bytes of memory. -/
def State.headerRecord (s : State) : Header where
  hlen := s.srcHeaderLength
  version := s.srcByte 0
  fmtver := s.srcByte 1
  flags := s.srcByte 2
  ts := s.srcByte 3
  nbytes := (s.srcWord 4).toNat
  bs := (s.srcWord 8).toNat
  cbytes := (s.srcWord 12).toNat
  ext := s.srcExtended
  stored := (s.srcByte 2).getLsbD 1
  codec := if s.srcExtended then s.srcByte 22 else ((s.srcByte 2).extractLsb' 5 3).setWidth 8
  fcode := if s.srcExtended then (List.range 6).map (fun k => s.srcByte (16 + k)) else List.replicate 6 0
  cmeta := if s.srcExtended then s.srcByte 23 else 0
  fmeta := if s.srcExtended then (List.range 6).map (fun k => s.srcByte (24 + k)) else List.replicate 6 0
  b30 := if s.srcExtended then s.srcByte 30 else 0
  xflags := if s.srcExtended then s.srcByte 31 else 0

/-- The checks of the header of a source of at least 16 bytes, in terms of bytes of memory. -/
theorem headerChecks_eq {s : State} (h : 16 ≤ s.latched.srcLen.toNat) :
    headerChecks s.headBytes s.latched.srcLen.toNat =
      [(false, .short, 0),
       (decide (s.srcByte 0 ≠ 2 ∧ s.srcByte 0 ≠ 3), .header, 0),
       (decide ((s.srcWord 12).toNat < 16), .header, 0),
       (decide (0 < (s.srcWord 4).toNat ∧ ((s.srcWord 8).toNat = 0 ∨ (s.srcWord 4).toNat < (s.srcWord 8).toNat)),
         .header, 0),
       (decide (262144 < (s.srcWord 8).toNat), .header, 0),
       (decide (s.srcByte 3 = 0 ∧ 0 < (s.srcWord 4).toNat), .header, 0),
       (s.srcExtended && decide (s.latched.srcLen.toNat < 32), .short, 0),
       (s.srcExtended && decide ((s.srcWord 12).toNat < 32), .header, 0)] := by
  have h0 : decide (s.latched.srcLen.toNat < 16) = false := decide_eq_false (by omega)
  simp only [headerChecks, extendedMarker, State.srcExtended, Config.hdrMin, Config.hdrExt, Config.maxBlockSize,
    byteAt_headBytes (s := s) (k := 0) (by omega) (by omega), byteAt_headBytes (s := s) (k := 2) (by omega) (by omega),
    byteAt_headBytes (s := s) (k := 3) (by omega) (by omega), le32_headBytes (s := s) (k := 4) (by omega) (by omega),
    le32_headBytes (s := s) (k := 8) (by omega) (by omega), le32_headBytes (s := s) (k := 12) (by omega) (by omega)]
  exact congrArg (fun b => ((b, Err.short, 0) :: _ : List (Bool × Err × Nat))) h0

/-- The field checks pass exactly when no one of them fails. -/
theorem fieldsAccepted_iff (s : State) : FieldsAccepted s ↔
    ¬ (s.srcByte 0 ≠ 2 ∧ s.srcByte 0 ≠ 3) ∧ ¬ (s.srcWord 12).toNat < 16 ∧
    ¬ (0 < (s.srcWord 4).toNat ∧ ((s.srcWord 8).toNat = 0 ∨ (s.srcWord 4).toNat < (s.srcWord 8).toNat)) ∧
    ¬ 262144 < (s.srcWord 8).toNat ∧ ¬ (s.srcByte 3 = 0 ∧ 0 < (s.srcWord 4).toNat) := by
  constructor
  · rintro ⟨h1, h2, h3, h4, h5⟩
    refine ⟨by tauto, by omega, ?_, by omega, fun c => h5 c.2 c.1⟩
    rintro ⟨c, d⟩
    have := h4 c
    omega
  · rintro ⟨h1, h2, h3, h4, h5⟩
    refine ⟨by tauto, by omega, by omega, fun c => ?_, fun c d => h5 ⟨d, c⟩⟩
    have : ¬ ((s.srcWord 8).toNat = 0 ∨ (s.srcWord 4).toNat < (s.srcWord 8).toNat) := fun d => h3 ⟨c, d⟩
    omega

/-- The record of an accepted header is made of bytes of memory. -/
theorem parseHeader_headBytes {s : State} (h : HeaderAccepted s) : parseHeader s.headBytes = s.headerRecord := by
  have hl := h.long
  have he : extendedMarker (s.srcByte 2) = s.srcExtended := rfl
  unfold parseHeader State.headerRecord State.srcHeaderLength
  simp only [he, byteAt_headBytes (s := s) (k := 0) (by omega) (by omega),
    byteAt_headBytes (s := s) (k := 1) (by omega) (by omega), byteAt_headBytes (s := s) (k := 2) (by omega) (by omega),
    byteAt_headBytes (s := s) (k := 3) (by omega) (by omega), le32_headBytes (s := s) (k := 4) (by omega) (by omega),
    le32_headBytes (s := s) (k := 8) (by omega) (by omega), le32_headBytes (s := s) (k := 12) (by omega) (by omega)]
  cases hx : s.srcExtended with
  | false => rfl
  | true =>
    have := h.extended hx
    simp only [byteAt_headBytes (s := s) (k := 22) (by omega) (by omega),
      byteAt_headBytes (s := s) (k := 23) (by omega) (by omega),
      byteAt_headBytes (s := s) (k := 30) (by omega) (by omega),
      byteAt_headBytes (s := s) (k := 31) (by omega) (by omega), if_true]
    have r1 : (List.range 6).map (fun k => byteAt s.headBytes (16 + k)) =
        (List.range 6).map (fun k => s.srcByte (16 + k)) :=
      List.map_congr_left fun k hk => by
        have := List.mem_range.mp hk
        exact byteAt_headBytes (by omega) (by omega)
    have r2 : (List.range 6).map (fun k => byteAt s.headBytes (24 + k)) =
        (List.range 6).map (fun k => s.srcByte (24 + k)) :=
      List.map_congr_left fun k hk => by
        have := List.mem_range.mp hk
        exact byteAt_headBytes (by omega) (by omega)
    rw [r1, r2]
    rfl

/-- An accepted header is read as its record. -/
theorem sourceHeader_accepted {s : State} (h : HeaderAccepted s) : s.sourceHeader = .ok s.headerRecord := by
  have hl := h.long
  have hf := (fieldsAccepted_iff s).mp h.fields
  show decodeHeader s.headBytes s.latched.srcLen.toNat = _
  rw [decodeHeader, parseHeader_headBytes h]
  have : firstFailing (headerChecks s.headBytes s.latched.srcLen.toNat) = none := by
    rw [headerChecks_eq hl, firstFailing_none_iff]
    intro c hc
    simp only [List.mem_cons, List.mem_nil_iff, or_false] at hc
    rcases hc with rfl | rfl | rfl | rfl | rfl | rfl | rfl | rfl
    · rfl
    · exact decide_eq_false hf.1
    · exact decide_eq_false hf.2.1
    · exact decide_eq_false hf.2.2.1
    · exact decide_eq_false hf.2.2.2.1
    · exact decide_eq_false hf.2.2.2.2
    · cases hx : s.srcExtended
      · rfl
      · simpa using (h.extended hx).1
    · cases hx : s.srcExtended
      · rfl
      · simpa using (h.extended hx).2
  rw [this]

/-- A header that is read has been accepted, and is its record. -/
theorem sourceHeader_ok {s : State} {h : Header} (hs : s.sourceHeader = .ok h) :
    HeaderAccepted s ∧ h = s.headerRecord := by
  have hc : firstFailing (headerChecks s.headBytes s.latched.srcLen.toNat) = none := by
    change decodeHeader s.headBytes s.latched.srcLen.toNat = _ at hs
    unfold decodeHeader at hs
    split at hs
    · cases hs
    · assumption
  have hl : 16 ≤ s.latched.srcLen.toNat := by
    rw [firstFailing_none_iff] at hc
    have := hc _ (by simp only [headerChecks]; exact List.mem_cons_self ..)
    exact Nat.not_lt.mp (of_decide_eq_false this)
  have ha : HeaderAccepted s := by
    rw [headerChecks_eq hl, firstFailing_none_iff] at hc
    simp only [List.forall_mem_cons] at hc
    obtain ⟨-, c1, c2, c3, c4, c5, c6, c7, -⟩ := hc
    refine ⟨hl, (fieldsAccepted_iff s).mpr ⟨of_decide_eq_false c1, of_decide_eq_false c2, of_decide_eq_false c3,
      of_decide_eq_false c4, of_decide_eq_false c5⟩, fun hx => ?_⟩
    rw [hx, Bool.true_and] at c6 c7
    exact ⟨Nat.not_lt.mp (of_decide_eq_false c6), Nat.not_lt.mp (of_decide_eq_false c7)⟩
  refine ⟨ha, ?_⟩
  rw [sourceHeader_accepted ha] at hs
  exact (Except.ok.inj hs).symm

/-- What a header that is not accepted answers. -/
theorem sourceHeader_error {s : State} :
    (s.latched.srcLen.toNat < 16 → s.sourceHeader = .error (.short, 0)) ∧
    (16 ≤ s.latched.srcLen.toNat → ¬ FieldsAccepted s → s.sourceHeader = .error (.header, 0)) ∧
    (16 ≤ s.latched.srcLen.toNat → FieldsAccepted s → s.srcExtended = true → s.latched.srcLen.toNat < 32 →
      s.sourceHeader = .error (.short, 0)) ∧
    (32 ≤ s.latched.srcLen.toNat → FieldsAccepted s → s.srcExtended = true → (s.srcWord 12).toNat < 32 →
      s.sourceHeader = .error (.header, 0)) := by
  have key : ∀ e, firstFailing (headerChecks s.headBytes s.latched.srcLen.toNat) = some e →
      s.sourceHeader = .error e := by
    intro e h
    show decodeHeader s.headBytes s.latched.srcLen.toNat = _
    rw [decodeHeader, h]
  refine ⟨fun h => key _ ?_, fun h hf => key _ ?_, fun h hf hx hl => key _ ?_, fun h hf hx hl => key _ ?_⟩
  · have : decide (s.latched.srcLen.toNat < Config.hdrMin) = true := decide_eq_true h
    rw [headerChecks]
    simp only [firstFailing, this, if_true]
  · rw [headerChecks_eq h]
    rw [fieldsAccepted_iff] at hf
    simp only [firstFailing, Bool.false_eq_true, if_false, decide_eq_true_eq]
    split
    · rfl
    · split
      · rfl
      · split
        · rfl
        · split
          · rfl
          · split
            · rfl
            · exact absurd ⟨‹_›, ‹_›, ‹_›, ‹_›, ‹_›⟩ hf
  · have hf := (fieldsAccepted_iff s).mp hf
    rw [headerChecks_eq h]
    simp only [firstFailing, Bool.false_eq_true, if_false, decide_eq_true_eq, hf, hx, Bool.true_and, hl, if_true]
  · have hf := (fieldsAccepted_iff s).mp hf
    have hn : ¬ s.latched.srcLen.toNat < 32 := by omega
    rw [headerChecks_eq (by omega)]
    simp only [firstFailing, Bool.false_eq_true, if_false, decide_eq_true_eq, hf, hx, Bool.true_and, hl, hn, if_true]

end Sys2Proof.Machine
end

