-- ==== Sys2Proof/Laws/Lz.lean ====
section
/-! SUPPORT. The token decoder: the match copy, what a token appends, what running one can answer, and the hash table's
canonical form. -/

namespace Sys2Proof.Machine

/-! ## The match copy -/

theorem copyMatch_length (dist n : Nat) (out : List Byte) : (copyMatch dist n out).length = out.length + n := by
  induction n generalizing out with
  | zero => rfl
  | succ n ih => rw [copyMatch, ih, List.length_append, List.length_singleton]; omega

/-- The copy keeps the output it starts from. -/
theorem copyMatch_prefix (dist n : Nat) (out : List Byte) : out <+: copyMatch dist n out := by
  induction n generalizing out with
  | zero => exact List.prefix_refl out
  | succ n ih => exact (List.prefix_append _ _).trans (ih _)

theorem byteAt_prefix {a b : List Byte} (h : a <+: b) {i : Nat} (hi : i < a.length) : byteAt b i = byteAt a i := by
  obtain ⟨c, rfl⟩ := h
  exact byteAt_append_left hi

/-- Each copied byte is the one `dist` before it, among them those just copied. -/
theorem byteAt_copyMatch {dist n : Nat} {out : List Byte} (h1 : 1 ≤ dist) (hd : dist ≤ out.length) {i : Nat}
    (hi : out.length ≤ i) (hn : i < out.length + n) :
    byteAt (copyMatch dist n out) i = byteAt (copyMatch dist n out) (i - dist) := by
  induction n generalizing out i with
  | zero => omega
  | succ n ih =>
    rw [copyMatch]
    by_cases hc : i = out.length
    · subst hc
      rw [byteAt_prefix (copyMatch_prefix _ _ _) (by simp),
        byteAt_prefix (copyMatch_prefix _ _ _) (by simp), byteAt_append_right (Nat.le_refl _),
        byteAt_append_left (by omega), Nat.sub_self]
      rfl
    · exact ih (by simp; omega) (by simp; omega) (by simp only [List.length_append, List.length_singleton]; omega)

/-- A match whose distance the output holds appends its length. -/
theorem matchOutput_some {len dist : Nat} {out : List Byte} (h : dist ≤ out.length) :
    ∃ new, matchOutput len dist out = some new ∧ new.length = len ∧ out ++ new = copyMatch dist len out := by
  refine ⟨_, if_neg (by omega), ?_, ?_⟩
  · rw [List.length_drop, copyMatch_length]
    omega
  · obtain ⟨c, hc⟩ := copyMatch_prefix dist len out
    rw [← hc, List.drop_left]

/-- A match that reaches before the start of the output fails. -/
theorem matchOutput_none {len dist : Nat} {out : List Byte} (h : out.length < dist) :
    matchOutput len dist out = none := if_pos h

/-- What a match token appends. -/
theorem tokenOutput_match {i : Instr} {len dist : Nat} (h : matchForm i = some (len, dist)) (out : List Byte) :
    tokenOutput i out = matchOutput len dist out := by
  cases i <;> simp only [matchForm, Option.some.injEq, Prod.mk.injEq, reduceCtorEq] at h
  all_goals
    obtain ⟨rfl, rfl⟩ := h
    rfl

/-- A match token's distance is at least 1. -/
theorem matchForm_distance {i : Instr} {len dist : Nat} (h : matchForm i = some (len, dist)) : 1 ≤ dist := by
  cases i <;> simp only [matchForm, Option.some.injEq, Prod.mk.injEq, reduceCtorEq] at h
  all_goals omega

/-! ## Running a token -/

theorem exec_token {i : Instr} (h : i.isToken = true) (s : State) : exec i s = runToken i s := by
  cases i <;> first | rfl | exact absurd h Bool.false_ne_true

theorem matchForm_isToken {i : Instr} {p : Nat × Nat} (h : matchForm i = some p) : i.isToken = true := by
  cases i <;> first | rfl | exact absurd h (by simp [matchForm])

theorem decoded_length (s : State) : s.decoded.length = s.dec.op := Memory.readBytes_length _ _ _

/-- A token whose checks pass appends its bytes. -/
theorem runToken_pass {i : Instr} {s : State} {new : List Byte}
    (hs : s.latched.srcAddr.toNat + s.latched.srcLen.toNat ≤ 4294967296)
    (hd : s.latched.dstAddr.toNat + s.latched.dstCap.toNat ≤ 4294967296)
    (ho : tokenOutput i s.decoded = some new) (hi : s.dec.ip + tokenLength i ≤ s.latched.srcLen.toNat)
    (hc : s.dec.op + new.length ≤ s.latched.dstCap.toNat) :
    runToken i s =
      if s.dec.ip + tokenLength i = s.latched.srcLen.toNat then
        .next (complete [s.dec.op + new.length] false ((s.writeDst s.dec.op new).passToken i new.length))
      else .next ((s.writeDst s.dec.op new).passToken i new.length) := by
  have h1 : s.latched.src.valid = true := (Region.valid_iff _).mpr hs
  have h2 : s.latched.dst.valid = true := (Region.valid_iff _).mpr hd
  rw [runToken, h1, h2, ho, Bool.and_self, if_pos rfl]
  exact if_neg (by simp only [Params.src, Params.dst]; omega)

/-- A token that fails a check writes nothing. -/
theorem runToken_fail {i : Instr} {s : State}
    (hs : s.latched.srcAddr.toNat + s.latched.srcLen.toNat ≤ 4294967296)
    (hd : s.latched.dstAddr.toNat + s.latched.dstCap.toNat ≤ 4294967296)
    (h : ∀ new, tokenOutput i s.decoded = some new →
      s.latched.srcLen.toNat < s.dec.ip + tokenLength i ∨ s.latched.dstCap.toNat < s.dec.op + new.length) :
    runToken i s = .next (raiseError .truncated s.dec.ip s) := by
  have h1 : s.latched.src.valid = true := (Region.valid_iff _).mpr hs
  have h2 : s.latched.dst.valid = true := (Region.valid_iff _).mpr hd
  rw [runToken, h1, h2, Bool.and_self, if_pos rfl]
  cases ho : tokenOutput i s.decoded with
  | none => rfl
  | some new => exact if_pos (h new ho)

/-- What running a token can answer. -/
theorem runToken_cases (i : Instr) (s : State) :
    runToken i s = .fault .outsideSystemMemory ∨
    runToken i s = .next (raiseError .truncated s.dec.ip s) ∨
    ∃ new, tokenOutput i s.decoded = some new ∧
      s.latched.dstAddr.toNat + s.latched.dstCap.toNat ≤ 4294967296 ∧
      s.dec.ip + tokenLength i ≤ s.latched.srcLen.toNat ∧ s.dec.op + new.length ≤ s.latched.dstCap.toNat ∧
      ((s.dec.ip + tokenLength i = s.latched.srcLen.toNat ∧ runToken i s =
          .next (complete [s.dec.op + new.length] false ((s.writeDst s.dec.op new).passToken i new.length))) ∨
        (s.dec.ip + tokenLength i < s.latched.srcLen.toNat ∧
          runToken i s = .next ((s.writeDst s.dec.op new).passToken i new.length))) := by
  by_cases hv : s.latched.srcAddr.toNat + s.latched.srcLen.toNat ≤ 4294967296 ∧
      s.latched.dstAddr.toNat + s.latched.dstCap.toNat ≤ 4294967296
  · by_cases h : ∀ new, tokenOutput i s.decoded = some new →
        s.latched.srcLen.toNat < s.dec.ip + tokenLength i ∨ s.latched.dstCap.toNat < s.dec.op + new.length
    · exact .inr (.inl (runToken_fail hv.1 hv.2 h))
    · simp only [not_forall, not_or, Nat.not_lt] at h
      obtain ⟨new, ho, hi, hc⟩ := h
      have hp := runToken_pass hv.1 hv.2 ho hi hc
      refine .inr (.inr ⟨new, ho, hv.2, hi, hc, ?_⟩)
      by_cases he : s.dec.ip + tokenLength i = s.latched.srcLen.toNat
      · exact .inl ⟨he, by rw [hp, if_pos he]⟩
      · exact .inr ⟨by omega, by rw [hp, if_neg he]⟩
  · refine .inl ?_
    have : (s.latched.src.valid && s.latched.dst.valid) = false := by
      rw [Bool.eq_false_iff]
      intro c
      rw [Bool.and_eq_true] at c
      exact hv ⟨(Region.valid_iff _).mp c.1, (Region.valid_iff _).mp c.2⟩
    rw [runToken, this, if_neg Bool.false_ne_true]

/-! ## The hash table -/

/-- The canonical form of the table: rising indices below 16384, positions below 262144. -/
theorem HashTable.mem_set {t : HashTable} {h p : Nat} {c : Nat × Nat} (hc : c ∈ t.set h p) :
    c ∈ t ∨ c = (h, p) := by
  induction t with
  | nil => exact .inr (by simpa [HashTable.set] using hc)
  | cons d t ih =>
    obtain ⟨k, q⟩ := d
    simp only [HashTable.set] at hc
    split at hc
    · rcases List.mem_cons.mp hc with rfl | hc
      · exact .inr rfl
      · exact .inl hc
    · split at hc
      · rcases List.mem_cons.mp hc with rfl | hc
        · exact .inr rfl
        · exact .inl (List.mem_cons_of_mem _ hc)
      · rcases List.mem_cons.mp hc with rfl | hc
        · exact .inl (by simp)
        · exact (ih hc).imp (List.mem_cons_of_mem _) id

theorem HashTable.set_rising {t : HashTable} (ht : t.Pairwise (fun c d => c.1 < d.1)) (h p : Nat) :
    (t.set h p).Pairwise (fun c d => c.1 < d.1) := by
  induction t with
  | nil => simp [HashTable.set]
  | cons d t ih =>
    obtain ⟨k, q⟩ := d
    have hp := List.pairwise_cons.mp ht
    simp only [HashTable.set]
    split
    · refine List.pairwise_cons.mpr ⟨fun c hc => ?_, ht⟩
      rcases List.mem_cons.mp hc with rfl | hc
      · assumption
      · have : k < c.1 := hp.1 c hc
        show h < c.1
        omega
    · split
      · subst k
        exact List.pairwise_cons.mpr ⟨hp.1, hp.2⟩
      · refine List.pairwise_cons.mpr ⟨fun c hc => ?_, ih hp.2⟩
        rcases HashTable.mem_set hc with hc | rfl
        · exact hp.1 c hc
        · show k < h
          omega

/-- Every hash is an index of the table. -/
theorem hashAt_lt (e : Nat) (inp : List Byte) (p : Nat) : hashAt e inp p < 16384 := by
  have hl : Config.hashLog e ≤ 14 := Nat.min_le_right _ _
  have h9 : 9 ≤ Config.hashLog e := Nat.le_min.mpr ⟨Nat.le_add_right _ _, by omega⟩
  rw [hashAt, Nat.shiftRight_eq_div_pow]
  apply Nat.div_lt_of_lt_mul
  refine Nat.lt_of_lt_of_le (Nat.mod_lt _ (by omega)) ?_
  calc 4294967296 = 2 ^ 18 * 2 ^ 14 := by norm_num
    _ ≤ 2 ^ (32 - Config.hashLog e) * 16384 :=
      Nat.mul_le_mul (Nat.pow_le_pow_right (by omega) (by omega)) (by norm_num)

/-- The entries a table of positions below `n` may have. -/
def HashTable.Below (n : Nat) (t : HashTable) : Prop :=
  t.Pairwise (fun c d => c.1 < d.1) ∧ ∀ c ∈ t, c.1 < 16384 ∧ c.2 < n

theorem HashTable.Below.set {n e p : Nat} {t : HashTable} {inp : List Byte} (h : t.Below n) (hp : p < n) :
    HashTable.Below n (t.set (hashAt e inp p) p) :=
  ⟨HashTable.set_rising h.1 _ _, fun c hc => by
    rcases HashTable.mem_set hc with hc | rfl
    · exact h.2 c hc
    · exact ⟨hashAt_lt e inp p, hp⟩⟩

/-- The encoder's loop leaves a table of positions of its input. -/
theorem encodeLoop_below (e : Nat) (inp : List Byte) (fuel p : Nat) (s : Encoder) (h : s.ht.Below inp.length) :
    HashTable.Below inp.length (encodeLoop e inp fuel p s).ht := by
  induction fuel generalizing p s with
  | zero => exact h
  | succ fuel ih =>
    rw [encodeLoop]
    split
    · rename_i hp
      split
      · simp only
        split
        · exact ih _ _ (h.set hp)
        · exact ih _ _ (h.set hp)
      · exact ih _ _ h
    · exact h

/-- The table that lz_encode leaves: the one it was given, or one of positions of its input. -/
theorem lzEncode_table (inp : List Byte) (cap e : Nat) (ht : HashTable) :
    (lzEncode inp cap e ht).2 = ht ∨ HashTable.Below inp.length (lzEncode inp cap e ht).2 := by
  unfold lzEncode
  split
  · exact .inl rfl
  · refine .inr ?_
    have h : HashTable.Below inp.length (encodeTokens e inp).ht :=
      encodeLoop_below e inp inp.length 0 ⟨[], [], []⟩ ⟨List.Pairwise.nil, by simp⟩
    simp only
    split
    · exact h
    · exact h

/-- What lz_encode answers does not depend on the table it is given (43_lz_codec.md R382). -/
theorem lzEncode_fst (inp : List Byte) (cap e : Nat) (ht ht' : HashTable) :
    (lzEncode inp cap e ht).1 = (lzEncode inp cap e ht').1 := by
  unfold lzEncode
  split
  · rfl
  · simp only

end Sys2Proof.Machine
end

