-- ==== Sys2Proof/Laws/Encoder.lean ====
section
/-! SUPPORT. The encoder: its tokens are the bytes of `greedyStream`, part by part (the hash, the table, the match length,
the literal runs, the match token), and with that what lz_encode answers. -/

namespace Sys2Proof.Machine

/-! ## The hash and the table -/

theorem hashAt_eq {e p : Nat} {x : List Byte} (h : p + 4 ≤ x.length) : hashAt e x p = hashOf e x p := by
  rw [hashAt, hashOf, le32_eq h, Nat.shiftRight_eq_div_pow]
  simp only [leNat, Config.hashMul, Config.hashLog]
  congr 3
  omega

/-- The entry just written, and every other one as before. -/
theorem HashTable.find_set (t : HashTable) (h p k : Nat) :
    (t.set h p).find k = if h = k then some p else t.find k := by
  induction t with
  | nil => rfl
  | cons c t ih =>
    obtain ⟨i, q⟩ := c
    simp only [HashTable.set]
    split
    · simp only [HashTable.find]
    · split
      · subst i
        simp only [HashTable.find]
        split <;> rfl
      · simp only [HashTable.find, ih]
        split
        · rw [if_neg (by omega)]
        · rfl

/-- The table holds the latest position of each hash. -/
def TableOf (hash : Nat → Nat) (seen : List Nat) (t : HashTable) : Prop :=
  ∀ h, t.find h = seen.find? (fun c => decide (hash c = h))

theorem TableOf.set {hash : Nat → Nat} {seen : List Nat} {t : HashTable} (ht : TableOf hash seen t) (p : Nat) :
    TableOf hash (p :: seen) (t.set (hash p) p) := by
  intro h
  rw [HashTable.find_set, ht h, List.find?_cons]
  by_cases hc : hash p = h
  · rw [if_pos hc, decide_eq_true hc]
  · rw [if_neg hc, decide_eq_false hc]

/-! ## Matches -/

theorem commonHead_le (a b : List Byte) : commonHead a b ≤ b.length := by
  induction a generalizing b with
  | nil => simp [commonHead]
  | cons x a ih =>
    cases b with
    | nil => simp [commonHead]
    | cons y b => simp only [commonHead]; split <;> simp; exact ih b

theorem commonHead_byteAt {a b : List Byte} {k : Nat} (h : k < commonHead a b) : byteAt a k = byteAt b k := by
  induction a generalizing b k with
  | nil => simp [commonHead] at h
  | cons x a ih =>
    cases b with
    | nil => simp [commonHead] at h
    | cons y b =>
      simp only [commonHead] at h
      split at h
      · subst y
        cases k with
        | zero => rfl
        | succ k => exact ih (by omega)
      · omega

theorem commonHead_ge {a b : List Byte} {n : Nat} (h : a.take n = b.take n) (hn : n ≤ b.length) :
    n ≤ commonHead a b := by
  induction n generalizing a b with
  | zero => exact Nat.zero_le _
  | succ n ih =>
    cases b with
    | nil => simp at hn
    | cons y b =>
      cases a with
      | nil => simp at h
      | cons x a =>
        simp at h
        obtain ⟨rfl, h⟩ := h
        simp only [commonHead, if_true]
        have := ih h (by simpa using hn)
        omega

/-- The byte-by-byte extension is the match length (43_lz_codec.md R385). -/
theorem commonHead_eq {x : List Byte} {c p : Nat} (h : c ≤ p) :
    commonHead (x.drop c) (x.drop p) = matchLength x c p := by
  unfold matchLength
  generalize hn : x.length - p = n
  induction n generalizing c p with
  | zero =>
    have := commonHead_le (x.drop c) (x.drop p)
    rw [List.length_drop] at this
    simp only [List.range_zero, List.takeWhile_nil, List.length_nil]
    omega
  | succ n ih =>
    have hp : p < x.length := by omega
    have hc : c < x.length := by omega
    rw [List.drop_eq_getElem_cons hp, List.drop_eq_getElem_cons hc, commonHead, List.range_succ_eq_map,
      List.takeWhile_cons, List.takeWhile_map]
    simp only [Nat.add_zero, byteAt_eq hc, byteAt_eq hp]
    by_cases he : x[c] = x[p]
    · rw [if_pos he, if_pos (decide_eq_true he), List.length_cons, List.length_map,
        ih (c := c + 1) (p := p + 1) (by omega) (by omega)]
      congr 3
      funext k
      simp only [Function.comp, Nat.add_assoc, Nat.add_comm 1 k, Nat.succ_eq_add_one]
    · rw [if_neg he, if_neg (by simpa using he)]
      rfl

/-- The match the encoder takes is the one the rules name (43_lz_codec.md R384 to R387). -/
theorem usableMatch_eq {e p : Nat} {x : List Byte} {seen : List Nat} {t : HashTable}
    (ht : TableOf (hashOf e x) seen t) (hs : ∀ c ∈ seen, c < p) (hp : p + 4 ≤ x.length) :
    usableMatch x (t.find (hashOf e x p)) p = matchAt e x seen p := by
  unfold usableMatch matchAt
  rw [ht]
  cases hf : seen.find? (fun c => decide (hashOf e x c = hashOf e x p)) with
  | none => rfl
  | some c =>
    have hc := hs c (List.mem_of_find?_eq_some hf)
    have h4 : slice x c 4 = slice x p 4 ↔ 4 ≤ matchLength x c p := by
      rw [← commonHead_eq hc.le]
      constructor
      · intro h
        exact commonHead_ge h (by rw [List.length_drop]; omega)
      · intro h
        have l1 : (slice x c 4).length = 4 := slice_length (by omega)
        have l2 : (slice x p 4).length = 4 := slice_length (by omega)
        refine ext_byteAt (by rw [l1, l2]) fun k hk => ?_
        rw [l1] at hk
        rw [byteAt_slice hk, byteAt_slice hk, ← byteAt_drop, ← byteAt_drop]
        exact commonHead_byteAt (by omega)
    simp only [Config.maxDist, h4, commonHead_eq hc.le]
    have hcost : matchCost (matchLength x c p) (p - c) = tokenCost (matchLength x c p) (p - c) := rfl
    rw [hcost]
    by_cases h1 : p - c ≤ 73727 ∧ 4 ≤ matchLength x c p
    · rw [if_pos h1]
      by_cases h2 : tokenCost (matchLength x c p) (p - c) < matchLength x c p
      · rw [if_pos h2, if_pos ⟨h1.1, h1.2, h2⟩]
      · rw [if_neg h2, if_neg fun hx => h2 hx.2.2]
    · rw [if_neg h1, if_neg fun hx => h1 ⟨hx.1, hx.2.1⟩]

/-- The length and distance of a match taken are in the token format's range. -/
theorem matchAt_range {e p len d : Nat} {x : List Byte} {seen : List Nat} (hs : ∀ c ∈ seen, c < p)
    (h : matchAt e x seen p = some (len, d)) : 4 ≤ len ∧ 1 ≤ d ∧ d ≤ 73727 := by
  unfold matchAt at h
  split at h
  · cases h
  · rename_i c hf
    have hc := hs c (List.mem_of_find?_eq_some hf)
    split at h
    · cases h
      omega
    · cases h

/-! ## Bytes of tokens -/

theorem control_eq (l : BitVec 3) (f : BitVec 5) : control l f = BitVec.ofNat 8 (32 * l.toNat + f.toNat) := by
  apply BitVec.eq_of_toNat_eq
  have := l.isLt
  have := f.isLt
  rw [control, BitVec.toNat_append, ← Nat.shiftLeft_add_eq_or_of_lt f.isLt, Nat.shiftLeft_eq, BitVec.toNat_ofNat]
  omega

/-- The bytes of the match token (43_lz_codec.md R390). -/
theorem tokenBytes_matchToken {len d : Nat} (hl : 4 ≤ len) (hd : d ≤ 73727) :
    tokenBytes (matchToken len d) = matchStream len d := by
  have hi : ∀ n : Nat, n < 8191 → (BitVec.ofNat 13 n).extractLsb' 8 5 = BitVec.ofNat 5 (n / 256) := by
    intro n h
    apply BitVec.eq_of_toNat_eq
    simp only [BitVec.extractLsb'_toNat, BitVec.toNat_ofNat, Nat.shiftRight_eq_div_pow]
    omega
  have lo : ∀ n : Nat, n < 8191 → (BitVec.ofNat 13 n).extractLsb' 0 8 = BitVec.ofNat 8 (n % 256) := by
    intro n h
    apply BitVec.eq_of_toNat_eq
    simp only [BitVec.extractLsb'_toNat, BitVec.toNat_ofNat, Nat.shiftRight_zero]
    omega
  have fhi : ∀ n : Nat, n < 65536 → (BitVec.ofNat 16 n).extractLsb' 8 8 = BitVec.ofNat 8 (n / 256) := by
    intro n h
    apply BitVec.eq_of_toNat_eq
    simp only [BitVec.extractLsb'_toNat, BitVec.toNat_ofNat, Nat.shiftRight_eq_div_pow]
    omega
  have flo : ∀ n : Nat, n < 65536 → (BitVec.ofNat 16 n).extractLsb' 0 8 = BitVec.ofNat 8 (n % 256) := by
    intro n h
    apply BitVec.eq_of_toNat_eq
    simp only [BitVec.extractLsb'_toNat, BitVec.toNat_ofNat, Nat.shiftRight_zero]
    omega
  unfold matchToken matchStream
  by_cases h9 : len ≤ 9
  · rw [if_pos h9]
    have hm : min (len - 3) 7 = len - 3 := by omega
    have hL : (BitVec.ofNat 3 (len - 3)).toNat = len - 3 := by rw [BitVec.toNat_ofNat]; omega
    rw [hm, if_neg (show ¬ 10 ≤ len by omega)]
    by_cases hn : d - 1 < 8191
    · rw [if_pos (show d - 1 < Config.nearLimit from hn), if_pos hn, if_pos hn]
      have hF : (BitVec.ofNat 5 ((d - 1) / 256)).toNat = (d - 1) / 256 := by rw [BitVec.toNat_ofNat]; omega
      rw [tokenBytes, nearBytes, hi _ hn, lo _ hn, control_eq, hL, hF]
    · rw [if_neg (show ¬ d - 1 < Config.nearLimit from hn), if_neg hn, if_neg hn]
      rw [tokenBytes, farBytes, fhi _ (by simp only [Config.nearLimit]; omega),
        flo _ (by simp only [Config.nearLimit]; omega), control_eq, hL]
      rfl
  · rw [if_neg h9]
    have hm : min (len - 3) 7 = 7 := by omega
    rw [hm, if_pos (show 10 ≤ len by omega)]
    by_cases hn : d - 1 < 8191
    · rw [if_pos (show d - 1 < Config.nearLimit from hn), if_pos hn, if_pos hn]
      have hF : (BitVec.ofNat 5 ((d - 1) / 256)).toNat = (d - 1) / 256 := by rw [BitVec.toNat_ofNat]; omega
      rw [tokenBytes, nearBytes, hi _ hn, lo _ hn, control_eq, hF]
      rfl
    · rw [if_neg (show ¬ d - 1 < Config.nearLimit from hn), if_neg hn, if_neg hn]
      rw [tokenBytes, farBytes, fhi _ (by simp only [Config.nearLimit]; omega),
        flo _ (by simp only [Config.nearLimit]; omega), control_eq]
      rfl

theorem literalStream_nil (first : Bool) : literalStream first [] = [] := rfl

/-- One run of pending literals, and the rest of them. -/
theorem literalStream_cons {lits : List Byte} (h : lits ≠ []) (first : Bool) :
    literalStream first lits =
      BitVec.ofNat 8 ((if first then 32 else 0) + ((lits.take 32).length - 1)) :: lits.take 32 ++
        literalStream false (lits.drop 32) := by
  have hp : 0 < lits.length := List.length_pos_iff.mpr h
  have hc : cdiv lits.length 32 = cdiv (lits.drop 32).length 32 + 1 := by
    rw [List.length_drop]
    unfold cdiv
    omega
  unfold literalStream
  rw [hc, List.range_succ_eq_map, List.flatMap_cons, List.flatMap_map]
  congr 1
  · simp [slice]
  · congr 1
    funext k
    have : slice lits (32 * k.succ) 32 = slice (lits.drop 32) (32 * k) 32 := by
      rw [slice, slice, List.drop_drop]
      congr 2
      omega
    simp only [this]
    simp

/-- The bytes of the literal-run tokens (43_lz_codec.md R389). -/
theorem streamBytes_literals (n : Nat) (first : Bool) (lits : List Byte) (h : lits.length ≤ n) :
    streamBytes (literalTokens first (literalRuns n lits)) = literalStream first lits := by
  induction n generalizing first lits with
  | zero =>
    have : lits = [] := by simpa using h
    subst this
    rfl
  | succ n ih =>
    rw [literalRuns]
    by_cases h0 : lits = []
    · subst h0
      rfl
    · have hp : 0 < lits.length := List.length_pos_iff.mpr h0
      have hf : (BitVec.ofNat 5 ((lits.take 32).length - 1)).toNat = (lits.take 32).length - 1 := by
        rw [BitVec.toNat_ofNat, List.length_take]
        omega
      rw [if_neg h0, literalTokens, streamBytes, List.flatMap_cons, literalStream_cons h0]
      congr 1
      · cases first
        · simp only [Bool.false_eq_true, if_false, tokenBytes, literalBytes, control_eq, hf]
          rfl
        · simp only [if_true, tokenBytes, literalBytes, control_eq, hf]
          rfl
      · exact ih false _ (by rw [List.length_drop]; omega)

theorem streamBytes_append (a b : List Instr) : streamBytes (a ++ b) = streamBytes a ++ streamBytes b :=
  List.flatMap_append

theorem streamBytes_flush (s : Encoder) :
    streamBytes s.flush.tokens = streamBytes s.tokens ++ literalStream s.tokens.isEmpty s.lits := by
  rw [Encoder.flush, streamBytes_append, streamBytes_literals _ _ _ (Nat.le_refl _)]

/-! ## The loop -/

/-- The encoder's loop writes the greedy stream (43_lz_codec.md R381). -/
theorem encodeLoop_stream (e : Nat) (x : List Byte) (fuel p : Nat) (s : Encoder) (seen : List Nat)
    (ht : TableOf (hashOf e x) seen s.ht) (hs : ∀ c ∈ seen, c < p) :
    streamBytes (encodeLoop e x fuel p s).flush.tokens =
      streamBytes s.tokens ++ greedyFrom e x fuel p seen s.lits s.tokens.isEmpty := by
  induction fuel generalizing p s seen with
  | zero => exact streamBytes_flush s
  | succ fuel ih =>
    rw [encodeLoop, greedyFrom]
    by_cases hp : p < x.length
    · rw [if_pos hp, if_pos hp]
      by_cases h4 : p + 4 ≤ x.length
      · rw [if_pos h4, if_pos h4]
        simp only [hashAt_eq h4, usableMatch_eq ht hs h4]
        have hs' : ∀ q, p < q → ∀ c ∈ p :: seen, c < q := by
          intro q hq c hc
          rcases List.mem_cons.mp hc with rfl | hc
          · exact hq
          · exact (hs c hc).trans hq
        cases hm : matchAt e x seen p with
        | none => exact ih _ _ _ (ht.set p) (hs' _ (by omega))
        | some r =>
          obtain ⟨len, d⟩ := r
          obtain ⟨h1, h2, h3⟩ := matchAt_range hs hm
          simp only
          rw [ih _ _ _ (ht.set p) (hs' _ (by omega))]
          simp only
          rw [streamBytes_append, streamBytes_flush,
            show streamBytes [matchToken len d] = matchStream len d by
              rw [← tokenBytes_matchToken h1 h3]; exact List.append_nil _]
          have hne : (s.flush.tokens ++ [matchToken len d]).isEmpty = false := by simp
          rw [hne, show s.flush.lits = [] from rfl]
          simp only [List.append_assoc]
      · rw [if_neg h4, if_neg h4]
        exact ih _ _ _ ht fun c hc => (hs c hc).trans (Nat.lt_succ_self p)
    · rw [if_neg hp, if_neg hp]
      exact streamBytes_flush s

/-- The encoder's tokens are the bytes of the greedy stream. -/
theorem streamBytes_encodeTokens (e : Nat) (x : List Byte) :
    streamBytes (encodeTokens e x).tokens = greedyStream e x := by
  have h := encodeLoop_stream e x x.length 0 ⟨[], [], []⟩ [] (fun h => rfl) (by simp)
  exact h

/-- What lz_encode answers (43_lz_codec.md R381, R391). -/
theorem lzEncode_none {e cap : Nat} {x : List Byte} (h : NotCompressible e x cap) (ht : HashTable) :
    (lzEncode x cap e ht).1 = none := by
  unfold lzEncode
  split
  · rfl
  · rename_i h0
    simp only
    rw [if_pos]
    rw [streamBytes_encodeTokens]
    rcases h with h | h | h
    · exact absurd (.inl h) h0
    · exact absurd (.inr h) h0
    · exact h

theorem lzEncode_some {e cap : Nat} {x : List Byte} (h : ¬ NotCompressible e x cap) (ht : HashTable) :
    (lzEncode x cap e ht).1 = some (greedyStream e x) := by
  unfold NotCompressible at h
  unfold lzEncode
  rw [if_neg (by tauto)]
  simp only
  rw [streamBytes_encodeTokens, if_neg (by tauto)]

end Sys2Proof.Machine
end

