-- ==== Sys2Proof/Laws/Filters.lean ====
section
/-! SUPPORT. The filter command frame, and the shape of every filter function: its length and its byte at a place. -/

namespace Sys2Proof.Machine

/-! ## The source and the reference as sequences -/

theorem srcBytes_length (s : State) : s.srcBytes.length = s.latched.srcLen.toNat :=
  Memory.readBytes_length _ _ _

theorem refBytes_length (s : State) : s.refBytes.length = s.latched.srcLen.toNat :=
  Memory.readBytes_length _ _ _

/-- A byte of the source as a sequence is a byte of memory. -/
theorem byteAt_srcBytes {s : State} {i : Nat} (h : i < s.latched.srcLen.toNat) :
    byteAt s.srcBytes i = s.srcByte i :=
  byteAt_map_range _ _ h

theorem byteAt_refBytes {s : State} {i : Nat} (h : i < s.latched.srcLen.toNat) :
    byteAt s.refBytes i = s.refByte i :=
  byteAt_map_range _ _ h

/-! ## The frame -/

/-- A filter command whose regions and checks pass writes the filtered source and nothing else. -/
theorem filterCommand_filtered {i : Instr} {own : List (Bool × Err × Nat)} {f : List Byte → List Byte} {s : State}
    (hm : s.mem.wf) (hf : FilterFits s.latched) (hr : regionError i s.latched = none)
    (ho : firstFailing own = none) (hl : (f s.srcBytes).length = s.latched.srcLen.toNat) :
    ∃ t, filterCommand i own f s = .next t ∧ Filtered s t s.latched.srcLen.toNat ∧ t.mem.wf ∧
      t.latched = s.latched ∧ ∀ b, b < s.latched.srcLen.toNat → t.dstByte b = byteAt (f s.srcBytes) b := by
  have h1 : decide (Config.maxBlockSize < s.latched.srcLen.toNat) = false :=
    decide_eq_false (Nat.not_lt.mpr hf.block)
  have h2 : decide (s.latched.dstCap.toNat < s.latched.srcLen.toNat) = false :=
    decide_eq_false (Nat.not_lt.mpr hf.room)
  have hc : firstFailing ([(decide (Config.maxBlockSize < s.latched.src.len), Err.arg, 5)] ++ own ++
      [(decide (s.latched.dst.len < s.latched.src.len), Err.destSmall, 0)]) = none := by
    rw [firstFailing_none_iff] at ho ⊢
    intro c hc
    simp only [List.mem_append, List.mem_singleton] at hc
    rcases hc with (rfl | hc) | rfl
    · exact h1
    · exact ho c hc
    · exact h2
  have hn : filterCommand i own f s = .next
      (complete [s.latched.srcLen.toNat] false
        ({ s with work := { s.work with bufA := s.srcBytes, bufB := f s.srcBytes } }.writeDst 0 (f s.srcBytes))) := by
    rw [filterCommand, afterRegions_pass hr]
    exact afterChecks_pass hc
  refine ⟨_, hn, ?_, ?_, rfl, ?_⟩
  · refine ⟨?_, ?_⟩
    · rw [← ofList_one]
      exact complete_completed [s.latched.srcLen.toNat] false ⟨rfl, rfl, rfl, rfl, rfl, rfl, rfl, rfl, rfl, rfl, rfl⟩ rfl rfl
    · intro a ha
      apply Memory.read_writeBytes_outside
      rw [hl]
      exact ha
  · exact Memory.writeBytes_wf hm _ _
  · intro b hb
    have := Memory.read_writeBytes_inside hm (a := s.latched.dstAddr.toNat) (v := f s.srcBytes)
      (by have := hf.regions.dst; have := hf.room; simp only [Config.memBytes]; omega) b (by omega)
    rw [byteAt_eq (by omega)]
    exact this

/-! ## The filter functions -/

theorem shuffle_length (ts : Nat) (x : List Byte) : (shuffle ts x).length = x.length := by simp [shuffle]

theorem unshuffle_length (ts : Nat) (x : List Byte) : (unshuffle ts x).length = x.length := by simp [unshuffle]

theorem bitshuffle_length (ts : Nat) (x : List Byte) : (bitshuffle ts x).length = x.length := by simp [bitshuffle]

theorem bitunshuffle_length (ts : Nat) (x : List Byte) : (bitunshuffle ts x).length = x.length := by
  simp [bitunshuffle]

theorem alignedBytes_le (ts : Nat) (x : List Byte) : alignedBytes ts x ≤ x.length := by
  unfold alignedBytes
  calc (x.length / ts - x.length / ts % 8) * ts ≤ x.length / ts * ts := Nat.mul_le_mul_right _ (Nat.sub_le _ _)
    _ ≤ x.length := Nat.div_mul_le_self _ _

theorem bitshuffleAligned_length (ts : Nat) (x : List Byte) : (bitshuffleAligned ts x).length = x.length := by
  have := alignedBytes_le ts x
  simp only [bitshuffleAligned, List.length_append, bitshuffle_length, List.length_take, List.length_drop]
  omega

theorem bitunshuffleAligned_length (ts : Nat) (x : List Byte) : (bitunshuffleAligned ts x).length = x.length := by
  have := alignedBytes_le ts x
  simp only [bitunshuffleAligned, List.length_append, bitunshuffle_length, List.length_take, List.length_drop]
  omega

theorem deltaRef_length (ts : Nat) (x : List Byte) : (deltaRef ts x).length = x.length := by simp [deltaRef]

theorem deltaXor_length (x r : List Byte) : (deltaXor x r).length = x.length := by simp [deltaXor]

theorem undeltaLoop_length (w : Nat) (x out : List Byte) : (undeltaLoop w x out).length = x.length + out.length := by
  induction x generalizing out with
  | nil => simp [undeltaLoop]
  | cons b x ih => simp only [undeltaLoop, ih, List.length_append, List.length_cons, List.length_nil]; omega

theorem undeltaRef_length (ts : Nat) (x : List Byte) : (undeltaRef ts x).length = x.length := by
  simp [undeltaRef, undeltaLoop_length]

theorem truncPrec_length (ts : Nat) (p : Int) (x : List Byte) : (truncPrec ts p x).length = x.length := by
  simp [truncPrec]

/-- The loop of undelta_ref keeps the bytes it has, and makes each further byte from the one w back. -/
theorem undeltaLoop_byteAt (w : Nat) (hw : 1 ≤ w) (x out : List Byte) (i : Nat) :
    (i < out.length → byteAt (undeltaLoop w x out) i = byteAt out i) ∧
    (out.length ≤ i → i < out.length + x.length →
      byteAt (undeltaLoop w x out) i =
        byteAt x (i - out.length) ^^^ (if w ≤ i then byteAt (undeltaLoop w x out) (i - w) else 0)) := by
  induction x generalizing out i with
  | nil => exact ⟨fun _ => rfl, fun h h' => absurd h' (by simp only [List.length_nil]; omega)⟩
  | cons b x ih =>
    have step := fun i => ih (out ++ [b ^^^ (if w ≤ out.length then byteAt out (out.length - w) else 0)]) i
    have keep : ∀ (l : List Byte) (c : Byte) (j : Nat), j < l.length → byteAt (l ++ [c]) j = byteAt l j := by
      intro l c j hj
      rw [byteAt_eq (by simp; omega), byteAt_eq hj, List.getElem_append_left hj]
    simp only [undeltaLoop, List.length_cons]
    refine ⟨fun h => ?_, fun h h' => ?_⟩
    · rw [(step i).1 (by simp; omega), keep _ _ _ h]
    · by_cases hi : i = out.length
      · subst hi
        rw [(step _).1 (by simp), byteAt_eq (by simp), List.getElem_concat_length rfl]
        have hb : byteAt (b :: x) (out.length - out.length) = b := by simp [byteAt]
        rw [hb]
        split
        · have last := (step (out.length - w)).1 (by rw [List.length_append]; omega)
          rw [if_pos ‹_›, keep _ _ _ (by omega)] at last
          rw [last]
        · rfl
      · rw [(step i).2 (by simp; omega) (by simp; omega)]
        have hb : byteAt (b :: x) (i - out.length) = byteAt x (i - (out.length + 1)) := by
          rw [show i - out.length = i - (out.length + 1) + 1 by omega]
          simp [byteAt]
        rw [hb, List.length_append, List.length_singleton]

end Sys2Proof.Machine
end

