-- ==== Sys2Proof/Laws/Marks.lean ====
section
/-! SUPPORT. The engine's own move does not look at the mark that another agent's read of the destination leaves: with
the other value of the mark it answers the same, the mark apart. -/

namespace Sys2Proof.Machine

/-- The same state with this mark of a destination read. -/
def State.marked (b : Bool) (s : State) : State := { s with misused := b }

/-- The same answer with this mark of a destination read. -/
def markStep (b : Bool) : Step → Step
  | .next t => .next (t.marked b)
  | .fault f => .fault f
  | .refused r => .refused r

/-! ## Choices that do not depend on the mark -/

theorem ite_marked {b : Bool} {p : Prop} [Decidable p] {o o' u u' : Step} (ho : o' = markStep b o)
    (hu : u' = markStep b u) : (if p then o' else u') = markStep b (if p then o else u) := by
  subst ho hu
  split <;> rfl

theorem afterRegions_marked {b : Bool} {i : Instr} {s : State} {o o' : Step} (h : o' = markStep b o) :
    afterRegions i (s.marked b) o' = markStep b (afterRegions i s o) := by
  subst h
  show (match regionError i s.latched with | some _ => _ | none => _) =
    markStep b (match regionError i s.latched with | some _ => _ | none => _)
  cases regionError i s.latched <;> rfl

theorem afterChecks_marked {b : Bool} {l : List (Bool × Err × Nat)} {s : State} {o o' : Step}
    (h : o' = markStep b o) : afterChecks l (s.marked b) o' = markStep b (afterChecks l s o) := by
  subst h
  unfold afterChecks
  cases firstFailing l <;> rfl

/-- A command's part that starts from the decoded header. -/
theorem header_marked {b : Bool} {s : State} {f f' : Header → Step} (h : ∀ x, f' x = markStep b (f x)) :
    (match (s.marked b).sourceHeader with
      | .error (e, info) => .next (raiseError e info (s.marked b))
      | .ok x => f' x) =
    markStep b (match s.sourceHeader with
      | .error (e, info) => .next (raiseError e info s)
      | .ok x => f x) := by
  show (match s.sourceHeader with | .error (_, _) => _ | .ok _ => _) =
    markStep b (match s.sourceHeader with | .error (_, _) => _ | .ok _ => _)
  cases s.sourceHeader with
  | error e => rfl
  | ok x => exact h x

/-! ## The commands and the tokens -/

theorem filterCommand_marked (b : Bool) (i : Instr) (l : List (Bool × Err × Nat)) (f : List Byte → List Byte)
    (s : State) : filterCommand i l f (s.marked b) = markStep b (filterCommand i l f s) :=
  afterRegions_marked (afterChecks_marked rfl)

theorem runToken_marked (b : Bool) (i : Instr) (s : State) :
    runToken i (s.marked b) = markStep b (runToken i s) := by
  refine ite_marked (p := (s.latched.src.valid && s.latched.dst.valid) = true) ?_ rfl
  show (match tokenOutput i s.decoded with | none => _ | some _ => _) =
    markStep b (match tokenOutput i s.decoded with | none => _ | some _ => _)
  cases tokenOutput i s.decoded with
  | none => rfl
  | some new => exact ite_marked rfl (ite_marked rfl rfl)

theorem storedCopy_marked (b : Bool) (h : Header) (a c : Nat) (s : State) :
    storedCopy h a c (s.marked b) = markStep b (storedCopy h a c s) :=
  ite_marked rfl rfl

theorem blockFailure_marked (b : Bool) (w : List Byte) (s : State) :
    (.next (blockFailure w (s.marked b)) : Step) = markStep b (.next (blockFailure w s)) := by
  unfold blockFailure
  split <;> rfl

theorem execCompress_marked (b : Bool) (s : State) : execCompress (s.marked b) = markStep b (execCompress s) := by
  refine afterRegions_marked (afterChecks_marked (ite_marked (congrArg Host.Outcome.next ?_) rfl))
  show (if (compressChunk s.latched s.srcBytes s.work).stored = true then _ else _) =
    State.marked b (if (compressChunk s.latched s.srcBytes s.work).stored = true then _ else _)
  split <;> rfl

theorem execDecompress_marked (b : Bool) (s : State) :
    execDecompress (s.marked b) = markStep b (execDecompress s) := by
  refine afterRegions_marked (header_marked fun h => ?_)
  refine ite_marked rfl (afterChecks_marked (ite_marked (storedCopy_marked b h _ _ s) (ite_marked rfl ?_)))
  show (match payloadMap h (s.mem.readBytes s.latched.src.base h.cbytes) with | .error (_, _) => _ | .ok _ => _) =
    markStep b
      (match payloadMap h (s.mem.readBytes s.latched.src.base h.cbytes) with | .error (_, _) => _ | .ok _ => _)
  cases payloadMap h (s.mem.readBytes s.latched.src.base h.cbytes) with
  | error e => rfl
  | ok starts =>
    show (match decodeBlocks h (s.mem.readBytes s.latched.src.base h.cbytes) starts
          (List.range (cdiv h.nbytes h.bs)) s.work [] with
        | .error _ => _
        | .ok (_, _) => _) =
      markStep b (match decodeBlocks h (s.mem.readBytes s.latched.src.base h.cbytes) starts
          (List.range (cdiv h.nbytes h.bs)) s.work [] with
        | .error _ => _
        | .ok (_, _) => _)
    cases decodeBlocks h (s.mem.readBytes s.latched.src.base h.cbytes) starts (List.range (cdiv h.nbytes h.bs))
      s.work [] with
    | error w => exact blockFailure_marked b w s
    | ok p => rfl

theorem execGetItemRange_marked (b : Bool) (s : State) :
    execGetItemRange (s.marked b) = markStep b (execGetItemRange s) := by
  refine afterRegions_marked (header_marked fun h => ?_)
  refine ite_marked rfl (afterChecks_marked (ite_marked (storedCopy_marked b h _ _ s) (ite_marked rfl ?_)))
  show (match payloadMap h (s.mem.readBytes s.latched.src.base h.cbytes) with | .error (_, _) => _ | .ok _ => _) =
    markStep b
      (match payloadMap h (s.mem.readBytes s.latched.src.base h.cbytes) with | .error (_, _) => _ | .ok _ => _)
  cases payloadMap h (s.mem.readBytes s.latched.src.base h.cbytes) with
  | error e => rfl
  | ok starts =>
    show (match decodeReference h (s.mem.readBytes s.latched.src.base h.cbytes) starts s.work with
        | none => _
        | some _ => _) =
      markStep b (match decodeReference h (s.mem.readBytes s.latched.src.base h.cbytes) starts s.work with
        | none => _
        | some _ => _)
    cases decodeReference h (s.mem.readBytes s.latched.src.base h.cbytes) starts s.work with
    | none => exact blockFailure_marked b [] s
    | some w =>
      show (match decodeRange h (s.mem.readBytes s.latched.src.base h.cbytes) starts
            (s.latched.arg0.toNat * h.ts.toNat) ((s.latched.arg0.toNat + s.latched.arg1.toNat) * h.ts.toNat)
            (rangeBlocks h.bs (s.latched.arg0.toNat * h.ts.toNat)
              ((s.latched.arg0.toNat + s.latched.arg1.toNat) * h.ts.toNat)) w [] with
          | .error _ => _
          | .ok (_, _) => _) =
        markStep b (match decodeRange h (s.mem.readBytes s.latched.src.base h.cbytes) starts
            (s.latched.arg0.toNat * h.ts.toNat) ((s.latched.arg0.toNat + s.latched.arg1.toNat) * h.ts.toNat)
            (rangeBlocks h.bs (s.latched.arg0.toNat * h.ts.toNat)
              ((s.latched.arg0.toNat + s.latched.arg1.toNat) * h.ts.toNat)) w [] with
          | .error _ => _
          | .ok (_, _) => _)
      cases decodeRange h (s.mem.readBytes s.latched.src.base h.cbytes) starts
        (s.latched.arg0.toNat * h.ts.toNat) ((s.latched.arg0.toNat + s.latched.arg1.toNat) * h.ts.toNat)
        (rangeBlocks h.bs (s.latched.arg0.toNat * h.ts.toNat)
          ((s.latched.arg0.toNat + s.latched.arg1.toNat) * h.ts.toNat)) w [] with
      | error out => exact blockFailure_marked b out s
      | ok p => rfl

theorem execLzCompress_marked (b : Bool) (s : State) :
    execLzCompress (s.marked b) = markStep b (execLzCompress s) := by
  refine afterRegions_marked (afterChecks_marked ?_)
  show (match lzEncode s.srcBytes s.latched.dst.len s.latched.effort s.work.ht with
      | (some _, _) => _ | (none, _) => _) =
    markStep b (match lzEncode s.srcBytes s.latched.dst.len s.latched.effort s.work.ht with
      | (some _, _) => _ | (none, _) => _)
  rcases lzEncode s.srcBytes s.latched.dst.len s.latched.effort s.work.ht with ⟨_ | _, _⟩ <;> rfl

/-- No instruction looks at the mark. -/
theorem exec_marked (b : Bool) (i : Instr) (s : State) : exec i (s.marked b) = markStep b (exec i s) := by
  cases i
  case nop => rfl
  case compress => exact execCompress_marked b s
  case decompress => exact execDecompress_marked b s
  case chunkSizes =>
    exact afterRegions_marked (i := .chunkSizes) (header_marked fun _ => rfl)
  case getItemRange => exact execGetItemRange_marked b s
  case hdrEncode => exact afterRegions_marked (i := .hdrEncode) (afterChecks_marked rfl)
  case lzCompress => exact execLzCompress_marked b s
  case lzDecompress => exact afterRegions_marked (i := .lzDecompress) (ite_marked rfl rfl)
  case shuffle => exact filterCommand_marked b _ _ _ s
  case unshuffle => exact filterCommand_marked b _ _ _ s
  case bitshuffle => exact filterCommand_marked b _ _ _ s
  case bitunshuffle => exact filterCommand_marked b _ _ _ s
  case deltaEncode =>
    exact filterCommand_marked b .deltaEncode [typesizeCheck s]
      (fun x => if s.latched.refBlock then deltaRef s.latched.typesize x else deltaXor x s.refBytes) s
  case deltaDecode =>
    exact filterCommand_marked b .deltaDecode [typesizeCheck s]
      (fun x => if s.latched.refBlock then undeltaRef s.latched.typesize x else deltaXor x s.refBytes) s
  case truncPrec => exact filterCommand_marked b _ _ _ s
  all_goals
    rw [exec_token rfl, exec_token rfl]
    exact runToken_marked b _ s

/-- The engine's own move does not look at the mark. -/
theorem runStep_marked (b : Bool) (s : State) : runStep (s.marked b) = markStep b (runStep s) := by
  refine ite_marked (p := s.dec.running = true) (ite_marked (p := s.latched.src.valid = true) ?_ rfl) ?_
  · show (match decodeToken s.dec.first s.fetchBytes with | .error _ => _ | .ok (_, _) => _) =
      markStep b (match decodeToken s.dec.first s.fetchBytes with | .error _ => _ | .ok (_, _) => _)
    cases decodeToken s.dec.first s.fetchBytes with
    | error e => rfl
    | ok p => exact exec_marked b p.1 s
  · show (match decodeCommand s.latched.opcode with | .error _ => _ | .ok _ => _) =
      markStep b (match decodeCommand s.latched.opcode with | .error _ => _ | .ok _ => _)
    cases decodeCommand s.latched.opcode with
    | error e => rfl
    | ok i => exact exec_marked b i s

end Sys2Proof.Machine
end

