-- ==== Sys2Proof/Laws/Pipeline.lean ====
section
/-! SUPPORT. Pipelines and blocks: what the filters of a pipeline keep, how the blocks cover a buffer, and when the
supported-chunk checks pass. -/

namespace Sys2Proof.Machine

/-! ## Pipelines -/

theorem forwardFilter_length (ts j : Nat) (r x : List Byte) (f : Filter) :
    (forwardFilter ts j r x f).length = x.length := by
  cases f with
  | shuffle => exact shuffle_length ts x
  | bitshuffle => exact bitshuffleAligned_length ts x
  | delta =>
    simp only [forwardFilter]
    split
    · exact deltaRef_length ts x
    · exact deltaXor_length x r
  | truncPrec p => exact truncPrec_length ts p x

theorem inverseFilter_length (ts j : Nat) (r x : List Byte) (f : Filter) :
    (inverseFilter ts j r x f).length = x.length := by
  cases f with
  | shuffle => exact unshuffle_length ts x
  | bitshuffle => exact bitunshuffleAligned_length ts x
  | delta =>
    simp only [inverseFilter]
    split
    · exact undeltaRef_length ts x
    · exact deltaXor_length x r
  | truncPrec p => rfl

/-- A pipeline keeps the length of a block (41_pipeline.md R263). -/
theorem forward_length (f : List Filter) (ts j : Nat) (r x : List Byte) : (forward f ts j r x).length = x.length := by
  unfold forward
  induction f generalizing x with
  | nil => rfl
  | cons g f ih => rw [List.foldl_cons, ih, forwardFilter_length]

theorem inverse_length (f : List Filter) (ts j : Nat) (r x : List Byte) : (inverse f ts j r x).length = x.length := by
  unfold inverse
  induction f.reverse generalizing x with
  | nil => rfl
  | cons g f ih => rw [List.foldl_cons, ih, inverseFilter_length]

/-- A pipeline without a delta step reads no reference. -/
theorem inverse_noDelta {f : List Filter} (h : hasDelta f = false) (ts j : Nat) (r r' x : List Byte) :
    inverse f ts j r x = inverse f ts j r' x := by
  have key : ∀ g ∈ f.reverse, g ≠ .delta := by
    intro g hg c
    subst c
    rw [hasDelta, List.any_eq_false] at h
    exact h .delta (List.mem_reverse.mp hg) (by simp)
  unfold inverse
  generalize f.reverse = l at key
  induction l generalizing x with
  | nil => rfl
  | cons g l ih =>
    have hg : inverseFilter ts j r x g = inverseFilter ts j r' x g := by
      cases g with
      | delta => exact absurd rfl (key .delta (by simp))
      | _ => rfl
    rw [List.foldl_cons, List.foldl_cons, hg, ih _ fun g hg => key g (List.mem_cons_of_mem _ hg)]

/-- Block 0 reads no reference (41_pipeline.md R264). -/
theorem inverse_blockZero (f : List Filter) (ts : Nat) (r r' x : List Byte) :
    inverse f ts 0 r x = inverse f ts 0 r' x := by
  unfold inverse
  induction f.reverse generalizing x with
  | nil => rfl
  | cons g l ih =>
    have hg : inverseFilter ts 0 r x g = inverseFilter ts 0 r' x g := by cases g <;> rfl
    rw [List.foldl_cons, List.foldl_cons, hg, ih]

theorem forward_blockZero (f : List Filter) (ts : Nat) (r r' x : List Byte) :
    forward f ts 0 r x = forward f ts 0 r' x := by
  unfold forward
  induction f generalizing x with
  | nil => rfl
  | cons g l ih =>
    have hg : forwardFilter ts 0 r x g = forwardFilter ts 0 r' x g := by cases g <;> rfl
    rw [List.foldl_cons, List.foldl_cons, hg, ih]

/-- The forward pass is the filters of the list in order. -/
theorem forward_eq (f : List Filter) (ts j : Nat) (r x : List Byte) : forward f ts j r x = applyFilters ts j r f x := by
  unfold forward
  induction f generalizing x with
  | nil => rfl
  | cons g f ih =>
    rw [List.foldl_cons, ih]
    cases g <;> rfl

/-- The inverse pass is the inverses of the list, the last filter's first. -/
theorem inverse_eq (f : List Filter) (ts j : Nat) (r x : List Byte) : inverse f ts j r x = undoFilters ts j r f x := by
  unfold inverse
  rw [List.foldl_reverse]
  induction f with
  | nil => rfl
  | cons g f ih =>
    rw [List.foldr_cons, ih]
    cases g <;> rfl

/-! ## Blocks -/

theorem cdiv_pos {a b : Nat} (ha : 0 < a) (hb : 0 < b) : 0 < cdiv a b :=
  Nat.div_pos (by omega) hb

/-- A block number is below the block count exactly when the block starts inside the buffer. -/
theorem lt_cdiv {a b j : Nat} (hb : 0 < b) : j < cdiv a b ↔ j * b < a := by
  rw [cdiv, Nat.lt_iff_add_one_le, Nat.le_div_iff_mul_le hb, Nat.add_mul, Nat.one_mul]
  omega

theorem cdiv_mul_ge (a : Nat) {b : Nat} (hb : 0 < b) : a ≤ cdiv a b * b := by
  by_contra c
  exact Nat.lt_irrefl _ ((lt_cdiv hb).mpr (Nat.lt_of_not_le c))

theorem blockLength_le (n bs j : Nat) : blockLength n bs j ≤ bs := Nat.min_le_left _ _

theorem blockBytes_length (bs : Nat) (b : List Byte) (j : Nat) :
    (blockBytes bs b j).length = blockLength b.length bs j := by
  simp [blockBytes, slice, blockLength]

/-- The block size COMPRESS chooses is at most the limit and at most the source (41_pipeline.md R267). -/
theorem blockSize_le (e ts n o : Nat) : blockSize e ts n o ≤ n ∧ blockSize e ts n o ≤ 262144 := by
  have key : ∀ b, b ≤ n → b ≤ 262144 →
      (if ts ≤ b then b - b % ts else b) ≤ n ∧ (if ts ≤ b then b - b % ts else b) ≤ 262144 := by
    intro b h1 h2
    split <;> omega
  exact key _ (Nat.min_le_right _ _) (Nat.le_trans (Nat.min_le_left _ _) (Nat.min_le_right _ _))

/-- The block size of a source that has bytes is not 0. -/
theorem blockSize_pos {e ts n o : Nat} (hn : 0 < n) (ht : 1 ≤ ts) : 0 < blockSize e ts n o := by
  have hb : 0 < Config.bsBase e * Config.bsTsMult ts := by
    apply Nat.mul_pos
    · by_cases h : e < 10
      · revert h
        unfold Config.bsBase
        revert e
        decide
      · have : [16384, 16384, 16384, 32768, 32768, 65536, 65536, 131072, 262144, 262144].getD e 262144 = 262144 :=
          List.getD_eq_default _ _ (by simpa using h)
        rw [Config.bsBase, this]
        omega
    · unfold Config.bsTsMult
      split <;> omega
  have key : ∀ b, 0 < b → 0 < (if ts ≤ b then b - b % ts else b) := by
    intro b h0
    split
    · rename_i hle
      have h1 := Nat.mod_add_div b ts
      have h3 : 0 < ts * (b / ts) := Nat.mul_pos ht (Nat.div_pos hle ht)
      omega
    · exact h0
  refine key _ (Nat.lt_min.mpr ⟨Nat.lt_min.mpr ⟨?_, by simp only [Config.maxBlockSize]; omega⟩, hn⟩)
  split <;> omega

/-- The block size COMPRESS chooses is the one of the rule, for every effort it accepts (41_pipeline.md R267). -/
theorem blockSizeIs_iff {e ts n o bs : Nat} (he : e ≤ 9) : BlockSizeIs e ts n o bs ↔ bs = blockSize e ts n o := by
  have h1 : Config.bsBase e = effortBlock e := by
    revert he
    revert e
    decide
  have h2 : effortBlock e * Config.bsTsMult ts = if 16 ≤ ts then 2 * effortBlock e else effortBlock e := by
    unfold Config.bsTsMult
    split
    · exact Nat.mul_comm _ _
    · exact Nat.mul_one _
  have h3 : (if o = 0 then (if 16 ≤ ts then 2 * effortBlock e else effortBlock e) else o) =
      (if o ≠ 0 then o else Config.bsBase e * Config.bsTsMult ts) := by
    rw [h1, h2]
    simp only [ne_eq, ite_not]
  have key : ∀ b, ((ts ≤ b ∧ bs = b - b % ts) ∨ (b < ts ∧ bs = b)) ↔ bs = if ts ≤ b then b - b % ts else b := by
    intro b
    by_cases h : ts ≤ b
    · rw [if_pos h]
      simp [h, Nat.not_lt.mpr h]
    · rw [if_neg h]
      simp [h, Nat.not_le.mp h]
  unfold BlockSizeIs blockSize
  rw [h3]
  simp only [Config.maxBlockSize]
  constructor
  · rintro ⟨_, _, rfl, rfl, h⟩
    exact (key _).mp h
  · exact fun h => ⟨_, _, rfl, rfl, (key _).mpr h⟩

/-! ## Decoding blocks -/

/-- A decoded block has its block's length, before and after the inverse filters (41_pipeline.md R289). -/
theorem decodeBlock_length {h : Header} {c : List Byte} {st : List Nat} {j : Nat} {r x y : List Byte}
    (hd : decodeBlock h c st j r = some (x, y)) :
    x.length = blockLength h.nbytes h.bs j ∧ y.length = blockLength h.nbytes h.bs j := by
  unfold decodeBlock at hd
  split at hd
  · cases hd
  · split at hd
    · simp only [Option.some.injEq, Prod.mk.injEq] at hd
      obtain ⟨rfl, rfl⟩ := hd
      exact ⟨‹_›, by rw [inverse_length]; assumption⟩
    · cases hd

/-- Block 0 decodes the same with any reference. -/
theorem decodeBlock_zero (h : Header) (c : List Byte) (st : List Nat) (r r' : List Byte) :
    decodeBlock h c st 0 r = decodeBlock h c st 0 r' := by
  unfold decodeBlock
  split
  · rfl
  · rw [inverse_blockZero h.pipeline h.ts.toNat r r']

/-- Without a delta step every block decodes the same with any reference. -/
theorem decodeBlock_noDelta {h : Header} (hd : hasDelta h.pipeline = false) (c : List Byte) (st : List Nat) (j : Nat)
    (r r' : List Byte) : decodeBlock h c st j r = decodeBlock h c st j r' := by
  unfold decodeBlock
  split
  · rfl
  · rw [inverse_noDelta hd h.ts.toNat j r r']

/-- The part of a block in a byte range is no longer than the range. -/
theorem rangePart_length_le (h : Header) (a z j : Nat) (x : List Byte) :
    (rangePart h a z j x).length ≤ min z (j * h.bs + blockLength h.nbytes h.bs j) - max a (j * h.bs) := by
  simp only [rangePart, slice, List.length_take, List.length_drop]
  omega

/-! ## The supported-chunk checks -/

/-- check_supported passes exactly when `ChunkSupported` holds. -/
theorem supportChecks_pass_iff (s : State) :
    firstFailing (supportChecks s.headerRecord) = none ↔ ChunkSupported s := by
  rw [firstFailing_none_iff]
  unfold supportChecks ChunkSupported
  simp only [List.forall_mem_cons]
  have hstored : s.headerRecord.stored = (s.srcByte 2).getLsbD 1 := rfl
  have hext : s.headerRecord.ext = s.srcExtended := rfl
  have hcodec : s.headerRecord.codec =
    (if s.srcExtended then s.srcByte 22 else ((s.srcByte 2).extractLsb' 5 3).setWidth 8) := rfl
  have hx : s.headerRecord.xflags = if s.srcExtended then s.srcByte 31 else 0 := rfl
  have hf : s.headerRecord.fcode =
    if s.srcExtended then (List.range 6).map (fun k => s.srcByte (16 + k)) else List.replicate 6 0 := rfl
  rw [hstored, hext, hcodec, hx, hf]
  cases (s.srcByte 2).getLsbD 1 with
  | true => simp
  | false =>
    cases s.srcExtended with
    | true => simp [Config.extCodecs]
    | false => simp [Config.extCodecs]

/-- The three checks have one error (41_pipeline.md R286). -/
theorem supportChecks_error {h : Header} {e : Err × Nat} (hf : firstFailing (supportChecks h) = some e) :
    e = (.unsupported, 0) := by
  unfold supportChecks at hf
  simp only [firstFailing] at hf
  split at hf
  · exact (Option.some.inj hf).symm
  · split at hf
    · exact (Option.some.inj hf).symm
    · split at hf
      · exact (Option.some.inj hf).symm
      · cases hf

/-- A failing check hides those after it. -/
theorem firstFailing_append_some {l k : List (Bool × Err × Nat)} {e : Err × Nat} (h : firstFailing l = some e) :
    firstFailing (l ++ k) = some e := by
  induction l with
  | nil => cases h
  | cons c l ih =>
    obtain ⟨b, x, n⟩ := c
    cases b
    · exact ih h
    · exact h

end Sys2Proof.Machine
end

