-- ==== Sys2Proof/Laws/Outcome.lean ====
section
/-! SUPPORT. What running a command can answer, once for all fifteen: it ends, with memory changed inside its destination
only, or it is an LZ_DECOMPRESS that starts the token decoder. -/

namespace Sys2Proof.Machine

/-! ## Memory changed inside the destination -/

/-- `m` is the memory of `s` with no byte outside the destination region changed. -/
structure WithinDst (s : State) (m : Memory) : Prop where
  wf : s.mem.wf → m.wf
  outside : ∀ a, a < s.latched.dstAddr.toNat ∨ s.latched.dstAddr.toNat + s.latched.dstCap.toNat ≤ a →
    m.read a = s.mem.read a

theorem WithinDst.refl (s : State) : WithinDst s s.mem := ⟨id, fun _ _ => rfl⟩

/-- A write of bytes that fit. -/
theorem WithinDst.write {s : State} (v : List Byte) (o : Nat) (h : o + v.length ≤ s.latched.dstCap.toNat) :
    WithinDst s (s.mem.writeBytes (s.latched.dst.base + o) v) := by
  refine ⟨fun h => Memory.writeBytes_wf h _ _, fun a ha => Memory.read_writeBytes_outside ?_⟩
  show a < s.latched.dstAddr.toNat + o ∨ s.latched.dstAddr.toNat + o + _ ≤ a
  omega

/-- The unspecified bytes from an offset on. -/
theorem WithinDst.fill {s : State} {m : Memory} (h : WithinDst s m) (o : Nat) (f : Nat → Byte) :
    WithinDst s (m.fill (s.latched.dst.base + o) f (s.latched.dst.len - o)) := by
  refine ⟨fun hm => Memory.fill_wf (h.wf hm) _ _ _, fun a ha => ?_⟩
  rw [← h.outside a ha]
  by_cases ho : o ≤ s.latched.dst.len
  · apply Memory.read_fill_outside
    have : o ≤ s.latched.dstCap.toNat := ho
    show a < s.latched.dstAddr.toNat + o ∨ s.latched.dstAddr.toNat + o + (s.latched.dstCap.toNat - o) ≤ a
    omega
  · rw [show s.latched.dst.len - o = 0 by omega]
    rfl

/-! ## The ends of a command -/

/-- `t` is an end of the command of `s`: a failure or a completion after changes of the destination, the internal
arrays and the counter of free values only. -/
def Ends (s t : State) : Prop :=
  ∃ (m : Memory) (w : Scratch) (f : Nat), WithinDst s m ∧ (s.work.Fits → w.Fits) ∧
    ((∃ e n, t = raiseError e n { s with mem := m, work := w, free := f }) ∨
      ∃ r b, t = complete r b { s with mem := m, work := w, free := f })

theorem ends_raise (s : State) (e : Err) (n : Nat) : Ends s (raiseError e n s) :=
  ⟨s.mem, s.work, s.free, .refl s, id, .inl ⟨e, n, rfl⟩⟩

theorem ends_raiseUnspecified (s : State) (e : Err) (n : Nat) : Ends s (raiseUnspecified e n s) :=
  ⟨_, s.work, s.free + 1, (WithinDst.refl s).fill 0 _, id, .inl ⟨e, n, rfl⟩⟩

theorem ends_blockFailure (s : State) (v : List Byte) : Ends s (blockFailure v s) := by
  unfold blockFailure
  split
  · exact ends_raise s _ _
  · exact ends_raiseUnspecified s _ _

theorem ends_complete (s : State) (r : List Nat) (b : Bool) : Ends s (complete r b s) :=
  ⟨s.mem, s.work, s.free, .refl s, id, .inr ⟨r, b, rfl⟩⟩

theorem ends_write {s : State} (r : List Nat) (b : Bool) (w : Scratch) (v : List Byte) (hw : s.work.Fits → w.Fits)
    (hv : v.length ≤ s.latched.dstCap.toNat) :
    Ends s (complete r b (({ s with work := w } : State).writeDst 0 v)) :=
  ⟨_, w, s.free, .write v 0 (by omega), hw, .inr ⟨r, b, rfl⟩⟩

theorem afterRegions_ends {i : Instr} {s : State} {own : Step} (h : ∃ t, own = .next t ∧ Ends s t) :
    ∃ t, afterRegions i s own = .next t ∧ Ends s t := by
  rcases afterRegions_cases i s own with ⟨n, _, hx⟩ | ⟨_, hx⟩
  · exact ⟨_, hx, ends_raise _ _ _⟩
  · rw [hx]
    exact h

theorem afterChecks_ends {l : List (Bool × Err × Nat)} {s : State} {own : Step}
    (h : firstFailing l = none → ∃ t, own = .next t ∧ Ends s t) : ∃ t, afterChecks l s own = .next t ∧ Ends s t := by
  rcases afterChecks_cases l s own with ⟨e, n, _, hx⟩ | ⟨hp, hx⟩
  · exact ⟨_, hx, ends_raise _ _ _⟩
  · rw [hx]
    exact h hp

/-- A check of a list that passes does not fail. -/
theorem check_of_pass {l : List (Bool × Err × Nat)} (h : firstFailing l = none) {p : Prop} [Decidable p] {e : Err × Nat}
    (hc : (decide p, e) ∈ l) : ¬ p :=
  of_decide_eq_false ((firstFailing_none_iff l).mp h _ hc)

/-! ## Filter commands -/

theorem filterCommand_ends {i : Instr} {own : List (Bool × Err × Nat)} {f : List Byte → List Byte} {s : State}
    (hf : (f s.srcBytes).length = s.srcBytes.length) : ∃ t, filterCommand i own f s = .next t ∧ Ends s t := by
  unfold filterCommand
  refine afterRegions_ends (afterChecks_ends fun hp => ⟨_, rfl, ?_⟩)
  have h1 : ¬ 262144 < s.latched.srcLen.toNat :=
    check_of_pass (p := Config.maxBlockSize < s.latched.src.len) (e := (.arg, 5)) hp (by simp)
  have h2 : ¬ s.latched.dstCap.toNat < s.latched.srcLen.toNat :=
    check_of_pass (p := s.latched.dst.len < s.latched.src.len) (e := (.destSmall, 0)) hp (by simp)
  have hl := srcBytes_length s
  refine ends_write _ _ _ _ (fun h => ⟨h.rising, h.entries, ?_, ?_, h.bufR⟩) (by omega)
  · show s.srcBytes.length ≤ _
    omega
  · show (f s.srcBytes).length ≤ _
    omega

/-! ## The encoders -/

/-- The table after lz_encode of a block keeps its form. -/
theorem table_fits {w : Scratch} {inp : List Byte} (h : w.Fits) (hl : inp.length ≤ 262144) (cap e : Nat) :
    (lzEncode inp cap e w.ht).2.Pairwise (fun c d => c.1 < d.1) ∧
      ∀ c ∈ (lzEncode inp cap e w.ht).2, c.1 < 16384 ∧ c.2 < 262144 := by
  rcases lzEncode_table inp cap e w.ht with hx | hx
  · rw [hx]
    exact ⟨h.rising, h.entries⟩
  · exact ⟨hx.1, fun c hc => ⟨(hx.2 c hc).1, Nat.lt_of_lt_of_le (hx.2 c hc).2 hl⟩⟩

/-- What lz_encode returns fits the capacity and is shorter than the input (43_lz_codec.md R391). -/
theorem lzEncode_length {inp out : List Byte} {cap e : Nat} {ht : HashTable}
    (h : (lzEncode inp cap e ht).1 = some out) : out.length ≤ cap ∧ out.length < inp.length := by
  unfold lzEncode at h
  split at h
  · cases h
  · simp only at h
    split at h
    · cases h
    · cases h
      omega

theorem codeBlocks_fits (f : List Filter) (ts e : Nat) {bs : Nat} (src : List Byte) (pos : Nat) (hbs : bs ≤ 262144)
    (js : List Nat) (c : Coded) (h : c.work.Fits) :
    match codeBlocks f ts e bs src pos js c with
    | .ok c' => c'.work.Fits
    | .error w => w.Fits := by
  induction js generalizing c with
  | nil => exact h
  | cons j js ih =>
    have hx : (blockBytes bs src j).length ≤ 262144 := by
      rw [blockBytes_length]
      have := blockLength_le src.length bs j
      omega
    have hy : (forward f ts j c.work.bufR (blockBytes bs src j)).length ≤ 262144 := by
      rw [forward_length]
      exact hx
    have hr : (if j = 0 then inverse f ts 0 [] (forward f ts j c.work.bufR (blockBytes bs src j))
        else c.work.bufR).length ≤ 262144 := by
      split
      · rw [inverse_length]
        exact hy
      · exact h.bufR
    have ht := table_fits h hy ((forward f ts j c.work.bufR (blockBytes bs src j)).length - 1) e
    rw [codeBlocks]
    rcases hz : lzEncode (forward f ts j c.work.bufR (blockBytes bs src j))
      ((forward f ts j c.work.bufR (blockBytes bs src j)).length - 1) e c.work.ht with ⟨o, t⟩
    rw [hz] at ht
    cases o with
    | none => exact ⟨ht.1, ht.2, hx, hy, hr⟩
    | some out => exact ih _ ⟨ht.1, ht.2, hx, hy, hr⟩

theorem compressChunk_fits (p : Params) (src : List Byte) (w : Scratch) (h : w.Fits) :
    (compressChunk p src w).work.Fits := by
  unfold compressChunk
  simp only
  split
  · exact h
  · have := codeBlocks_fits p.pipeline p.typesize p.effort src
      (p.hlen + tableLength (cdiv src.length (blockSize p.effort p.typesize src.length p.bsize.toNat)))
      (blockSize_le p.effort p.typesize src.length p.bsize.toNat).2
      (List.range (cdiv src.length (blockSize p.effort p.typesize src.length p.bsize.toNat))) ⟨[], [], w⟩ h
    split
    · rename_i hx
      rw [hx] at this
      exact this
    · rename_i hx
      rw [hx] at this
      split <;> exact this

theorem execCompress_ends (s : State) : ∃ t, execCompress s = .next t ∧ Ends s t := by
  unfold execCompress
  refine afterRegions_ends (afterChecks_ends fun _ => ?_)
  simp only
  have hf := compressChunk_fits s.latched s.srcBytes s.work
  generalize compressChunk s.latched s.srcBytes s.work = r at *
  split
  · refine ⟨_, rfl, ?_⟩
    split
    · exact ⟨s.mem, r.work, s.free, .refl s, hf, .inl ⟨_, _, rfl⟩⟩
    · exact ⟨_, r.work, s.free + 1, (WithinDst.refl s).fill 0 _, hf, .inl ⟨_, _, rfl⟩⟩
  · rename_i h
    have h : r.chunk.length ≤ s.latched.dstCap.toNat := Nat.not_lt.mp h
    exact ⟨_, rfl, _, r.work, s.free + 1, (WithinDst.write r.chunk 0 (by omega)).fill r.chunk.length _, hf,
      .inr ⟨_, _, rfl⟩⟩

theorem execLzCompress_ends (s : State) : ∃ t, execLzCompress s = .next t ∧ Ends s t := by
  unfold execLzCompress
  refine afterRegions_ends (afterChecks_ends fun hp => ?_)
  have h1 : ¬ 262144 < s.latched.srcLen.toNat :=
    check_of_pass (p := Config.maxBlockSize < s.latched.src.len) (e := (.arg, 5)) hp (by simp)
  have hl := srcBytes_length s
  have ht := fun h => table_fits (w := s.work) (inp := s.srcBytes) h (by omega) s.latched.dst.len s.latched.effort
  have hc := fun out h => (lzEncode_length (inp := s.srcBytes) (out := out) (cap := s.latched.dst.len)
    (e := s.latched.effort) (ht := s.work.ht) h).1
  simp only
  rcases hz : lzEncode s.srcBytes s.latched.dst.len s.latched.effort s.work.ht with ⟨o, t⟩
  rw [hz] at ht hc
  have hb : s.srcBytes.length ≤ 262144 := by omega
  cases o with
  | none =>
    exact ⟨_, rfl, _, { s.work with ht := t, bufA := s.srcBytes }, s.free + 1, (WithinDst.refl s).fill 0 _,
      fun h => ⟨(ht h).1, (ht h).2, hb, h.bufB, h.bufR⟩, .inr ⟨_, _, rfl⟩⟩
  | some out =>
    exact ⟨_, rfl, ends_write _ _ _ _ (fun h => ⟨(ht h).1, (ht h).2, hb, h.bufB, h.bufR⟩) (hc out rfl)⟩

/-! ## The chunk readers -/

/-- DECOMPRESS's loop keeps the buffers' width. -/
theorem decodeBlocks_fits {h : Header} {c : List Byte} {st : List Nat} (hbs : h.bs ≤ 262144) {js : List Nat}
    {w w' : Scratch} {out o : List Byte} (hd : decodeBlocks h c st js w out = .ok (w', o)) (hw : w.Fits) :
    w'.Fits := by
  induction js generalizing w out with
  | nil =>
    simp only [decodeBlocks, Except.ok.injEq, Prod.mk.injEq] at hd
    exact hd.1 ▸ hw
  | cons j js ih =>
    rw [decodeBlocks] at hd
    split at hd
    · cases hd
    · rename_i x y hx
      obtain ⟨a, b⟩ := decodeBlock_length hx
      have := blockLength_le h.nbytes h.bs j
      refine ih hd ⟨hw.rising, hw.entries, show x.length ≤ _ by omega, show y.length ≤ _ by omega, ?_⟩
      show (if j = 0 then y else w.bufR).length ≤ _
      split
      · omega
      · exact hw.bufR

/-- DECOMPRESS's loop gives no more bytes than the header announces. -/
theorem decodeBlocks_length {h : Header} {c : List Byte} {st : List Nat} {m j : Nat} {w w' : Scratch}
    {out o : List Byte} (hd : decodeBlocks h c st (List.range' j m) w out = .ok (w', o))
    (h1 : out.length ≤ j * h.bs) (h2 : out.length ≤ h.nbytes) : o.length ≤ h.nbytes := by
  induction m generalizing j w out with
  | zero =>
    simp only [List.range'_zero, decodeBlocks, Except.ok.injEq, Prod.mk.injEq] at hd
    exact hd.2 ▸ h2
  | succ m ih =>
    rw [List.range'_succ, decodeBlocks] at hd
    split at hd
    · cases hd
    · rename_i x y hx
      have hy := (decodeBlock_length hx).2
      refine ih hd ?_ ?_
      · rw [List.length_append, hy, Nat.add_mul, Nat.one_mul]
        have := blockLength_le h.nbytes h.bs j
        omega
      · rw [List.length_append, hy]
        unfold blockLength
        omega

/-- GET_ITEM_RANGE's loop keeps the buffers' width. -/
theorem decodeRange_fits {h : Header} {c : List Byte} {st : List Nat} {a z : Nat} (hbs : h.bs ≤ 262144)
    {js : List Nat} {w w' : Scratch} {out o : List Byte} (hd : decodeRange h c st a z js w out = .ok (w', o))
    (hw : w.Fits) : w'.Fits := by
  induction js generalizing w out with
  | nil =>
    simp only [decodeRange, Except.ok.injEq, Prod.mk.injEq] at hd
    exact hd.1 ▸ hw
  | cons j js ih =>
    rw [decodeRange] at hd
    split at hd
    · exact ih hd hw
    · split at hd
      · cases hd
      · rename_i x y hx
        obtain ⟨a, b⟩ := decodeBlock_length hx
        have := blockLength_le h.nbytes h.bs j
        exact ih hd ⟨hw.rising, hw.entries, show x.length ≤ _ by omega, show y.length ≤ _ by omega, hw.bufR⟩

/-- GET_ITEM_RANGE's loop gives no more bytes than the range has. -/
theorem decodeRange_length {h : Header} {c : List Byte} {st : List Nat} {a z m j : Nat} {w w' : Scratch}
    {out o : List Byte} (hd : decodeRange h c st a z (List.range' j m) w out = .ok (w', o))
    (h1 : out.length ≤ min z (j * h.bs) - a) : o.length ≤ z - a := by
  induction m generalizing j w out with
  | zero =>
    simp only [List.range'_zero, decodeRange, Except.ok.injEq, Prod.mk.injEq] at hd
    rw [← hd.2]
    omega
  | succ m ih =>
    have key : ∀ x : List Byte, (out ++ rangePart h a z j x).length ≤ min z ((j + 1) * h.bs) - a := by
      intro x
      have := rangePart_length_le h a z j x
      have := blockLength_le h.nbytes h.bs j
      rw [List.length_append, Nat.add_mul, Nat.one_mul]
      omega
    rw [List.range'_succ, decodeRange] at hd
    split at hd
    · exact ih hd (key _)
    · split at hd
      · cases hd
      · exact ih hd (key _)

theorem decodeReference_fits {h : Header} {c : List Byte} {st : List Nat} {w w' : Scratch} (hbs : h.bs ≤ 262144)
    (hd : decodeReference h c st w = some w') (hw : w.Fits) : w'.Fits := by
  unfold decodeReference at hd
  split at hd
  · split at hd
    · cases hd
    · rename_i x y hx
      cases hd
      obtain ⟨a, b⟩ := decodeBlock_length hx
      have := blockLength_le h.nbytes h.bs 0
      exact ⟨hw.rising, hw.entries, show x.length ≤ _ by omega, show y.length ≤ _ by omega,
        show y.length ≤ _ by omega⟩
  · cases hd
    exact hw

theorem storedCopy_ends {s : State} {h : Header} {a c : Nat} (hc : c - a ≤ s.latched.dstCap.toNat) :
    ∃ t, storedCopy h a c s = .next t ∧ Ends s t := by
  unfold storedCopy
  split
  · exact ⟨_, rfl, ends_raise _ _ _⟩
  · exact ⟨_, rfl, ends_write (s := s) _ _ s.work _ id (by rw [Memory.readBytes_length]; exact hc)⟩

theorem sourceHeader_block {s : State} {h : Header} (hs : s.sourceHeader = .ok h) : h.bs ≤ 262144 := by
  obtain ⟨a, rfl⟩ := sourceHeader_ok hs
  exact a.fields.block

theorem execDecompress_ends (s : State) : ∃ t, execDecompress s = .next t ∧ Ends s t := by
  unfold execDecompress
  refine afterRegions_ends ?_
  split
  · exact ⟨_, rfl, ends_raise _ _ _⟩
  · rename_i h hh
    split
    · exact ⟨_, rfl, ends_raise _ _ _⟩
    · refine afterChecks_ends fun hp => ?_
      have h1 : ¬ s.latched.dstCap.toNat < h.nbytes :=
        check_of_pass (p := s.latched.dst.len < h.nbytes) (e := (.destSmall, 0)) hp (by simp)
      split
      · exact storedCopy_ends (by omega)
      · split
        · exact ⟨_, rfl, ends_complete _ _ _⟩
        · simp only
          split
          · exact ⟨_, rfl, ends_raise _ _ _⟩
          · split
            · exact ⟨_, rfl, ends_blockFailure _ _⟩
            · rename_i hd
              refine ⟨_, rfl, ends_write _ _ _ _ (decodeBlocks_fits (sourceHeader_block hh) hd) ?_⟩
              rw [List.range_eq_range'] at hd
              have := decodeBlocks_length hd (by simp) (by simp)
              omega

theorem execGetItemRange_ends (s : State) : ∃ t, execGetItemRange s = .next t ∧ Ends s t := by
  unfold execGetItemRange
  refine afterRegions_ends ?_
  split
  · exact ⟨_, rfl, ends_raise _ _ _⟩
  · rename_i h hh
    have hbs := sourceHeader_block hh
    split
    · exact ⟨_, rfl, ends_raise _ _ _⟩
    · simp only
      generalize (s.latched.arg0.toNat + s.latched.arg1.toNat) * h.ts.toNat = z
      generalize s.latched.arg0.toNat * h.ts.toNat = a
      refine afterChecks_ends fun hp => ?_
      have h1 : ¬ s.latched.dstCap.toNat < z - a :=
        check_of_pass (p := s.latched.dst.len < z - a) (e := (.destSmall, 0)) hp (by simp)
      split
      · exact storedCopy_ends (by omega)
      · split
        · exact ⟨_, rfl, ends_complete _ _ _⟩
        · split
          · exact ⟨_, rfl, ends_raise _ _ _⟩
          · split
            · exact ⟨_, rfl, ends_blockFailure _ _⟩
            · rename_i hw
              split
              · exact ⟨_, rfl, ends_blockFailure _ _⟩
              · rename_i hd
                refine ⟨_, rfl, ends_write _ _ _ _
                  (fun hf => decodeRange_fits hbs hd (decodeReference_fits hbs hw hf)) ?_⟩
                unfold rangeBlocks at hd
                rw [← List.range'_eq_map_range] at hd
                have := decodeRange_length hd (by simp)
                omega

/-! ## The header commands -/

theorem encodeHeader_length (p : HeaderParams) : (encodeHeader p).length = p.hlen := by
  unfold encodeHeader HeaderParams.hlen
  cases p.ext <;> simp [le32Bytes, leBytes_length, Config.hdrMin, Config.hdrExt]

theorem execHdrEncode_ends (s : State) : ∃ t, execHdrEncode s = .next t ∧ Ends s t := by
  unfold execHdrEncode
  simp only
  refine afterRegions_ends (afterChecks_ends fun hp => ⟨_, rfl, ?_⟩)
  have h1 : ¬ s.latched.dstCap.toNat < s.latched.headerParams.hlen :=
    check_of_pass (p := s.latched.dst.len < s.latched.headerParams.hlen) (e := (.destSmall, 0)) hp (by simp)
  exact ends_write (s := s) _ _ s.work _ id (by rw [encodeHeader_length]; omega)

theorem execChunkSizes_ends (s : State) : ∃ t, execChunkSizes s = .next t ∧ Ends s t := by
  unfold execChunkSizes
  refine afterRegions_ends ?_
  split
  · exact ⟨_, rfl, ends_raise _ _ _⟩
  · exact ⟨_, rfl, ends_complete _ _ _⟩

/-! ## Every command -/

/-- Every command answers a next state, and but for an LZ_DECOMPRESS that starts the token decoder it ends. -/
theorem exec_command_cases {i : Instr} (hi : i.isToken = false) (s : State) :
    ∃ t, exec i s = .next t ∧
      (Ends s t ∨ (i = .lzDecompress ∧ RegionsFit s.latched ∧ s.latched.srcLen ≠ 0 ∧
        t = { s with dec := ⟨true, 0, 0, true⟩ })) := by
  have ends : ∀ {o : Step}, (∃ t, o = .next t ∧ Ends s t) → ∃ t, o = .next t ∧
      (Ends s t ∨ (i = .lzDecompress ∧ RegionsFit s.latched ∧ s.latched.srcLen ≠ 0 ∧
        t = { s with dec := ⟨true, 0, 0, true⟩ })) := fun ⟨t, a, b⟩ => ⟨t, a, .inl b⟩
  cases i
  case nop => exact ⟨_, rfl, .inl (ends_complete _ _ _)⟩
  case compress => exact ends (execCompress_ends s)
  case decompress => exact ends (execDecompress_ends s)
  case chunkSizes => exact ends (execChunkSizes_ends s)
  case getItemRange => exact ends (execGetItemRange_ends s)
  case hdrEncode => exact ends (execHdrEncode_ends s)
  case lzCompress => exact ends (execLzCompress_ends s)
  case lzDecompress =>
    rcases afterRegions_cases .lzDecompress s (if s.latched.src.len = 0 then .next (complete [0] false s)
      else .next { s with dec := ⟨true, 0, 0, true⟩ }) with ⟨n, _, hx⟩ | ⟨hr, hx⟩
    · exact ⟨_, hx, .inl (ends_raise _ _ _)⟩
    · by_cases h0 : s.latched.src.len = 0
      · exact ⟨_, hx.trans (if_pos h0), .inl (ends_complete _ _ _)⟩
      · refine ⟨_, hx.trans (if_neg h0), .inr ⟨rfl, ?_, fun c => h0 ?_, rfl⟩⟩
        · exact (regionError_none_iff rfl rfl (by simp [usesRef])).mp hr
        · show s.latched.srcLen.toNat = 0
          rw [c]
          rfl
  case shuffle => exact ends (filterCommand_ends (shuffle_length _ _))
  case unshuffle => exact ends (filterCommand_ends (unshuffle_length _ _))
  case bitshuffle => exact ends (filterCommand_ends (bitshuffle_length _ _))
  case bitunshuffle => exact ends (filterCommand_ends (bitunshuffle_length _ _))
  case deltaEncode =>
    refine ends (filterCommand_ends (i := .deltaEncode)
      (f := fun x => if s.latched.refBlock then deltaRef s.latched.typesize x else deltaXor x s.refBytes) ?_)
    split
    · exact deltaRef_length _ _
    · exact deltaXor_length _ _
  case deltaDecode =>
    refine ends (filterCommand_ends (i := .deltaDecode)
      (f := fun x => if s.latched.refBlock then undeltaRef s.latched.typesize x else deltaXor x s.refBytes) ?_)
    split
    · exact undeltaRef_length _ _
    · exact deltaXor_length _ _
  case truncPrec => exact ends (filterCommand_ends (truncPrec_length _ _ _))
  all_goals exact absurd hi (by simp [Instr.isToken])

/-- Whatever CMD decodes to is no token, and LZ_DECOMPRESS is opcode 0x11 (30_encoding.md R150). -/
theorem decodeCommand_ok {o : Byte} {i : Instr} (h : decodeCommand o = .ok i) :
    i.isToken = false ∧ (i = .lzDecompress → o = 0x11) := by
  unfold decodeCommand at h
  split at h
  · rename_i row hf
    have hm := List.mem_of_find?_eq_some hf
    have ho : row.1 = o := by simpa using List.find?_some hf
    cases h
    rw [← ho]
    simp only [opcodeTable, List.mem_cons, List.mem_nil_iff, or_false] at hm
    rcases hm with h | h | h | h | h | h | h | h | h | h | h | h | h | h | h <;> rw [h] <;>
      exact ⟨rfl, by simp⟩
  · cases h

end Sys2Proof.Machine
end

