-- ==== Sys2Proof/Laws/PerInstr.lean ====
section
/-! SUPPORT. What holds of every instruction, constructor by constructor. -/

namespace Sys2Proof.Laws

/-- A command's encoding is a CMD word whose bits 31:8 are 0; a token's is as many bytes as `tokenLength` says
(30_encoding.md R150, R178). -/
def EncodedLength.Statement (i : Instr) : Prop :=
  i.wellFormed = true →
    match encode i with
    | .word w => w.toNat < 256
    | .stream bytes => bytes.length = tokenLength i

theorem EncodedLength.nop : EncodedLength.Statement .nop := fun _ => by simp [encode]

theorem EncodedLength.compress : EncodedLength.Statement .compress := fun _ => by simp [encode]

theorem EncodedLength.decompress : EncodedLength.Statement .decompress := fun _ => by simp [encode]

theorem EncodedLength.chunkSizes : EncodedLength.Statement .chunkSizes := fun _ => by simp [encode]

theorem EncodedLength.getItemRange : EncodedLength.Statement .getItemRange := fun _ => by simp [encode]

theorem EncodedLength.hdrEncode : EncodedLength.Statement .hdrEncode := fun _ => by simp [encode]

theorem EncodedLength.lzCompress : EncodedLength.Statement .lzCompress := fun _ => by simp [encode]

theorem EncodedLength.lzDecompress : EncodedLength.Statement .lzDecompress := fun _ => by simp [encode]

theorem EncodedLength.shuffle : EncodedLength.Statement .shuffle := fun _ => by simp [encode]

theorem EncodedLength.unshuffle : EncodedLength.Statement .unshuffle := fun _ => by simp [encode]

theorem EncodedLength.bitshuffle : EncodedLength.Statement .bitshuffle := fun _ => by simp [encode]

theorem EncodedLength.bitunshuffle : EncodedLength.Statement .bitunshuffle := fun _ => by simp [encode]

theorem EncodedLength.deltaEncode : EncodedLength.Statement .deltaEncode := fun _ => by simp [encode]

theorem EncodedLength.deltaDecode : EncodedLength.Statement .deltaDecode := fun _ => by simp [encode]

theorem EncodedLength.truncPrec : EncodedLength.Statement .truncPrec := fun _ => by simp [encode]

theorem EncodedLength.litFirst (marker : BitVec 3) (lits : List Byte) :
    EncodedLength.Statement (.litFirst marker lits) := fun _ => Nat.add_comm _ _

theorem EncodedLength.lit (lits : List Byte) :
    EncodedLength.Statement (.lit lits) := fun _ => Nat.add_comm _ _

theorem EncodedLength.matchShortNear (l : BitVec 3) (d : BitVec 13) :
    EncodedLength.Statement (.matchShortNear l d) := fun _ => rfl

theorem EncodedLength.matchShortFar (l : BitVec 3) (x : BitVec 16) :
    EncodedLength.Statement (.matchShortFar l x) := fun _ => rfl

theorem EncodedLength.matchLongNear (ext : Nat) (d : BitVec 13) :
    EncodedLength.Statement (.matchLongNear ext d) := fun _ => by
  simp only [encode, tokenBytes, nearBytes, List.length_cons, List.length_append, extensionBytes_length, tokenLength,
    List.length_nil]
  omega

theorem EncodedLength.matchLongFar (ext : Nat) (x : BitVec 16) :
    EncodedLength.Statement (.matchLongFar ext x) := fun _ => by
  simp only [encode, tokenBytes, farBytes, List.length_cons, List.length_append, extensionBytes_length, tokenLength,
    List.length_nil]
  omega

end Sys2Proof.Laws
end

