-- ==== Sys2Proof/Tests/Slice0.lean ====
section
/-! SUPPORT. The tests: ill-formed terms refused, written-out encodings decoded, single steps on the spec's own vectors
(95_test_vectors.md, and the worked examples of 42_filters.md and 43_lz_codec.md), and for every obligation with
hypotheses a concrete state and operands that meet them together. -/

namespace Sys2Proof.Tests

open Sys2Proof Sys2Proof.Machine

set_option Elab.async false

/-! ## Ill-formed terms are refused -/

theorem test_empty_first_literal_refused : (Instr.litFirst 1 []).wellFormed = false := by decide
theorem test_long_first_literal_refused : (Instr.litFirst 1 (List.replicate 33 0)).wellFormed = false := by decide
theorem test_empty_literal_refused : (Instr.lit []).wellFormed = false := by decide
theorem test_long_literal_refused : (Instr.lit (List.replicate 33 0)).wellFormed = false := by decide
theorem test_near_length_0_refused : (Instr.matchShortNear 0 5).wellFormed = false := by decide
theorem test_near_length_7_refused : (Instr.matchShortNear 7 5).wellFormed = false := by decide
theorem test_near_escape_refused : (Instr.matchShortNear 1 0x1FFF).wellFormed = false := by decide
theorem test_far_length_0_refused : (Instr.matchShortFar 0 5).wellFormed = false := by decide
theorem test_far_length_7_refused : (Instr.matchShortFar 7 5).wellFormed = false := by decide
theorem test_long_near_escape_refused : (Instr.matchLongNear 3 0x1FFF).wellFormed = false := by decide

/-! ## Written-out encodings (30_encoding.md R150, R171 to R177) -/

theorem test_decode_nop : decode false (.word 0b00000000) = .ok .nop := by decide
theorem test_decode_compress : decode false (.word 0b00000001) = .ok .compress := by decide
theorem test_decode_decompress : decode false (.word 0b00000010) = .ok .decompress := by decide
theorem test_decode_chunk_sizes : decode false (.word 0b00000011) = .ok .chunkSizes := by decide
theorem test_decode_get_item_range : decode false (.word 0b00000100) = .ok .getItemRange := by decide
theorem test_decode_hdr_encode : decode false (.word 0b00000101) = .ok .hdrEncode := by decide
theorem test_decode_lz_compress : decode false (.word 0b00010000) = .ok .lzCompress := by decide
theorem test_decode_lz_decompress : decode false (.word 0b00010001) = .ok .lzDecompress := by decide
theorem test_decode_shuffle : decode false (.word 0b00100000) = .ok .shuffle := by decide
theorem test_decode_unshuffle : decode false (.word 0b00100001) = .ok .unshuffle := by decide
theorem test_decode_bitshuffle : decode false (.word 0b00100010) = .ok .bitshuffle := by decide
theorem test_decode_bitunshuffle : decode false (.word 0b00100011) = .ok .bitunshuffle := by decide
theorem test_decode_delta_encode : decode false (.word 0b00100100) = .ok .deltaEncode := by decide
theorem test_decode_delta_decode : decode false (.word 0b00100101) = .ok .deltaDecode := by decide
theorem test_decode_trunc_prec : decode false (.word 0b00100110) = .ok .truncPrec := by decide
theorem test_decode_unallocated : decode false (.word 0b00000110) = .error (.unknownOpcode 6) := by decide

/-- Marker 001, F = 00001: two bytes. -/
theorem test_decode_lit_first :
    decode true (.stream [0b00100001, 0x61, 0x62]) = .ok (.litFirst 1 [0x61, 0x62]) := by decide
/-- L = 000, F = 00000: one byte. -/
theorem test_decode_lit : decode false (.stream [0b00000000, 0x42]) = .ok (.lit [0x42]) := by decide
/-- L = 001, F = 11111, distance byte 0xFE: D = 8190, the largest near one. -/
theorem test_decode_match_short_near :
    decode false (.stream [0b00111111, 0b11111110]) = .ok (.matchShortNear 1 8190) := by decide
/-- L = 110, F = 11111, the escape 0xFF, then X = 0x0102 high byte first. -/
theorem test_decode_match_short_far :
    decode false (.stream [0b11011111, 0b11111111, 0x01, 0x02]) = .ok (.matchShortFar 6 0x0102) := by decide
/-- L = 111, F = 00001, extension 255 then 34, distance byte 0x02: D = 256 + 2. -/
theorem test_decode_match_long_near :
    decode false (.stream [0b11100001, 0b11111111, 34, 0b00000010]) = .ok (.matchLongNear 289 258) := by decide
/-- L = 111, F = 11111, extension 6, the escape, then X = 0x0338 (vector V2.19). -/
theorem test_decode_match_long_far :
    decode false (.stream [0b11111111, 6, 0b11111111, 0x03, 0x38]) = .ok (.matchLongFar 6 0x0338) := by decide

/-- The numbers of spec/opcode_table.json (log 19): a CMD word and the two-byte match of R422's example. -/
theorem test_table_numbers :
    decodeTableWord 32 0x26 = some .truncPrec ∧ decodeTableWord 16 0xC002 = some (.matchShortNear 6 2) ∧
      decodeTableWord 32 0x3FFF000A = some (.matchShortFar 1 10) := by decide

/-! ## Helpers -/

/-- Latched operands: the source at 0x1000, the destination at 0x2000. -/
def operands (srcLen dstCap cfg : Word) : Params :=
  { Params.zero with srcAddr := 0x1000, srcLen := srcLen, dstAddr := 0x2000, dstCap := dstCap, cfg := cfg }

/-- An engine BUSY with latched operands and these bytes at 0x1000. -/
def busyWith (p : Params) (bytes : List Byte) : State :=
  { State.reset with seq := .busy, latched := p, mem := Memory.writeBytes [] 0x1000 bytes, owned := true }

/-- The next state of an answer. -/
def answer : Step → Option State
  | .next t => some t
  | .fault _ => none
  | .refused _ => none

/-- STATUS, RESULT0, ERRINFO and the first `n` bytes at 0x2000 of the next state. -/
def seen (o : Step) (n : Nat) : Option (Word × Word × Word × List Byte) :=
  (answer o).map fun t =>
    (statusWord t.seq t.status, t.results.result0, t.errInfo, t.mem.readBytes 0x2000 n)

/-- A token program in the middle of its stream, with this output already in the destination. -/
def tokensAt (srcLen dstCap : Word) (ip : Nat) (out : List Byte) : State :=
  { busyWith { operands srcLen dstCap 0 with opcode := 0x11 } [] with
    dec := ⟨true, ip, out.length, decide (ip = 0)⟩
    mem := Memory.writeBytes [] 0x2000 out }

/-- STATUS, ip, op, ERRINFO and the first `n` bytes at 0x2000 of the next state. -/
def seenToken (o : Step) (n : Nat) : Option (Word × Nat × Nat × Word × List Byte) :=
  (answer o).map fun t =>
    (statusWord t.seq t.status, t.dec.ip, t.dec.op, t.errInfo, t.mem.readBytes 0x2000 n)

/-- The chunk of V5.1: `ab` 32 times. -/
def chunkAb : List Byte :=
  [0x02, 0x01, 0x00, 0x01, 0x40, 0, 0, 0, 0x40, 0, 0, 0, 0x16, 0, 0, 0, 0x21, 0x61, 0x62, 0xe0, 0x34, 0x01]

/-- The chunk CD of V5.3: i mod 3, three blocks of 32 bytes, delta. -/
def chunkCd : List Byte :=
  [0x02, 0x01, 0x08, 0x01, 0x60, 0, 0, 0, 0x20, 0, 0, 0, 0x32, 0, 0, 0] ++
  [0x1c, 0, 0, 0, 0x24, 0, 0, 0, 0x2b, 0, 0, 0] ++
  [0x23, 0x00, 0x01, 0x03, 0x02, 0xe0, 0x12, 0x02] ++
  [0x22, 0x02, 0x01, 0x03, 0xe0, 0x13, 0x02] ++ [0x22, 0x01, 0x03, 0x02, 0xe0, 0x13, 0x02]

/-- The stored chunk of E7: `00 01`. -/
def chunkE7 : List Byte := [0x02, 0x01, 0x02, 0x01, 2, 0, 0, 0, 2, 0, 0, 0, 0x12, 0, 0, 0, 0x00, 0x01]

/-- i mod 3 for i below `n`. -/
def mod3 (n : Nat) : List Byte := (List.range n).map fun i => BitVec.ofNat 8 (i % 3)

/-- 00, 01, 02, … -/
def counting (n : Nat) : List Byte := (List.range n).map fun i => BitVec.ofNat 8 i

/-! ## One step of each command -/

/-- V5.44. -/
theorem test_nop : seen (exec .nop (busyWith (operands 4 4 0) [1, 2, 3, 4])) 4 = some (0x2, 0, 0, [0, 0, 0, 0]) := by
  decide +kernel

/-- V5.1, with DST_CAP = 22 so that no byte is left unspecified. -/
theorem test_compress_coded :
    seen (exec .compress (busyWith (operands 64 22 0x00000105) ((List.replicate 32 [0x61, 0x62]).flatten))) 22 =
      some (0x2, 22, 0, chunkAb) := by decide +kernel

/-- V5.3: delta at three blocks, with its table. -/
theorem test_compress_delta_blocks :
    seen (exec .compress (busyWith { operands 96 50 0x00040101 with bsize := 32 } (mod3 96))) 50 =
      some (0x2, 50, 0, chunkCd) := by decide +kernel

/-- V5.36. -/
theorem test_decompress_delta_blocks :
    seen (exec .decompress (busyWith (operands 50 96 0) chunkCd)) 96 = some (0x2, 96, 0, mod3 96) := by decide +kernel

/-- V5.32: a stored chunk of the wrong length is E_HEADER. -/
theorem test_decompress_stored_length :
    seen (exec .decompress (busyWith (operands 19 96 0) (chunkE7.set 12 0x13 ++ [0x99]))) 2 =
      some (0x206, 0, 0, [0, 0]) := by decide +kernel

/-- V1.17: RESULT0 to RESULT6 of an extended header. -/
theorem test_chunk_sizes_extended :
    (answer (exec .chunkSizes (busyWith (operands 32 0 0)
      [3, 1, 5, 4, 0x40, 0x9c, 0, 0, 0x40, 0x9c, 0, 0, 0x48, 0x01, 0, 0, 0x03, 0x02]))).map
        (fun t => (t.results, statusWord t.seq t.status)) =
      some (⟨40000, 328, 40000, 0x04050103, 32, 0x00000203, 0, 0, 0⟩, 0x2) := by decide +kernel

/-- V1.15: an unknown codec is reported and not refused. -/
theorem test_chunk_sizes_codec :
    (answer (exec .chunkSizes (busyWith (operands 16 0 0) (chunkAb.set 2 0x20)))).map
        (fun t => (t.results.result3, t.results.result6)) = some (0x01200102, 0x00010000) := by decide +kernel

/-- V5.41: block 1 needs block 0 as its delta reference. -/
theorem test_get_item_range_delta :
    seen (exec .getItemRange (busyWith { operands 50 16 0 with arg0 := 40, arg1 := 10 } chunkCd)) 10 =
      some (0x2, 10, 0, [1, 2, 0, 1, 2, 0, 1, 2, 0, 1]) := by decide +kernel

/-- P2: a range past nbytes is E_ARG(6). -/
theorem test_get_item_range_beyond :
    seen (exec .getItemRange (busyWith { operands 50 16 0 with arg0 := 0x5F, arg1 := 2 } chunkCd)) 1 =
      some (0x606, 0, 6, [0]) := by decide +kernel

/-- V1.20: a stored extended header has its slots cleared. -/
theorem test_hdr_encode_extended_stored :
    seen (exec .hdrEncode (busyWith
      { operands 40000 32 0x00080400 with bsize := 40000, fcode0 := 0x203, arg0 := 1, arg1 := 328 } [])) 18 =
      some (0x2, 32, 0, [3, 1, 7, 4, 0x40, 0x9c, 0, 0, 0x40, 0x9c, 0, 0, 0x48, 0x01, 0, 0, 0, 0]) := by decide +kernel

/-- V1.23: bs > nbytes is E_ARG(10). -/
theorem test_hdr_encode_block_size :
    seen (exec .hdrEncode (busyWith { operands 64 16 0x100 with bsize := 65, arg1 := 22 } [])) 1 =
      some (0x606, 0, 10, [0]) := by decide +kernel

/-- V2.1. -/
theorem test_lz_compress :
    seen (exec .lzCompress (busyWith (operands 20 1000 5) (List.replicate 10 0x61 ++ List.replicate 10 0x62))) 8 =
      some (0x2, 8, 0, [0x20, 0x61, 0xc0, 0x00, 0x00, 0x62, 0xc0, 0x00]) := by decide +kernel

/-- V2.11: at effort 1 the colliding key "eeqm" hides the match of V2.10. -/
theorem test_lz_compress_collision :
    (answer (exec .lzCompress (busyWith (operands 12 12 1)
      [0x61, 0x62, 0x63, 0x64, 0x65, 0x65, 0x71, 0x6d, 0x61, 0x62, 0x63, 0x64]))).map
        (fun t => (statusWord t.seq t.status, t.results.result0)) = some (0x2, 0) := by decide +kernel

/-- 43_lz_codec.md R400: a stream that is not empty starts the decoder, and the engine stays BUSY. -/
theorem test_lz_decompress_starts :
    seenToken (exec .lzDecompress (busyWith (operands 4 100 0) [0x20, 0x41, 0x20, 0x00])) 0 =
      some (0x1, 0, 0, 0, []) := by decide +kernel

/-- The last empty row of 43_lz_codec.md R412. -/
theorem test_lz_decompress_empty : seen (exec .lzDecompress (busyWith (operands 0 100 0) [])) 0 = some (0x2, 0, 0, []) := by
  decide +kernel

/-- V4.4: N = 3 and a tail of one byte. -/
theorem test_shuffle :
    seen (exec .shuffle (busyWith (operands 16 16 0x500) (counting 16))) 16 =
      some (0x2, 16, 0, [0, 5, 10, 1, 6, 11, 2, 7, 12, 3, 8, 13, 4, 9, 14, 15]) := by decide +kernel

/-- V4.33. -/
theorem test_shuffle_small :
    seen (exec .shuffle (busyWith (operands 16 15 0x400) (counting 16))) 1 = some (0x306, 0, 0, [0]) := by
  decide +kernel

/-- 42_filters.md R325, third row. -/
theorem test_unshuffle :
    seen (exec .unshuffle (busyWith (operands 8 8 0x300) [0, 3, 1, 4, 2, 5, 6, 7])) 8 =
      some (0x2, 8, 0, [0, 1, 2, 3, 4, 5, 6, 7]) := by decide +kernel

/-- V4.12: N = 8 elements of two bytes and a tail. -/
theorem test_bitshuffle :
    seen (exec .bitshuffle (busyWith (operands 17 17 0x200) (counting 17))) 17 =
      some (0x2, 17, 0, [0x00, 0xaa, 0xcc, 0xf0, 0, 0, 0, 0, 0xff, 0xaa, 0xcc, 0xf0, 0, 0, 0, 0, 0x10]) := by
  decide +kernel

/-- V4.13. -/
theorem test_bitshuffle_count :
    seen (exec .bitshuffle (busyWith (operands 9 9 0x100) (counting 9))) 1 = some (0x606, 0, 7, [0]) := by decide +kernel

/-- V4.8. -/
theorem test_bitunshuffle :
    seen (exec .bitunshuffle (busyWith (operands 16 16 0x100) (counting 16))) 16 =
      some (0x2, 16, 0, [0x00, 0xaa, 0xcc, 0xf0, 0, 0, 0, 0, 0xff, 0xaa, 0xcc, 0xf0, 0, 0, 0, 0]) := by decide +kernel

/-- V4.14. -/
theorem test_delta_encode :
    seen (exec .deltaEncode (busyWith (operands 8 8 0x00100200) [1, 0, 3, 0, 7, 0, 15, 0])) 8 =
      some (0x2, 8, 0, [1, 0, 2, 0, 4, 0, 8, 0]) := by decide +kernel

/-- V4.18, with the reference at 0x1003. -/
theorem test_delta_encode_reference :
    seen (exec .deltaEncode (busyWith { operands 3 3 0x100 with arg0 := 0x1003 }
      [0x10, 0x20, 0x30, 0x11, 0x22, 0x33])) 3 = some (0x2, 3, 0, [1, 2, 3]) := by decide +kernel

/-- V4.17. -/
theorem test_delta_decode :
    seen (exec .deltaDecode (busyWith (operands 4 4 0x00100100) [1, 1, 1, 1])) 4 = some (0x2, 4, 0, [1, 0, 1, 0]) := by
  decide +kernel

/-- V4.20 for DELTA_DECODE: the reference meets the destination. -/
theorem test_delta_decode_reference_overlap :
    seen (exec .deltaDecode (busyWith { operands 3 3 0x100 with arg0 := 0x1FFE } [1, 2, 3])) 1 =
      some (0x606, 0, 2, [0]) := by decide +kernel

/-- V4.23: p = -22 clears 22 bits. -/
theorem test_trunc_prec :
    seen (exec .truncPrec (busyWith { operands 4 4 0x400 with arg0 := 0xEA } [0xdb, 0x0f, 0x49, 0x40])) 4 =
      some (0x2, 4, 0, [0x00, 0x00, 0x40, 0x40]) := by decide +kernel

/-- V4.32: element size 0 is E_ARG(8) and not E_ARG(4). -/
theorem test_trunc_prec_typesize :
    seen (exec .truncPrec (busyWith { operands 4 4 0 with arg0 := 0x0A } [])) 1 = some (0x606, 0, 8, [0]) := by
  decide +kernel

/-! ## One step of each token -/

/-- 43_lz_codec.md R412, second row: the marker 111 of `e0 41` is ignored. -/
theorem test_lit_first :
    seenToken (exec (.litFirst 7 [0x41]) (tokensAt 4 100 0 [])) 1 = some (0x1, 2, 1, 0, [0x41]) := by decide +kernel

/-- V3.2. -/
theorem test_lit_first_capacity :
    seenToken (exec (.litFirst 1 (List.replicate 32 0x41)) (tokensAt 33 31 0 [])) 1 = some (0x506, 0, 0, 0, [0]) := by
  decide +kernel

/-- V3.3: the last token of `20 41 00 42` completes the command. -/
theorem test_lit_completes :
    seen (exec (.lit [0x42]) (tokensAt 4 100 2 [0x41])) 2 = some (0x2, 2, 0, [0x41, 0x42]) := by decide +kernel

/-- 43_lz_codec.md R421: with op = 10, `02 78 79 7a` gives op = 13 and ip + 4. -/
theorem test_lit_moves :
    seenToken (exec (.lit [0x78, 0x79, 0x7a]) (tokensAt 50 100 20 (List.replicate 10 0x61))) 13 =
      some (0x1, 24, 13, 0, List.replicate 10 0x61 ++ [0x78, 0x79, 0x7a]) := by decide +kernel

/-- V3.5: a match of length 4 at distance 2 overlaps its own output. -/
theorem test_match_short_near :
    seen (exec (.matchShortNear 1 1) (tokensAt 6 100 4 [0x41, 0x42])) 6 =
      some (0x2, 6, 0, [0x41, 0x42, 0x41, 0x42, 0x41, 0x42]) := by decide +kernel

/-- V3.7: distance 11 with op = 10. -/
theorem test_match_short_near_before_start :
    seenToken (exec (.matchShortNear 6 10) (tokensAt 6 100 4 (List.replicate 10 0x41))) 11 =
      some (0x506, 0, 0, 4, List.replicate 10 0x41 ++ [0]) := by decide +kernel

/-- V3.14: at op = 8202, `3f ff 00 01` (distance 8193) copies out[9 .. 13) = `09 0a 0b 0c`. -/
theorem test_match_short_far :
    (answer (exec (.matchShortFar 1 1)
      { tokensAt 72 100000 68 [] with
        dec := ⟨true, 68, 8202, false⟩
        mem := Memory.writeBytes [] 0x2009 [0x09, 0x0a, 0x0b, 0x0c] })).map
      (fun t => (t.results.result0, t.mem.readBytes (0x2000 + 8202) 4)) = some (8206, [0x09, 0x0a, 0x0b, 0x0c]) := by
  decide +kernel

/-- V3.9: extension `00`, length 10. -/
theorem test_match_long_near :
    seenToken (exec (.matchLongNear 0 0) (tokensAt 6 11 2 [0x41])) 11 =
      some (0x1, 5, 11, 0, List.replicate 11 0x41) := by decide +kernel

/-- V3.10: 10 bytes do not fit after 1 of 10. -/
theorem test_match_long_near_capacity :
    seenToken (exec (.matchLongNear 0 0) (tokensAt 5 10 2 [0x41])) 2 = some (0x506, 0, 0, 2, [0x41, 0]) := by
  decide +kernel

/-- V3.17: distance 8192 with op = 1. -/
theorem test_match_long_far_before_start :
    seenToken (exec (.matchLongFar 0 0) (tokensAt 7 100 2 [0x41])) 1 = some (0x506, 0, 0, 2, [0x41]) := by
  decide +kernel

/-- V2.19: MATCH 16, 9016 is `ff 06 ff 03 38`. -/
theorem test_match_long_far :
    matchToken 16 9016 = .matchLongFar 6 0x0338 ∧ matchForm (.matchLongFar 6 0x0338) = some (16, 9016) ∧
      encode (.matchLongFar 6 0x0338) = .stream [0xff, 0x06, 0xff, 0x03, 0x38] := by decide +kernel

/-! ## The register window and the sequencer -/

/-- V6.3: an unallocated opcode. -/
theorem test_bad_command :
    seen (step (busyWith { operands 4 4 0 with opcode := 0x06 } [])) 1 = some (0x706, 0, 0, [0]) := by decide +kernel

/-- V6.4: bits 31:8 of CMD do not exist. -/
theorem test_cmd_reserved_bits :
    (answer (step { State.reset with host := [.regWrite .word 0x0C 0x101] })).map (fun t => t.windowRead .word 0x0C) =
      some 1 := by decide +kernel

/-- V6.7: clearing ERR keeps DONE and ERRCODE. -/
theorem test_clear_err :
    (answer (step { State.reset with status := ⟨true, true, false, 7⟩, host := [.regWrite .word 0x08 0x4] })).map
      (fun t => t.windowRead .word 0x08) = some 0x702 := by decide +kernel

/-- V6.12: ABORT has priority over START, and nothing starts. -/
theorem test_abort_over_start :
    (answer (step { State.reset with host := [.regWrite .word 0x04 0x3] })).map
      (fun t => (t.windowRead .word 0x08, t.abortReq)) = some (0, false) := by decide +kernel

/-- V6.8: NOP with IE = 1, from START to the interrupt. -/
theorem test_interrupt_at_completion :
    (runSteps 2 { State.reset with host := [.regWrite .word 0x04 0x5] }).map
      (fun t => (t.windowRead .word 0x08, t.windowRead .word 0x04, t.irq)) = some (0x2, 0x4, true) := by decide +kernel

/-- V6.14: the source wraps. -/
theorem test_wrap :
    seen (step (busyWith { operands 0x20 0 5 with opcode := 0x10, srcAddr := 0xFFFFFFF0 } [])) 0 =
      some (0x606, 0, 0, []) := by decide +kernel

/-- V6.15: the destination meets the source. -/
theorem test_overlap :
    seen (step (busyWith { operands 0x100 0x10 0 with opcode := 0x20, dstAddr := 0x10FF } [])) 0 =
      some (0x606, 0, 1, []) := by decide +kernel

/-! ## Witnesses: for every obligation with hypotheses, a state and operands that meet them -/

/-- An answer whose next state has a decided property is a next state with it. -/
theorem next_of {o : Step} {f : State → Bool} (h : (answer o).map f = some true) : ∃ t, o = .next t ∧ f t = true := by
  cases o with
  | next t => exact ⟨t, rfl, by simpa [answer] using h⟩
  | fault _ => simp [answer] at h
  | refused _ => simp [answer] at h

/-- The reset state with outside events. -/
def withHost (s : State) (evs : List HostEvent) : State := { s with host := evs }

/-- A BUSY engine with a command latched. -/
def latchedOp (opcode : Byte) (srcLen dstCap cfg : Word) (bytes : List Byte) : State :=
  busyWith { operands srcLen dstCap cfg with opcode := opcode } bytes

/-- A token program at `ip` of these stream bytes, with `op` bytes of output. -/
def streamAt (bytes : List Byte) (dstCap : Word) (ip op : Nat) : State :=
  { latchedOp 0x11 (BitVec.ofNat 32 bytes.length) dstCap 0 bytes with dec := ⟨true, ip, op, decide (ip = 0)⟩ }

/-! ### Encodings -/

theorem witness_DecodeOfEncode :
    (Instr.litFirst 7 (List.replicate 32 0)).wellFormed = true ∧ (Instr.lit [0]).wellFormed = true ∧
      (Instr.matchShortNear 6 0x1FFE).wellFormed = true ∧ (Instr.matchShortFar 1 0xFFFF).wellFormed = true ∧
      (Instr.matchLongNear 510 0).wellFormed = true ∧ (Instr.matchLongFar 254 0).wellFormed = true ∧
      Instr.truncPrec.wellFormed = true := by decide
theorem witness_TokenReadIsItsEncoding :
    decodeToken false [0xC0, 0x02, 0x99] = .ok (.matchShortNear 6 2, [0x99]) ∧
      decodeToken true [0xE0, 0x41] = .ok (.litFirst 7 [0x41], []) := by decide
theorem witness_MatchHasOneEncoding :
    matchForm (matchToken 4 1) = some (4, 1) ∧ matchForm (matchToken 9 8191) = some (9, 8191) ∧
      matchForm (matchToken 10 8192) = some (10, 8192) ∧ matchForm (matchToken 265 73727) = some (265, 73727) := by
  decide

/-! ### Steps -/

theorem witness_StepRunsTheCommand :
    let s := latchedOp 0x26 4 4 0x400 [1, 2, 3, 4]
    s.seq = .busy ∧ s.abortReq = false ∧ s.rejected = false ∧ s.misused = false ∧ s.hung = false ∧
      s.dec.running = false ∧ decode false (.word (s.latched.opcode.setWidth 32)) = .ok .truncPrec ∧ s.host = [] ∧
      (withHost s [.wait]).host = .wait :: [] := by decide +kernel
theorem witness_StepRunsTheTokenAtIp :
    let s := streamAt [0x20, 0x41, 0xC0, 0x00, 0x00, 0x42] 100 2 1
    RunsAlone s ∧ s.dec.running = true ∧ s.latched.srcAddr.toNat + s.latched.srcLen.toNat ≤ 4294967296 ∧
      decodeToken s.dec.first
        (s.mem.readBytes (s.latched.srcAddr.toNat + s.dec.ip) (s.latched.srcLen.toNat - s.dec.ip)) =
          .ok (.matchShortNear 6 0, [0x00, 0x42]) :=
  ⟨⟨rfl, rfl, rfl, rfl, rfl, rfl⟩, rfl, by decide +kernel, by decide +kernel⟩
theorem witness_PlacedNumberIsRun :
    State.reset.mem.wf ∧ decodeTableWord 16 0xC002 = some (.matchShortNear 6 2) ∧
      decodeTableWord 8 0x01 = some .compress := by decide
theorem witness_UnallocatedOpcodeIsRefused :
    ∀ op ∈ ([0x06, 0x0F, 0x12, 0x1F, 0x27, 0xFF] : List Byte),
      let s := { latchedOp op 0x20 0x20 0 [] with abortReq := true }
      s.host = [] ∧ s.seq = .busy ∧ s.rejected = false ∧ s.hung = false ∧ s.dec.running = false ∧
        s.latched.opcode ∉ ([0x00, 0x01, 0x02, 0x03, 0x04, 0x05, 0x10, 0x11, 0x20, 0x21, 0x22, 0x23, 0x24, 0x25, 0x26] :
          List Byte) := by decide +kernel
theorem witness_TokenCutShortFails :
    let s := streamAt [0x20, 0x41, 0x3F, 0xFF, 0x00] 100 2 1
    RunsAlone s ∧ s.dec.running = true ∧ s.latched.srcAddr.toNat + s.latched.srcLen.toNat ≤ 4294967296 ∧
      decodeToken s.dec.first
        (s.mem.readBytes (s.latched.srcAddr.toNat + s.dec.ip) (s.latched.srcLen.toNat - s.dec.ip)) =
          .error .farBytesMissing :=
  ⟨⟨rfl, rfl, rfl, rfl, rfl, rfl⟩, rfl, by decide +kernel, by decide +kernel⟩

/-! ### The window -/

theorem witness_StartLatches :
    (withHost State.reset [.regWrite .word 0x04 5]).host = .regWrite .word 0x04 5 :: [] ∧ State.reset.seq = .idle ∧
      (5 : Word).getLsbD 0 = true ∧ (5 : Word).getLsbD 1 = false ∧ (5 : Word).getLsbD 3 = false := by decide
theorem witness_ControlWriteActsByPriority :
    (6 : Word).getLsbD 3 = false ∧ (6 : Word).getLsbD 1 = true ∧ (1 : Word).getLsbD 3 = false ∧
      (1 : Word).getLsbD 1 = false ∧ (busyWith Params.zero []).seq = .busy ∧ (4 : Word).getLsbD 3 = false ∧
      (4 : Word).getLsbD 1 = false ∧ (4 : Word).getLsbD 0 = false := by decide
theorem witness_ResetLeavesTheResetState :
    let s := latchedOp 0x01 4 4 0x105 [1, 2, 3, 4]
    (withHost s [.rst]).host = .rst :: [] ∧ (withHost s [.rst]).seq = .busy ∧
      (0xF : Word).getLsbD 3 = true ∧ (withHost State.reset [.regWrite .word 0x04 0xF]).seq = .idle ∧
      (withHost State.reset [.regWrite .word 0x04 0xF]).host = .regWrite .word 0x04 0xF :: [] := by decide +kernel
theorem witness_OnlyAlignedWordsReachTheWindow :
    (AccessSize.byte ≠ .word ∨ (4 : Nat) % 4 ≠ 0 ∨ 0x80 ≤ (4 : Nat)) ∧
      (AccessSize.word ≠ .word ∨ (5 : Nat) % 4 ≠ 0 ∨ 0x80 ≤ (5 : Nat)) ∧
      (AccessSize.word ≠ .word ∨ (0x80 : Nat) % 4 ≠ 0 ∨ 0x80 ≤ (0x80 : Nat)) ∧
      (withHost State.reset [.regRead .word 5]).host = .regRead .word 5 :: [] := by decide
/-- A write of a parameter register, of a read-only and of a reserved offset, and a read, at the ends of each range. -/
theorem witness_ParameterWriteReadsBack :
    (∀ off ∈ [0x0C, 0x20, 0x2C, 0x34, 0x3C],
      off % 4 = 0 ∧ off < 0x80 ∧ 0x0C ≤ off ∧ off ≤ 0x3C ∧
        (withHost State.reset [.regWrite .word off 0xFFFFFFFF]).host = .regWrite .word off 0xFFFFFFFF :: []) ∧
    (∀ off ∈ [0x00, 0x40, 0x60, 0x64, 0x68, 0x7C],
      off % 4 = 0 ∧ off < 0x80 ∧ (off = 0x00 ∨ 0x40 ≤ off) ∧
        (withHost State.reset [.regWrite .word off 0xFFFFFFFF]).host = .regWrite .word off 0xFFFFFFFF :: []) ∧
    ∀ off ∈ [0x00, 0x08, 0x7C], off % 4 = 0 ∧ off < 0x80 ∧
      (withHost State.reset [.regRead .word off]).host = .regRead .word off :: [] := by decide
theorem witness_StatusWriteClearsDoneAndErr :
    (withHost State.reset [.regWrite .word 0x08 6]).host = .regWrite .word 0x08 6 :: [] := by decide

/-! ### The invariant, interrupt, abort and interference -/

theorem zero_legal : Params.zero.Legal := ⟨by decide, by decide, by decide⟩
theorem empty_fits : Scratch.empty.Fits := ⟨List.Pairwise.nil, by decide, by decide, by decide, by decide⟩

theorem inv_of_command {p : Params} {ie abortReq passed rejected : Bool} {host : List HostEvent} (h : p.Legal)
    (hp : passed = true → abortReq = true) :
    ({ busyWith p [] with
        ie := ie, abortReq := abortReq, abortPassed := passed, rejected := rejected, host := host } : State).Inv where
  mem := (by decide : Memory.wf [])
  regs := zero_legal
  latched := h
  work := empty_fits
  errCode := (by decide : Status.clear.errCode.toNat ≤ 8)
  err := fun h => absurd h (by decide : ¬ Status.clear.err = true)
  clear := fun _ => ⟨rfl, rfl, rfl⟩
  still := fun _ => rfl
  program := fun hr => absurd hr (by decide : ¬ Decoder.idle.running = true)
  passed := hp
  owned := fun _ => rfl

/-- A token program of the invariant, between its first token and its second. -/
theorem inv_of_tokens : (streamAt [0x20, 0x41, 0xC0, 0x00] 100 2 1).Inv where
  mem := by decide +kernel
  regs := ⟨by decide, by decide, by decide⟩
  latched := ⟨by decide, by decide, by decide⟩
  work := empty_fits
  errCode := by decide
  err := by decide
  clear := fun _ => ⟨rfl, rfl, rfl⟩
  still := fun hr => absurd hr (by decide)
  program := fun _ =>
    ⟨rfl, rfl, ⟨by decide, by decide, by decide⟩, by decide, by decide, by decide, fun h => absurd h (by decide)⟩
  passed := fun h => absurd h (by decide)
  owned := fun _ => rfl

/-- NOP ends in IDLE; a token program goes on BUSY; the host looks at an output that is asserted, and at one that is
not. -/
theorem witness_InterruptComesWithCompletion :
    (∃ s t : State, s.Inv ∧ s.seq = .busy ∧ s.host = [] ∧ step s = .next t ∧ t.seq = .idle) ∧
      (∃ s t : State, s.Inv ∧ s.seq = .busy ∧ s.host = [] ∧ step s = .next t ∧ t.seq = .busy) ∧
      ∀ done : Bool,
        let s := withHost { State.reset with ie := true, status := ⟨done, false, false, 0⟩ } [.irqRead]
        s.host = .irqRead :: [] ∧ s.irq = done := by
  refine ⟨?_, ?_, by decide⟩
  · obtain ⟨t, h, ht⟩ := next_of (o := step { busyWith Params.zero [] with ie := true })
      (f := fun t => decide (t.seq = .idle)) (by decide +kernel)
    exact ⟨_, t, inv_of_command zero_legal (passed := false) (abortReq := false) (by decide), rfl, rfl, h,
      of_decide_eq_true ht⟩
  · obtain ⟨t, h, ht⟩ := next_of (o := step { busyWith { operands 4 9 0 with opcode := 0x11 } [] with ie := true })
      (f := fun t => decide (t.seq = .busy)) (by decide +kernel)
    exact ⟨_, t, inv_of_command ⟨by decide, by decide, by decide⟩ (passed := false) (abortReq := false) (by decide),
      rfl, rfl, h, of_decide_eq_true ht⟩

/-- A command whose abort has not been passed, one whose abort has, a token program; and a source that wraps, and one
that meets the destination. -/
theorem witness_AbortEndsWithinTwoMoves :
    (∀ passed : Bool, ∃ s : State, s.Inv ∧ s.host = [] ∧ s.seq = .busy ∧ s.rejected = false ∧ s.hung = false ∧
      s.abortReq = true ∧ s.abortPassed = passed ∧ decode false (.word (s.latched.opcode.setWidth 32)) = .ok .shuffle ∧
      regionError .shuffle s.latched = none) ∧
    (∃ s : State, s.Inv ∧ s.host = [] ∧ s.seq = .busy ∧ s.rejected = false ∧ s.hung = false ∧ s.abortReq = true ∧
      s.dec.running = true) ∧
    ∀ src ∈ ([(0xFFFFFFFE, 0), (0x2001, 1)] : List (Word × Nat)), ∃ s : State, s.Inv ∧ s.host = [] ∧ s.seq = .busy ∧
      s.rejected = false ∧ s.hung = false ∧ s.abortReq = true ∧ s.misused = false ∧
      decode false (.word (s.latched.opcode.setWidth 32)) = .ok .shuffle ∧
      regionError .shuffle s.latched = some src.2 := by
  refine ⟨?_, ?_, fun src hsrc => ?_⟩
  · intro passed
    have d : decode false (.word ((0x20 : Byte).setWidth 32)) = .ok .shuffle := by decide
    have r : regionError .shuffle { operands 4 4 0x400 with opcode := 0x20 } = none := by decide
    exact ⟨_, inv_of_command (p := { operands 4 4 0x400 with opcode := 0x20 }) (ie := false) (rejected := false)
      (host := []) (abortReq := true) (passed := passed) ⟨by decide, by decide, by decide⟩ (fun _ => rfl), rfl, rfl, rfl,
      rfl, rfl, rfl, d, r⟩
  · have h := inv_of_tokens
    exact ⟨{ streamAt [0x20, 0x41, 0xC0, 0x00] 100 2 1 with abortReq := true },
      ⟨h.mem, h.regs, h.latched, h.work, h.errCode, h.err, h.clear, h.still, fun hr => ⟨(h.program hr).1, (h.program hr).2,
        (h.program hr).3, (h.program hr).4, (h.program hr).5, (h.program hr).6, (h.program hr).7⟩, fun _ => rfl, fun _ => rfl⟩,
      rfl, rfl, rfl, rfl, rfl, rfl⟩
  · have d : decode false (.word ((0x20 : Byte).setWidth 32)) = .ok .shuffle := by decide
    have r : regionError .shuffle { operands 4 4 0x400 with opcode := 0x20, srcAddr := src.1 } = some src.2 := by
      revert src; decide
    have l : (operands 4 4 0x400).Legal := ⟨by decide, by decide, by decide⟩
    exact ⟨_, inv_of_command (p := { operands 4 4 0x400 with opcode := 0x20, srcAddr := src.1 }) (ie := false)
      (rejected := false) (host := []) (abortReq := true) (passed := false) ⟨l.cfg, l.fcode1, l.fmeta1⟩
      (fun h => absurd h (by decide)), rfl, rfl, rfl, rfl, rfl, rfl, d, r⟩

/-- The clauses in order, for a SHUFFLE of 4 bytes: a mark of a rejected access; a write of another agent to the last
byte of the source while BUSY, of the destination while IDLE, and one past either; the same for a read; the mark of a read; and a
bus that fails a SHUFFLE, and a NOP, which accesses no memory. -/
theorem witness_InterferenceEndsInSomeOutcome :
    let s := latchedOp 0x20 4 4 0x400 []
    let n := latchedOp 0x00 4 4 0x400 []
    ({ s with rejected := true } : State).host = [] ∧ s.seq = .busy ∧ s.hung = false ∧
    (s.owned = true ∧ InRegions s.latched 0x1003 ∧ InRegions s.latched 0x2003 ∧
      ({ s with seq := .idle } : State).seq = .idle ∧ ¬ InRegions s.latched 0x1004 ∧ ¬ InRegions s.latched 0x2004 ∧
      (withHost s [.memWrite 0x1003 7]).host = .memWrite 0x1003 7 :: []) ∧
    (InDestination s.latched 0x2000 ∧ InDestination s.latched 0x2003 ∧ ¬ InDestination s.latched 0x2004 ∧
      ¬ InDestination s.latched 0x1003 ∧
      (withHost s [.memRead 0x2003]).host = .memRead 0x2003 :: []) ∧
    (({ s with misused := true } : State).misused = true ∧ s.rejected = false ∧
      ∃ t, step { ({ s with misused := true } : State) with misused := false } = .next t) ∧
    AccessesMemory s ∧ ¬ AccessesMemory n ∧ n.seq = .busy ∧
      (withHost s [.busError]).host = .busError :: [] ∧ (withHost s [.busHang]).host = .busHang :: [] := by
  have d : decode false (.word ((0x20 : Byte).setWidth 32)) = .ok .shuffle := by decide
  have e : decode false (.word ((0x00 : Byte).setWidth 32)) = .ok .nop := by decide
  have outside : ∀ a, (operands 4 4 0x400).dst.holds a = false → ¬ InDestination (latchedOp 0x20 4 4 0x400 []).latched a := by
    rintro a ha ⟨i, -, -, hh⟩
    exact absurd (ha.symm.trans hh) (by decide)
  have apart : ∀ a, (operands 4 4 0x400).dst.holds a = false → (operands 4 4 0x400).src.holds a = false →
      (operands 4 4 0x400).ref.holds a = false → ¬ InRegions (latchedOp 0x20 4 4 0x400 []).latched a := by
    rintro a h1 h2 h3 (h | ⟨i, -, -, hh⟩ | ⟨i, -, -, -, hh⟩)
    · exact outside a h1 h
    · exact absurd (h2.symm.trans hh) (by decide)
    · exact absurd (h3.symm.trans hh) (by decide)
  refine ⟨rfl, rfl, rfl, ⟨rfl, .inr (.inl ⟨.shuffle, by decide, d, by decide⟩), .inl ⟨.shuffle, by decide, d, by decide⟩,
    rfl, apart _ (by decide) (by decide) (by decide), apart _ (by decide) (by decide) (by decide), rfl⟩,
    ⟨⟨.shuffle, by decide, d, by decide⟩, ⟨.shuffle, by decide, d, by decide⟩, outside _ (by decide),
      outside _ (by decide), rfl⟩, ⟨rfl, rfl, ?_⟩, ⟨.shuffle, d, by decide, by decide⟩, ?_, rfl, rfl, rfl⟩
  · obtain ⟨t, h, -⟩ := next_of (o := step (latchedOp 0x20 4 4 0x400 [])) (f := fun _ => true) (by decide +kernel)
    exact ⟨t, h⟩
  · rintro ⟨i, hd, hm, -⟩
    have : i = .nop := (Except.ok.inj (e.symm.trans hd)).symm
    subst this
    exact absurd hm (by decide)
/-- A SHUFFLE into 0x2000 whose end no one has observed, and a START of one into 0x3000: the last byte of the earlier
destination, which the new command does not name, and the byte after it. -/
theorem witness_InterferenceEndsInSomeOutcome_earlier :
    let e := latchedOp 0x20 4 4 0x400 []
    let s := startCommand { e with seq := .idle, regs := { e.latched with dstAddr := 0x3000 } }
    s.unobserved = [e.latched] ∧ InRegions e.latched 0x2003 ∧ InDestination e.latched 0x2003 ∧
      ¬ InDestination s.latched 0x2003 ∧ ¬ InDestination e.latched 0x2004 ∧
      (withHost s [.memRead 0x2003]).host = .memRead 0x2003 :: [] ∧
      (withHost s [.memWrite 0x2003 7]).host = .memWrite 0x2003 7 :: [] := by
  have d : decode false (.word ((0x20 : Byte).setWidth 32)) = .ok .shuffle := by decide
  have w : InDestination (latchedOp 0x20 4 4 0x400 []).latched 0x2003 := ⟨.shuffle, by decide, d, by decide⟩
  refine ⟨rfl, .inl w, w, ?_, ?_, rfl, rfl⟩ <;>
    (rintro ⟨i, -, -, hh⟩; exact absurd hh (by decide))
theorem witness_InvariantKeptByEveryStep : ∃ s t : State, s.Inv ∧ step s = .next t := by
  obtain ⟨t, h, -⟩ := next_of (o := step (streamAt [0x20, 0x41, 0xC0, 0x00] 100 2 1)) (f := fun _ => true)
    (by decide +kernel)
  exact ⟨_, t, inv_of_tokens, h⟩
theorem witness_EveryStepGoesOn : (streamAt [0x20, 0x41, 0xC0, 0x00] 100 2 1).Inv := inv_of_tokens
theorem witness_NoStateSurvivesACommand : ∃ t, exec .nop (busyWith Params.zero []) = .next t := ⟨_, rfl⟩
/-- A BUSY engine and an IDLE one. -/
theorem witness_EngineTouchesOnlyItsOwn :
    (∃ t, step (busyWith Params.zero []) = .next t) ∧ (busyWith Params.zero []).host = [] ∧
      (∃ t, step State.reset = .next t) ∧ State.reset.host = [] ∧ State.reset.seq = .idle :=
  ⟨⟨_, rfl⟩, rfl, ⟨_, rfl⟩, rfl, rfl⟩

/-! ### Region checks -/

/-- One byte past 2^32, for each of the three regions. -/
theorem witness_WrappingRegionIsRefused :
    let p := { operands 2 2 0x100 with srcAddr := 0xFFFFFFFF }
    let q := { operands 2 2 0x100 with dstAddr := 0xFFFFFFFF }
    let r := { operands 2 2 0x100 with arg0 := 0xFFFFFFFF }
    4294967296 < p.srcAddr.toNat + p.srcLen.toNat ∧ 4294967296 < q.dstAddr.toNat + q.dstCap.toNat ∧
      r.refBlock = false ∧ 4294967296 < r.arg0.toNat + r.srcLen.toNat := by decide
/-- The last source byte is the first of the destination; then the first byte of the reference its last. -/
theorem witness_OverlappingRegionsAreRefused :
    (let p := { operands 0x100 0x10 0x100 with dstAddr := 0x10FF }
     p.srcAddr.toNat + p.srcLen.toNat ≤ 4294967296 ∧ p.dstAddr.toNat + p.dstCap.toNat ≤ 4294967296 ∧
       ∃ a, p.src.holds a = true ∧ p.dst.holds a = true) ∧
    (let p := { operands 4 4 0x100 with arg0 := 0x2003 }
     p.srcAddr.toNat + p.srcLen.toNat ≤ 4294967296 ∧ p.dstAddr.toNat + p.dstCap.toNat ≤ 4294967296 ∧
       p.arg0.toNat + p.srcLen.toNat ≤ 4294967296 ∧ p.refBlock = false ∧
       (¬ ∃ a, p.src.holds a = true ∧ p.dst.holds a = true) ∧ ∃ a, p.ref.holds a = true ∧ p.dst.holds a = true) := by
  refine ⟨⟨by decide, by decide, 0x10FF, by decide, by decide⟩, by decide, by decide, by decide, by decide, ?_, 0x2003,
    by decide, by decide⟩
  rintro ⟨a, h, g⟩
  simp [Region.holds, Params.src, Params.dst, operands] at h g
  omega

/-! ### Filters -/

theorem filterFits_of {p : Params} (a : p.srcAddr.toNat + p.srcLen.toNat ≤ 4294967296)
    (b : p.dstAddr.toNat + p.dstCap.toNat ≤ 4294967296) (c : p.srcAddr.toNat + p.srcLen.toNat ≤ p.dstAddr.toNat)
    (d : p.srcLen.toNat ≤ 262144) (e : p.srcLen.toNat ≤ p.dstCap.toNat) : FilterFits p :=
  ⟨⟨a, b, .inr (.inr (.inr c))⟩, d, e⟩

/-- SHUFFLE and UNSHUFFLE: three elements of five bytes and a tail. -/
theorem witness_ShuffleMovesBytesToPlanes :
    let s := busyWith (operands 16 16 0x500) (counting 16)
    s.mem.wf ∧ FilterFits s.latched ∧ 1 ≤ s.latched.typesize ∧ s.elements = 3 :=
  ⟨by decide +kernel, filterFits_of (by decide) (by decide) (by decide) (by decide) (by decide), by decide, by decide⟩
theorem witness_UnshuffleMovesBytesToElements :
    let s := busyWith (operands 8 8 0x300) [0, 3, 1, 4, 2, 5, 6, 7]
    s.mem.wf ∧ FilterFits s.latched ∧ 1 ≤ s.latched.typesize ∧ s.elements = 2 :=
  ⟨by decide +kernel, filterFits_of (by decide) (by decide) (by decide) (by decide) (by decide), by decide, by decide⟩
/-- BITSHUFFLE: eight elements of two bytes and a tail. -/
theorem witness_BitshuffleMovesBitsToPlanes :
    let s := busyWith (operands 17 17 0x200) (counting 17)
    s.mem.wf ∧ FilterFits s.latched ∧ 1 ≤ s.latched.typesize ∧ s.elements % 8 = 0 ∧ s.elements = 8 :=
  ⟨by decide +kernel, filterFits_of (by decide) (by decide) (by decide) (by decide) (by decide), by decide, by decide,
    by decide⟩
theorem witness_BitunshuffleMovesBitsToElements :
    let s := busyWith (operands 16 16 0x100) (counting 16)
    s.mem.wf ∧ FilterFits s.latched ∧ 1 ≤ s.latched.typesize ∧ s.elements % 8 = 0 ∧ s.elements = 16 :=
  ⟨by decide +kernel, filterFits_of (by decide) (by decide) (by decide) (by decide) (by decide), by decide, by decide,
    by decide⟩
/-- Element sizes 2, 16 and 5: each of the three distances. -/
theorem witness_DeltaEncodeAgainstPreviousElement :
    ∀ c ∈ ([(0x00100200, 2), (0x00101000, 8), (0x00100500, 1)] : List (Word × Nat)),
      let s := busyWith (operands 16 16 c.1) (counting 16)
      s.mem.wf ∧ FilterFits s.latched ∧ 1 ≤ s.latched.typesize ∧ s.latched.refBlock = true ∧
        PreviousElement s.latched.typesize c.2 := by
  simp only [List.forall_mem_cons, List.not_mem_nil, false_implies, implies_true, and_true]
  refine ⟨?_, ?_, ?_⟩ <;>
    exact ⟨by decide +kernel, filterFits_of (by decide) (by decide) (by decide) (by decide) (by decide), by decide,
      by decide, by unfold PreviousElement; decide⟩
theorem witness_DeltaDecodeAgainstPreviousElement :
    let s := busyWith (operands 4 4 0x00100100) [1, 1, 1, 1]
    s.mem.wf ∧ FilterFits s.latched ∧ 1 ≤ s.latched.typesize ∧ s.latched.refBlock = true ∧
      PreviousElement s.latched.typesize 1 :=
  ⟨by decide +kernel, filterFits_of (by decide) (by decide) (by decide) (by decide) (by decide), by decide, by decide,
    by unfold PreviousElement; decide⟩
/-- The reference meets the source, which is allowed. -/
theorem witness_DeltaAgainstReferenceBlock :
    let s := busyWith { operands 3 3 0x100 with arg0 := 0x1001 } [1, 2, 3, 4]
    s.mem.wf ∧ FilterFits s.latched ∧ 1 ≤ s.latched.typesize ∧ s.latched.refBlock = false ∧ ReferenceFits s.latched :=
  ⟨by decide +kernel, filterFits_of (by decide) (by decide) (by decide) (by decide) (by decide), by decide, by decide,
    ⟨by decide, by decide⟩⟩
/-- p = 1, p = 23 and p = -22 of a 4-byte element, p = -51 of an 8-byte one: the ends of the accepted ranges. -/
theorem witness_TruncPrecClearsLowBits :
    ∀ c ∈ ([(0x400, 0x01, 23, 22), (0x400, 0x17, 23, 0), (0x400, 0xEA, 23, 22), (0x800, 0xCD, 52, 51)] :
        List (Word × Word × Nat × Nat)),
      let s := busyWith { operands 9 9 c.1 with arg0 := c.2.1 } (counting 9)
      s.mem.wf ∧ FilterFits s.latched ∧
        PrecisionAccepted s.latched.typesize c.2.2.1 (s.latched.arg0.extractLsb' 0 8).toInt c.2.2.2 := by
  simp only [List.forall_mem_cons, List.not_mem_nil, false_implies, implies_true, and_true]
  refine ⟨?_, ?_, ?_, ?_⟩ <;>
    exact ⟨by decide +kernel, filterFits_of (by decide) (by decide) (by decide) (by decide) (by decide),
      by unfold PrecisionAccepted; decide⟩

/-- The clauses in order: one byte too many; element size 0 at the largest block; p = 0; nine elements; one byte of room
missing, for a command of each of the three kinds. -/
theorem witness_FilterArgumentErrors :
    (let p := operands 262145 0 0x400; RegionsFit p ∧ 262144 < p.srcLen.toNat) ∧
    (let p := operands 262144 0 0; RegionsFit p ∧ p.srcLen.toNat ≤ 262144 ∧ p.typesize = 0) ∧
    (let p := operands 4 4 0x400
     RegionsFit p ∧ p.srcLen.toNat ≤ 262144 ∧
       ∀ m z, ¬ PrecisionAccepted p.typesize m (p.arg0.extractLsb' 0 8).toInt z) ∧
    (let s := busyWith (operands 9 9 0x100) []
     RegionsFit s.latched ∧ s.latched.srcLen.toNat ≤ 262144 ∧ 1 ≤ s.latched.typesize ∧ s.elements % 8 ≠ 0) ∧
    (let s := busyWith { operands 16 15 0x400 with arg0 := 0x0A } []
     RegionsFit s.latched ∧ s.latched.srcLen.toNat ≤ 262144 ∧ 1 ≤ s.latched.typesize ∧
       PrecisionAccepted s.latched.typesize 23 (s.latched.arg0.extractLsb' 0 8).toInt 13 ∧
       s.latched.dstCap.toNat < s.latched.srcLen.toNat) ∧
    (let s := busyWith (operands 16 15 0x200) []
     RegionsFit s.latched ∧ s.elements % 8 = 0 ∧ s.latched.dstCap.toNat < s.latched.srcLen.toNat) := by
  refine ⟨⟨⟨by decide, by decide, by decide⟩, by decide⟩, ⟨⟨by decide, by decide, by decide⟩, by decide, by decide⟩,
    ⟨⟨by decide, by decide, by decide⟩, by decide, ?_⟩, ⟨⟨by decide, by decide, by decide⟩, by decide, by decide, by decide⟩,
    ⟨⟨by decide, by decide, by decide⟩, by decide, by decide, by unfold PrecisionAccepted; decide, by decide⟩,
    ⟨by decide, by decide, by decide⟩, by decide, by decide⟩
  rintro m z ⟨-, ⟨h, -⟩ | ⟨-, h, -⟩⟩ <;> revert h <;> decide
/-- The inverse statements ask for an element size of at least 1, one of them for a count that is a multiple of 8, one for
a reference that is long enough. -/
theorem witness_ShuffleInverse : 1 ≤ 5 ∧ unshuffle 5 (shuffle 5 (counting 16)) = counting 16 := by decide +kernel
theorem witness_BitshuffleInverse :
    1 ≤ 2 ∧ (counting 17).length / 2 % 8 = 0 ∧ (counting 9).length / 2 % 8 ≠ 0 := by decide
theorem witness_DeltaInverse : 1 ≤ 3 ∧ (counting 7).length ≤ (counting 7).length := by decide

/-! ### Headers -/

/-- A 16-byte header with these fields. -/
def headerBytes (version flags ts : Byte) (nbytes bs cbytes : Nat) : List Byte :=
  [version, 1, flags, ts] ++ le32Bytes nbytes ++ le32Bytes bs ++ le32Bytes cbytes

theorem fieldsAccepted_of {s : State} (a : s.srcByte 0 = 2 ∨ s.srcByte 0 = 3) (b : 16 ≤ (s.srcWord 12).toNat)
    (c : (s.srcWord 8).toNat ≤ 262144) (d : 0 < (s.srcWord 8).toNat ∧ (s.srcWord 8).toNat ≤ (s.srcWord 4).toNat)
    (e : s.srcByte 3 ≠ 0) : FieldsAccepted s := ⟨a, b, c, fun _ => d, fun _ => e⟩

/-- A minimal and an extended header. -/
theorem witness_ChunkSizesReportsTheHeader :
    (let s := busyWith (operands 16 0 0) (headerBytes 2 1 4 40000 40000 606)
     s.latched.srcAddr.toNat + s.latched.srcLen.toNat ≤ 4294967296 ∧ HeaderAccepted s ∧ s.srcExtended = false) ∧
    (let s := busyWith (operands 32 0 0) (headerBytes 3 5 4 40000 40000 328)
     s.latched.srcAddr.toNat + s.latched.srcLen.toNat ≤ 4294967296 ∧ HeaderAccepted s ∧ s.srcExtended = true) := by
  refine ⟨⟨by decide, ⟨by decide, fieldsAccepted_of ?_ ?_ ?_ ?_ ?_, ?_⟩, ?_⟩,
    by decide, ⟨by decide, fieldsAccepted_of ?_ ?_ ?_ ?_ ?_, ?_⟩, ?_⟩ <;> decide +kernel
/-- The clauses in order, each one byte short or one value off. -/
theorem witness_HeaderErrors :
    (let p := operands 15 0 0; RegionsFit p ∧ p.srcLen.toNat < 16) ∧
    (let s := busyWith (operands 16 0 0) (headerBytes 1 0 1 64 64 22)
     RegionsFit s.latched ∧ 16 ≤ s.latched.srcLen.toNat ∧ ¬ FieldsAccepted s) ∧
    (let s := busyWith (operands 31 0 0) (headerBytes 2 5 1 64 64 32)
     RegionsFit s.latched ∧ 16 ≤ s.latched.srcLen.toNat ∧ FieldsAccepted s ∧ s.srcExtended = true ∧
       s.latched.srcLen.toNat < 32) ∧
    (let s := busyWith (operands 32 0 0) (headerBytes 2 5 1 64 64 31)
     RegionsFit s.latched ∧ 32 ≤ s.latched.srcLen.toNat ∧ FieldsAccepted s ∧ s.srcExtended = true ∧
       (s.srcWord 12).toNat < 32) := by
  refine ⟨⟨⟨by decide, by decide, by decide⟩, by decide⟩,
    ⟨⟨by decide, by decide, by decide⟩, by decide, fun h => absurd h.version (by decide +kernel)⟩,
    ⟨⟨by decide, by decide, by decide⟩, by decide, fieldsAccepted_of ?_ ?_ ?_ ?_ ?_, ?_, ?_⟩,
    ⟨by decide, by decide, by decide⟩, by decide, fieldsAccepted_of ?_ ?_ ?_ ?_ ?_, ?_, ?_⟩ <;> decide +kernel

/-- HDR_ENCODE: a minimal header and an extended one. -/
theorem witness_HdrEncodeWritesTheHeader :
    ∀ p ∈ ([{ operands 40000 16 0x00010400 with bsize := 40000, arg1 := 606 },
        { operands 40000 32 0x00080400 with bsize := 40000, fcode0 := 0x203, arg1 := 328 }] : List Params),
      (busyWith p []).mem.wf ∧ p.dstAddr.toNat + p.dstCap.toNat ≤ 4294967296 ∧ HdrEncodeAccepts p ∧
        p.hlen ≤ p.dstCap.toNat := by
  simp only [List.forall_mem_cons, List.not_mem_nil, false_implies, implies_true, and_true]
  refine ⟨⟨?_, ?_, ⟨?_, ?_, ?_, ?_, ?_⟩, ?_⟩, ?_, ?_, ⟨?_, ?_, ?_, ?_, ?_⟩, ?_⟩ <;> decide
/-- Both shuffles; cbytes one below H; one byte of room missing. -/
theorem witness_HdrEncodeErrors :
    (let p := operands 0 16 0x00030100
     p.dstAddr.toNat + p.dstCap.toNat ≤ 4294967296 ∧ p.extHdr = false ∧ p.shuf = true ∧ p.bshuf = true) ∧
    (let p := { operands 64 16 0x100 with bsize := 64, arg1 := 15 }
     p.dstAddr.toNat + p.dstCap.toNat ≤ 4294967296 ∧ ¬ (p.extHdr = false ∧ p.shuf = true ∧ p.bshuf = true) ∧
       ¬ HdrEncodeAccepts p) ∧
    (let p := { operands 40000 15 0x00010400 with bsize := 40000, arg1 := 606 }
     p.dstAddr.toNat + p.dstCap.toNat ≤ 4294967296 ∧ HdrEncodeAccepts p ∧ p.dstCap.toNat < p.hlen) := by
  refine ⟨by decide, ⟨by decide, by decide, fun h => absurd h.cbytes (by decide)⟩, ?_, ⟨?_, ?_, ?_, ?_, ?_⟩, ?_⟩ <;>
    decide
/-- An extended header with two slots. -/
theorem witness_HeaderRoundTrip :
    ∃ s t u : State, s.mem.wf ∧ s.latched.dstAddr.toNat + s.latched.dstCap.toNat ≤ 4294967296 ∧
      HdrEncodeAccepts s.latched ∧ s.latched.hlen ≤ s.latched.dstCap.toNat ∧ s.latched.storedArg = false ∧
      s.latched.extHdr = true ∧ s.latched.fcode0 = 0x203 ∧ s.latched.Legal ∧ exec .hdrEncode s = .next t ∧
      u.mem = t.mem ∧ u.latched.srcAddr = s.latched.dstAddr ∧ u.latched.srcLen.toNat = s.latched.hlen := by
  obtain ⟨t, h, -⟩ := next_of (f := fun _ => true) (o := exec .hdrEncode
    (busyWith { operands 40000 32 0x00080400 with bsize := 40000, fcode0 := 0x203, arg1 := 328 } [])) (by decide +kernel)
  refine ⟨_, t, { t with latched := { Params.zero with srcAddr := 0x2000, srcLen := 32 } }, ?_, ?_, ⟨?_, ?_, ?_, ?_, ?_⟩,
    ?_, ?_, ?_, ?_, ⟨?_, ?_, ?_⟩, h, rfl, rfl, rfl⟩ <;> decide

/-! ### The pipeline commands -/

theorem minimal_accepts {p : Params} (a : RegionsFit p) (b : p.effort ≤ 9) (c : 1 ≤ p.typesize)
    (d : p.srcLen.toNat ≤ 2147483615) (e : p.extHdr = false) (f : p.shuf = false) : CompressAccepts p :=
  ⟨a, b, c, d, fun _ h => absurd h.1 (by simp [f]), fun h => absurd h (by simp [e])⟩

/-- A BUSY engine of the invariant. -/
theorem witness_NopCompletes : (busyWith Params.zero []).Inv ∧ (busyWith Params.zero []).seq = .busy :=
  ⟨inv_of_command zero_legal (ie := false) (abortReq := false) (passed := false) (rejected := false) (host := [])
    (by decide), rfl⟩

/-- A source a byte below the smallest that can be coded, one that is coded as one block, and one that is coded as three
with a delta step: each with exactly the room of its chunk, and with a byte less. -/
theorem witness_CompressSucceedsWithRoom :
    (let s := busyWith (operands 31 47 0x105) (List.replicate 31 0x61)
     s.mem.wf ∧ CompressAccepts s.latched ∧ BlockSizeIs 5 1 31 0 31 ∧ StoresVerbatim s 31 ∧
       s.latched.hlen + 31 = s.latched.dstCap.toNat ∧ ¬ s.latched.hlen + 31 ≤ 46) ∧
    (let s := busyWith (operands 64 22 0x105) (List.replicate 32 [0x61, 0x62]).flatten
     s.mem.wf ∧ CompressAccepts s.latched ∧ BlockSizeIs 5 1 64 0 64 ∧ ¬ StoresVerbatim s 64 ∧ cdiv 64 64 = 1 ∧
       s.codedLength 64 = s.latched.dstCap.toNat ∧ 21 < s.codedLength 64) ∧
    (let s := busyWith { operands 96 50 0x00040101 with bsize := 32 } (mod3 96)
     s.mem.wf ∧ CompressAccepts s.latched ∧ BlockSizeIs 1 1 96 32 32 ∧ ¬ StoresVerbatim s 32 ∧ cdiv 96 32 = 3 ∧
       s.codedLength 32 = s.latched.dstCap.toNat) := by
  refine ⟨⟨?_, minimal_accepts ⟨?_, ?_, ?_⟩ ?_ ?_ ?_ ?_ ?_, ⟨65536, 31, ?_, ?_, .inl ?_⟩, .inr (.inl ?_), ?_, ?_⟩,
    ⟨?_, minimal_accepts ⟨?_, ?_, ?_⟩ ?_ ?_ ?_ ?_ ?_, ⟨65536, 64, ?_, ?_, .inl ?_⟩, ?_, ?_, ?_, ?_⟩,
    ?_, minimal_accepts ⟨?_, ?_, ?_⟩ ?_ ?_ ?_ ?_ ?_, ⟨32, 32, ?_, ?_, .inl ?_⟩, ?_, ?_, ?_⟩ <;>
    (try unfold StoresVerbatim) <;> decide +kernel
/-- The clauses in order; of the slots, the last one bad after five good ones, and a refused truncation in the first. The
clause of an effort above 9 is met for both commands by one configuration. -/
theorem witness_CompressArgumentErrors :
    (let p := operands 4 4 0x10A; RegionsFit p ∧ 9 < p.effort) ∧
    (let p := operands 0 0 0x9; RegionsFit p ∧ p.effort ≤ 9 ∧ p.typesize = 0) ∧
    (let p := operands 2147483616 0 0x105; RegionsFit p ∧ p.effort ≤ 9 ∧ 1 ≤ p.typesize ∧
      2147483615 < p.srcLen.toNat) ∧
    (let p := operands 4 4 0x00030105; RegionsFit p ∧ p.effort ≤ 9 ∧ 1 ≤ p.typesize ∧ p.srcLen.toNat ≤ 2147483615 ∧
      p.extHdr = false ∧ p.shuf = true ∧ p.bshuf = true) ∧
    (let p := { operands 4 4 0x00080405 with fcode0 := 0x04030201, fcode1 := 0x0500, fmeta0 := 0x0A000000 }
     RegionsFit p ∧ p.effort ≤ 9 ∧ 1 ≤ p.typesize ∧ p.srcLen.toNat ≤ 2147483615 ∧ p.extHdr = true ∧
       p.fcode[5]? = some 5 ∧ p.fmeta[5]? = some 0 ∧
       ∀ j, j < 5 → ∀ c ∈ p.fcode[j]?, ∀ m ∈ p.fmeta[j]?,
         c.toNat < 5 ∧ (c = 4 → truncOk p.typesize m.toInt = true)) ∧
    (let p := { operands 4 4 0x00080405 with fcode0 := 0x00000004 }
     RegionsFit p ∧ p.extHdr = true ∧ p.fcode[0]? = some 4 ∧ p.fmeta[0]? = some 0 ∧
       truncOk p.typesize (0 : Byte).toInt = false) ∧
    (let p := operands 262145 0 9; RegionsFit p ∧ p.effort ≤ 9 ∧ 262144 < p.srcLen.toNat) := by
  refine ⟨⟨⟨?_, ?_, ?_⟩, ?_⟩, ⟨⟨?_, ?_, ?_⟩, ?_⟩, ⟨⟨?_, ?_, ?_⟩, ?_⟩, ⟨⟨?_, ?_, ?_⟩, ?_⟩, ⟨⟨?_, ?_, ?_⟩, ?_⟩,
    ⟨⟨?_, ?_, ?_⟩, ?_⟩, ⟨?_, ?_, ?_⟩, ?_⟩ <;> decide

theorem chunkAtHand_of {s : State} (m : s.mem.wf) (r : RegionsFit s.latched) (l : 16 ≤ s.latched.srcLen.toNat)
    (f : FieldsAccepted s) (e : s.srcExtended = false) (w : (s.srcWord 12).toNat ≤ s.latched.srcLen.toNat) :
    ChunkAtHand s := ⟨m, r, ⟨l, f, fun h => absurd h (by simp [e])⟩, w⟩

theorem witness_DecompressCopiesAStoredChunk :
    let s := busyWith (operands 18 2 0) chunkE7
    ChunkAtHand s ∧ 2 = (s.srcWord 4).toNat ∧ (s.srcByte 2).getLsbD 1 = true ∧ 2 ≤ s.latched.dstCap.toNat ∧
      (s.srcWord 12).toNat = s.srcHeaderLength + 2 := by
  refine ⟨chunkAtHand_of ?_ ⟨?_, ?_, ?_⟩ ?_ (fieldsAccepted_of ?_ ?_ ?_ ?_ ?_) ?_ ?_, ?_, ?_, ?_, ?_⟩ <;> decide +kernel
/-- Payload `j` decodes to a block of its length. -/
def blockGood (s : State) (j : Nat) : Bool :=
  match lzDecode (s.payload j) (s.chunkBlockLength j) with
  | .ok x => x.length == s.chunkBlockLength j
  | .error _ => false

/-- What payload `j` decodes to, nothing where it does not decode. -/
def blockOf (s : State) (j : Nat) : List Byte :=
  match lzDecode (s.payload j) (s.chunkBlockLength j) with
  | .ok x => x
  | .error _ => []

theorem blockDecodes_of {s : State} {j : Nat} (h : blockGood s j = true) : BlockDecodes s j (blockOf s j) := by
  unfold blockGood at h
  unfold BlockDecodes blockOf
  split at h
  · rename_i x hx
    rw [hx]
    exact ⟨rfl, by simpa using h⟩
  · cases h

theorem not_blockDecodes_of {s : State} {j : Nat} (h : blockGood s j = false) : ¬ ∃ x, BlockDecodes s j x := by
  rintro ⟨x, hx, hl⟩
  rw [blockGood, hx] at h
  simp [hl] at h

theorem tableInOrder_of {s : State} (first : s.tableEntry 0 = s.tableEnd)
    (rising : ∀ j ∈ List.range (s.chunkBlocks - 1), s.tableEntry j < s.tableEntry (j + 1)) : TableInOrder s :=
  ⟨first, fun j hj => rising j (List.mem_range.mpr (by omega))⟩

theorem not_tableInOrder_of {s : State} (h : s.tableEntry 0 ≠ s.tableEnd ∨
    ∃ j ∈ List.range (s.chunkBlocks - 1), s.tableEntry (j + 1) ≤ s.tableEntry j) : ¬ TableInOrder s := by
  rintro ⟨first, rising⟩
  obtain h | ⟨j, hj, h⟩ := h
  · exact h first
  · have := rising j (by have := List.mem_range.mp hj; omega)
    omega

/-- An empty chunk; one block, whose flags have the reserved bit 4 set; three blocks with a delta step. -/
theorem witness_DecompressDecodesOneBlock :
    (let s := busyWith (operands 16 0 0) (headerBytes 2 0 0 0 0 16)
     ChunkAtHand s ∧ ChunkSupported s ∧ (s.srcByte 2).getLsbD 1 = false ∧ 0 = (s.srcWord 4).toNat) ∧
    (let s := busyWith (operands 22 64 0) (chunkAb.set 2 0x10)
     ChunkAtHand s ∧ ChunkSupported s ∧ (s.srcByte 2).getLsbD 1 = false ∧ 64 = (s.srcWord 4).toNat ∧
       64 ≤ s.latched.dstCap.toNat ∧ TableAccepted s ∧ s.chunkBlocks = 1 ∧
       ∀ j, j < s.chunkBlocks → BlockDecodes s j (blockOf s j)) ∧
    (let s := busyWith (operands 50 96 0) chunkCd
     ChunkAtHand s ∧ ChunkSupported s ∧ (s.srcByte 2).getLsbD 1 = false ∧ 96 = (s.srcWord 4).toNat ∧
       96 ≤ s.latched.dstCap.toNat ∧ TableAccepted s ∧ s.chunkBlocks = 3 ∧ s.sourceFilters = [.delta] ∧
       ∀ j, j < s.chunkBlocks → BlockDecodes s j (blockOf s j)) := by
  refine ⟨⟨⟨?_, ⟨?_, ?_, ?_⟩, ⟨?_, ⟨?_, ?_, ?_, fun h => absurd h ?_, fun h => absurd h ?_⟩, fun h => absurd h ?_⟩, ?_⟩,
      ?_, ?_, ?_⟩,
    ⟨chunkAtHand_of ?_ ⟨?_, ?_, ?_⟩ ?_ (fieldsAccepted_of ?_ ?_ ?_ ?_ ?_) ?_ ?_, ?_, ?_, ?_, ?_,
      ⟨?_, fun h => absurd h ?_, fun h => absurd h ?_⟩, ?_, fun j hj => blockDecodes_of ?_⟩,
    chunkAtHand_of ?_ ⟨?_, ?_, ?_⟩ ?_ (fieldsAccepted_of ?_ ?_ ?_ ?_ ?_) ?_ ?_, ?_, ?_, ?_, ?_,
    ⟨?_, fun _ => tableInOrder_of ?_ ?_, fun _ => ?_⟩, ?_, ?_, fun j hj => blockDecodes_of ?_⟩
  all_goals ((try unfold ChunkSupported); first | decide +kernel | (revert j hj; decide +kernel))
/-- The clauses in order: the chunk one byte short; codec 1; one byte of room missing; a stored chunk a byte too long; an
item past the end; one byte of room missing for a range; a range of the too long stored chunk. -/
theorem witness_ChunkReaderErrors :
    (let s := busyWith (operands 49 96 0) chunkCd
     RegionsFit s.latched ∧ HeaderAccepted s ∧ s.latched.srcLen.toNat < (s.srcWord 12).toNat) ∧
    (let s := busyWith (operands 22 64 0) (chunkAb.set 2 0x20)
     RegionsFit s.latched ∧ HeaderAccepted s ∧ (s.srcWord 12).toNat ≤ s.latched.srcLen.toNat ∧ ¬ ChunkSupported s) ∧
    (let s := busyWith (operands 50 95 0) chunkCd
     RegionsFit s.latched ∧ HeaderAccepted s ∧ (s.srcWord 12).toNat ≤ s.latched.srcLen.toNat ∧ ChunkSupported s ∧
       s.latched.dstCap.toNat < (s.srcWord 4).toNat) ∧
    (let s := busyWith { operands 19 2 0 with arg0 := 1, arg1 := 1 } (chunkE7.set 12 0x13)
     RegionsFit s.latched ∧ HeaderAccepted s ∧ (s.srcWord 12).toNat ≤ s.latched.srcLen.toNat ∧ ChunkSupported s ∧
       (s.srcWord 4).toNat ≤ s.latched.dstCap.toNat ∧ (s.srcByte 2).getLsbD 1 = true ∧
       (s.srcWord 12).toNat ≠ s.srcHeaderLength + (s.srcWord 4).toNat ∧
       (s.latched.arg0.toNat + s.latched.arg1.toNat) * (s.srcByte 3).toNat ≤ (s.srcWord 4).toNat ∧
       (s.latched.arg0.toNat + s.latched.arg1.toNat) * (s.srcByte 3).toNat
         - s.latched.arg0.toNat * (s.srcByte 3).toNat ≤ s.latched.dstCap.toNat) ∧
    (let s := busyWith { operands 50 96 0 with arg0 := 90, arg1 := 7 } chunkCd
     RegionsFit s.latched ∧ HeaderAccepted s ∧ (s.srcWord 12).toNat ≤ s.latched.srcLen.toNat ∧ ChunkSupported s ∧
       (s.srcWord 4).toNat < (s.latched.arg0.toNat + s.latched.arg1.toNat) * (s.srcByte 3).toNat) ∧
    (let s := busyWith { operands 50 5 0 with arg0 := 90, arg1 := 6 } chunkCd
     RegionsFit s.latched ∧ HeaderAccepted s ∧ (s.srcWord 12).toNat ≤ s.latched.srcLen.toNat ∧ ChunkSupported s ∧
       (s.latched.arg0.toNat + s.latched.arg1.toNat) * (s.srcByte 3).toNat ≤ (s.srcWord 4).toNat ∧
       s.latched.dstCap.toNat < (s.latched.arg0.toNat + s.latched.arg1.toNat) * (s.srcByte 3).toNat
         - s.latched.arg0.toNat * (s.srcByte 3).toNat) := by
  refine ⟨⟨⟨?_, ?_, ?_⟩, ⟨?_, fieldsAccepted_of ?_ ?_ ?_ ?_ ?_, ?_⟩, ?_⟩,
    ⟨⟨?_, ?_, ?_⟩, ⟨?_, fieldsAccepted_of ?_ ?_ ?_ ?_ ?_, ?_⟩, ?_, ?_⟩,
    ⟨⟨?_, ?_, ?_⟩, ⟨?_, fieldsAccepted_of ?_ ?_ ?_ ?_ ?_, ?_⟩, ?_, ?_⟩,
    ⟨⟨?_, ?_, ?_⟩, ⟨?_, fieldsAccepted_of ?_ ?_ ?_ ?_ ?_, ?_⟩, ?_, ?_⟩,
    ⟨⟨?_, ?_, ?_⟩, ⟨?_, fieldsAccepted_of ?_ ?_ ?_ ?_ ?_, ?_⟩, ?_, ?_⟩,
    ⟨?_, ?_, ?_⟩, ⟨?_, fieldsAccepted_of ?_ ?_ ?_ ?_ ?_, ?_⟩, ?_, ?_⟩ <;> (try unfold ChunkSupported) <;> decide +kernel
theorem reaches_of {s : State} {i : Instr} (a : (s.srcWord 12).toNat ≤ s.latched.srcLen.toNat)
    (b : (s.srcByte 2).getLsbD 1 = false)
    (c : (if s.srcExtended then s.srcByte 22 else ((s.srcByte 2).extractLsb' 5 3).setWidth 8) = 0)
    (d : s.srcExtended = false)
    (e : (i = .decompress ∧ 1 ≤ (s.srcWord 4).toNat ∧ (s.srcWord 4).toNat ≤ s.latched.dstCap.toNat) ∨
      (i = .getItemRange ∧ s.rangeStart < s.rangeEnd ∧ s.rangeEnd ≤ (s.srcWord 4).toNat ∧
        s.rangeEnd - s.rangeStart ≤ s.latched.dstCap.toNat)) : ReachesBlocks s i :=
  ⟨a, .inr ⟨c, fun h => absurd h (by simp [d])⟩, b, e⟩

/-- The clauses of the blocks in order, each for both readers: a table that ends a byte past the chunk; a first entry a
byte too high, and two equal entries; a last entry a byte past the chunk; block 0 a byte too long, which is the first
block read; and the last payload empty. -/
theorem witness_ChunkReaderErrors_blocks :
    ∀ i ∈ ([.decompress, .getItemRange] : List Instr),
      (let s := busyWith { operands 50 96 0 with arg0 := 90, arg1 := 1 } (chunkCd.set 12 27)
       ReachesBlocks s i ∧ (s.srcWord 12).toNat < s.tableEnd) ∧
      (∀ c ∈ [(16, (0x1D : Byte)), (24, (0x24 : Byte))],
        let s := busyWith { operands 50 96 0 with arg0 := 90, arg1 := 1 } (chunkCd.set c.1 c.2)
        ReachesBlocks s i ∧ s.tableEnd ≤ (s.srcWord 12).toNat ∧ 1 < s.chunkBlocks ∧ ¬ TableInOrder s) ∧
      (let s := busyWith { operands 50 96 0 with arg0 := 90, arg1 := 1 } (chunkCd.set 24 51)
       ReachesBlocks s i ∧ s.tableEnd ≤ (s.srcWord 12).toNat ∧ 1 < s.chunkBlocks ∧ TableInOrder s ∧
         (s.srcWord 12).toNat < s.tableEntry (s.chunkBlocks - 1)) ∧
      (let s := busyWith { operands 50 96 0 with arg0 := 90, arg1 := 1 } (chunkCd.set 34 0x13)
       ReachesBlocks s i ∧ TableAccepted s ∧ ReadsBlock s i 0 ∧ ¬ ∃ x, BlockDecodes s 0 x) ∧
      (let s := busyWith { operands 50 96 0 with arg0 := 90, arg1 := 1 } (chunkCd.set 24 50)
       ReachesBlocks s i ∧ TableAccepted s ∧ ReadsBlock s i 2 ∧ ¬ ∃ x, BlockDecodes s 2 x) := by
  intro i hi
  refine ⟨⟨reaches_of ?_ ?_ ?_ ?_ ?_, ?_⟩, fun c hc => ⟨reaches_of ?_ ?_ ?_ ?_ ?_, ?_, ?_, not_tableInOrder_of ?_⟩,
    ⟨reaches_of ?_ ?_ ?_ ?_ ?_, ?_, ?_, tableInOrder_of ?_ ?_, ?_⟩,
    ⟨reaches_of ?_ ?_ ?_ ?_ ?_, ⟨?_, fun _ => tableInOrder_of ?_ ?_, fun _ => ?_⟩, ⟨?_, .inr (.inl ?_)⟩,
      not_blockDecodes_of ?_⟩,
    reaches_of ?_ ?_ ?_ ?_ ?_, ⟨?_, fun _ => tableInOrder_of ?_ ?_, fun _ => ?_⟩, ⟨?_, .inr (.inr ?_)⟩,
    not_blockDecodes_of ?_⟩
  all_goals first
    | decide +kernel
    | (revert c hc; decide +kernel)
    | (revert i hi; decide +kernel)
    | (revert c hc i hi; decide +kernel)
theorem witness_GetItemRangeCopiesFromAStoredChunk :
    let s := busyWith { operands 18 1 0 with arg0 := 1, arg1 := 1 } chunkE7
    ChunkAtHand s ∧ (s.srcByte 2).getLsbD 1 = true ∧ 1 = s.latched.arg0.toNat * (s.srcByte 3).toNat ∧
      2 = (s.latched.arg0.toNat + s.latched.arg1.toNat) * (s.srcByte 3).toNat ∧ 2 ≤ (s.srcWord 4).toNat ∧
      2 - 1 ≤ s.latched.dstCap.toNat ∧ (s.srcWord 12).toNat = s.srcHeaderLength + (s.srcWord 4).toNat := by
  refine ⟨chunkAtHand_of ?_ ⟨?_, ?_, ?_⟩ ?_ (fieldsAccepted_of ?_ ?_ ?_ ?_ ?_) ?_ ?_, ?_, ?_, ?_, ?_, ?_, ?_⟩ <;>
    decide +kernel
/-- The last bytes of a delta chunk whose middle block is corrupt, and an empty range at its end. -/
theorem witness_GetItemRangeIsASliceOfDecompress_blocks :
    (let s := busyWith { operands 50 2 0 with arg0 := 94, arg1 := 2 } (chunkCd.set 42 0x13)
     ChunkAtHand s ∧ ReachesBlocks s .getItemRange ∧ TableAccepted s ∧
       (∀ j, ReadsBlock s .getItemRange j → BlockDecodes s j (blockOf s j)) ∧ 1 < s.chunkBlocks ∧
       ¬ ∃ x, BlockDecodes s 1 x) ∧
    (let s := busyWith { operands 50 0 0 with arg0 := 96, arg1 := 0 } (chunkCd.set 42 0x13)
     ChunkAtHand s ∧ ChunkSupported s ∧ (s.srcByte 2).getLsbD 1 = false ∧ s.rangeStart = s.rangeEnd ∧
       s.rangeEnd ≤ (s.srcWord 4).toNat) := by
  have two : ∀ j, ReadsBlock (busyWith { operands 50 2 0 with arg0 := 94, arg1 := 2 } (chunkCd.set 42 0x13))
      .getItemRange j → j < 3 ∧ j ≠ 1 := by
    rintro j ⟨h, h' | ⟨h', -⟩ | h'⟩
    · cases h'
    · exact ⟨h, by omega⟩
    · refine ⟨h, ?_⟩
      rintro rfl
      revert h'
      decide +kernel
  refine ⟨⟨chunkAtHand_of ?_ ⟨?_, ?_, ?_⟩ ?_ (fieldsAccepted_of ?_ ?_ ?_ ?_ ?_) ?_ ?_, reaches_of ?_ ?_ ?_ ?_ ?_,
      ⟨?_, fun _ => tableInOrder_of ?_ ?_, fun _ => ?_⟩, fun j hj => blockDecodes_of ?_, ?_, not_blockDecodes_of ?_⟩,
    chunkAtHand_of ?_ ⟨?_, ?_, ?_⟩ ?_ (fieldsAccepted_of ?_ ?_ ?_ ?_ ?_) ?_ ?_, ?_, ?_, ?_, ?_⟩
  all_goals ((try unfold ChunkSupported); first
    | decide +kernel
    | (obtain ⟨h1, h2⟩ := two j hj; clear hj; revert j; decide +kernel))
/-- A range across two blocks of a delta chunk. -/
theorem witness_GetItemRangeIsASliceOfDecompress :
    let s := busyWith (operands 50 96 0) chunkCd
    let u := busyWith { operands 50 4 0 with arg0 := 30, arg1 := 4 } chunkCd
    s.mem.wf ∧ u.mem = s.mem ∧ RegionsFit s.latched ∧ RegionsFit u.latched ∧
      (∃ t, exec .decompress s = .next t ∧ t.status.err = false) ∧
      30 = u.latched.arg0.toNat * (s.srcByte 3).toNat ∧
      34 = (u.latched.arg0.toNat + u.latched.arg1.toNat) * (s.srcByte 3).toNat ∧ 34 ≤ (s.srcWord 4).toNat ∧
      34 - 30 ≤ u.latched.dstCap.toNat := by
  obtain ⟨t, h, ht⟩ := next_of (o := exec .decompress (busyWith (operands 50 96 0) chunkCd))
    (f := fun t => decide (t.status.err = false)) (by decide +kernel)
  refine ⟨?_, rfl, ⟨?_, ?_, ?_⟩, ⟨?_, ?_, ?_⟩, ⟨t, h, of_decide_eq_true ht⟩, ?_, ?_, ?_, ?_⟩ <;> decide +kernel
/-- A delta pipeline over three coded blocks. -/
theorem witness_CompressDecompressRoundTrip :
    ∃ s t u : State, s.mem.wf ∧ CompressAccepts s.latched ∧ Lossless s.latched.pipeline ∧ exec .compress s = .next t ∧
      t.status.err = false ∧ t.status.stored = false ∧ u.mem = t.mem ∧ RegionsFit u.latched ∧
      u.latched.srcAddr = s.latched.dstAddr ∧ u.latched.srcLen = t.results.result0 ∧
      s.latched.srcLen.toNat ≤ u.latched.dstCap.toNat := by
  obtain ⟨t, h, ht⟩ := next_of (o := exec .compress (busyWith { operands 96 112 0x00040101 with bsize := 32 } (mod3 96)))
    (f := fun t => decide (t.status.err = false ∧ t.status.stored = false ∧ t.results.result0 = 50)) (by decide +kernel)
  have ht := of_decide_eq_true ht
  have fits : RegionsFit { operands 50 96 0 with srcAddr := 0x2000, dstAddr := 0x3000 } :=
    ⟨by decide, by decide, by decide⟩
  have room : (96 : Word).toNat ≤ (96 : Word).toNat := le_refl _
  have pipeline : Params.pipeline { operands 96 112 0x00040101 with bsize := 32 } = [.delta] := by decide
  refine ⟨_, t, { t with latched := { operands 50 96 0 with srcAddr := 0x2000, dstAddr := 0x3000 } }, ?_,
    minimal_accepts ⟨?_, ?_, ?_⟩ ?_ ?_ ?_ ?_ ?_, fun p hp => ?_, h, ht.1, ht.2.1, rfl, fits, rfl, ht.2.2.symm, room⟩
  case refine_10 =>
    have hp : Filter.truncPrec p ∈ Params.pipeline { operands 96 112 0x00040101 with bsize := 32 } := hp
    rw [pipeline] at hp
    simp at hp
  all_goals decide +kernel

/-! ### The codec -/

/-- A source that is written, with exactly the room of its stream; the same with a byte less; and the collision of V2.11,
which hides the only match. -/
theorem witness_LzCompressWritesADecodableStream :
    (let s := busyWith (operands 20 8 5) (List.replicate 10 0x61 ++ List.replicate 10 0x62)
     let x := s.mem.readBytes s.latched.srcAddr.toNat s.latched.srcLen.toNat
     s.mem.wf ∧ RegionsFit s.latched ∧ s.latched.effort = 5 ∧ s.latched.srcLen.toNat ≤ 262144 ∧
       greedyStream 5 x = [0x20, 0x61, 0xc0, 0x00, 0x00, 0x62, 0xc0, 0x00] ∧ ¬ NotCompressible 5 x 8 ∧
       NotCompressible 5 x 7) ∧
    (let s := busyWith (operands 12 12 1) [0x61, 0x62, 0x63, 0x64, 0x65, 0x65, 0x71, 0x6d, 0x61, 0x62, 0x63, 0x64]
     s.mem.wf ∧ RegionsFit s.latched ∧ s.latched.effort = 1 ∧ s.latched.srcLen.toNat ≤ 262144 ∧
       NotCompressible 1 (s.mem.readBytes s.latched.srcAddr.toNat s.latched.srcLen.toNat) s.latched.dstCap.toNat) := by
  refine ⟨⟨?_, ⟨?_, ?_, ?_⟩, ?_, ?_, ?_, ?_, ?_⟩, ?_, ⟨?_, ?_, ?_⟩, ?_, ?_, ?_⟩ <;> (try unfold NotCompressible) <;>
    decide +kernel
theorem witness_LzDecompressStartsTheDecoder :
    RegionsFit (operands 0 9 0) ∧ (operands 0 9 0).srcLen = 0 ∧ RegionsFit (operands 1 9 0) ∧
      (operands 1 9 0).srcLen ≠ 0 := by
  refine ⟨⟨?_, ?_, ?_⟩, ?_, ⟨?_, ?_, ?_⟩, ?_⟩ <;> decide
/-- A stream that decodes and one whose second token reaches before the output. -/
theorem witness_LzDecompressRunsTheStream :
    ∀ bytes ∈ ([[0x20, 0x41, 0xC0, 0x00], [0x20, 0x41, 0xC0, 0x01]] : List (List Byte)),
      let s := latchedOp 0x11 4 100 0 bytes
      s.mem.wf ∧ RunsAlone s ∧ s.dec = Decoder.idle ∧ s.latched.opcode = 0x11 ∧ RegionsFit s.latched ∧
        lzDecode bytes 100 = (if bytes = [0x20, 0x41, 0xC0, 0x00] then .ok (List.replicate 10 0x41)
          else .error (2, [0x41])) := by
  simp only [List.forall_mem_cons, List.not_mem_nil, false_implies, implies_true, and_true]
  refine ⟨⟨?_, ⟨?_, ?_, ?_, ?_, ?_, ?_⟩, ?_, ?_, ⟨?_, ?_, ?_⟩, ?_⟩, ?_, ⟨?_, ?_, ?_, ?_, ?_, ?_⟩, ?_, ?_, ⟨?_, ?_, ?_⟩,
    ?_⟩ <;> decide +kernel
/-- A capacity that holds the stream, and one a byte below it. -/
theorem witness_CodecRoundTrip :
    let x := List.replicate 10 (0x61 : Byte) ++ List.replicate 10 0x62
    ¬ NotCompressible 5 x 8 ∧ NotCompressible 5 x 7 ∧ x.length ≤ 20 := by
  unfold NotCompressible
  decide +kernel

theorem tokenRuns_at {srcLen dstCap : Word} {ip op : Nat} (a : 0x1000 + srcLen.toNat ≤ 4294967296)
    (b : 0x2000 + dstCap.toNat ≤ 4294967296) :
    TokenRuns { tokensAt srcLen dstCap ip [] with dec := ⟨true, ip, op, decide (ip = 0)⟩ } :=
  ⟨(by decide : Memory.wf []), a, b⟩

/-- A first literal that ends its stream, and a later one that does not. -/
theorem witness_LiteralTokenAppendsItsBytes :
    ((Instr.litFirst 1 [0x61]).wellFormed = true ∧
      TokenRuns { tokensAt 2 1 0 [] with dec := ⟨true, 0, 0, decide ((0 : Nat) = 0)⟩ } ∧ 0 + 1 + 1 = 2) ∧
    ((Instr.lit [0x61, 0x62]).wellFormed = true ∧
      TokenRuns { tokensAt 9 12 4 [] with dec := ⟨true, 4, 10, decide ((4 : Nat) = 0)⟩ } ∧ 4 + 1 + 2 ≤ 9 ∧
      10 + 2 ≤ 12) :=
  ⟨⟨by decide, tokenRuns_at (by decide) (by decide), rfl⟩, by decide, tokenRuns_at (by decide) (by decide), by decide,
    by decide⟩
/-- Each of the four match forms at the largest distance its output allows. -/
theorem witness_MatchTokenCopiesEarlierOutput :
    ∀ c ∈ ([(.matchShortNear 1 9, 4, 10), (.matchShortFar 6 0, 9, 8192), (.matchLongNear 0 0, 10, 1),
        (.matchLongFar 255 0xFFFF, 265, 73727)] : List (Instr × Nat × Nat)),
      c.1.wellFormed = true ∧ matchForm c.1 = some (c.2.1, c.2.2) ∧
        TokenRuns { tokensAt 20 100000 4 [] with dec := ⟨true, 4, c.2.2, decide ((4 : Nat) = 0)⟩ } ∧
        4 + tokenLength c.1 ≤ 20 ∧ c.2.2 + c.2.1 ≤ 100000 := by
  intro c hc
  refine ⟨?_, ?_, tokenRuns_at (by decide) (by decide), ?_, ?_⟩ <;> revert c hc <;> decide
/-- The clauses: a literal past the source, one past the destination, a match past the source, one past the destination,
and one that reaches a byte before the output. -/
theorem witness_TokenBoundsErrors :
    TokenRuns { tokensAt 6 12 4 [] with dec := ⟨true, 4, 10, decide ((4 : Nat) = 0)⟩ } ∧
      (Instr.lit [1, 2]).wellFormed = true ∧ 6 < 4 + tokenLength (.lit [1, 2]) ∧
      (Instr.lit [1]).wellFormed = true ∧ ¬ 12 < 10 + [(1 : Byte)].length ∧ 12 < 10 + [(1 : Byte), 2, 3].length ∧
      matchForm (.matchLongNear 0 9) = some (10, 10) ∧ 10 ≤ 10 ∧ 6 < 4 + tokenLength (.matchLongNear 0 9) ∧
      matchForm (.matchShortNear 1 9) = some (4, 10) ∧ 12 < 10 + 4 ∧
      matchForm (.matchShortNear 1 10) = some (4, 11) ∧ 10 < 11 :=
  ⟨tokenRuns_at (by decide) (by decide), by decide⟩
/-- The source, or the destination, one byte past the end of memory. -/
theorem witness_TokenOutsideMemoryFaults :
    (Instr.lit [1]).isToken = true ∧
      (let p := { operands 2 2 0 with srcAddr := 0xFFFFFFFF }; 4294967296 < p.srcAddr.toNat + p.srcLen.toNat) ∧
      (let p := { operands 2 2 0 with dstAddr := 0xFFFFFFFF }; 4294967296 < p.dstAddr.toNat + p.dstCap.toNat) := by
  decide

end Sys2Proof.Tests
end

section
/-! The register window, the step and the token decoder: what they answer, case by case. -/

namespace Sys2Proof

theorem readShortMatch_isToken {l : BitVec 3} {f : BitVec 5} {b rest : List Byte} {i : Instr}
    (h : readShortMatch l f b = .ok (i, rest)) : i.isToken = true := by
  unfold readShortMatch at h
  split at h <;> cases h <;> rfl

theorem readLongMatch_isToken {f : BitVec 5} {b rest : List Byte} {i : Instr}
    (h : readLongMatch f b = .ok (i, rest)) : i.isToken = true := by
  unfold readLongMatch at h
  split at h
  · cases h
  · split at h <;> cases h <;> rfl

/-- The decoder reads tokens only, never a command (30_encoding.md R170). -/
theorem decodeToken_isToken {first : Bool} {b rest : List Byte} {i : Instr}
    (h : decodeToken first b = .ok (i, rest)) : i.isToken = true := by
  cases b with
  | nil => cases h
  | cons ctrl b =>
    rw [decodeToken] at h
    split at h
    · obtain ⟨lits, rfl, -⟩ := readLiterals_ok h
      rfl
    · split at h
      · obtain ⟨lits, rfl, -⟩ := readLiterals_ok h
        rfl
      · split at h
        · exact readLongMatch_isToken h
        · exact readShortMatch_isToken h

/-- Every token has its control byte, so the decoder gets on (30_encoding.md R178). -/
theorem tokenLength_pos {i : Instr} (h : i.isToken = true) : 0 < tokenLength i := by
  cases i
  case litFirst marker lits => exact Nat.add_pos_left Nat.one_pos _
  case lit lits => exact Nat.add_pos_left Nat.one_pos _
  case matchShortNear l d => exact Nat.two_pos
  case matchShortFar l x => exact Nat.succ_pos 3
  case matchLongNear ext d => exact Nat.add_pos_left Nat.two_pos _
  case matchLongFar ext x => exact Nat.add_pos_left (Nat.succ_pos 3) _
  all_goals exact absurd h Bool.false_ne_true

end Sys2Proof

namespace Sys2Proof.Machine

/-! ## The words of the window -/

/-- The parameter registers in the order of their offsets 0x0C, 0x10, .., 0x3C (10_state.md R31). -/
def Params.words (p : Params) : List Word :=
  [p.opcode.setWidth 32, p.srcAddr, p.srcLen, p.dstAddr, p.dstCap, p.cfg, p.bsize, p.fcode0, p.fcode1, p.fmeta0,
   p.fmeta1, p.arg0, p.arg1]

/-- The bits of a parameter register that exist, by its offset (10_state.md R38, R41, R43). -/
def existingBits (off : Nat) : Word :=
  if off = 0x0C then 0xFF else if off = 0x20 then 0x001FFF0F
  else if off = 0x2C ∨ off = 0x34 then 0xFFFF else 0xFFFFFFFF

theorem opcode_word (v : Word) : (v.extractLsb' 0 8).setWidth 32 = v &&& 0xFF := by
  apply BitVec.eq_of_toNat_eq
  have low : v.toNat &&& (0xFF : Word).toNat = v.toNat % 2 ^ 8 := Nat.and_two_pow_sub_one_eq_mod v.toNat 8
  rw [BitVec.toNat_and, low, BitVec.toNat_setWidth, BitVec.extractLsb'_toNat, Nat.shiftRight_zero]
  omega

/-- A word of the window comes from the parameter registers at their offsets only. -/
theorem windowWord_regs {s : State} {p : Params} {off : Nat}
    (h : ∀ k, off = 0x0C + 4 * k → p.words[k]? = s.regs.words[k]?) :
    ({ s with regs := p } : State).windowWord off = s.windowWord off := by
  unfold State.windowWord
  split
  case h_4 => exact Option.some.inj (h 0 rfl)
  case h_5 => exact Option.some.inj (h 1 rfl)
  case h_6 => exact Option.some.inj (h 2 rfl)
  case h_7 => exact Option.some.inj (h 3 rfl)
  case h_8 => exact Option.some.inj (h 4 rfl)
  case h_9 => exact Option.some.inj (h 5 rfl)
  case h_10 => exact Option.some.inj (h 6 rfl)
  case h_11 => exact Option.some.inj (h 7 rfl)
  case h_12 => exact Option.some.inj (h 8 rfl)
  case h_13 => exact Option.some.inj (h 9 rfl)
  case h_14 => exact Option.some.inj (h 10 rfl)
  case h_15 => exact Option.some.inj (h 11 rfl)
  case h_16 => exact Option.some.inj (h 12 rfl)
  all_goals rfl

/-- A parameter register is read at its offset (10_state.md R33). -/
theorem windowWord_param (s : State) {k : Nat} (hk : k < 13) :
    s.regs.words[k]? = some (s.windowWord (0x0C + 4 * k)) := by
  interval_cases k <;> rfl

/-- A write to a parameter register takes the bits that exist and leaves the other registers (10_state.md R34). -/
theorem writeWindow_param (s : State) (v : Word) {k : Nat} (hk : k < 13) :
    ∃ p, writeWindow (0x0C + 4 * k) v s = { s with regs := p } ∧
      p.words = s.regs.words.set k (v &&& existingBits (0x0C + 4 * k)) := by
  have put : ∀ w, w = v &&& existingBits (0x0C + 4 * k) →
      s.regs.words.set k w = s.regs.words.set k (v &&& existingBits (0x0C + 4 * k)) := fun w h => by rw [h]
  have all : v &&& 0xFFFFFFFF = v := BitVec.and_allOnes
  interval_cases k
  · exact ⟨_, rfl, put _ (opcode_word v)⟩
  · exact ⟨_, rfl, put _ all.symm⟩
  · exact ⟨_, rfl, put _ all.symm⟩
  · exact ⟨_, rfl, put _ all.symm⟩
  · exact ⟨_, rfl, put _ all.symm⟩
  · exact ⟨_, rfl, put _ rfl⟩
  · exact ⟨_, rfl, put _ all.symm⟩
  · exact ⟨_, rfl, put _ all.symm⟩
  · exact ⟨_, rfl, put _ rfl⟩
  · exact ⟨_, rfl, put _ all.symm⟩
  · exact ⟨_, rfl, put _ rfl⟩
  · exact ⟨_, rfl, put _ all.symm⟩
  · exact ⟨_, rfl, put _ all.symm⟩

/-- Offset 0x00 and those from 0x40 on hold no register that a write changes (10_state.md R33). -/
theorem writeWindow_readOnly {off : Nat} (h : off = 0x00 ∨ 0x40 ≤ off) (v : Word) (s : State) :
    writeWindow off v s = s := by
  unfold writeWindow
  split
  case h_16 => rfl
  all_goals omega

theorem ctrlWord_eq (ie : Bool) : ctrlWord ie = if ie then 4 else 0 := by
  cases ie <;> rfl

theorem reachesWindow_word {off : Nat} (h4 : off % 4 = 0) (hb : off < 0x80) : reachesWindow .word off = true := by
  simp [reachesWindow, h4, hb]

/-- An access of another width, at an unaligned offset or beyond the window does not reach it (10_state.md R32). -/
theorem reachesWindow_not {size : AccessSize} {off : Nat} (h : size ≠ .word ∨ off % 4 ≠ 0 ∨ 0x80 ≤ off) :
    reachesWindow size off = false := by
  rw [Bool.eq_false_iff]
  intro c
  simp only [reachesWindow, Bool.and_eq_true, decide_eq_true_eq] at c
  obtain ⟨⟨hw, h4⟩, hb⟩ := c
  rcases h with h | h | h
  · exact h hw
  · exact h h4
  · omega

theorem windowRead_reached {s : State} {off : Nat} (h4 : off % 4 = 0) (hb : off < 0x80) :
    s.windowRead .word off = s.windowWord off := if_pos (reachesWindow_word h4 hb)

theorem windowRead_congr {s t : State} {off : Nat} (h : t.windowWord off = s.windowWord off) (size : AccessSize) :
    t.windowRead size off = s.windowRead size off := by
  unfold State.windowRead
  rw [h]

/-- A read of the window leaves its data and, where it shows the end of a command, that it was observed. -/
theorem hostRead_word (s : State) {off : Nat} (h4 : off % 4 = 0) (hb : off < 0x80) :
    hostRead .word off s =
      { s with
        rdata := s.windowRead .word off
        owned := s.owned && !(decide (off = 0x08) && (s.status.done || decide (s.seq = .idle)))
        unobserved := if off = 0x08 ∧ (s.status.done = true ∨ s.seq = .idle) then [] else s.unobserved } := by
  unfold hostRead
  rw [reachesWindow_word h4 hb]
  by_cases h8 : off = 0x08
  · simp [h8, State.observe]
  · simp [h8]

/-- An access that does not reach the window reads 0 and observes nothing (10_state.md R32). -/
theorem hostRead_unreached {s : State} {size : AccessSize} {off : Nat} (h : reachesWindow size off = false) :
    hostRead size off s = { s with rdata := 0 } := by
  simp [hostRead, State.windowRead, h]

theorem windowWrite_unreached {s : State} {size : AccessSize} {off : Nat} (h : reachesWindow size off = false)
    (v : Word) : windowWrite size off v s = s := by
  rw [windowWrite, h]
  exact if_neg Bool.false_ne_true

/-- Each word of the window under the name of its register (10_state.md R31, R35 to R45). -/
theorem windowWord_mem (s : State) {off : Nat} (h4 : off % 4 = 0) (hb : off < 0x80) :
    (off, s.windowWord off) ∈
      ([(0x00, 0x4C5A3737), (0x04, ctrlWord s.ie), (0x08, statusWord s.seq s.status),
        (0x0C, s.regs.opcode.setWidth 32), (0x10, s.regs.srcAddr), (0x14, s.regs.srcLen), (0x18, s.regs.dstAddr),
        (0x1C, s.regs.dstCap), (0x20, s.regs.cfg), (0x24, s.regs.bsize), (0x28, s.regs.fcode0),
        (0x2C, s.regs.fcode1), (0x30, s.regs.fmeta0), (0x34, s.regs.fmeta1), (0x38, s.regs.arg0),
        (0x3C, s.regs.arg1), (0x40, s.results.result0), (0x44, s.results.result1), (0x48, s.results.result2),
        (0x4C, s.results.result3), (0x50, s.results.result4), (0x54, s.results.result5), (0x58, s.results.result6),
        (0x5C, s.results.result7), (0x60, s.results.result8), (0x64, s.errInfo), (0x68, 0), (0x6C, 0), (0x70, 0),
        (0x74, 0), (0x78, 0), (0x7C, 0)] : List (Nat × Word)) := by
  obtain ⟨k, rfl⟩ : ∃ k, off = 4 * k := ⟨off / 4, by omega⟩
  have hk : k < 32 := by omega
  refine List.mem_of_getElem? (i := k) ?_
  interval_cases k <;> rfl

/-- Masking with bits that are no reserved ones leaves none of those. -/
theorem and_reserved {m r : Word} (h : m &&& r = 0) (v : Word) : v &&& m &&& r = 0 := by
  rw [BitVec.and_assoc, h]
  exact BitVec.and_zero

/-- What a write to a word of the window can be: CTRL, STATUS, or a write that leaves all but the parameter registers
and sets no reserved bit of them (10_state.md R33, R41, R43). -/
theorem writeWindow_cases (off : Nat) (v : Word) (s : State) :
    (off = 0x04 ∧ writeWindow off v s = writeCtrl v s) ∨
    (off = 0x08 ∧ writeWindow off v s = { s with status := s.status.acknowledge v }) ∨
    ∃ p, writeWindow off v s = { s with regs := p } ∧ (s.regs.Legal → p.Legal) := by
  unfold writeWindow
  split
  case h_1 => exact .inl ⟨rfl, rfl⟩
  case h_2 => exact .inr (.inl ⟨rfl, rfl⟩)
  case h_8 => exact .inr (.inr ⟨_, rfl, fun h => ⟨and_reserved (by decide) v, h.fcode1, h.fmeta1⟩⟩)
  case h_11 => exact .inr (.inr ⟨_, rfl, fun h => ⟨h.cfg, and_reserved (by decide) v, h.fmeta1⟩⟩)
  case h_13 => exact .inr (.inr ⟨_, rfl, fun h => ⟨h.cfg, h.fcode1, and_reserved (by decide) v⟩⟩)
  all_goals exact .inr (.inr ⟨_, rfl, fun h => ⟨h.cfg, h.fcode1, h.fmeta1⟩⟩)

/-! ## The step -/

/-- What a step can be: the engine's move, with an event `wait` taken off or none there, or an outside event. -/
theorem step_cases (s : State) :
    (s.host = [] ∧ step s = engineStep s) ∨
    (∃ rest, s.host = .wait :: rest ∧ step s = engineStep { s with host := rest }) ∨
    ∃ ev rest, ev ≠ .wait ∧ s.host = ev :: rest ∧ step s = .next (outsideStep ev { s with host := rest }) := by
  cases hh : s.host with
  | nil => exact .inl ⟨rfl, step_engine hh⟩
  | cons ev rest =>
    by_cases hw : ev = .wait
    · subst hw
      exact .inr (.inl ⟨rest, rfl, step_wait hh⟩)
    · exact .inr (.inr ⟨ev, rest, hw, rfl, step_outside hh hw⟩)

/-- The engine's move where nothing stands between it and the latched command. -/
theorem engineStep_command {s : State} {i : Instr} (hb : s.seq = .busy) (ha : s.abortReq = false)
    (hr : s.rejected = false) (hm : s.misused = false) (hh : s.hung = false) (hd : s.dec.running = false)
    (hc : decodeCommand s.latched.opcode = .ok i) : engineStep s = exec i s := by
  have hrun : runStep s = exec i s := by
    rw [runStep, hd, if_neg Bool.false_ne_true, commandStep, hc]
  rw [engineStep, if_neg (by rw [hb]; simp), if_neg (by rw [hh]; simp), if_neg (by rw [hr]; simp),
    if_neg (by rw [ha]; simp), hm, settle_false, hrun]

/-- CMD decodes by its opcode alone (30_encoding.md R150). -/
theorem decode_opcodeWord (first : Bool) (o : Byte) : decode first (.word (o.setWidth 32)) = decodeCommand o := by
  have ho : (o.setWidth 32).extractLsb' 0 8 = o := by
    apply BitVec.eq_of_toNat_eq
    have := o.isLt
    rw [BitVec.extractLsb'_toNat, BitVec.toNat_setWidth, Nat.shiftRight_zero]
    omega
  rw [decode, ho]

/-- A parameter write, as the host sees it: the register takes the bits that exist, and no other word changes. -/
theorem step_paramWrite {s : State} {off : Nat} {v : Word} {rest : List HostEvent}
    (h : s.host = .regWrite .word off v :: rest) (h4 : off % 4 = 0) (lo : 0x0C ≤ off) (hi : off ≤ 0x3C) :
    ∃ p, step s = .next { s with host := rest, regs := p } ∧
      ({ s with host := rest, regs := p } : State).windowRead .word off = v &&& existingBits off ∧
      ∀ o, o ≠ off → ({ s with host := rest, regs := p } : State).windowRead .word o = s.windowRead .word o := by
  obtain ⟨k, rfl⟩ : ∃ k, off = 0x0C + 4 * k := ⟨(off - 0x0C) / 4, by omega⟩
  have hk : k < 13 := by omega
  obtain ⟨p, hw, hp⟩ := writeWindow_param { s with host := rest } v hk
  refine ⟨p, ?_, ?_, fun o ho => windowRead_congr (windowWord_regs fun j hj => ?_) _⟩
  · rw [step_wordWrite h h4 (by omega), hw]
  · have hr := windowWord_param { s with host := rest, regs := p } hk
    rw [windowRead_reached h4 (by omega)]
    refine Option.some.inj (hr.symm.trans ?_)
    show p.words[k]? = _
    rw [hp]
    exact List.getElem?_set_self hk
  · have hjk : k ≠ j := by
      rintro rfl
      exact ho hj
    rw [hp]
    exact List.getElem?_set_ne hjk

/-- STATUS of a command that has just started: BUSY alone (10_state.md R37). -/
theorem statusWord_started : statusWord .busy Status.clear = 1 := by decide

theorem seq_idle_of_ne_busy {q : Seq} (h : q ≠ .busy) : q = .idle := by
  cases q with
  | idle => rfl
  | busy => exact absurd rfl h

/-- Every error has a code of the table, and none is 0 (60_exceptions.md R440). -/
theorem Err.code_range (e : Err) : e.code.toNat ≤ 8 ∧ e.code ≠ 0 := by
  cases e <;> decide

end Sys2Proof.Machine
end

section
/-! The invariant goes through the engine's move and through every event of the outside world. -/

namespace Sys2Proof.Machine

/-! ## What the invariant looks at -/

/-- The fields that the invariant looks at and that no access of a parameter register, of CTRL.ABORT or of memory
changes. -/
def State.engine (s : State) : Params × Scratch × Status × Results × Word × Seq × Decoder :=
  (s.latched, s.work, s.status, s.results, s.errInfo, s.seq, s.dec)

/-- All that the invariant looks at but memory. -/
def State.watched (s : State) :
    Params × Bool × Bool × Bool × Params × Scratch × Status × Results × Word × Seq × Decoder :=
  (s.regs, s.abortReq, s.abortPassed, s.owned, s.engine)

/-- The invariant stays where the engine does and what else changed keeps its own part of it. -/
theorem State.Inv.of_engine {s t : State} (h : s.Inv) (e : t.engine = s.engine) (mem : t.mem.wf) (regs : t.regs.Legal)
    (passed : t.abortPassed = true → t.abortReq = true) (owned : t.seq = .busy → t.owned = true) : t.Inv := by
  simp only [State.engine, Prod.mk.injEq] at e
  obtain ⟨hl, hw, hs, hr, hi, hq, hd⟩ := e
  exact
    { mem := mem
      regs := regs
      latched := hl ▸ h.latched
      work := hw ▸ h.work
      errCode := hs ▸ h.errCode
      err := hs ▸ h.err
      clear := by
        rw [hs, hr, hi, hq]
        exact h.clear
      still := hd ▸ h.still
      program := fun hrun => (h.program (hd ▸ hrun)).congr hq hl hd
      passed := passed
      owned := owned }

/-- The same where only memory and fields that the invariant does not look at changed. -/
theorem State.Inv.of_watched {s t : State} (h : s.Inv) (e : t.watched = s.watched) (mem : t.mem.wf) : t.Inv := by
  simp only [State.watched, Prod.mk.injEq] at e
  obtain ⟨hregs, hreq, hpassed, howned, he⟩ := e
  have hq : t.seq = s.seq := congrArg (fun e => e.2.2.2.2.2.1) he
  exact h.of_engine he mem (hregs ▸ h.regs) (by rw [hreq, hpassed]; exact h.passed) (by rw [hq, howned]; exact h.owned)

/-- An IDLE engine needs canonical memory, arrays of their sizes and a legal error code; START clears the rest. -/
theorem State.Inv.of_idle {s t : State} (h : s.Inv) (mem : t.mem.wf) (work : t.work.Fits)
    (errCode : t.status.errCode.toNat ≤ 8) (err : t.status.err = true → t.status.errCode ≠ 0) (seq : t.seq = .idle)
    (dec : t.dec = Decoder.idle) (regs : t.regs = s.regs) (latched : t.latched = s.latched)
    (req : t.abortReq = s.abortReq) (passed : t.abortPassed = s.abortPassed) : t.Inv where
  mem := mem
  regs := regs ▸ h.regs
  latched := latched ▸ h.latched
  work := work
  errCode := errCode
  err := err
  clear := fun hb => by rw [seq] at hb; cases hb
  still := fun _ => dec
  program := fun hr => by rw [dec] at hr; cases hr
  passed := by rw [req, passed]; exact h.passed
  owned := fun hb => by rw [seq] at hb; cases hb

/-- No token program outlives its command. -/
theorem State.Inv.dec_of_idle {s : State} (h : s.Inv) (hs : s.seq = .idle) : s.dec = Decoder.idle := by
  refine h.still (Bool.eq_false_iff.mpr fun hr => ?_)
  have hb := (h.program hr).busy
  rw [hs] at hb
  cases hb

/-! ## The engine's move -/

/-- The end of a command keeps the invariant. -/
theorem Ends.inv {s t : State} (h : s.Inv) (he : Ends s t) : t.Inv := by
  obtain ⟨m, w, f, hm, hw, ⟨e, n, rfl⟩ | ⟨r, b, rfl⟩⟩ := he
  · exact h.of_idle (hm.wf h.mem) (hw h.work) (Err.code_range e).1 (fun _ => (Err.code_range e).2) rfl rfl rfl rfl rfl
      rfl
  · exact h.of_idle (hm.wf h.mem) (hw h.work) h.errCode h.err rfl rfl rfl rfl rfl rfl

/-- The start of the token decoder keeps the invariant: its checks have just passed (43_lz_codec.md R410). -/
theorem startDecoder_inv {s : State} (h : s.Inv) (hb : s.seq = .busy) (ho : s.latched.opcode = 0x11)
    (hr : RegionsFit s.latched) (h0 : s.latched.srcLen ≠ 0) : ({ s with dec := ⟨true, 0, 0, true⟩ } : State).Inv :=
  have hlen : 0 < s.latched.srcLen.toNat := Nat.pos_of_ne_zero fun c => h0 (BitVec.eq_of_toNat_eq c)
  { h with
    still := fun hf => by cases hf
    program := fun _ => ⟨hb, ho, hr, hlen, Nat.zero_le _, rfl, fun _ => rfl⟩ }

/-- A token that does not end its stream leaves a token program (43_lz_codec.md R400). -/
theorem passToken_inv {s : State} {i : Instr} {new : List Byte} (h : s.Inv) (hr : s.dec.running = true)
    (hi : i.isToken = true) (hip : s.dec.ip + tokenLength i < s.latched.srcLen.toNat)
    (hop : s.dec.op + new.length ≤ s.latched.dstCap.toNat) :
    ((s.writeDst s.dec.op new).passToken i new.length).Inv :=
  have p := h.program hr
  have hpos : s.dec.ip + tokenLength i ≠ 0 := by
    have := tokenLength_pos hi
    omega
  { h with
    mem := Memory.writeBytes_wf h.mem _ _
    still := fun hf => absurd (hr.symm.trans hf) (by simp)
    program := fun _ =>
      ⟨p.busy, p.opcode, p.regions, hip, hop, (decide_eq_false hpos).symm, fun c => absurd c hpos⟩ }

/-- A token that ends its stream ends the command. -/
theorem ends_lastToken {s : State} (i : Instr) {new : List Byte} (r : List Nat)
    (hop : s.dec.op + new.length ≤ s.latched.dstCap.toNat) :
    Ends s (complete r false ((s.writeDst s.dec.op new).passToken i new.length)) :=
  ⟨_, s.work, s.free, .write new s.dec.op hop, id, .inr ⟨r, false, rfl⟩⟩

theorem runToken_inv {s t : State} {i : Instr} (h : s.Inv) (hr : s.dec.running = true) (hi : i.isToken = true)
    (ht : runToken i s = .next t) : t.Inv := by
  rcases runToken_cases i s with hx | hx | ⟨new, -, -, -, hop, ⟨-, hx⟩ | ⟨hip, hx⟩⟩ <;> rw [hx] at ht <;> cases ht
  · exact (ends_raise s _ _).inv h
  · exact (ends_lastToken i _ hop).inv h
  · exact passToken_inv h hr hi hip hop

theorem tokenStep_inv {s t : State} (h : s.Inv) (hr : s.dec.running = true) (ht : tokenStep s = .next t) : t.Inv := by
  unfold tokenStep at ht
  split at ht
  · split at ht
    · cases ht
      exact (ends_raise s _ _).inv h
    · rename_i i _ hd
      have hi := decodeToken_isToken hd
      exact runToken_inv h hr hi (exec_token hi s ▸ ht)
  · cases ht

theorem commandStep_inv {s t : State} (h : s.Inv) (hb : s.seq = .busy) (ht : commandStep s = .next t) : t.Inv := by
  unfold commandStep at ht
  split at ht
  · cases ht
    exact (ends_raise s _ _).inv h
  · rename_i i hd
    obtain ⟨hi, ho⟩ := decodeCommand_ok hd
    obtain ⟨u, hx, hu⟩ := exec_command_cases hi s
    rw [hx] at ht
    cases ht
    rcases hu with he | ⟨hlz, hfit, h0, rfl⟩
    · exact he.inv h
    · exact startDecoder_inv h hb (ho hlz) hfit h0

theorem runStep_inv {s t : State} (h : s.Inv) (hb : s.seq = .busy) (ht : runStep s = .next t) : t.Inv := by
  unfold runStep at ht
  split at ht
  · exact tokenStep_inv h ‹_› ht
  · exact commandStep_inv h hb ht

theorem afterMisuse_inv {s : State} (h : s.Inv) (hs : s.seq = .idle) : s.afterMisuse.Inv := by
  rw [afterMisuse_eq]
  exact h.of_idle (unspecifyNamedDst_wf h.mem) h.work h.errCode h.err hs (h.dec_of_idle hs) rfl rfl rfl rfl

/-- The mark of another agent's misuse changes nothing of the invariant: it acts at the end only. -/
theorem settle_inv {b : Bool} {o : Step} {u : State} (ho : ∀ t, o = .next t → t.Inv) (hu : settle b o = .next u) :
    u.Inv := by
  obtain ⟨t, ht, rfl⟩ := settle_next hu
  split
  · rename_i hc
    simp only [Bool.and_eq_true, decide_eq_true_eq] at hc
    exact afterMisuse_inv (ho t ht) hc.2
  · exact ho t ht

theorem finishUnspecified_inv {s : State} (h : s.Inv) : (finishUnspecified s).Inv := by
  obtain ⟨-, hc, he⟩ := freeStatus_ok s.free (s.reportsStored && Config.freeFlag s.free)
  rw [finishUnspecified_eq]
  exact h.of_idle (unspecifyNamedDst_wf h.mem) h.work hc he.mp rfl rfl rfl rfl rfl rfl

theorem finishAborted_inv {s : State} (h : s.Inv) : (finishAborted s).Inv := by
  rw [finishAborted_eq]
  exact h.of_idle (unspecifyNamedDst_wf h.mem) h.work (Err.code_range .aborted).1 (fun _ => (Err.code_range .aborted).2)
    rfl rfl rfl rfl rfl rfl

/-- The engine's own move keeps the invariant. -/
theorem engineStep_inv {s t : State} (h : s.Inv) (ht : engineStep s = .next t) : t.Inv := by
  rcases engineStep_cases s with ⟨-, hx⟩ | ⟨-, -, hx⟩ | ⟨-, -, -, hx⟩ | ⟨-, -, -, -, -, -, hx⟩ |
    ⟨hb, -, -, hreq, -, -, hx⟩ | ⟨hb, -, -, -, hx⟩ <;> rw [hx] at ht
  · exact Host.Outcome.next.inj ht ▸ h
  · exact Host.Outcome.next.inj ht ▸ h
  · exact Host.Outcome.next.inj ht ▸ finishUnspecified_inv h
  · exact Host.Outcome.next.inj ht ▸ finishAborted_inv h
  · have hp : ({ s with abortPassed := true, free := s.free + 1 } : State).Inv :=
      h.of_engine rfl h.mem h.regs (fun _ => hreq) h.owned
    exact settle_inv (fun u hu => runStep_inv hp hb hu) ht
  · exact settle_inv (fun u hu => runStep_inv h hb hu) ht

/-! ## The outside world's moves -/

theorem zero_legal : Params.zero.Legal := ⟨by decide, by decide, by decide⟩

theorem resetEngine_inv {s : State} (h : s.Inv) : (resetEngine s).Inv where
  mem := by
    show Memory.wf (if s.seq = .busy then s.unspecifyNamedDst else s).mem
    split
    · exact unspecifyNamedDst_wf h.mem
    · exact h.mem
  regs := zero_legal
  latched := zero_legal
  work := ⟨List.Pairwise.nil, by simp [State.reset, Scratch.empty], Nat.zero_le _, Nat.zero_le _, Nat.zero_le _⟩
  errCode := Nat.zero_le _
  err := fun he => by cases he
  clear := fun hb => by cases hb
  still := fun _ => rfl
  program := fun hr => by cases hr
  passed := fun hp => by cases hp
  owned := fun hb => by cases hb

theorem startCommand_inv {s : State} (h : s.Inv) : (startCommand s).Inv where
  mem := h.mem
  regs := h.regs
  latched := h.regs
  work := h.work
  errCode := Nat.zero_le _
  err := fun he => by cases he
  clear := fun _ => ⟨rfl, rfl, rfl⟩
  still := fun _ => rfl
  program := fun hr => by cases hr
  passed := fun hp => by cases hp
  owned := fun _ => rfl

theorem setIe_inv {s : State} (h : s.Inv) (b : Bool) : ({ s with ie := b } : State).Inv :=
  h.of_watched rfl h.mem

/-- The bits 3, 1 and 0 of a CTRL write decide which action it is (10_state.md R36). -/
theorem writeCtrl_inv {s : State} (h : s.Inv) (v : Word) : (writeCtrl v s).Inv := by
  cases h3 : v.getLsbD 3 with
  | true => exact writeCtrl_reset h3 ▸ resetEngine_inv h
  | false =>
    cases h1 : v.getLsbD 1 with
    | true =>
      rw [writeCtrl_abort h3 h1]
      exact h.of_engine rfl h.mem h.regs (fun hp => by simp [h.passed hp]) h.owned
    | false =>
      by_cases h0 : v.getLsbD 0 = false ∨ s.seq = .busy
      · exact writeCtrl_still h3 h1 h0 ▸ setIe_inv h _
      · rw [not_or, Bool.not_eq_false] at h0
        exact writeCtrl_start h3 h1 h0.1 (seq_idle_of_ne_busy h0.2) ▸ startCommand_inv (setIe_inv h _)

/-- While BUSY there is nothing to acknowledge; and no ERR comes of it (10_state.md R37). -/
theorem acknowledge_inv {s : State} (h : s.Inv) (v : Word) :
    ({ s with status := s.status.acknowledge v } : State).Inv :=
  { h with
    err := fun he => h.err (Bool.and_eq_true_iff.mp he).1
    clear := fun hb => by
      obtain ⟨hs, hrest⟩ := h.clear hb
      exact ⟨by rw [hs]; rfl, hrest⟩
    program := fun hr => (h.program hr).congr rfl rfl rfl }

theorem writeWindow_inv {s : State} (h : s.Inv) (off : Nat) (v : Word) : (writeWindow off v s).Inv := by
  rcases writeWindow_cases off v s with ⟨-, hx⟩ | ⟨-, hx⟩ | ⟨p, hx, hp⟩ <;> rw [hx]
  · exact writeCtrl_inv h v
  · exact acknowledge_inv h v
  · exact h.of_engine rfl h.mem (hp h.regs) h.passed h.owned

theorem windowWrite_inv {s : State} (h : s.Inv) (size : AccessSize) (off : Nat) (v : Word) :
    (windowWrite size off v s).Inv := by
  unfold windowWrite
  split
  · exact writeWindow_inv h off v
  · exact h

theorem setRdata_inv {s : State} (h : s.Inv) (w : Word) : ({ s with rdata := w } : State).Inv :=
  h.of_watched rfl h.mem

/-- No one observes an end while BUSY, because DONE is clear then. -/
theorem observe_inv {s : State} (h : s.Inv) : s.observe.Inv := by
  refine h.of_engine rfl h.mem h.regs h.passed fun (hb : s.seq = .busy) => ?_
  obtain ⟨hs, -⟩ := h.clear hb
  show (s.owned && !(s.status.done || decide (s.seq = .idle))) = true
  rw [h.owned hb, hs, hb]
  rfl

theorem hostRead_inv {s : State} (h : s.Inv) (size : AccessSize) (off : Nat) : (hostRead size off s).Inv := by
  unfold hostRead
  dsimp only
  split
  · exact observe_inv (setRdata_inv h _)
  · exact setRdata_inv h _

theorem irqLook_inv {s : State} (h : s.Inv) : (irqLook s).Inv := by
  unfold irqLook
  dsimp only
  split
  · exact observe_inv (setRdata_inv h _)
  · exact setRdata_inv h _

theorem misuseEarlier_inv {s : State} (h : s.Inv) (a : Nat) : (s.misuseEarlier a).Inv := by
  obtain ⟨m, f, hx, hm, -⟩ := misuseEarlier_spec a s
  rw [hx]
  exact h.of_watched rfl (hm h.mem)

theorem unspecifyOutcome_inv {s : State} (h : s.Inv) (hs : s.seq = .idle) : s.unspecifyOutcome.Inv := by
  obtain ⟨-, hc, he⟩ := freeStatus_ok s.free false
  rw [unspecifyOutcome_eq]
  exact h.of_idle (unspecifyNamedDst_wf h.mem) h.work hc he.mp hs (h.dec_of_idle hs) rfl rfl rfl rfl

theorem setMisused_inv {s : State} (h : s.Inv) (b : Bool) : ({ s with misused := b } : State).Inv :=
  h.of_watched rfl h.mem

theorem misuseEarlier_seq (a : Nat) (s : State) : (s.misuseEarlier a).seq = s.seq := by
  obtain ⟨m, f, hx, -⟩ := misuseEarlier_spec a s
  rw [hx]

theorem agentWrite_inv {s : State} (h : s.Inv) (a : Nat) (b : Byte) : (agentWrite a b s).Inv := by
  have hw : ({ s with mem := s.mem.write a b } : State).Inv :=
    h.of_watched rfl (Memory.write_wf h.mem a b)
  have he := misuseEarlier_inv hw a
  unfold agentWrite
  dsimp only
  split
  · split
    · exact setMisused_inv he true
    · refine unspecifyOutcome_inv he ?_
      rw [misuseEarlier_seq]
      exact seq_idle_of_ne_busy ‹_›
  · exact he

theorem agentRead_inv {s : State} (h : s.Inv) (a : Nat) : (agentRead a s).Inv := by
  unfold agentRead
  dsimp only
  split
  · exact h.of_watched rfl h.mem
  · exact setRdata_inv h _

/-- Every move of the outside world keeps the invariant. -/
theorem outsideStep_inv {s : State} (h : s.Inv) (ev : HostEvent) : (outsideStep ev s).Inv := by
  cases ev with
  | regWrite size off v => exact windowWrite_inv h size off v
  | regRead size off => exact hostRead_inv h size off
  | memWrite a b => exact agentWrite_inv h a.toNat b
  | memRead a => exact agentRead_inv h a.toNat
  | irqRead => exact irqLook_inv h
  | busError => exact h.of_watched rfl h.mem
  | busHang => exact h.of_watched rfl h.mem
  | rst => exact resetEngine_inv h
  | wait => exact h

theorem setHost_inv {s : State} (h : s.Inv) (l : List HostEvent) : ({ s with host := l } : State).Inv :=
  h.of_watched rfl h.mem

end Sys2Proof.Machine
end

section
/-! The statements of the state and the register window, settled. -/

namespace Sys2Proof.Machine

/-- Settles O57: the invariant goes through the engine's move and through every outside event. -/
theorem invariantKeptByEveryStep : Obligations.InvariantKeptByEveryStep := by
  intro s t h ht
  rcases step_cases s with ⟨-, hx⟩ | ⟨rest, -, hx⟩ | ⟨ev, rest, -, -, hx⟩ <;> rw [hx] at ht
  · exact engineStep_inv h ht
  · exact engineStep_inv (setHost_inv h rest) ht
  · exact Host.Outcome.next.inj ht ▸ outsideStep_inv (setHost_inv h rest) ev

/-- Settles O15: the parameter registers as a list in which a write replaces one word, and the window's words by their
offsets. -/
theorem parameterWriteReadsBack : Obligations.ParameterWriteReadsBack := by
  intro s off rest h4 hb
  refine ⟨fun v hh lo hi => ?_, fun v hh ho => ?_, fun hh => ?_, ?_⟩
  · obtain ⟨p, hx, hread, hother⟩ := step_paramWrite hh h4 lo hi
    exact ⟨_, hx, hread, hother, rfl, rfl, rfl, rfl, rfl, rfl⟩
  · rw [step_wordWrite hh h4 hb, writeWindow_readOnly ho]
  · rw [step_outside hh (by simp), outsideStep, hostRead_word _ h4 hb]
    rfl
  · rw [windowRead_reached h4 hb, ← ctrlWord_eq]
    exact windowWord_mem s h4 hb

/-- Settles O6. -/
theorem stepRunsTheCommand : Obligations.StepRunsTheCommand := by
  intro s i hb ha hr hm hh hd hc
  rw [decode_opcodeWord] at hc
  refine ⟨fun h => ?_, fun rest h => ?_⟩
  · rw [step_engine h, engineStep_command hb ha hr hm hh hd hc]
  · rw [step_wait h, engineStep_command (s := { s with host := rest }) hb ha hr hm hh hd hc]

/-- Settles O11: the fields that START writes are those of `startCommand`. -/
theorem startLatches : Obligations.StartLatches := by
  intro s v rest h hs h0 h1 h3
  refine ⟨startCommand { s with host := rest, ie := v.getLsbD 2 }, ?_, rfl, rfl, rfl, rfl, rfl, rfl, rfl, rfl, rfl, rfl,
    rfl, (windowRead_reached (by decide) (by decide)).trans statusWord_started, rfl, rfl, rfl, rfl, rfl⟩
  rw [step_wordWrite h (by decide) (by decide)]
  exact congrArg Host.Outcome.next (writeCtrl_start h3 h1 h0 hs)

/-- Settles O12: of the action bits ABORT comes first, and without one that acts only IE is written. -/
theorem controlWriteActsByPriority : Obligations.ControlWriteActsByPriority := by
  intro s v rest h h3
  have hstep : step s = .next (writeCtrl v { s with host := rest }) := step_wordWrite h (by decide) (by decide)
  rw [hstep]
  refine ⟨fun h1 => ?_, fun h1 hb => ?_, fun h1 h0 => ?_⟩
  · rw [writeCtrl_abort h3 h1]
  · rw [writeCtrl_still (s := { s with host := rest }) h3 h1 (.inr hb)]
  · rw [writeCtrl_still h3 h1 (.inl h0)]

/-- Settles O14: such an access does not reach the window. -/
theorem onlyAlignedWordsReachTheWindow : Obligations.OnlyAlignedWordsReachTheWindow := by
  intro s size off rest h
  have hreach := reachesWindow_not h
  refine ⟨fun v hh => ?_, fun hh => ?_⟩
  · rw [step_outside hh (by simp), outsideStep, windowWrite_unreached hreach]
  · rw [step_outside hh (by simp), outsideStep, hostRead_unreached hreach]

end Sys2Proof.Machine
end

section
/-! The regions of a command, in the words of the claims and of the model; and what no move of the engine changes. -/

namespace Sys2Proof.Machine

/-! ## Which commands use which regions (30_encoding.md R151) -/

theorem mem_hasSource (i : Instr) : i ∈ hasSource ↔ usesSrc i = true := by
  cases i <;> simp [hasSource, usesSrc]

theorem mem_hasDestination (i : Instr) : i ∈ hasDestination ↔ usesDst i = true := by
  cases i <;> simp [hasDestination, usesDst]

theorem usesRef_iff (i : Instr) (p : Params) :
    usesRef i p = true ↔ i ∈ ([.deltaEncode, .deltaDecode] : List Instr) ∧ p.refBlock = false := by
  simp [usesRef]

/-- The commands with a source and a destination are those with a source but CHUNK_SIZES. -/
theorem usesBoth_of_mem : ∀ i ∈ ([.compress, .decompress, .getItemRange, .lzCompress, .lzDecompress, .shuffle,
    .unshuffle, .bitshuffle, .bitunshuffle, .deltaEncode, .deltaDecode, .truncPrec] : List Instr),
    usesSrc i = true ∧ usesDst i = true := by decide

theorem usesNothing_of_isToken {i : Instr} (h : i.isToken = true) (p : Params) :
    usesSrc i = false ∧ usesDst i = false ∧ usesRef i p = false := by
  cases i
  case litFirst marker lits => exact ⟨rfl, rfl, rfl⟩
  case lit lits => exact ⟨rfl, rfl, rfl⟩
  case matchShortNear l d => exact ⟨rfl, rfl, rfl⟩
  case matchShortFar l x => exact ⟨rfl, rfl, rfl⟩
  case matchLongNear ext d => exact ⟨rfl, rfl, rfl⟩
  case matchLongFar ext x => exact ⟨rfl, rfl, rfl⟩
  all_goals exact absurd h Bool.false_ne_true

theorem namesDst_iff (p : Params) :
    p.namesDst = true ↔ ∃ i, decodeCommand p.opcode = .ok i ∧ usesDst i = true := by
  unfold Params.namesDst
  cases decodeCommand p.opcode <;> simp

theorem inDestination_iff (p : Params) (a : Nat) : InDestination p a ↔ p.writesAt a = true := by
  rw [Params.writesAt, Bool.and_eq_true, namesDst_iff]
  simp only [InDestination, decode_opcodeWord, mem_hasDestination]
  constructor
  · rintro ⟨i, hu, hd, ha⟩
    exact ⟨⟨i, hd, hu⟩, ha⟩
  · rintro ⟨⟨i, hd, hu⟩, ha⟩
    exact ⟨i, hu, hd, ha⟩

theorem readsAt_iff (p : Params) (a : Nat) :
    p.readsAt a = true ↔ ∃ i, decodeCommand p.opcode = .ok i ∧
      ((usesSrc i = true ∧ p.src.holds a = true) ∨ (usesRef i p = true ∧ p.ref.holds a = true)) := by
  unfold Params.readsAt
  cases decodeCommand p.opcode <;> simp

theorem inRegions_iff (p : Params) (a : Nat) : InRegions p a ↔ p.holds a = true := by
  rw [Params.holds, Bool.or_eq_true, ← inDestination_iff, readsAt_iff]
  simp only [InRegions, decode_opcodeWord, mem_hasSource]
  constructor
  · rintro (h | ⟨i, hu, hd, ha⟩ | ⟨i, hi, hd, hb, ha⟩)
    · exact .inr h
    · exact .inl ⟨i, hd, .inl ⟨hu, ha⟩⟩
    · exact .inl ⟨i, hd, .inr ⟨(usesRef_iff i p).mpr ⟨hi, hb⟩, ha⟩⟩
  · rintro (⟨i, hd, ⟨hu, ha⟩ | ⟨hu, ha⟩⟩ | h)
    · exact .inr (.inl ⟨i, hu, hd, ha⟩)
    · obtain ⟨hi, hb⟩ := (usesRef_iff i p).mp hu
      exact .inr (.inr ⟨i, hi, hd, hb, ha⟩)
    · exact .inl h

theorem accessesMemory_iff (s : State) : AccessesMemory s ↔ s.usesBus = true := by
  simp only [AccessesMemory, decode_opcodeWord, mem_hasSource, mem_hasDestination]
  unfold State.usesBus
  cases decodeCommand s.latched.opcode <;> simp

/-! ## The region checks (20_memory.md R108, R109) -/

theorem Region.valid_false_iff (r : Region) : r.valid = false ↔ 4294967296 < r.base + r.len := by
  rw [← Bool.not_eq_true, Region.valid_iff, Nat.not_le]

/-- With every used region in memory, an overlap with the source comes before one with the reference. -/
theorem regionError_overlap {i : Instr} {p : Params} (hs : usesSrc i = true) (hd : usesDst i = true)
    (vs : p.src.valid = true) (vd : p.dst.valid = true) (vr : usesRef i p = true → p.ref.valid = true) :
    regionError i p =
      if p.dst.meets p.src then some 1 else if usesRef i p && p.ref.meets p.dst then some 2 else none := by
  have fit :
      ((usesSrc i && !p.src.valid) || (usesDst i && !p.dst.valid) || (usesRef i p && !p.ref.valid)) = false := by
    cases hr : usesRef i p with
    | false => simp [vs, vd]
    | true => simp [vs, vd, vr hr]
  rw [regionError, fit, if_neg Bool.false_ne_true, hs, hd, Bool.true_and, Bool.true_and]

/-- A token has no region checks, so what fails one is a command. -/
theorem isToken_of_regionError {i : Instr} {p : Params} {n : Nat} (h : regionError i p = some n) :
    i.isToken = false := by
  rw [Bool.eq_false_iff]
  intro hi
  obtain ⟨hs, hd, hr⟩ := usesNothing_of_isToken hi p
  simp [regionError, hs, hd, hr] at h

/-- A failed region check is the command's outcome, and memory is as before. -/
theorem exec_regionRefused {i : Instr} {s : State} {n : Nat} (h : regionError i s.latched = some n) :
    ∃ t, exec i s = .next t ∧ FailedUntouched s t .arg (BitVec.ofNat 32 n) :=
  ⟨_, exec_regionError (isToken_of_regionError h) h, raiseError_untouched _ _ _⟩

/-- A token whose source or destination runs past the last byte of memory (20_memory.md R100). -/
theorem runToken_outside {i : Instr} {s : State} (h : s.latched.src.valid = false ∨ s.latched.dst.valid = false) :
    runToken i s = .fault .outsideSystemMemory := by
  have hv : (s.latched.src.valid && s.latched.dst.valid) = false := by
    rw [Bool.and_eq_false_iff]
    exact h
  rw [runToken, hv]
  exact if_neg Bool.false_ne_true

/-! ## The frame of the engine's move -/

/-- What no move of the engine changes: the host's side of the state, and every byte outside the latched destination
(20_memory.md R102, 10_state.md R34). -/
structure EngineFrame (s t : State) : Prop where
  outside : SameOutside s t s.latched.dstAddr.toNat s.latched.dstCap.toNat
  kept : SameHostSide s t

/-- The fields that the engine's moves write are none of the host's side. -/
theorem SameHostSide.of_eq {s t : State}
    (h : t = { s with
      status := t.status
      results := t.results
      errInfo := t.errInfo
      seq := t.seq
      work := t.work
      dec := t.dec
      mem := t.mem
      abortPassed := t.abortPassed
      free := t.free }) : SameHostSide s t := by
  rw [h]
  exact ⟨rfl, rfl, rfl, rfl, rfl, rfl, rfl, rfl, rfl, rfl, rfl⟩

theorem SameHostSide.trans {s t u : State} (h : SameHostSide s t) (g : SameHostSide t u) : SameHostSide s u :=
  ⟨g.regs.trans h.regs, g.ie.trans h.ie, g.latched.trans h.latched, g.abortReq.trans h.abortReq, g.host.trans h.host,
    g.rdata.trans h.rdata, g.owned.trans h.owned, g.unobserved.trans h.unobserved, g.rejected.trans h.rejected,
    g.misused.trans h.misused, g.hung.trans h.hung⟩

theorem EngineFrame.refl (s : State) : EngineFrame s s := ⟨fun _ _ => rfl, .refl s⟩

theorem EngineFrame.trans {s t u : State} (h : EngineFrame s t) (g : EngineFrame t u) : EngineFrame s u where
  outside a ha := (g.outside a (by rw [h.kept.latched]; exact ha)).trans (h.outside a ha)
  kept := h.kept.trans g.kept

theorem Ends.frame {s t : State} (h : Ends s t) : EngineFrame s t := by
  obtain ⟨m, w, f, hm, -, ⟨e, n, rfl⟩ | ⟨r, b, rfl⟩⟩ := h
  · exact ⟨hm.outside, .of_eq rfl⟩
  · exact ⟨hm.outside, .of_eq rfl⟩

theorem runToken_frame {s t : State} {i : Instr} (ht : runToken i s = .next t) : EngineFrame s t := by
  rcases runToken_cases i s with hx | hx | ⟨new, -, -, -, hop, ⟨-, hx⟩ | ⟨-, hx⟩⟩ <;> rw [hx] at ht <;> cases ht
  · exact (ends_raise s _ _).frame
  · exact (ends_lastToken i _ hop).frame
  · exact ⟨(WithinDst.write new s.dec.op hop).outside, .of_eq rfl⟩

theorem exec_frame {s t : State} {i : Instr} (ht : exec i s = .next t) : EngineFrame s t := by
  cases hi : i.isToken with
  | true => exact runToken_frame (exec_token hi s ▸ ht)
  | false =>
    obtain ⟨u, hx, hu⟩ := exec_command_cases hi s
    rw [hx] at ht
    cases ht
    rcases hu with he | ⟨-, -, -, rfl⟩
    · exact he.frame
    · exact ⟨fun _ _ => rfl, .of_eq rfl⟩

theorem tokenStep_frame {s t : State} (ht : tokenStep s = .next t) : EngineFrame s t := by
  unfold tokenStep at ht
  split at ht
  · split at ht
    · cases ht
      exact (ends_raise s _ _).frame
    · exact exec_frame ht
  · cases ht

theorem commandStep_frame {s t : State} (ht : commandStep s = .next t) : EngineFrame s t := by
  unfold commandStep at ht
  split at ht
  · cases ht
    exact (ends_raise s _ _).frame
  · exact exec_frame ht

theorem runStep_frame {s t : State} (ht : runStep s = .next t) : EngineFrame s t := by
  unfold runStep at ht
  split at ht
  · exact tokenStep_frame ht
  · exact commandStep_frame ht

theorem unspecifyNamedDst_outside (s : State) :
    ∀ a, a < s.latched.dstAddr.toNat ∨ s.latched.dstAddr.toNat + s.latched.dstCap.toNat ≤ a →
      s.unspecifyNamedDst.mem.read a = s.mem.read a :=
  fun _ ha => read_unspecifyNamedDst ha

theorem afterMisuse_frame (s : State) : EngineFrame s s.afterMisuse := by
  rw [afterMisuse_eq]
  exact ⟨unspecifyNamedDst_outside s, .of_eq rfl⟩

theorem finishUnspecified_frame (s : State) : EngineFrame s (finishUnspecified s) := by
  rw [finishUnspecified_eq]
  exact ⟨unspecifyNamedDst_outside s, .of_eq rfl⟩

theorem finishAborted_frame (s : State) : EngineFrame s (finishAborted s) := by
  rw [finishAborted_eq]
  exact ⟨unspecifyNamedDst_outside s, .of_eq rfl⟩

theorem settle_frame {s u : State} {b : Bool} {o : Step} (ho : ∀ t, o = .next t → EngineFrame s t)
    (hu : settle b o = .next u) : EngineFrame s u := by
  obtain ⟨t, ht, rfl⟩ := settle_next hu
  split
  · exact (ho t ht).trans (afterMisuse_frame t)
  · exact ho t ht

/-- The sampling of a pending ABORT that the engine does not honour is inside the model's own fields (log 9). -/
theorem passAbort_frame (s : State) : EngineFrame s { s with abortPassed := true, free := s.free + 1 } :=
  ⟨fun _ _ => rfl, .of_eq rfl⟩

theorem engineStep_frame {s t : State} (ht : engineStep s = .next t) : EngineFrame s t := by
  rcases engineStep_cases s with ⟨-, hx⟩ | ⟨-, -, hx⟩ | ⟨-, -, -, hx⟩ | ⟨-, -, -, -, -, -, hx⟩ |
    ⟨-, -, -, -, -, -, hx⟩ | ⟨-, -, -, -, hx⟩ <;> rw [hx] at ht
  · exact Host.Outcome.next.inj ht ▸ .refl s
  · exact Host.Outcome.next.inj ht ▸ .refl s
  · exact Host.Outcome.next.inj ht ▸ finishUnspecified_frame s
  · exact Host.Outcome.next.inj ht ▸ finishAborted_frame s
  · exact settle_frame (fun u hu => (passAbort_frame s).trans (runStep_frame hu)) ht
  · exact settle_frame (fun u hu => runStep_frame hu) ht

theorem engineStep_idle {s : State} (h : s.seq = .idle) : engineStep s = .next s := by
  rw [engineStep, if_pos h]

/-- On a bus that never answers the engine stands still (93_implementation_defined.md U14). -/
theorem engineStep_hung {s : State} (h : s.hung = true) : engineStep s = .next s := by
  rw [engineStep, if_pos h, ite_self]

theorem engineStep_rejected {s : State} (hb : s.seq = .busy) (hh : s.hung = false) (hr : s.rejected = true) :
    engineStep s = .next (finishUnspecified s) := by
  simp [engineStep, hb, hh, hr]

end Sys2Proof.Machine
end

section
/-! Other agents and the bus: what their accesses do to a command, and how a misused one ends (20_memory.md R111, R120;
70_reset_and_hazards.md R512). -/

namespace Sys2Proof.Machine

/-! ## A command whose regions were misused while it ran -/

/-- `u` is `t` but for what a misuse leaves open: bytes of the destination, and the RESULT registers of a success. -/
structure Settled (t u : State) : Prop where
  frame : EngineFrame t u
  status : u.status = t.status
  errInfo : u.errInfo = t.errInfo
  seq : u.seq = t.seq
  dec : u.dec = t.dec
  results : t.seq = .busy ∨ t.status.err = true → u.results = t.results

theorem Settled.refl (t : State) : Settled t t := ⟨.refl t, rfl, rfl, rfl, rfl, fun _ => rfl⟩

theorem afterMisuse_settled {t : State} (h : t.seq = .idle) : Settled t t.afterMisuse := by
  refine ⟨afterMisuse_frame t, ?_, ?_, ?_, ?_, fun hr => ?_⟩
  · rw [afterMisuse_eq]
  · rw [afterMisuse_eq]
  · rw [afterMisuse_eq]
  · rw [afterMisuse_eq]
  · rcases hr with hb | he
    · rw [h] at hb
      cases hb
    · exact if_pos he

theorem settle_settled (t : State) : ∃ u, settle true (.next t) = .next u ∧ Settled t u := by
  cases hs : t.seq with
  | idle => exact ⟨t.afterMisuse, by simp [settle, hs], afterMisuse_settled hs⟩
  | busy => exact ⟨t, settle_next_of_busy hs, .refl t⟩

/-- The move of a misused command, by the move of the same command without the mark. -/
theorem settle_marked {s t : State} (h : settle false (runStep s) = .next t) :
    ∃ u, settle true (runStep (s.marked true)) = .next u ∧ Settled (t.marked true) u := by
  rw [settle_false] at h
  rw [runStep_marked, h]
  exact settle_settled (t.marked true)

/-- The move of a BUSY engine that the bus answers: a pending ABORT is sampled first (60_exceptions.md R452). -/
theorem engineStep_live {s : State} (hb : s.seq = .busy) (hh : s.hung = false) (hr : s.rejected = false) :
    engineStep s =
      if s.abortReq && s.abortable then
        if s.honoursAbort then .next (finishAborted s)
        else settle s.misused (runStep { s with abortPassed := true, free := s.free + 1 })
      else settle s.misused (runStep s) := by
  simp [engineStep, hb, hh, hr]

theorem unspecifyNamedDst_marked (b : Bool) (s : State) :
    (s.marked b).unspecifyNamedDst = s.unspecifyNamedDst.marked b := by
  show (if s.latched.namesDst then (s.marked b).unspecifyDst else s.marked b) =
    (if s.latched.namesDst then s.unspecifyDst else s).marked b
  split <;> rfl

/-- An abort does not look at the mark either. -/
theorem finishAborted_marked (b : Bool) (s : State) : finishAborted (s.marked b) = (finishAborted s).marked b := by
  rw [finishAborted, unspecifyNamedDst_marked]
  rfl

/-- With the mark of a misuse the engine's move differs in what `Settled` leaves open only. -/
theorem engineStep_marked {s t : State} (hb : s.seq = .busy) (hr : s.rejected = false) (hh : s.hung = false)
    (hm : s.misused = false) (h : engineStep s = .next t) :
    ∃ u, engineStep (s.marked true) = .next u ∧ Settled (t.marked true) u := by
  have hx := engineStep_live (s := s.marked true) hb hh hr
  rw [engineStep_live hb hh hr, hm] at h
  by_cases ha : (s.abortReq && s.abortable) = true
  · rw [if_pos ha] at h
    have hx := hx.trans (if_pos ha)
    by_cases ho : s.honoursAbort = true
    · rw [if_pos ho] at h
      cases h
      refine ⟨_, hx.trans (if_pos ho), ?_⟩
      rw [finishAborted_marked]
      exact .refl _
    · rw [if_neg ho] at h
      obtain ⟨u, hu, hs⟩ := settle_marked h
      exact ⟨u, hx.trans ((if_neg ho).trans hu), hs⟩
  · rw [if_neg ha] at h
    obtain ⟨u, hu, hs⟩ := settle_marked h
    exact ⟨u, hx.trans ((if_neg ha).trans hu), hs⟩

/-- The state with the mark, from the one without it. -/
theorem marked_marked {s : State} {b : Bool} (h : s.misused = b) (c : Bool) : (s.marked c).marked b = s := by
  subst h
  rfl

/-! ## An access of another agent -/

/-- A read that meets no owned destination. -/
theorem agentRead_plain {s : State} {a : Nat} (ho : (s.owned && s.latched.writesAt a) = false)
    (hu : s.unobserved.any (fun p => p.writesAt a) = false) :
    agentRead a s = { s with rdata := (s.mem.read a).setWidth 32 } := by
  simp [agentRead, ho, hu]

/-- A read that meets one. -/
theorem agentRead_owned {s : State} {a : Nat}
    (h : (s.owned && s.latched.writesAt a) = true ∨ s.unobserved.any (fun p => p.writesAt a) = true) :
    agentRead a s =
      { s with
        rdata := (Config.freeByte s.free a).setWidth 32
        free := s.free + 1
        misused := s.misused || (s.owned && s.latched.writesAt a && decide (s.seq = .busy)) } := by
  unfold agentRead
  rw [if_pos (by simpa using h)]

/-- What another agent's write into the regions of an ended command leaves of its outcome. -/
theorem unspecifyOutcome_any (s : State) : AnyOutcome s s.unspecifyOutcome := by
  obtain ⟨-, hc, he⟩ := freeStatus_ok s.free false
  rw [unspecifyOutcome_eq]
  exact ⟨rfl, rfl, hc, he, unspecifyNamedDst_outside s, rfl, .of_eq rfl⟩

/-- Another agent's write, from the state `t` that it leaves of the earlier commands: plain outside the regions of the last command, a
mark while that one is BUSY, and any outcome at once afterwards. -/
theorem agentWrite_cases {s t : State} {a : Nat} {b : Byte}
    (ht : ({ s with mem := s.mem.write a b } : State).misuseEarlier a = t) :
    (s.owned = false ∨ ¬ InRegions s.latched a → agentWrite a b s = t) ∧
    (s.owned = true → InRegions s.latched a → s.seq = .busy → agentWrite a b s = { t with misused := true }) ∧
    (s.owned = true → InRegions s.latched a → s.seq = .idle → agentWrite a b s = t.unspecifyOutcome) := by
  simp only [agentWrite, ht, inRegions_iff]
  refine ⟨fun h => if_neg ?_, fun ho hr hs => ?_, fun ho hr hs => ?_⟩
  · rw [Bool.and_eq_true]
    rintro ⟨ho, hr⟩
    rcases h with h | h
    · exact absurd (h.symm.trans ho) Bool.false_ne_true
    · exact h hr
  · simp [ho, hr, hs]
  · simp [ho, hr, hs]

/-! ## The bus -/

theorem busy_usesBus_iff (s : State) :
    (decide (s.seq = .busy) && s.usesBus) = true ↔ s.seq = .busy ∧ AccessesMemory s := by
  rw [Bool.and_eq_true, decide_eq_true_iff, accessesMemory_iff]

theorem busRejects_running {s : State} (h : s.seq = .busy ∧ AccessesMemory s) :
    busRejects s = { s with rejected := true } := by
  rw [busRejects, (busy_usesBus_iff s).mpr h, Bool.or_true]

theorem busRejects_idle {s : State} (h : ¬ (s.seq = .busy ∧ AccessesMemory s)) : busRejects s = s := by
  rw [busRejects, Bool.eq_false_iff.mpr (mt (busy_usesBus_iff s).mp h), Bool.or_false]

theorem busStops_running {s : State} (h : s.seq = .busy ∧ AccessesMemory s) :
    busStops s = { s with hung := true } := by
  rw [busStops, (busy_usesBus_iff s).mpr h, Bool.or_true]

theorem busStops_idle {s : State} (h : ¬ (s.seq = .busy ∧ AccessesMemory s)) : busStops s = s := by
  rw [busStops, Bool.eq_false_iff.mpr (mt (busy_usesBus_iff s).mp h), Bool.or_false]

/-! ## Each kind of interference, as the host's event or the engine's move -/

/-- A rejected access ends the command with an open outcome (20_memory.md R120). -/
theorem step_rejected {s : State} (h : s.host = []) (hb : s.seq = .busy) (hr : s.rejected = true)
    (hh : s.hung = false) :
    ∃ t, step s = .next t ∧ t.seq = .idle ∧ t.status.done = true ∧ t.status.errCode.toNat ≤ 8 ∧
      (t.status.err = true ↔ t.status.errCode ≠ 0) ∧
      SameOutside s t s.latched.dstAddr.toNat s.latched.dstCap.toNat := by
  obtain ⟨hd, hc, he⟩ := freeStatus_ok s.free (s.reportsStored && Config.freeFlag s.free)
  exact ⟨_, (step_engine h).trans (engineStep_rejected hb hh hr), rfl, hd, hc, he, (finishUnspecified_frame s).outside⟩

theorem step_memWrite {s : State} {a : Word} {b : Byte} {rest : List HostEvent} (h : s.host = .memWrite a b :: rest) :
    ∃ (m : Memory) (f : Nat),
      (∀ c, (∀ p ∈ s.unobserved, InRegions p a.toNat → ¬ InDestination p c) →
        m.read c = (s.mem.write a.toNat b).read c) ∧
      ((∀ p ∈ s.unobserved, ¬ InRegions p a.toNat) → m = s.mem.write a.toNat b ∧ f = s.free) ∧
      (s.owned = false ∨ ¬ InRegions s.latched a.toNat →
        step s = .next { s with host := rest, mem := m, free := f }) ∧
      (s.owned = true → InRegions s.latched a.toNat → s.seq = .busy →
        step s = .next { s with host := rest, mem := m, free := f, misused := true }) ∧
      (s.owned = true → InRegions s.latched a.toNat → s.seq = .idle →
        ∃ t, step s = .next t ∧ AnyOutcome { s with host := rest, mem := m, free := f } t) := by
  have hstep := step_outside h (by simp)
  obtain ⟨m, f, hx, -, hout, hnone⟩ :=
    misuseEarlier_spec a.toNat { s with host := rest, mem := s.mem.write a.toNat b }
  obtain ⟨plain, busy, idle⟩ := agentWrite_cases (s := { s with host := rest }) (b := b) hx
  refine ⟨m, f, fun c hc => hout c fun p hp hold => ?_, fun hn => hnone fun p hp => ?_, fun hr => ?_,
    fun ho hr hs => ?_, fun ho hr hs => ⟨_, hstep, ?_⟩⟩
  · rw [Bool.eq_false_iff, Ne, ← inDestination_iff]
    exact hc p hp ((inRegions_iff p _).mpr hold)
  · rw [Bool.eq_false_iff, Ne, ← inRegions_iff]
    exact hn p hp
  · exact hstep.trans (congrArg Host.Outcome.next (plain hr))
  · exact hstep.trans (congrArg Host.Outcome.next (busy ho hr hs))
  · rw [outsideStep, idle ho hr hs]
    exact unspecifyOutcome_any _

theorem step_memRead {s : State} {a : Word} {rest : List HostEvent} (h : s.host = .memRead a :: rest) :
    (s.owned = false ∨ ¬ InDestination s.latched a.toNat → (∀ p ∈ s.unobserved, ¬ InDestination p a.toNat) →
      step s = .next { s with host := rest, rdata := (s.mem.read a.toNat).setWidth 32 }) ∧
    (s.owned = false ∨ ¬ InDestination s.latched a.toNat → (∃ p ∈ s.unobserved, InDestination p a.toNat) →
      ∃ b : Byte, step s = .next { s with host := rest, rdata := b.setWidth 32, free := s.free + 1 }) ∧
    (s.owned = true → InDestination s.latched a.toNat →
      ∃ b : Byte, step s = .next
        { s with
          host := rest
          rdata := b.setWidth 32
          free := s.free + 1
          misused := s.misused || decide (s.seq = .busy) }) := by
  have hstep := step_outside h (by simp)
  have apart : s.owned = false ∨ ¬ InDestination s.latched a.toNat →
      (s.owned && s.latched.writesAt a.toNat) = false := by
    rw [Bool.and_eq_false_iff, inDestination_iff, Bool.not_eq_true]
    exact id
  have earlier : s.unobserved.any (fun p => p.writesAt a.toNat) = true ↔
      ∃ p ∈ s.unobserved, InDestination p a.toNat := by
    simp only [List.any_eq_true, inDestination_iff]
  refine ⟨fun ho hn => ?_, fun ho hn => ⟨Config.freeByte s.free a.toNat, ?_⟩,
    fun ho hi => ⟨Config.freeByte s.free a.toNat, ?_⟩⟩
  · have hany : s.unobserved.any (fun p => p.writesAt a.toNat) = false := by
      rw [Bool.eq_false_iff, Ne, earlier]
      rintro ⟨p, hp, hd⟩
      exact hn p hp hd
    rw [hstep, outsideStep, agentRead_plain (s := { s with host := rest }) (apart ho) hany]
  · rw [hstep, outsideStep, agentRead_owned (s := { s with host := rest }) (.inr (earlier.mpr hn)), apart ho,
      Bool.false_and, Bool.or_false]
  · have hrun : (s.owned && s.latched.writesAt a.toNat) = true :=
      Bool.and_eq_true_iff.mpr ⟨ho, (inDestination_iff _ _).mp hi⟩
    rw [hstep, outsideStep, agentRead_owned (s := { s with host := rest }) (.inl hrun), hrun, Bool.true_and]

/-- The move of a misused command, against the move of the same command without the mark. -/
theorem step_misused {s t : State} (h : s.host = []) (hb : s.seq = .busy) (hm : s.misused = true)
    (hr : s.rejected = false) (hh : s.hung = false) (ht : step { s with misused := false } = .next t) :
    t.latched = s.latched ∧ ∃ u, step s = .next u ∧ Settled (t.marked true) u := by
  have hx : engineStep (s.marked false) = .next t := (step_engine (s := s.marked false) h).symm.trans ht
  obtain ⟨u, hu, hs⟩ := engineStep_marked (s := s.marked false) hb hr hh rfl hx
  rw [marked_marked hm, ← step_engine h] at hu
  exact ⟨(engineStep_frame hx).kept.latched, u, hu, hs⟩

end Sys2Proof.Machine
end

section
/-! The statements of system memory and of interference with a command, settled. -/

namespace Sys2Proof.Machine

/-- Settles O19, event by event; the misused command by `Settled`, which compares its move with the one without the
mark. -/
theorem interferenceEndsInSomeOutcome : Obligations.InterferenceEndsInSomeOutcome := by
  refine ⟨fun s h hb hr hh => step_rejected h hb hr hh, fun s a b rest h => step_memWrite h,
    fun s a rest h => step_memRead h, fun s t h hb hm hr hh ht => ?_, fun s rest => ⟨fun h => ?_, fun h => ?_,
    fun h hb hh => ?_⟩⟩
  · obtain ⟨hl, u, hu, hs⟩ := step_misused h hb hm hr hh ht
    refine ⟨u, hu, ?_, hs.status, hs.errInfo, hs.seq, hs.dec, hs.results, hs.frame.kept⟩
    rw [← hl]
    exact hs.frame.outside
  · have hstep := step_outside h (by simp)
    exact ⟨fun hu => hstep.trans (congrArg Host.Outcome.next (busRejects_running (s := { s with host := rest }) hu)),
      fun hu => hstep.trans (congrArg Host.Outcome.next (busRejects_idle (s := { s with host := rest }) hu))⟩
  · have hstep := step_outside h (by simp)
    exact ⟨fun hu => hstep.trans (congrArg Host.Outcome.next (busStops_running (s := { s with host := rest }) hu)),
      fun hu => hstep.trans (congrArg Host.Outcome.next (busStops_idle (s := { s with host := rest }) hu))⟩
  · exact (step_engine h).trans (engineStep_hung hh)

/-- Settles O20: the wrap is the first of the region checks. -/
theorem wrappingRegionIsRefused : Obligations.WrappingRegionIsRefused := by
  intro s i h
  refine exec_regionRefused (n := 0) (regionError_wrap ?_)
  rcases h with ⟨hi, hw⟩ | ⟨hi, hw⟩ | ⟨hi, hb, hw⟩
  · exact .inl ⟨(mem_hasSource i).mp hi, (Region.valid_false_iff _).mpr hw⟩
  · exact .inr (.inl ⟨(mem_hasDestination i).mp hi, (Region.valid_false_iff _).mpr hw⟩)
  · exact .inr (.inr ⟨(usesRef_iff i _).mpr ⟨hi, hb⟩, (Region.valid_false_iff _).mpr hw⟩)

/-- Settles O21: regions meet where they share an address, and the source is looked at before the reference. -/
theorem overlappingRegionsAreRefused : Obligations.OverlappingRegionsAreRefused := by
  intro s i hi hsrc hdst href
  obtain ⟨us, ud⟩ := usesBoth_of_mem i hi
  have check := regionError_overlap us ud ((Region.valid_iff s.latched.src).mpr hsrc)
    ((Region.valid_iff s.latched.dst).mpr hdst) fun hu => by
      obtain ⟨hm, hb⟩ := (usesRef_iff i _).mp hu
      exact (Region.valid_iff s.latched.ref).mpr (href hm hb)
  have meetsSrc : s.latched.dst.meets s.latched.src = true ↔
      ∃ a, s.latched.src.holds a = true ∧ s.latched.dst.holds a = true := by
    simp only [Region.meets_iff_exists, and_comm]
  refine ⟨fun h => exec_regionRefused (n := 1) ?_, fun h hm hb hr => exec_regionRefused (n := 2) ?_⟩
  · rw [check, if_pos (meetsSrc.mpr h)]
  · have hu : (usesRef i s.latched && s.latched.ref.meets s.latched.dst) = true :=
      Bool.and_eq_true_iff.mpr ⟨(usesRef_iff i _).mpr ⟨hm, hb⟩, (Region.meets_iff_exists _ _).mpr hr⟩
    rw [check, if_neg (mt meetsSrc.mp h), if_pos hu]

/-- Settles O60: the frame of the engine's move. -/
theorem engineTouchesOnlyItsOwn : Obligations.EngineTouchesOnlyItsOwn := by
  intro s t h ht
  rw [step_engine h] at ht
  have frame := engineStep_frame ht
  have still : s.seq = .idle → t = s := fun hs => by
    rw [engineStep_idle hs] at ht
    exact (Host.Outcome.next.inj ht).symm
  exact ⟨frame.outside, still, frame.kept.regs, frame.kept.ie, frame.kept.latched, frame.kept.abortReq,
    frame.kept.host.trans h, frame.kept.rdata⟩

/-- Settles O55. -/
theorem tokenOutsideMemoryFaults : Obligations.TokenOutsideMemoryFaults := by
  intro s i hi h
  rw [exec_token hi]
  refine runToken_outside ?_
  rcases h with h | h
  · exact .inl ((Region.valid_false_iff s.latched.src).mpr h)
  · exact .inr ((Region.valid_false_iff s.latched.dst).mpr h)

end Sys2Proof.Machine
end

section
/-! The token decoder by its classes, and the match token of a length and a distance by its four forms. -/

namespace Sys2Proof

/-! ## The classes of a control byte (30_encoding.md R170) -/

/-- The first token is a literal run, whatever its L bits hold (30_encoding.md R172). -/
theorem decodeToken_first (ctrl : Byte) (rest : List Byte) :
    decodeToken true (ctrl :: rest) = readLiterals (.litFirst (controlL ctrl)) ((controlF ctrl).toNat + 1) rest :=
  rfl

theorem decodeToken_literal {ctrl : Byte} (h : controlL ctrl = 0) (rest : List Byte) :
    decodeToken false (ctrl :: rest) = readLiterals .lit ((controlF ctrl).toNat + 1) rest := by
  rw [decodeToken, if_neg Bool.false_ne_true, if_pos h]

theorem decodeToken_long {ctrl : Byte} (h : controlL ctrl = 7) (rest : List Byte) :
    decodeToken false (ctrl :: rest) = readLongMatch (controlF ctrl) rest := by
  have h0 : controlL ctrl ≠ 0 := by rw [h]; decide
  rw [decodeToken, if_neg Bool.false_ne_true, if_neg h0, if_pos h]

theorem decodeToken_short {ctrl : Byte} (h0 : controlL ctrl ≠ 0) (h7 : controlL ctrl ≠ 7) (rest : List Byte) :
    decodeToken false (ctrl :: rest) = readShortMatch (controlL ctrl) (controlF ctrl) rest := by
  rw [decodeToken, if_neg Bool.false_ne_true, if_neg h0, if_neg h7]

/-! ## A distance byte that is not the escape's -/

/-- A field whose low byte is 0 is not the far escape, whose low byte is 0xFF. -/
theorem nearFits_lowZero (f : BitVec 5) : nearFits (f ++ (0 : Byte)) = true := by
  refine decide_eq_true fun h => ?_
  have hlow : (0 : Byte) = (0x1FFF : BitVec 13).extractLsb' 0 8 := by rw [← h, near_low]
  exact absurd hlow (by decide)

theorem readDistance_zero (f : BitVec 5) (rest : List Byte) :
    readDistance f (0 :: rest) = .ok (.near (f ++ (0 : Byte)), rest) := by
  have h := readDistance_near (nearFits_lowZero f) rest
  rwa [near_high, near_low] at h

/-! ## The fields of a match -/

theorem shortLengthFits_iff (l : BitVec 3) : shortLengthFits l = true ↔ 1 ≤ l.toNat ∧ l.toNat ≤ 6 := by
  rw [shortLengthFits, Bool.and_eq_true, decide_eq_true_iff, decide_eq_true_iff]

/-- The L fields that are left between a literal run's and a long match's (30_encoding.md R170 item 3). -/
theorem shortLengthFits_of_ne {l : BitVec 3} (h0 : l ≠ 0) (h7 : l ≠ 7) : shortLengthFits l = true := by
  rw [shortLengthFits_iff]
  bv_omega

/-- Only the largest field is the far escape (30_encoding.md R176). -/
theorem nearFits_iff (d : BitVec 13) : nearFits d = true ↔ d.toNat < 8191 := by
  rw [nearFits, decide_eq_true_iff]
  bv_omega

/-! ## Some token for every control byte -/

/-- After any control byte, one more than F literal bytes make a run that fits. -/
theorem literalRun_completes (mk : List Byte → Instr) (f : BitVec 5) :
    ∃ lits, readLiterals mk (f.toNat + 1) lits = .ok (mk lits, []) ∧ literalsFit lits = true := by
  have hlen : (List.replicate (f.toNat + 1) (0 : Byte)).length = f.toNat + 1 := List.length_replicate
  refine ⟨List.replicate (f.toNat + 1) 0, ?_, ?_⟩
  · have h := readLiterals_append (mk := mk) (List.replicate (f.toNat + 1) 0) []
    rwa [hlen, List.append_nil] at h
  · have hf : f.toNat < 32 := f.isLt
    rw [literalsFit, hlen, Bool.and_eq_true, decide_eq_true_iff, decide_eq_true_iff]
    omega

theorem readShortMatch_zero (l : BitVec 3) (f : BitVec 5) :
    readShortMatch l f [0] = .ok (.matchShortNear l (f ++ (0 : Byte)), []) := by
  rw [readShortMatch, readDistance_zero]

theorem readLongMatch_zero (f : BitVec 5) :
    readLongMatch f [0, 0] = .ok (.matchLongNear 0 (f ++ (0 : Byte)), []) := by
  have hext : readExtension [0, 0] = some (0, [0]) := by decide
  simp only [readLongMatch, hext, readDistance_zero]

end Sys2Proof

namespace Sys2Proof.Machine

/-! ## The match token of each form (30_encoding.md R173 to R177) -/

theorem matchToken_shortNear {l : BitVec 3} {d : BitVec 13} (hl : shortLengthFits l = true) (hd : nearFits d = true) :
    matchToken (l.toNat + 3) (d.toNat + 1) = .matchShortNear l d := by
  rw [shortLengthFits_iff] at hl
  rw [nearFits_iff] at hd
  rw [matchToken, if_pos (by omega), if_pos (by rw [Config.nearLimit]; omega), Nat.add_sub_cancel, Nat.add_sub_cancel,
    BitVec.ofNat_toNat, BitVec.ofNat_toNat, BitVec.setWidth_eq, BitVec.setWidth_eq]

theorem matchToken_shortFar {l : BitVec 3} (hl : shortLengthFits l = true) (x : BitVec 16) :
    matchToken (l.toNat + 3) (8192 + x.toNat) = .matchShortFar l x := by
  rw [shortLengthFits_iff] at hl
  have hx : 8192 + x.toNat - 1 - Config.nearLimit = x.toNat := by rw [Config.nearLimit]; omega
  rw [matchToken, if_pos (by omega), if_neg (by rw [Config.nearLimit]; omega), Nat.add_sub_cancel, hx,
    BitVec.ofNat_toNat, BitVec.ofNat_toNat, BitVec.setWidth_eq, BitVec.setWidth_eq]

theorem matchToken_longNear (ext : Nat) {d : BitVec 13} (hd : nearFits d = true) :
    matchToken (10 + ext) (d.toNat + 1) = .matchLongNear ext d := by
  rw [nearFits_iff] at hd
  rw [matchToken, if_neg (by omega), if_pos (by rw [Config.nearLimit]; omega), Nat.add_sub_cancel_left,
    Nat.add_sub_cancel, BitVec.ofNat_toNat, BitVec.setWidth_eq]

theorem matchToken_longFar (ext : Nat) (x : BitVec 16) :
    matchToken (10 + ext) (8192 + x.toNat) = .matchLongFar ext x := by
  have hx : 8192 + x.toNat - 1 - Config.nearLimit = x.toNat := by rw [Config.nearLimit]; omega
  rw [matchToken, if_neg (by omega), if_neg (by rw [Config.nearLimit]; omega), Nat.add_sub_cancel_left, hx,
    BitVec.ofNat_toNat, BitVec.setWidth_eq]

/-- A match is its length and its distance: no two well-formed instructions have the same (30_encoding.md R179). -/
theorem eq_matchToken_of_matchForm {i : Instr} {len dist : Nat} (hw : i.wellFormed = true)
    (h : matchForm i = some (len, dist)) : i = matchToken len dist := by
  cases i
  case matchShortNear l d =>
    obtain ⟨hl, hd⟩ := Bool.and_eq_true_iff.mp hw
    cases h
    exact (matchToken_shortNear hl hd).symm
  case matchShortFar l x =>
    cases h
    exact (matchToken_shortFar hw x).symm
  case matchLongNear ext d =>
    cases h
    exact (matchToken_longNear ext hw).symm
  case matchLongFar ext x =>
    cases h
    exact (matchToken_longFar ext x).symm
  all_goals cases h

/-! ## Every length and distance of the format (30_encoding.md R180) -/

/-- A distance is a near field that is not the escape, or a far one (30_encoding.md R176, R177). -/
theorem distance_cases {dist : Nat} (h1 : 1 ≤ dist) (h2 : dist ≤ 73727) :
    (∃ d : BitVec 13, nearFits d = true ∧ dist = d.toNat + 1) ∨ ∃ x : BitVec 16, dist = 8192 + x.toNat := by
  by_cases hn : dist ≤ 8191
  · have hd : (BitVec.ofNat 13 (dist - 1)).toNat = dist - 1 := by rw [BitVec.toNat_ofNat]; omega
    refine .inl ⟨BitVec.ofNat 13 (dist - 1), (nearFits_iff _).mpr ?_, ?_⟩ <;> omega
  · have hx : (BitVec.ofNat 16 (dist - 8192)).toNat = dist - 8192 := by rw [BitVec.toNat_ofNat]; omega
    exact .inr ⟨BitVec.ofNat 16 (dist - 8192), by omega⟩

/-- A length is a short match's field, or a long match's extension (30_encoding.md R173, R174). -/
theorem length_cases {len : Nat} (h : 4 ≤ len) :
    (∃ l : BitVec 3, shortLengthFits l = true ∧ len = l.toNat + 3) ∨ ∃ ext, len = 10 + ext := by
  by_cases h9 : len ≤ 9
  · have hl : (BitVec.ofNat 3 (len - 3)).toNat = len - 3 := by rw [BitVec.toNat_ofNat]; omega
    refine .inl ⟨BitVec.ofNat 3 (len - 3), (shortLengthFits_iff _).mpr ?_, ?_⟩ <;> omega
  · exact .inr ⟨len - 10, by omega⟩

theorem exists_matchForm {len dist : Nat} (h : 4 ≤ len) (h1 : 1 ≤ dist) (h2 : dist ≤ 73727) :
    ∃ i : Instr, i.wellFormed = true ∧ matchForm i = some (len, dist) := by
  rcases length_cases h with ⟨l, hl, rfl⟩ | ⟨ext, rfl⟩ <;>
    rcases distance_cases h1 h2 with ⟨d, hd, rfl⟩ | ⟨x, rfl⟩
  · exact ⟨.matchShortNear l d, Bool.and_eq_true_iff.mpr ⟨hl, hd⟩, rfl⟩
  · exact ⟨.matchShortFar l x, hl, rfl⟩
  · exact ⟨.matchLongNear ext d, hd, rfl⟩
  · exact ⟨.matchLongFar ext x, rfl, rfl⟩

end Sys2Proof.Machine
end

section
/-! The statements of the encodings, settled. -/

namespace Sys2Proof.Machine

/-- Settles O4: a literal run of 0s, or a match whose distance byte is 0 and so not the escape's. -/
theorem everyControlByteStartsAToken : Obligations.EveryControlByteStartsAToken := by
  intro first ctrl
  cases first with
  | true =>
    obtain ⟨lits, hread, hfit⟩ := literalRun_completes (.litFirst (controlL ctrl)) (controlF ctrl)
    exact ⟨lits, _, (decodeToken_first ctrl lits).trans hread, hfit⟩
  | false =>
    by_cases h0 : controlL ctrl = 0
    · obtain ⟨lits, hread, hfit⟩ := literalRun_completes .lit (controlF ctrl)
      exact ⟨lits, _, (decodeToken_literal h0 lits).trans hread, hfit⟩
    · by_cases h7 : controlL ctrl = 7
      · exact ⟨[0, 0], _, (decodeToken_long h7 _).trans (readLongMatch_zero _), nearFits_lowZero _⟩
      · exact ⟨[0], _, (decodeToken_short h0 h7 _).trans (readShortMatch_zero _ _),
          Bool.and_eq_true_iff.mpr ⟨shortLengthFits_of_ne h0 h7, nearFits_lowZero _⟩⟩

/-- Settles O5: some instruction has that length and that distance, and whichever has them is the match token. -/
theorem matchHasOneEncoding : Obligations.MatchHasOneEncoding := by
  intro len dist hl h1 h2
  obtain ⟨i, hw, hform⟩ := exists_matchForm hl h1 h2
  have hi : i = matchToken len dist := eq_matchToken_of_matchForm hw hform
  subst hi
  exact ⟨hw, hform, fun _ => eq_matchToken_of_matchForm⟩

/-- Settles O1: the decoder runs on eleven closed encodings. -/
theorem writtenEncodingsDecode : Obligations.WrittenEncodingsDecode := by
  unfold Obligations.WrittenEncodingsDecode
  decide

end Sys2Proof.Machine
end

section
/-! The header codec: the bytes that encode_header writes, and when HDR_ENCODE accepts its parameters. -/

namespace Sys2Proof.Machine

/-! ## Words of a byte sequence (00_scope.md R22) -/

/-- The little-endian word at offset `k` of a sequence. -/
def wordAt (b : List Byte) (k : Nat) : Word := byteAt b (k + 3) ++ byteAt b (k + 2) ++ byteAt b (k + 1) ++ byteAt b k

theorem word_ofNat_toNat (w : Word) : BitVec.ofNat 32 w.toNat = w := by rw [BitVec.ofNat_toNat, BitVec.setWidth_eq]

theorem wordAt_le32Bytes (v : Nat) : wordAt (le32Bytes v) 0 = BitVec.ofNat 32 v := by
  have hv : leNat (le32Bytes v) = v % 2 ^ 32 := leNat_leBytes 4 v
  calc wordAt (le32Bytes v) 0 = BitVec.ofNat 32 (leNat (le32Bytes v)) := (word_ofNat _ _ _ _).symm
    _ = BitVec.ofNat 32 v := by
      rw [hv]
      exact BitVec.eq_of_toNat_eq (by simp)

theorem dstWord_eq_wordAt {t : State} {b : List Byte} {n k : Nat} (h : ∀ i < n, t.dstByte i = byteAt b i)
    (hk : k + 3 < n) : t.dstWord k = wordAt b k := by
  rw [State.dstWord, wordAt, h _ hk, h _ (by omega), h _ (by omega), h _ (by omega)]

/-! ## The slot registers as bytes (10_state.md R43) -/

/-- The four slots of a low register are its bytes. -/
theorem lowSlots_word (w : Word) :
    (w.extractLsb' 24 8 ++ w.extractLsb' 16 8 ++ w.extractLsb' 8 8 ++ w.extractLsb' 0 8 : Word) = w := by
  have hw := w.isLt
  apply BitVec.eq_of_toNat_eq
  simp only [append_toNat, BitVec.extractLsb'_toNat, Nat.shiftRight_eq_div_pow]
  omega

/-- The two slots of a high register are its low half. -/
theorem highSlots_word (w : Word) :
    ((0 : Byte) ++ (0 : Byte) ++ w.extractLsb' 8 8 ++ w.extractLsb' 0 8 : Word) = (w.extractLsb' 0 16).setWidth 32 := by
  apply BitVec.eq_of_toNat_eq
  simp only [append_toNat, BitVec.extractLsb'_toNat, BitVec.toNat_setWidth, Nat.shiftRight_eq_div_pow,
    BitVec.ofNat_eq_ofNat, BitVec.toNat_ofNat]
  omega

/-! ## The bytes of encode_header (40_header.md R229) -/

section
variable (p : HeaderParams)

theorem encodeHeader_version : byteAt (encodeHeader p) 0 = if p.ext then 3 else 2 := rfl

theorem encodeHeader_fmtver : byteAt (encodeHeader p) 1 = 1 := rfl

theorem encodeHeader_flags : byteAt (encodeHeader p) 2 = p.flags := rfl

theorem encodeHeader_typesize : byteAt (encodeHeader p) 3 = p.ts := rfl

theorem encodeHeader_nbytes : wordAt (encodeHeader p) 4 = BitVec.ofNat 32 p.nbytes := wordAt_le32Bytes p.nbytes

theorem encodeHeader_bs : wordAt (encodeHeader p) 8 = BitVec.ofNat 32 p.bs := wordAt_le32Bytes p.bs

theorem encodeHeader_cbytes : wordAt (encodeHeader p) 12 = BitVec.ofNat 32 p.cbytes := wordAt_le32Bytes p.cbytes

/-- The slots of a register pair as they are written: the bytes of the registers, and 0 in a stored chunk. -/
theorem slot_slotBytes (w0 w1 : Word) :
    p.slot (slotBytes w0 w1) = if p.stored then fun _ => 0 else byteAt (slotBytes w0 w1) := by
  funext k
  rw [HeaderParams.slot]
  split <;> rfl

/-- The first four bytes of a slot field are the low register. -/
theorem wordAt_slots_low (w0 w1 : Word) :
    wordAt ((List.range 6).map (p.slot (slotBytes w0 w1)) ++ [0, 0]) 0 = if p.stored then 0 else w0 := by
  rw [slot_slotBytes]
  cases p.stored with
  | false => exact lowSlots_word w0
  | true =>
    rw [if_pos rfl, if_pos rfl]
    rfl

/-- The other two slots are the high register; two bytes of 0 follow them. -/
theorem wordAt_slots_high (w0 w1 : Word) :
    wordAt ((List.range 6).map (p.slot (slotBytes w0 w1)) ++ [0, 0]) 4 =
      if p.stored then 0 else (w1.extractLsb' 0 16).setWidth 32 := by
  rw [slot_slotBytes]
  cases p.stored with
  | false => exact highSlots_word w1
  | true =>
    rw [if_pos rfl, if_pos rfl]
    rfl

variable {p}

section
variable {w0 w1 : Word} (hx : p.ext = true)
include hx

theorem encodeHeader_fcode_low (hf : p.fcode = slotBytes w0 w1) :
    wordAt (encodeHeader p) 16 = if p.stored then 0 else w0 := by
  rw [encodeHeader, hx, hf]
  exact wordAt_slots_low p w0 w1

theorem encodeHeader_fcode_high (hf : p.fcode = slotBytes w0 w1) :
    wordAt (encodeHeader p) 20 = if p.stored then 0 else (w1.extractLsb' 0 16).setWidth 32 := by
  rw [encodeHeader, hx, hf]
  exact wordAt_slots_high p w0 w1

theorem encodeHeader_fmeta_low (hm : p.fmeta = slotBytes w0 w1) :
    wordAt (encodeHeader p) 24 = if p.stored then 0 else w0 := by
  rw [encodeHeader, hx, hm]
  exact wordAt_slots_low p w0 w1

theorem encodeHeader_fmeta_high (hm : p.fmeta = slotBytes w0 w1) :
    wordAt (encodeHeader p) 28 = if p.stored then 0 else (w1.extractLsb' 0 16).setWidth 32 := by
  rw [encodeHeader, hx, hm]
  exact wordAt_slots_high p w0 w1

end

end

/-! ## The flags byte (40_header.md R229) -/

/-- The bits of the flags byte: the filter flags or the extended marker, the stored flag, and 0 in the codec bits. -/
theorem HeaderParams.flags_bits (p : HeaderParams) :
    p.flags.getLsbD 0 = (p.ext || (!p.stored && p.shuf)) ∧ p.flags.getLsbD 1 = p.stored ∧
    p.flags.getLsbD 2 = (p.ext || (!p.stored && p.bshuf)) ∧
    p.flags.getLsbD 3 = (!p.ext && !p.stored && p.delta) ∧ p.flags.toNat < 16 := by
  unfold HeaderParams.flags
  generalize p.ext = ext, p.stored = stored, p.shuf = shuf, p.bshuf = bshuf, p.delta = delta
  revert ext stored shuf bshuf delta
  decide

/-! ## The parameters that HDR_ENCODE accepts (40_header.md R233, R234) -/

theorem Params.hlen_eq (p : Params) : p.hlen = if p.extHdr then 32 else 16 := rfl

/-- The both-shuffles check and `valid_params` together are what `HdrEncodeAccepts` says. -/
theorem hdrEncodeAccepts_iff (p : Params) :
    HdrEncodeAccepts p ↔ ¬ (p.extHdr = false ∧ p.shuf = true ∧ p.bshuf = true) ∧ p.headerParams.valid = true := by
  have typesize : p.typesizeByte ≠ 0 ↔ 1 ≤ p.typesize := by
    rw [Params.typesize, Nat.one_le_iff_ne_zero, Ne, Ne, ← BitVec.toNat_inj]
    rfl
  have valid : p.headerParams.valid = true ↔ ((p.hlen ≤ p.arg1.toNat ∧ p.bsize.toNat ≤ 262144) ∧
      (p.srcLen.toNat = 0 ∨ 0 < p.bsize.toNat ∧ p.bsize.toNat ≤ p.srcLen.toNat)) ∧
      (p.typesizeByte ≠ 0 ∨ p.srcLen.toNat = 0) := by
    simp only [HeaderParams.valid, Bool.and_eq_true, decide_eq_true_eq]
    rfl
  rw [valid, typesize]
  constructor
  · rintro ⟨shuffles, cbytes, block, blockFits, ts⟩
    exact ⟨fun ⟨hx, both⟩ => shuffles hx both, ⟨⟨cbytes, block⟩, by omega⟩, by omega⟩
  · rintro ⟨shuffles, ⟨⟨cbytes, block⟩, blockFits⟩, ts⟩
    exact ⟨fun hx both => shuffles ⟨hx, both⟩, cbytes, block, by omega, by omega⟩

end Sys2Proof.Machine
end

section
/-! CHUNK_SIZES, HDR_ENCODE and the header part of the chunk readers: what each answers. -/

namespace Sys2Proof.Machine

/-! ## The chunk readers (40_header.md R221, R230) -/

theorem regionError_chunkSizes {p : Params} (h : p.srcAddr.toNat + p.srcLen.toNat ≤ 4294967296) :
    regionError .chunkSizes p = none := by
  have hv : p.src.valid = true := (Region.valid_iff p.src).mpr h
  simp [regionError, usesSrc, usesDst, usesRef, hv]

/-- The three chunk readers answer a header that is not read with its error, before they touch anything. -/
theorem exec_headerError {s : State} {i : Instr} (hi : i = .chunkSizes ∨ i = .decompress ∨ i = .getItemRange)
    (hr : RegionsFit s.latched) {e : Err} {n : Nat} (h : s.sourceHeader = .error (e, n)) :
    exec i s = .next (raiseError e n s) := by
  rcases hi with rfl | rfl | rfl
  · show execChunkSizes s = _
    rw [execChunkSizes, afterRegions_pass (regionError_chunkSizes hr.src), h]
  · show execDecompress s = _
    rw [execDecompress, afterRegions_fit rfl rfl rfl hr, h]
  · show execGetItemRange s = _
    rw [execGetItemRange, afterRegions_fit rfl rfl rfl hr, h]

theorem exec_headerError_untouched {s : State} {i : Instr}
    (hi : i = .chunkSizes ∨ i = .decompress ∨ i = .getItemRange) (hr : RegionsFit s.latched) {e : Err} {n : Nat}
    (h : s.sourceHeader = .error (e, n)) :
    ∃ t, exec i s = .next t ∧ FailedUntouched s t e (BitVec.ofNat 32 n) :=
  ⟨_, exec_headerError hi hr h, raiseError_untouched e n s⟩

/-- RESULT0 to RESULT8 of CHUNK_SIZES are words of the source; of a minimal header the codec alone is reported of the
extended fields (40_header.md R220, R230). -/
def State.headerWords (s : State) : Results :=
  if s.srcExtended then
    ⟨s.srcWord 4, s.srcWord 12, s.srcWord 8, s.srcWord 0, 32, s.srcWord 16, s.srcWord 20, s.srcWord 24, s.srcWord 28⟩
  else
    ⟨s.srcWord 4, s.srcWord 12, s.srcWord 8, s.srcWord 0, 16, 0,
      ((s.srcByte 2).extractLsb' 5 3).setWidth 32 <<< 16, 0, 0⟩

/-- The codec field alone in the word that reports it. -/
theorem codecWord (c : BitVec 3) :
    BitVec.ofNat 32 (leNat [0, 0, c.setWidth 8, 0]) = c.setWidth 32 <<< 16 := by
  revert c
  decide

theorem ofList_headerResults (s : State) : Results.ofList (headerResults s.headerRecord) = s.headerWords := by
  have info : BitVec.ofNat 32 (leNat [s.srcByte 0, s.srcByte 1, s.srcByte 2, s.srcByte 3]) = s.srcWord 0 :=
    word_ofNat _ _ _ _
  unfold State.headerWords headerResults State.headerRecord State.srcHeaderLength Results.ofList
  cases hx : s.srcExtended with
  | true =>
    rw [Results.mk.injEq]
    exact ⟨word_ofNat_toNat _, word_ofNat_toNat _, word_ofNat_toNat _, info, rfl, word_ofNat _ _ _ _,
      word_ofNat _ _ _ _, word_ofNat _ _ _ _, word_ofNat _ _ _ _⟩
  | false =>
    rw [Results.mk.injEq]
    exact ⟨word_ofNat_toNat _, word_ofNat_toNat _, word_ofNat_toNat _, info, rfl, rfl, codecWord _, rfl, rfl⟩

/-- CHUNK_SIZES of an accepted header completes with its words, and changes no byte of memory. -/
theorem exec_chunkSizes_accepted {s : State}
    (hr : s.latched.srcAddr.toNat + s.latched.srcLen.toNat ≤ 4294967296) (h : HeaderAccepted s) :
    ∃ t, exec .chunkSizes s = .next t ∧ t.mem = s.mem ∧
      Completed s t s.headerWords ((s.srcByte 2).getLsbD 1) := by
  refine ⟨complete (headerResults s.headerRecord) s.headerRecord.stored s, ?_, rfl, ?_⟩
  · show execChunkSizes s = _
    rw [execChunkSizes, afterRegions_pass (regionError_chunkSizes hr), sourceHeader_accepted h]
  · rw [← ofList_headerResults]
    exact complete_completed _ _ (SameHostSide.refl s) rfl rfl

/-! ## HDR_ENCODE (40_header.md R233, R234) -/

theorem regionError_hdrEncode {p : Params} (h : p.dstAddr.toNat + p.dstCap.toNat ≤ 4294967296) :
    regionError .hdrEncode p = none := by
  have hv : p.dst.valid = true := (Region.valid_iff p.dst).mpr h
  simp [regionError, usesSrc, usesDst, usesRef, hv]

/-- The first check of a list is looked at before the others. -/
theorem afterChecks_cons (b : Bool) (e : Err) (n : Nat) (l : List (Bool × Err × Nat)) (s : State) (own : Step) :
    afterChecks ((b, e, n) :: l) s own = if b then .next (raiseError e n s) else afterChecks l s own := by
  cases b <;> rfl

/-- What HDR_ENCODE of accepted parameters with room for the header leaves. -/
def State.withHeader (s : State) : State :=
  complete [s.latched.hlen] false (s.writeDst 0 (encodeHeader s.latched.headerParams))

/-- The checks of HDR_ENCODE, in their order. -/
theorem exec_hdrEncode {s : State} (hr : s.latched.dstAddr.toNat + s.latched.dstCap.toNat ≤ 4294967296) :
    exec .hdrEncode s =
      if s.latched.extHdr = false ∧ s.latched.shuf = true ∧ s.latched.bshuf = true then .next (raiseError .arg 9 s)
      else if s.latched.headerParams.valid = false then .next (raiseError .arg 10 s)
      else if s.latched.dstCap.toNat < s.latched.hlen then .next (raiseError .destSmall 0 s)
      else .next s.withHeader := by
  have shuffles : (!s.latched.extHdr && s.latched.shuf && s.latched.bshuf) = true ↔
      (s.latched.extHdr = false ∧ s.latched.shuf = true ∧ s.latched.bshuf = true) := by simp [and_assoc]
  show execHdrEncode s = _
  rw [execHdrEncode, afterRegions_pass (regionError_hdrEncode hr), afterChecks_cons, afterChecks_cons, afterChecks_cons]
  exact if_congr shuffles rfl (if_congr (iff_of_eq (Bool.not_eq_true' _)) rfl (if_congr decide_eq_true_iff rfl rfl))

theorem withHeader_completed (s : State) :
    Completed s s.withHeader (resultsOf (BitVec.ofNat 32 s.latched.hlen) 0 0) false :=
  complete_completed _ _ (writeDst_hostSide s _ _) rfl rfl

theorem withHeader_outside (s : State) : SameOutside s s.withHeader s.latched.dstAddr.toNat s.latched.hlen :=
  fun _ ha => Memory.read_writeBytes_outside (by rw [encodeHeader_length]; exact ha)

/-! ## A header in the destination -/

theorem sixteen_le_hlen (p : Params) : 16 ≤ p.hlen := by
  rw [Params.hlen_eq]
  split <;> omega

/-- A destination that starts with the bytes of encode_header holds that header field by field. -/
theorem headerAt_of_bytes {t : State} {p : Params} {stored : Bool} {n bs cbytes : Nat}
    (h : ∀ k < p.hlen, t.dstByte k = byteAt (encodeHeader (chunkParams p n bs stored cbytes)) k) :
    HeaderAt t p stored (BitVec.ofNat 32 n) (BitVec.ofNat 32 bs) (BitVec.ofNat 32 cbytes) := by
  have long := sixteen_le_hlen p
  have hflags : t.dstByte 2 = (chunkParams p n bs stored cbytes).flags :=
    (h 2 (by omega)).trans (encodeHeader_flags _)
  obtain ⟨shuf, flagStored, bshuf, delta, codec⟩ := (chunkParams p n bs stored cbytes).flags_bits
  rw [← hflags] at shuf flagStored bshuf delta codec
  have word (hx : p.extHdr = true) {k : Nat} (hk : k + 3 < 32) :
      t.dstWord k = wordAt (encodeHeader (chunkParams p n bs stored cbytes)) k :=
    dstWord_eq_wordAt h (by rwa [Params.hlen_eq, hx, if_pos rfl])
  exact
    { version := (h 0 (by omega)).trans (encodeHeader_version _)
      fmtver := (h 1 (by omega)).trans (encodeHeader_fmtver _)
      shuf := shuf
      flagStored := flagStored
      bshuf := bshuf
      delta := delta
      codec := codec
      typesize := (h 3 (by omega)).trans (encodeHeader_typesize _)
      nbytes := (dstWord_eq_wordAt h (by omega)).trans (encodeHeader_nbytes _)
      bs := (dstWord_eq_wordAt h (by omega)).trans (encodeHeader_bs _)
      cbytes := (dstWord_eq_wordAt h (by omega)).trans (encodeHeader_cbytes _)
      slots0 := fun hx => (word hx (by decide)).trans (encodeHeader_fcode_low hx rfl)
      slots1 := fun hx => (word hx (by decide)).trans (encodeHeader_fcode_high hx rfl)
      meta0 := fun hx => (word hx (by decide)).trans (encodeHeader_fmeta_low hx rfl)
      meta1 := fun hx => (word hx (by decide)).trans (encodeHeader_fmeta_high hx rfl) }

/-! ## HDR_ENCODE with room for the header -/

section
variable {s : State} (hr : s.latched.dstAddr.toNat + s.latched.dstCap.toNat ≤ 4294967296)
  (room : s.latched.hlen ≤ s.latched.dstCap.toNat)
include hr room

theorem exec_hdrEncode_accepted (ha : HdrEncodeAccepts s.latched) : exec .hdrEncode s = .next s.withHeader := by
  obtain ⟨shuffles, valid⟩ := (hdrEncodeAccepts_iff _).mp ha
  rw [exec_hdrEncode hr, if_neg shuffles, if_neg (by simp [valid]), if_neg (Nat.not_lt.mpr room)]

theorem dstByte_withHeader (hm : s.mem.wf) {k : Nat} (hk : k < s.latched.hlen) :
    s.withHeader.dstByte k = byteAt (encodeHeader s.latched.headerParams) k := by
  have hlen : (encodeHeader s.latched.headerParams).length = s.latched.hlen := encodeHeader_length _
  have fits : s.latched.dst.base + 0 + (encodeHeader s.latched.headerParams).length ≤ 4294967296 := by
    rw [hlen]
    exact (Nat.add_le_add_left room _).trans hr
  have hk' : k < (encodeHeader s.latched.headerParams).length := hlen.symm ▸ hk
  rw [byteAt_eq hk']
  exact read_writeDst_inside hm fits k hk'

theorem withHeader_headerAt (hm : s.mem.wf) :
    HeaderAt s.withHeader s.latched s.latched.storedArg s.latched.srcLen s.latched.bsize s.latched.arg1 := by
  have h := headerAt_of_bytes (t := s.withHeader) (n := s.latched.srcLen.toNat) (bs := s.latched.bsize.toNat)
    (stored := s.latched.storedArg) (cbytes := s.latched.arg1.toNat) fun _ hk => dstByte_withHeader hr room hm hk
  rwa [word_ofNat_toNat, word_ofNat_toNat, word_ofNat_toNat] at h

end

end Sys2Proof.Machine
end

section
/-! A header that was written to a destination and is read from there as a source. -/

namespace Sys2Proof.Machine

/-- The source of `u` starts where the destination of `t` does, in the same memory. -/
structure ReadsDestination (t u : State) : Prop where
  mem : u.mem = t.mem
  base : u.latched.srcAddr = t.latched.dstAddr

section
variable {t u : State} {p : Params} {stored : Bool} {nbytes bs cbytes : Word}

theorem ReadsDestination.srcByte (h : ReadsDestination t u) (k : Nat) : u.srcByte k = t.dstByte k := by
  rw [State.srcByte, State.dstByte, h.mem, h.base]

theorem ReadsDestination.srcWord (h : ReadsDestination t u) (k : Nat) : u.srcWord k = t.dstWord k := by
  simp only [State.srcWord, State.dstWord, h.srcByte]

/-- The marker is read where it was written, since both shuffles are not written in a minimal header
(40_header.md R227, R234). -/
theorem HeaderAt.srcExtended (h : HeaderAt t p stored nbytes bs cbytes) (r : ReadsDestination t u)
    (shuffles : p.extHdr = false → ¬ (p.shuf = true ∧ p.bshuf = true)) : u.srcExtended = p.extHdr := by
  rw [State.srcExtended, r.srcByte, h.shuf, h.bshuf]
  cases hx : p.extHdr with
  | true => rfl
  | false =>
    refine Bool.eq_false_iff.mpr fun both => shuffles hx ?_
    simp only [Bool.false_or, Bool.and_eq_true] at both
    obtain ⟨⟨-, shuf⟩, -, bshuf⟩ := both
    exact ⟨shuf, bshuf⟩

/-- decode_header accepts what encode_header writes for accepted parameters (40_header.md R234, R235). -/
theorem HeaderAt.accepted (h : HeaderAt t p stored p.srcLen p.bsize p.arg1) (r : ReadsDestination t u)
    (ha : HdrEncodeAccepts p) (hl : p.hlen ≤ u.latched.srcLen.toNat) : HeaderAccepted u := by
  have long := sixteen_le_hlen p
  have cbytes := ha.cbytes
  refine ⟨by omega, ⟨?_, ?_, ?_, ?_, ?_⟩, fun hx => ?_⟩
  · rw [r.srcByte, h.version]
    cases p.extHdr
    · exact .inl rfl
    · exact .inr rfl
  · rw [r.srcWord, h.cbytes]
    omega
  · rw [r.srcWord, h.bs]
    exact ha.block
  · rw [r.srcWord, r.srcWord, h.nbytes, h.bs]
    exact ha.blockFits
  · rw [r.srcWord, r.srcByte, h.nbytes, h.typesize]
    intro hn h0
    have := ha.typesize hn
    rw [Params.typesize, h0] at this
    exact absurd this (by decide)
  · rw [h.srcExtended r ha.shuffles] at hx
    rw [Params.hlen_eq, hx, if_pos rfl] at hl cbytes
    rw [r.srcWord, h.cbytes]
    exact ⟨hl, cbytes⟩

/-- A register with the bits 31:16 at 0 is its low half (10_state.md R43). -/
theorem lowHalf_of_legal {w : Word} (h : w &&& 0xFFFF0000 = 0) : (w.extractLsb' 0 16).setWidth 32 = w := by
  apply BitVec.eq_of_getLsbD_eq
  intro i hi
  rw [BitVec.getLsbD_setWidth, BitVec.getLsbD_extractLsb', Nat.zero_add]
  by_cases low : i < 16
  · simp [low, hi]
  · have ones : (0xFFFF0000 : Word).getLsbD i = true := by interval_cases i <;> rfl
    have high : w.getLsbD i = false := by
      rw [← Bool.and_true (w.getLsbD i), ← ones, ← BitVec.getLsbD_and, h]
      exact BitVec.getLsbD_zero
    simp [low, high]

/-- The codec bits of a flags byte below 16 are 0. -/
theorem codecBits_zero {b : Byte} (h : b.toNat < 16) : b.extractLsb' 5 3 = 0 := by
  apply BitVec.eq_of_toNat_eq
  rw [BitVec.extractLsb'_toNat, Nat.shiftRight_eq_div_pow]
  show b.toNat / 32 % 8 = 0
  omega

/-- RESULT0 to RESULT8 of the header that was written for parameters in canonical form (40_header.md R235). -/
theorem HeaderAt.headerWords (h : HeaderAt t p stored nbytes bs cbytes) (r : ReadsDestination t u)
    (shuffles : p.extHdr = false → ¬ (p.shuf = true ∧ p.bshuf = true)) (legal : p.Legal)
    (hs : stored = true → p.fcode0 = 0 ∧ p.fcode1 = 0 ∧ p.fmeta0 = 0 ∧ p.fmeta1 = 0)
    (hx : p.extHdr = false → p.fcode0 = 0 ∧ p.fcode1 = 0 ∧ p.fmeta0 = 0 ∧ p.fmeta1 = 0) :
    u.headerWords =
      ⟨nbytes, cbytes, bs, p.typesizeByte ++ t.dstByte 2 ++ (1 : Byte) ++ (if p.extHdr then (3 : Byte) else 2),
        BitVec.ofNat 32 p.hlen, p.fcode0, p.fcode1, p.fmeta0, p.fmeta1⟩ := by
  have info : t.dstWord 0 = p.typesizeByte ++ t.dstByte 2 ++ (1 : Byte) ++ (if p.extHdr then (3 : Byte) else 2) := by
    rw [State.dstWord, h.typesize, h.fmtver, h.version]
  rw [State.headerWords, h.srcExtended r shuffles, r.srcByte, codecBits_zero h.codec, Params.hlen_eq]
  simp only [r.srcWord, h.nbytes, h.bs, h.cbytes, info]
  cases he : p.extHdr with
  | true =>
    rw [h.slots0 he, h.slots1 he, h.meta0 he, h.meta1 he, lowHalf_of_legal legal.fcode1,
      lowHalf_of_legal legal.fmeta1]
    cases hst : stored with
    | false => rfl
    | true =>
      obtain ⟨f0, f1, m0, m1⟩ := hs hst
      rw [f0, f1, m0, m1]
      rfl
  | false =>
    obtain ⟨f0, f1, m0, m1⟩ := hx he
    rw [f0, f1, m0, m1]
    rfl

end

end Sys2Proof.Machine
end

section
/-! The statements of the chunk header, settled. -/

namespace Sys2Proof.Machine

/-- Settles O38: the header that was written is accepted where it is read, and its words are the operands. -/
theorem headerRoundTrip : Obligations.HeaderRoundTrip := by
  intro s t u hm hr ha room hs hx legal ht hmem hbase hlen
  rw [exec_hdrEncode_accepted hr room ha, Host.Outcome.next.injEq] at ht
  subst ht
  have reads : ReadsDestination s.withHeader u := ⟨hmem, hbase⟩
  have header := withHeader_headerAt hr room hm
  have fits : u.latched.srcAddr.toNat + u.latched.srcLen.toNat ≤ 4294967296 := by
    rw [hbase, hlen]
    omega
  have flags : s.withHeader.dstByte 2 = s.latched.headerParams.flags :=
    (dstByte_withHeader hr room hm (Nat.lt_of_lt_of_le (by decide) (sixteen_le_hlen _))).trans (encodeHeader_flags _)
  have stored : (u.srcByte 2).getLsbD 1 = s.latched.storedArg := by rw [reads.srcByte, header.flagStored]
  obtain ⟨v, hv, hvm, done⟩ := exec_chunkSizes_accepted fits (header.accepted reads ha (Nat.le_of_eq hlen.symm))
  rw [header.headerWords reads ha.shuffles legal hs hx, flags, stored] at done
  exact ⟨v, hv, hvm, done⟩

/-- Settles O34. -/
theorem chunkSizesReportsTheHeader : Obligations.ChunkSizesReportsTheHeader :=
  fun _ hr h => exec_chunkSizes_accepted hr h

/-- Settles O35: the checks of decode_header in their order, of which every chunk reader raises the first that fails. -/
theorem headerErrors : Obligations.HeaderErrors := by
  intro s i hi hr
  obtain ⟨short, field, shortExtended, fieldExtended⟩ := sourceHeader_error (s := s)
  exact ⟨fun h => exec_headerError_untouched hi hr (short h),
    fun h hf => exec_headerError_untouched hi hr (field h hf),
    fun h hf hx hl => exec_headerError_untouched hi hr (shortExtended h hf hx hl),
    fun h hf hx hc => exec_headerError_untouched hi hr (fieldExtended h hf hx hc)⟩

/-- Settles O36. -/
theorem hdrEncodeWritesTheHeader : Obligations.HdrEncodeWritesTheHeader :=
  fun s hm hr ha room => ⟨s.withHeader, exec_hdrEncode_accepted hr room ha, withHeader_completed s,
    withHeader_outside s, withHeader_headerAt hr room hm⟩

/-- Settles O37: the three checks in their order. -/
theorem hdrEncodeErrors : Obligations.HdrEncodeErrors := by
  intro s hr
  refine ⟨fun hx hs hb => ⟨_, ?_, raiseError_untouched .arg 9 s⟩,
    fun both bad => ⟨_, ?_, raiseError_untouched .arg 10 s⟩,
    fun ha small => ⟨_, ?_, raiseError_untouched .destSmall 0 s⟩⟩
  · rw [exec_hdrEncode hr, if_pos ⟨hx, hs, hb⟩]
  · have invalid : s.latched.headerParams.valid = false :=
      Bool.eq_false_iff.mpr fun valid => bad ((hdrEncodeAccepts_iff _).mpr ⟨both, valid⟩)
    rw [exec_hdrEncode hr, if_neg both, if_pos invalid]
  · obtain ⟨both, valid⟩ := (hdrEncodeAccepts_iff _).mp ha
    rw [exec_hdrEncode hr, if_neg both, if_neg (by simp [valid]), if_pos small]

end Sys2Proof.Machine
end

section
/-! The inverse of every lossless filter, and of a pipeline of them (42_filters.md R324, R337, R342; 41_pipeline.md
R264). -/

namespace Sys2Proof.Machine

/-! ## Bits of a sequence -/

/-- A sequence whose bytes are put together from bits has those bits. -/
theorem bitAt_byteOfBits {y : List Byte} {f : Nat → Nat → Bool} {m a : Nat}
    (h : ∀ t < m, byteAt y t = byteOfBits (f t)) (ha : a < 8 * m) : bitAt y a = f (a / 8) (a % 8) := by
  rw [bitAt, h _ (by omega), byteOfBits_getLsbD _ (by omega)]

/-- A byte is put together from its own bits. -/
theorem byteOfBits_bitAt (x : List Byte) (t : Nat) : byteOfBits (fun b => bitAt x (8 * t + b)) = byteAt x t := by
  refine byte_ext fun j hj => ?_
  rw [byteOfBits_getLsbD _ hj, bitAt, show (8 * t + j) / 8 = t by omega, show (8 * t + j) % 8 = j by omega]

/-! ## The shuffles -/

/-- Row and column of a place in a matrix that was written the other way round. -/
theorem transpose_place {n i : Nat} (k : Nat) (hi : i < n) : (k * n + i) % n = i ∧ (k * n + i) / n = k := by
  rw [Nat.add_comm, Nat.add_mul_mod_self_right, Nat.mod_eq_of_lt hi, Nat.add_mul_div_right _ _ (by omega),
    Nat.div_eq_of_lt hi, Nat.zero_add]
  exact ⟨rfl, rfl⟩

theorem transpose_lt {n m i k : Nat} (hi : i < n) (hk : k < m) : k * n + i < n * m := by
  calc k * n + i < k * n + n := by omega
    _ = n * (k + 1) := by ring
    _ ≤ n * m := Nat.mul_le_mul_left n hk

/-- UNSHUFFLE undoes SHUFFLE (42_filters.md R324). -/
theorem unshuffle_shuffle {ts : Nat} (hts : 1 ≤ ts) (x : List Byte) : unshuffle ts (shuffle ts x) = x := by
  have hl : (shuffle ts x).length = x.length := shuffle_length ts x
  have whole : x.length / ts * ts ≤ x.length := Nat.div_mul_le_self _ _
  refine ext_byteAt (by rw [unshuffle_length, hl]) fun t ht => ?_
  rw [unshuffle_length, hl] at ht
  rw [unshuffle, byteAt_map_range _ _ (hl ▸ ht), hl]
  by_cases h : t < x.length / ts * ts
  · have hi : t / ts < x.length / ts := Nat.div_lt_of_lt_mul (by rwa [Nat.mul_comm])
    have place := transpose_lt hi (Nat.mod_lt t hts)
    obtain ⟨column, row⟩ := transpose_place (t % ts) hi
    rw [if_pos h, shuffle, byteAt_map_range _ _ (by omega), if_pos place, column, row, Nat.div_add_mod']
  · rw [if_neg h, shuffle, byteAt_map_range _ _ ht, if_neg h]

/-- BITUNSHUFFLE undoes BITSHUFFLE, bit by bit (42_filters.md R337). -/
theorem bitunshuffle_bitshuffle {ts : Nat} (hts : 1 ≤ ts) (x : List Byte) :
    bitunshuffle ts (bitshuffle ts x) = x := by
  have hl : (bitshuffle ts x).length = x.length := bitshuffle_length ts x
  have whole : x.length / ts * ts ≤ x.length := Nat.div_mul_le_self _ _
  refine ext_byteAt (by rw [bitunshuffle_length, hl]) fun t ht => ?_
  rw [bitunshuffle_length, hl] at ht
  rw [bitunshuffle, byteAt_map_range _ _ (hl ▸ ht), hl]
  by_cases h : t < x.length / ts * ts
  · have bytes : ∀ t < x.length / ts * ts, byteAt (bitshuffle ts x) t = byteOfBits fun b =>
        bitAt x ((8 * t + b) % (x.length / ts) * (8 * ts) + (8 * t + b) / (x.length / ts)) := fun t ht => by
      rw [bitshuffle, byteAt_map_range _ _ (by omega), if_pos ht]
    rw [if_pos h, ← byteOfBits_bitAt x t]
    refine byte_ext fun b hb => ?_
    rw [byteOfBits_getLsbD _ hb, byteOfBits_getLsbD _ hb]
    generalize ha : 8 * t + b = a
    have bits : a < 8 * ts * (x.length / ts) := by
      have : 8 * (x.length / ts * ts) = 8 * ts * (x.length / ts) := by ring
      omega
    have hi : a / (8 * ts) < x.length / ts := Nat.div_lt_of_lt_mul bits
    have place := transpose_lt hi (Nat.mod_lt a (show 0 < 8 * ts by omega))
    obtain ⟨column, row⟩ := transpose_place (a % (8 * ts)) hi
    have inside : x.length / ts * (8 * ts) = 8 * (x.length / ts * ts) := by ring
    rw [bitAt_byteOfBits bytes (by omega), Nat.div_add_mod, column, row, Nat.div_add_mod']
  · rw [if_neg h, bitshuffle, byteAt_map_range _ _ ht, if_neg h]

/-- The bit shuffle of a block shuffles its largest run of whole octets of elements (42_filters.md R335 to R337). -/
theorem bitunshuffleAligned_bitshuffleAligned {ts : Nat} (hts : 1 ≤ ts) (x : List Byte) :
    bitunshuffleAligned ts (bitshuffleAligned ts x) = x := by
  have same : alignedBytes ts (bitshuffleAligned ts x) = alignedBytes ts x := by
    rw [alignedBytes, bitshuffleAligned_length, alignedBytes]
  have front : (bitshuffle ts (x.take (alignedBytes ts x))).length = alignedBytes ts x := by
    rw [bitshuffle_length, List.length_take]
    exact Nat.min_eq_left (alignedBytes_le ts x)
  rw [bitunshuffleAligned, same, bitshuffleAligned, List.take_left' front, List.drop_left' front,
    bitunshuffle_bitshuffle hts, List.take_append_drop]

/-! ## The deltas -/

theorem deltaWidth_pos (ts : Nat) : 1 ≤ deltaWidth ts := by
  unfold deltaWidth
  split
  · omega
  · split <;> omega

/-- Each byte is decoded against the byte that it was encoded against (42_filters.md R342). -/
theorem undeltaRef_deltaRef (ts : Nat) (x : List Byte) : undeltaRef ts (deltaRef ts x) = x := by
  have hl : (deltaRef ts x).length = x.length := deltaRef_length ts x
  have hw := deltaWidth_pos ts
  refine ext_byteAt (by rw [undeltaRef_length, hl]) fun i hi => ?_
  rw [undeltaRef_length, hl] at hi
  induction i using Nat.strong_induction_on with
  | _ i ih =>
    obtain ⟨-, decoded⟩ := undeltaLoop_byteAt (deltaWidth ts) hw (deltaRef ts x) [] i
    have encoded : byteAt (deltaRef ts x) i =
        byteAt x i ^^^ (if deltaWidth ts ≤ i then byteAt x (i - deltaWidth ts) else 0) := byteAt_map_range _ _ hi
    rw [undeltaRef, decoded (Nat.zero_le i) (by rw [hl]; simpa using hi), List.length_nil, Nat.sub_zero, encoded]
    by_cases h : deltaWidth ts ≤ i
    · rw [if_pos h, if_pos h, ← undeltaRef, ih _ (by omega) (by omega), BitVec.xor_assoc, BitVec.xor_self,
        BitVec.xor_zero]
    · rw [if_neg h, if_neg h]
      simp

/-- The delta against a reference undoes itself (42_filters.md R342). -/
theorem deltaXor_deltaXor (x r : List Byte) : deltaXor (deltaXor x r) r = x := by
  have hl : (deltaXor x r).length = x.length := deltaXor_length x r
  refine ext_byteAt (by rw [deltaXor_length, hl]) fun i hi => ?_
  rw [deltaXor_length, hl] at hi
  rw [deltaXor, byteAt_map_range _ _ (hl ▸ hi), deltaXor, byteAt_map_range _ _ hi, BitVec.xor_assoc, BitVec.xor_self,
    BitVec.xor_zero]

/-! ## Pipelines -/

theorem applyFilters_length (ts j : Nat) (r : List Byte) (f : List Filter) (x : List Byte) :
    (applyFilters ts j r f x).length = x.length := by
  rw [← forward_eq, forward_length]

theorem undoFilters_length (ts j : Nat) (r : List Byte) (f : List Filter) (x : List Byte) :
    (undoFilters ts j r f x).length = x.length := by
  rw [← inverse_eq, inverse_length]

theorem applyFilters_blockZero (ts : Nat) (r r' : List Byte) (f : List Filter) (x : List Byte) :
    applyFilters ts 0 r f x = applyFilters ts 0 r' f x := by
  rw [← forward_eq, ← forward_eq, forward_blockZero f ts r r']

theorem undoFilters_blockZero (ts : Nat) (r r' : List Byte) (f : List Filter) (x : List Byte) :
    undoFilters ts 0 r f x = undoFilters ts 0 r' f x := by
  rw [← inverse_eq, ← inverse_eq, inverse_blockZero f ts r r']

/-- The inverse filters give a block back that went through a pipeline without truncation (41_pipeline.md R264). -/
theorem undoFilters_applyFilters {f : List Filter} (hf : Lossless f) {ts : Nat} (hts : 1 ≤ ts) (j : Nat)
    (r x : List Byte) : undoFilters ts j r f (applyFilters ts j r f x) = x := by
  induction f generalizing x with
  | nil => rfl
  | cons g f ih =>
    have rest := fun y => ih (fun p hp => hf p (List.mem_cons_of_mem _ hp)) y
    cases g with
    | shuffle => rw [applyFilters, undoFilters, rest, unshuffle_shuffle hts]
    | bitshuffle => rw [applyFilters, undoFilters, rest, bitunshuffleAligned_bitshuffleAligned hts]
    | delta =>
      rw [applyFilters, undoFilters, rest]
      by_cases hj : j = 0
      · rw [if_pos hj, if_pos hj, undeltaRef_deltaRef]
      · rw [if_neg hj, if_neg hj, deltaXor_deltaXor]
    | truncPrec p => exact absurd List.mem_cons_self (hf p)

end Sys2Proof.Machine
end

section
/-! The decoder reads back every token that the encoder writes (30_encoding.md sections 1 and 3). -/

namespace Sys2Proof

/-- The bytes of a well-formed token are read back as that token, with whatever follows them. -/
theorem decodeToken_tokenBytes {i : Instr} (ht : i.isToken = true) (hw : i.wellFormed = true) (rest : List Byte) :
    decodeToken i.isFirstToken (tokenBytes i ++ rest) = .ok (i, rest) := by
  have short : ∀ {l : BitVec 3}, shortLengthFits l = true → l ≠ 0 ∧ l ≠ 7 := fun {l} h => by
    rw [shortLengthFits_iff] at h
    exact ⟨by bv_omega, by bv_omega⟩
  cases i
  case litFirst marker lits =>
    show decodeToken true (literalBytes marker lits ++ rest) = _
    rw [literalBytes, List.cons_append, decodeToken_first, controlL_control, controlF_control, literalCount hw,
      readLiterals_append]
  case lit lits =>
    show decodeToken false (literalBytes 0 lits ++ rest) = _
    rw [literalBytes, List.cons_append, decodeToken_literal (controlL_control _ _), controlF_control, literalCount hw,
      readLiterals_append]
  case matchShortNear l d =>
    obtain ⟨hl, hd⟩ := Bool.and_eq_true_iff.mp hw
    obtain ⟨h0, h7⟩ := short hl
    show decodeToken false (nearBytes l [] d ++ rest) = _
    rw [nearBytes, List.cons_append, decodeToken_short (by rwa [controlL_control]) (by rwa [controlL_control]),
      controlL_control, controlF_control, List.nil_append, List.singleton_append, readShortMatch, readDistance_near hd]
  case matchShortFar l x =>
    obtain ⟨h0, h7⟩ := short hw
    show decodeToken false (farBytes l [] x ++ rest) = _
    rw [farBytes, List.cons_append, decodeToken_short (by rwa [controlL_control]) (by rwa [controlL_control]),
      controlL_control, controlF_control, List.nil_append, List.cons_append, List.cons_append, List.singleton_append,
      readShortMatch, readDistance_far]
  case matchLongNear ext d =>
    show decodeToken false (nearBytes 7 (extensionBytes ext) d ++ rest) = _
    rw [nearBytes, List.cons_append, decodeToken_long (controlL_control _ _), controlF_control, List.append_assoc,
      readLongMatch, readExtension_extensionBytes]
    simp only [List.singleton_append, readDistance_near hw]
  case matchLongFar ext x =>
    show decodeToken false (farBytes 7 (extensionBytes ext) x ++ rest) = _
    rw [farBytes, List.cons_append, decodeToken_long (controlL_control _ _), controlF_control, List.append_assoc,
      readLongMatch, readExtension_extensionBytes]
    simp only [List.cons_append, List.nil_append, readDistance_far]
  all_goals exact absurd ht Bool.false_ne_true

theorem tokenBytes_ne_nil {i : Instr} (ht : i.isToken = true) : tokenBytes i ≠ [] := by
  cases i
  case litFirst marker lits => exact List.cons_ne_nil _ _
  case lit lits => exact List.cons_ne_nil _ _
  case matchShortNear l d => exact List.cons_ne_nil _ _
  case matchShortFar l x => exact List.cons_ne_nil _ _
  case matchLongNear ext d => exact List.cons_ne_nil _ _
  case matchLongFar ext x => exact List.cons_ne_nil _ _
  all_goals exact absurd ht Bool.false_ne_true

end Sys2Proof

namespace Sys2Proof.Machine

/-! ## Token sequences -/

/-- The tokens of a stream: each is well formed, and the first alone has the first token's form, where `first` says that
the sequence starts its stream (30_encoding.md R170, R172). -/
def TokenChain : Bool → List Instr → Prop
  | _, [] => True
  | first, i :: rest =>
    (i.isToken = true ∧ i.wellFormed = true ∧ i.isFirstToken = first) ∧ TokenChain false rest

/-- The output after a token sequence, none where a token fails (43_lz_codec.md R401). -/
def replay : List Instr → List Byte → Option (List Byte)
  | [], out => some out
  | i :: rest, out => (tokenOutput i out).bind fun new => replay rest (out ++ new)

theorem TokenChain.append {first : Bool} {a b : List Instr} (ha : TokenChain first a)
    (hb : TokenChain (first && a.isEmpty) b) : TokenChain first (a ++ b) := by
  induction a generalizing first with
  | nil => simpa using hb
  | cons i a ih => exact ⟨ha.1, ih ha.2 (by simpa using hb)⟩

theorem replay_append (a b : List Instr) (out : List Byte) :
    replay (a ++ b) out = (replay a out).bind (replay b) := by
  induction a generalizing out with
  | nil => rfl
  | cons i a ih =>
    simp only [List.cons_append, replay]
    cases tokenOutput i out with
    | none => rfl
    | some new => exact ih _

/-- Tokens only append. -/
theorem replay_prefix {tokens : List Instr} {out o : List Byte} (h : replay tokens out = some o) : out <+: o := by
  induction tokens generalizing out with
  | nil =>
    cases h
    exact List.prefix_refl _
  | cons i tokens ih =>
    rw [replay] at h
    obtain ⟨new, -, hr⟩ := Option.bind_eq_some_iff.mp h
    exact (List.prefix_append _ _).trans (ih hr)

/-- The decoder's loop on the bytes of a token sequence runs those tokens (43_lz_codec.md R401). -/
theorem decodeLoop_streamBytes {cap fuel ip : Nat} {first : Bool} {tokens : List Instr} {out o : List Byte}
    (hc : TokenChain first tokens) (hr : replay tokens out = some o) (hcap : o.length ≤ cap)
    (hf : tokens.length ≤ fuel) : decodeLoop cap fuel first ip (streamBytes tokens) out = .ok o := by
  induction tokens generalizing fuel ip first out with
  | nil =>
    cases hr
    cases fuel <;> rfl
  | cons i tokens ih =>
    obtain ⟨⟨ht, hw, hfirst⟩, hrest⟩ := hc
    obtain ⟨new, hnew, hr⟩ := Option.bind_eq_some_iff.mp hr
    obtain ⟨fuel, rfl⟩ : ∃ k, fuel = k + 1 := ⟨fuel - 1, by rw [List.length_cons] at hf; omega⟩
    have fits := (replay_prefix hr).length_le
    rw [List.length_append] at fits
    have read := decodeToken_tokenBytes ht hw (streamBytes tokens)
    obtain ⟨b, bytes, hb⟩ := List.exists_cons_of_ne_nil (tokenBytes_ne_nil ht)
    rw [hfirst, hb, List.cons_append] at read
    rw [streamBytes, List.flatMap_cons, hb, List.cons_append, decodeLoop, ← streamBytes, read]
    simp only [hnew]
    rw [if_neg (by omega)]
    exact ih hrest hr (by rw [List.length_cons] at hf; omega)

theorem streamBytes_length_ge {first : Bool} {tokens : List Instr} (hc : TokenChain first tokens) :
    tokens.length ≤ (streamBytes tokens).length := by
  induction tokens generalizing first with
  | nil => exact Nat.le_refl _
  | cons i tokens ih =>
    have rest := ih hc.2
    have one := List.length_pos_iff.mpr (tokenBytes_ne_nil hc.1.1)
    rw [streamBytes, List.flatMap_cons, List.length_append, List.length_cons, ← streamBytes]
    omega

/-- A stream of tokens decodes to what the tokens give, in any capacity that holds it. -/
theorem lzDecode_streamBytes {cap : Nat} {tokens : List Instr} {o : List Byte} (hc : TokenChain true tokens)
    (hr : replay tokens [] = some o) (hcap : o.length ≤ cap) : lzDecode (streamBytes tokens) cap = .ok o :=
  decodeLoop_streamBytes hc hr hcap (streamBytes_length_ge hc)

/-! ## The tokens of pending literals -/

theorem tokenOutput_literal (first : Bool) (run out : List Byte) :
    tokenOutput (if first then .litFirst 1 run else .lit run) out = some run := by
  cases first <;> rfl

/-- The runs of pending literals give the literals back (43_lz_codec.md R389). -/
theorem replay_literals (n : Nat) (first : Bool) (lits out : List Byte) (h : lits.length ≤ n) :
    replay (literalTokens first (literalRuns n lits)) out = some (out ++ lits) := by
  induction n generalizing first lits out with
  | zero =>
    have : lits = [] := by simpa using h
    subst this
    simp [literalRuns, literalTokens, replay]
  | succ n ih =>
    rw [literalRuns]
    by_cases h0 : lits = []
    · subst h0
      simp [literalTokens, replay]
    · have := List.length_pos_iff.mpr h0
      rw [if_neg h0, literalTokens, replay, tokenOutput_literal, Option.bind_some,
        ih false _ _ (by rw [List.length_drop]; omega), List.append_assoc, List.take_append_drop]

theorem literals_chain (n : Nat) (first : Bool) (lits : List Byte) :
    TokenChain first (literalTokens first (literalRuns n lits)) := by
  induction n generalizing first lits with
  | zero => exact trivial
  | succ n ih =>
    rw [literalRuns]
    by_cases h0 : lits = []
    · rw [if_pos h0]
      exact trivial
    · have hp := List.length_pos_iff.mpr h0
      have fits : literalsFit (lits.take 32) = true := by
        rw [literalsFit, Bool.and_eq_true, decide_eq_true_iff, decide_eq_true_iff, List.length_take]
        omega
      rw [if_neg h0, literalTokens]
      refine ⟨?_, ih false _⟩
      cases first
      · exact ⟨rfl, fits, rfl⟩
      · exact ⟨rfl, fits, rfl⟩

/-! ## The match that the encoder takes -/

/-- A match that is taken stands for the bytes that follow in the input, and its token copies them from the output
before it (43_lz_codec.md R385, R405). -/
theorem usableMatch_some {x : List Byte} {candidate : Option Nat} {p len dist : Nat} (hp : p + 4 ≤ x.length)
    (hc : ∀ c, candidate = some c → c < p) (h : usableMatch x candidate p = some (len, dist)) :
    4 ≤ len ∧ p + len ≤ x.length ∧ 1 ≤ dist ∧ dist ≤ p ∧ dist ≤ 73727 ∧
      ∀ k < len, byteAt x (p + k) = byteAt x (p - dist + k) := by
  unfold usableMatch at h
  split at h
  · cases h
  · rename_i c
    have before := hc c rfl
    split at h
    · rename_i near
      simp only at h
      split at h
      · cases h
        have tail := commonHead_le (x.drop c) (x.drop p)
        rw [List.length_drop] at tail
        have four := commonHead_ge (n := 4) near.2 (by rw [List.length_drop]; omega)
        have reach : p - c ≤ 73727 := near.1
        refine ⟨four, by omega, by omega, by omega, reach, fun k hk => ?_⟩
        have same := commonHead_byteAt hk
        rw [byteAt_drop, byteAt_drop] at same
        rw [show p - (p - c) = c by omega, same]
      · cases h
    · cases h

/-- Copying a match from the input so far gives the input so far and the bytes that the match stands for. -/
theorem copyMatch_take {x : List Byte} {p len dist : Nat} (h1 : 1 ≤ dist) (hd : dist ≤ p) (hl : p + len ≤ x.length)
    (same : ∀ k < len, byteAt x (p + k) = byteAt x (p - dist + k)) :
    copyMatch dist len (x.take p) = x.take (p + len) := by
  have hp : (x.take p).length = p := by rw [List.length_take]; omega
  have hlen : (copyMatch dist len (x.take p)).length = p + len := by rw [copyMatch_length, hp]
  have hlen' : (x.take (p + len)).length = p + len := by rw [List.length_take]; omega
  refine ext_byteAt (hlen.trans hlen'.symm) fun i hi => ?_
  rw [hlen] at hi
  induction i using Nat.strong_induction_on with
  | _ i ih =>
    by_cases h : i < p
    · rw [byteAt_prefix (copyMatch_prefix _ _ _) (by omega), byteAt_take h, byteAt_take hi]
    · rw [byteAt_copyMatch h1 (by omega) (by omega) (by omega), ih _ (by omega) (by omega), byteAt_take (by omega),
        byteAt_take hi, show i - dist = p - dist + (i - p) by omega, ← same _ (by omega)]
      congr 1
      omega

theorem matchToken_isToken (len dist : Nat) :
    (matchToken len dist).isToken = true ∧ (matchToken len dist).isFirstToken = false := by
  unfold matchToken
  split
  · split <;> exact ⟨rfl, rfl⟩
  · split <;> exact ⟨rfl, rfl⟩

/-- The match token of a length and a distance of the format (30_encoding.md R179, R180). -/
theorem matchToken_spec {len dist : Nat} (h : 4 ≤ len) (h1 : 1 ≤ dist) (h2 : dist ≤ 73727) :
    (matchToken len dist).wellFormed = true ∧ matchForm (matchToken len dist) = some (len, dist) := by
  obtain ⟨i, hw, hform⟩ := exists_matchForm h h1 h2
  rw [← eq_matchToken_of_matchForm hw hform]
  exact ⟨hw, hform⟩

/-! ## The encoder's loop -/

/-- What the encoder holds at position `p`: its tokens give the input up to the pending literals, these the rest up to
`p`, and the table only positions before `p`. -/
structure EncoderAt (x : List Byte) (p : Nat) (s : Encoder) : Prop where
  inside : p ≤ x.length
  chain : TokenChain true s.tokens
  output : replay s.tokens [] = some (x.take (p - s.lits.length))
  pending : x.take (p - s.lits.length) ++ s.lits = x.take p
  table : ∀ h c, s.ht.find h = some c → c < p

theorem EncoderAt.start (x : List Byte) : EncoderAt x 0 ⟨[], [], []⟩ :=
  ⟨Nat.zero_le _, trivial, rfl, rfl, fun _ _ h => by cases h⟩

/-- The flush turns the pending literals into tokens (43_lz_codec.md R389). -/
theorem EncoderAt.flush {x : List Byte} {p : Nat} {s : Encoder} (h : EncoderAt x p s) :
    TokenChain true s.flush.tokens ∧ replay s.flush.tokens [] = some (x.take p) := by
  refine ⟨h.chain.append ?_, ?_⟩
  · exact literals_chain _ _ _
  · rw [Encoder.flush, replay_append, h.output, Option.bind_some, replay_literals _ _ _ _ (Nat.le_refl _), h.pending]

theorem EncoderAt.flush_ne_nil {x : List Byte} {p : Nat} {s : Encoder} (h : EncoderAt x p s) (hp : 0 < p) :
    s.flush.tokens ≠ [] := by
  intro c
  obtain ⟨-, output⟩ := h.flush
  rw [c, replay, Option.some.injEq] at output
  have := congrArg List.length output
  have := h.inside
  simp only [List.length_nil, List.length_take] at *
  omega

theorem find_set_lt {t : HashTable} {h p : Nat} (ht : ∀ k c, t.find k = some c → c < p) {q : Nat} (hq : p < q) :
    ∀ k c, (t.set h p).find k = some c → c < q := by
  intro k c hk
  rw [HashTable.find_set] at hk
  split at hk
  · cases hk
    exact hq
  · exact (ht k c hk).trans hq

theorem take_succ_byteAt {x : List Byte} {p : Nat} (hp : p < x.length) : x.take (p + 1) = x.take p ++ [byteAt x p] := by
  rw [List.take_succ_eq_append_getElem hp, byteAt_eq hp]

/-- A position without a match adds its byte to the pending literals. -/
theorem EncoderAt.literal {x : List Byte} {p : Nat} {s : Encoder} (h : EncoderAt x p s) (hp : p < x.length)
    {ht : HashTable} (table : ∀ k c, ht.find k = some c → c < p + 1) :
    EncoderAt x (p + 1) { s with lits := s.lits ++ [byteAt x p], ht := ht } := by
  have same : p + 1 - (s.lits ++ [byteAt x p]).length = p - s.lits.length := by
    rw [List.length_append, List.length_singleton]
    omega
  refine ⟨hp, h.chain, ?_, ?_, table⟩
  · rw [same]
    exact h.output
  · rw [same, ← List.append_assoc, h.pending, take_succ_byteAt hp]

/-- A match that is taken moves past the bytes it stands for. -/
theorem EncoderAt.takeMatch {x : List Byte} {p len dist : Nat} {s : Encoder} (h : EncoderAt x p s) (hp : p + 4 ≤ x.length)
    {k : Nat} (hm : usableMatch x (s.ht.find k) p = some (len, dist)) :
    EncoderAt x (p + len)
      { s.flush with tokens := s.flush.tokens ++ [matchToken len dist], ht := s.ht.set k p } := by
  obtain ⟨four, inside, one, back, near, same⟩ := usableMatch_some hp (h.table k) hm
  obtain ⟨chain, output⟩ := h.flush
  obtain ⟨isToken, notFirst⟩ := matchToken_isToken len dist
  obtain ⟨wellFormed, form⟩ := matchToken_spec four one near
  have some_before : s.flush.tokens.isEmpty = false := by
    rw [List.isEmpty_eq_false_iff]
    exact h.flush_ne_nil (by omega)
  have hlen : (x.take p).length = p := by rw [List.length_take]; omega
  obtain ⟨new, hnew, -, copied⟩ := matchOutput_some (len := len) (out := x.take p) (show dist ≤ _ by omega)
  refine ⟨inside, chain.append ?_, ?_, ?_, find_set_lt h.table (by omega)⟩
  · rw [some_before]
    exact ⟨⟨isToken, wellFormed, notFirst⟩, trivial⟩
  · show replay (s.flush.tokens ++ [matchToken len dist]) [] = some (x.take (p + len - 0))
    rw [replay_append, output, Option.bind_some, replay, tokenOutput_match form, hnew, Option.bind_some, replay, copied,
      copyMatch_take one back inside same, Nat.sub_zero]
  · show x.take (p + len - 0) ++ [] = _
    rw [List.append_nil, Nat.sub_zero]

/-- The encoder's loop reaches the end of its input. -/
theorem encodeLoop_at (e : Nat) {x : List Byte} {fuel p : Nat} {s : Encoder} (h : EncoderAt x p s)
    (hf : x.length ≤ p + fuel) : EncoderAt x x.length (encodeLoop e x fuel p s) := by
  induction fuel generalizing p s with
  | zero =>
    have hp : p = x.length := Nat.le_antisymm h.inside hf
    exact hp ▸ h
  | succ fuel ih =>
    rw [encodeLoop]
    by_cases hp : p < x.length
    · rw [if_pos hp]
      by_cases h4 : p + 4 ≤ x.length
      · rw [if_pos h4]
        simp only
        split
        · rename_i len dist hm
          obtain ⟨four, -⟩ := usableMatch_some h4 (h.table _) hm
          exact ih (h.takeMatch h4 hm) (by omega)
        · exact ih (h.literal hp (find_set_lt h.table (Nat.lt_succ_self p))) (by omega)
      · rw [if_neg h4]
        exact ih (h.literal hp fun k c hk => (h.table k c hk).trans (Nat.lt_succ_self p)) (by omega)
    · rw [if_neg hp]
      have hp : p = x.length := Nat.le_antisymm h.inside (Nat.not_lt.mp hp)
      exact hp ▸ h

/-- What the encoder writes decodes to its input (43_lz_codec.md R415). -/
theorem lzDecode_greedyStream (e : Nat) {x : List Byte} {cap : Nat} (h : x.length ≤ cap) :
    lzDecode (greedyStream e x) cap = .ok x := by
  obtain ⟨chain, output⟩ := (encodeLoop_at e (EncoderAt.start x) (Nat.le_add_left _ _)).flush
  rw [List.take_length] at output
  rw [← streamBytes_encodeTokens]
  exact lzDecode_streamBytes chain output h

theorem greedyStream_ne_nil (e : Nat) {x : List Byte} (h : x ≠ []) : greedyStream e x ≠ [] := by
  intro c
  have decoded := lzDecode_greedyStream e (Nat.le_refl x.length)
  rw [c] at decoded
  exact h (Except.ok.inj decoded).symm

end Sys2Proof.Machine
end

section
/-! The block-offset table and the blocks of the chunk in the source, in the words of the claims and of the model. -/

namespace Sys2Proof.Machine

/-- The bytes of the chunk in the source (41_pipeline.md R285). -/
def State.chunk (s : State) : List Byte := s.mem.readBytes s.latched.src.base (s.srcWord 12).toNat

/-- Where the payloads start: the entries of the table, or the end of the header of a chunk of one block
(41_pipeline.md R288). -/
def State.chunkStarts (s : State) : List Nat :=
  if 1 < s.chunkBlocks then (List.range s.chunkBlocks).map s.tableEntry else [s.srcHeaderLength]

section
variable {s : State}

theorem headerRecord_pipeline (s : State) : s.headerRecord.pipeline = s.sourceFilters := by
  unfold Header.pipeline State.sourceFilters State.headerRecord
  cases s.srcExtended <;> rfl

theorem chunkBlocks_pos (h : HeaderAccepted s) (hn : 0 < (s.srcWord 4).toNat) : 0 < s.chunkBlocks :=
  cdiv_pos hn (h.fields.blockFits hn).1

/-! ## The table (41_pipeline.md R288) -/

theorem le32_chunk {k : Nat} (h : k + 4 ≤ (s.srcWord 12).toNat) : le32 s.chunk k = (s.srcWord k).toNat := by
  have byte : ∀ i < (s.srcWord 12).toNat, byteAt s.chunk i = s.srcByte i := fun i hi => byteAt_readBytes _ _ _ hi
  rw [le32_eq (by rwa [State.chunk, Memory.readBytes_length]), byte _ (by omega), byte _ (by omega),
    byte _ (by omega), byte _ (by omega), State.srcWord, word_toNat]

/-- The entries as payload_map reads them. -/
theorem chunkEntries (several : 1 < s.chunkBlocks) (room : s.tableEnd ≤ (s.srcWord 12).toNat) :
    (List.range s.chunkBlocks).map (fun j => le32 s.chunk (s.srcHeaderLength + 4 * j)) = s.chunkStarts := by
  rw [State.chunkStarts, if_pos several]
  refine List.map_congr_left fun j hj => le32_chunk ?_
  rw [List.mem_range] at hj
  rw [State.tableEnd, if_pos several] at room
  omega

/-- Some entry is not above the one before it. -/
theorem notRising_iff (f : Nat → Nat) (n : Nat) :
    (((List.range n).map f).zip ((List.range n).map f).tail).any (fun c => decide (c.2 ≤ c.1)) = true ↔
      ∃ j, j + 1 < n ∧ f (j + 1) ≤ f j := by
  simp only [List.any_eq_true, decide_eq_true_eq, List.mem_iff_getElem]
  constructor
  · rintro ⟨c, ⟨j, hj, rfl⟩, hc⟩
    simp only [List.length_zip, List.length_tail, List.length_map, List.length_range] at hj
    exact ⟨j, by omega, by simpa using hc⟩
  · rintro ⟨j, hj, hc⟩
    exact ⟨_, ⟨j, by simp; omega, rfl⟩, by simpa using hc⟩

/-- The last two checks of payload_map of several blocks: their order, and that the last payload starts inside. -/
theorem payloadMap_several (several : 1 < s.chunkBlocks) (room : s.tableEnd ≤ (s.srcWord 12).toNat) :
    (¬ TableInOrder s → payloadMap s.headerRecord s.chunk = .error (.header, 0)) ∧
    (TableInOrder s → payloadMap s.headerRecord s.chunk =
      if (s.srcWord 12).toNat < s.tableEntry (s.chunkBlocks - 1) then .error (.truncated, 0)
      else .ok s.chunkStarts) := by
  have entries := chunkEntries several room
  have starts : s.chunkStarts = (List.range s.chunkBlocks).map s.tableEntry := if_pos several
  have entry : ∀ j < s.chunkBlocks, s.chunkStarts.getD j 0 = s.tableEntry j := fun j hj => by
    simp [starts, List.getD, hj]
  have map : payloadMap s.headerRecord s.chunk =
      match firstFailing
        [(decide (s.tableEntry 0 ≠ s.tableEnd), .header, 0),
         ((s.chunkStarts.zip s.chunkStarts.tail).any (fun c => decide (c.2 ≤ c.1)), .header, 0),
         (decide ((s.srcWord 12).toNat < s.tableEntry (s.chunkBlocks - 1)), .truncated, 0)] with
      | some e => .error e
      | none => .ok s.chunkStarts := by
    rw [← entry 0 (by omega), ← entry (s.chunkBlocks - 1) (by omega), ← entries, payloadMap]
    exact (if_neg (Nat.not_lt.mpr room)).trans (if_neg (Nat.ne_of_gt several))
  have rising : (s.chunkStarts.zip s.chunkStarts.tail).any (fun c => decide (c.2 ≤ c.1)) = true ↔
      ∃ j, j + 1 < s.chunkBlocks ∧ s.tableEntry (j + 1) ≤ s.tableEntry j := by
    rw [starts]
    exact notRising_iff _ _
  rw [map]
  refine ⟨fun disorder => ?_, fun order => ?_⟩
  · by_cases first : s.tableEntry 0 = s.tableEnd
    · have : (s.chunkStarts.zip s.chunkStarts.tail).any (fun c => decide (c.2 ≤ c.1)) = true := by
        rw [rising]
        by_contra none
        exact disorder ⟨first, fun j hj => Nat.lt_of_not_le fun hle => none ⟨j, hj, hle⟩⟩
      rw [this, firstFailing, if_neg (by simpa using first), firstFailing, if_pos rfl]
    · rw [firstFailing, if_pos (decide_eq_true first)]
  · have : (s.chunkStarts.zip s.chunkStarts.tail).any (fun c => decide (c.2 ≤ c.1)) = false := by
      rw [Bool.eq_false_iff, Ne, rising]
      rintro ⟨j, hj, hle⟩
      exact Nat.not_lt.mpr hle (order.rising j hj)
    rw [this, firstFailing, if_neg (by simpa using order.first), firstFailing, if_neg Bool.false_ne_true]
    by_cases last : (s.srcWord 12).toNat < s.tableEntry (s.chunkBlocks - 1)
    · rw [if_pos last, firstFailing, if_pos (decide_eq_true last)]
    · rw [if_neg last, firstFailing, if_neg (by simpa using last), firstFailing]

theorem payloadMap_short (h : (s.srcWord 12).toNat < s.tableEnd) :
    payloadMap s.headerRecord s.chunk = .error (.truncated, 0) := if_pos h

/-- payload_map gives the starts of the payloads where the table is accepted. -/
theorem payloadMap_accepted (hb : 0 < s.chunkBlocks) (h : TableAccepted s) :
    payloadMap s.headerRecord s.chunk = .ok s.chunkStarts := by
  by_cases several : 1 < s.chunkBlocks
  · rw [(payloadMap_several several h.room).2 (h.order several), if_neg (Nat.not_lt.mpr (h.last several))]
  · have one : s.chunkBlocks = 1 := by omega
    rw [State.chunkStarts, if_neg several, payloadMap]
    exact (if_neg (Nat.not_lt.mpr h.room)).trans (if_pos one)

/-! ## The payloads (41_pipeline.md R288) -/

theorem chunkStarts_length (hb : 0 < s.chunkBlocks) : s.chunkStarts.length = s.chunkBlocks := by
  unfold State.chunkStarts
  split
  · simp
  · rw [List.length_singleton]
    omega

theorem chunkStarts_getD {j : Nat} (hj : j < s.chunkBlocks) :
    s.chunkStarts.getD j 0 = if 1 < s.chunkBlocks then s.tableEntry j else s.srcHeaderLength := by
  unfold State.chunkStarts
  split
  · simp [List.getD, hj]
  · obtain rfl : j = 0 := by omega
    rfl

/-- Every payload starts inside the chunk. -/
theorem chunkStarts_le (h : TableAccepted s) {j : Nat} (hj : j < s.chunkBlocks) :
    s.chunkStarts.getD j 0 ≤ (s.srcWord 12).toNat := by
  rw [chunkStarts_getD hj]
  have room := h.room
  rw [State.tableEnd] at room
  split
  · rename_i several
    have rising : ∀ k, j + k < s.chunkBlocks → s.tableEntry j ≤ s.tableEntry (j + k) := by
      intro k
      induction k with
      | zero => exact fun _ => Nat.le_refl _
      | succ k ih =>
        intro hk
        exact (ih (by omega)).trans ((h.order several).rising (j + k) hk).le
    have last := rising (s.chunkBlocks - 1 - j) (by omega)
    rw [show j + (s.chunkBlocks - 1 - j) = s.chunkBlocks - 1 by omega] at last
    exact last.trans (h.last several)
  · omega

theorem payloadBytes_eq (h : TableAccepted s) {j : Nat} (hj : j < s.chunkBlocks) :
    payloadBytes s.headerRecord s.chunk s.chunkStarts j = s.payload j := by
  have several : j + 1 < s.chunkBlocks → 1 < s.chunkBlocks := by omega
  have start := chunkStarts_le h hj
  have stop : (if j + 1 < s.chunkBlocks then s.chunkStarts.getD (j + 1) 0 else (s.srcWord 12).toNat) ≤
      (s.srcWord 12).toNat := by
    split
    · exact chunkStarts_le h ‹_›
    · exact Nat.le_refl _
  have stop_eq : (if j + 1 < s.chunkBlocks then s.chunkStarts.getD (j + 1) 0 else (s.srcWord 12).toNat) =
      if j + 1 < s.chunkBlocks then s.tableEntry (j + 1) else (s.srcWord 12).toNat := by
    by_cases next : j + 1 < s.chunkBlocks
    · rw [if_pos next, if_pos next, chunkStarts_getD next, if_pos (several next)]
    · rw [if_neg next, if_neg next]
  unfold payloadBytes State.payload
  rw [chunkStarts_length (by omega), ← chunkStarts_getD hj, ← stop_eq,
    show s.headerRecord.cbytes = (s.srcWord 12).toNat from rfl]
  exact slice_readBytes _ _ _ _ _ (by omega)

/-! ## The blocks (41_pipeline.md R289) -/

/-- What decode_block answers: the payload's bytes, and the block after the inverse filters. -/
theorem decodeBlock_some_iff (h : TableAccepted s) {j : Nat} (hj : j < s.chunkBlocks) {r x y : List Byte} :
    decodeBlock s.headerRecord s.chunk s.chunkStarts j r = some (x, y) ↔
      BlockDecodes s j x ∧ y = undoFilters (s.srcByte 3).toNat j r s.sourceFilters x := by
  unfold decodeBlock BlockDecodes
  rw [payloadBytes_eq h hj, headerRecord_pipeline]
  have capacity : blockLength s.headerRecord.nbytes s.headerRecord.bs j = s.chunkBlockLength j := rfl
  rw [capacity]
  cases lzDecode (s.payload j) (s.chunkBlockLength j) with
  | error e => simp
  | ok z =>
    simp only [Except.ok.injEq, inverse_eq]
    by_cases hz : z.length = s.chunkBlockLength j
    · rw [if_pos hz, Option.some.injEq, Prod.mk.injEq]
      constructor
      · rintro ⟨rfl, rfl⟩
        exact ⟨⟨rfl, hz⟩, rfl⟩
      · rintro ⟨⟨rfl, -⟩, rfl⟩
        exact ⟨rfl, rfl⟩
    · rw [if_neg hz]
      simp only [reduceCtorEq, false_iff]
      rintro ⟨⟨rfl, hl⟩, -⟩
      exact hz hl

theorem decodeBlock_none (h : TableAccepted s) {j : Nat} (hj : j < s.chunkBlocks) (bad : ¬ ∃ x, BlockDecodes s j x)
    (r : List Byte) : decodeBlock s.headerRecord s.chunk s.chunkStarts j r = none := by
  rw [Option.eq_none_iff_forall_ne_some]
  rintro ⟨x, y⟩ hd
  exact bad ⟨x, ((decodeBlock_some_iff h hj).mp hd).1⟩

/-- Block `j` of the buffer in the chunk whose payloads decode to the blocks `x`, after the inverse filters; the delta
reference is the final block 0 (41_pipeline.md R290). -/
def State.finalBlock (s : State) (x : Nat → List Byte) (j : Nat) : List Byte :=
  undoFilters (s.srcByte 3).toNat j (undoFilters (s.srcByte 3).toNat 0 [] s.sourceFilters (x 0)) s.sourceFilters (x j)

theorem finalBlock_zero (s : State) (x : Nat → List Byte) (r : List Byte) :
    s.finalBlock x 0 = undoFilters (s.srcByte 3).toNat 0 r s.sourceFilters (x 0) :=
  undoFilters_blockZero _ _ _ _ _

theorem chunkByte_eq (s : State) (x : Nat → List Byte) (b : Nat) :
    s.chunkByte x b = byteAt (s.finalBlock x (b / (s.srcWord 8).toNat)) (b % (s.srcWord 8).toNat) := rfl

theorem finalBlock_length {x : Nat → List Byte} {j : Nat} (h : BlockDecodes s j (x j)) :
    (s.finalBlock x j).length = s.chunkBlockLength j := by
  rw [State.finalBlock, undoFilters_length, h.2]

/-- A block decodes to its final bytes with block 0 as the reference. -/
theorem decodeBlock_final (h : TableAccepted s) {x : Nat → List Byte} {j : Nat} (hj : j < s.chunkBlocks)
    (hx : BlockDecodes s j (x j)) : decodeBlock s.headerRecord s.chunk s.chunkStarts j (s.finalBlock x 0) =
      some (x j, s.finalBlock x j) := by
  rw [decodeBlock_some_iff h hj]
  refine ⟨hx, ?_⟩
  rw [finalBlock_zero s x []]
  rfl

end

end Sys2Proof.Machine
end

section
/-! The block loops of DECOMPRESS and GET_ITEM_RANGE, and the buffer that blocks make up. -/

namespace Sys2Proof.Machine

/-! ## Blocks one after the other (41_pipeline.md R261) -/

/-- The parts of the blocks of size `bs` that lie in a byte range that starts in block `i`, one after the other: as long
as the range up to the end of the last of them, and each byte that of its block. -/
theorem byteAt_blockParts {bs a z i m : Nat} (hbs : 0 < bs) (ha : i * bs ≤ a) (ha' : a < (i + 1) * bs)
    {part g : Nat → List Byte}
    (length : ∀ j, i ≤ j → j < i + m → (part j).length = min z ((j + 1) * bs) - max a (j * bs))
    (bytes : ∀ j, i ≤ j → j < i + m → ∀ k < (part j).length,
      byteAt (part j) k = byteAt (g j) (max a (j * bs) - j * bs + k)) :
    ((List.range' i m).flatMap part).length = min z ((i + m) * bs) - a ∧
      ∀ k < min z ((i + m) * bs) - a,
        byteAt ((List.range' i m).flatMap part) k = byteAt (g ((a + k) / bs)) ((a + k) % bs) := by
  induction m with
  | zero =>
    rw [Nat.add_zero]
    exact ⟨by simp; omega, fun k hk => by omega⟩
  | succ m ih =>
    obtain ⟨ihl, ihb⟩ := ih (fun j h h' => length j h (by omega)) fun j h h' => bytes j h (by omega)
    have hl := length (i + m) (by omega) (by omega)
    have hb := bytes (i + m) (by omega) (by omega)
    have next : (i + m + 1) * bs = (i + m) * bs + bs := Nat.succ_mul _ _
    have first : (i + 1) * bs = i * bs + bs := Nat.succ_mul _ _
    have order : m = 0 ∨ (i + 1) * bs ≤ (i + m) * bs := by
      rcases Nat.eq_zero_or_pos m with h | h
      · exact .inl h
      · exact .inr (Nat.mul_le_mul_right _ (by omega))
    have start : m = 0 → (i + m) * bs = i * bs := by
      rintro rfl
      rfl
    have split : (List.range' i (m + 1)).flatMap part = (List.range' i m).flatMap part ++ part (i + m) := by
      rw [List.range'_concat, List.flatMap_append, Nat.one_mul, List.flatMap_singleton]
    rw [split, List.length_append, ihl, hl, ← Nat.add_assoc, next]
    rw [next] at hl
    refine ⟨by omega, fun k hk => ?_⟩
    by_cases h : k < min z ((i + m) * bs) - a
    · rw [byteAt_append_left (by omega), ihb k h]
    · have quotient : (a + k) / bs = i + m := by
        rw [Nat.div_eq_iff hbs]
        have : bs * (i + m) = (i + m) * bs := Nat.mul_comm _ _
        omega
      have remainder : (a + k) % bs = a + k - (i + m) * bs := by
        have := Nat.div_add_mod (a + k) bs
        rw [quotient, Nat.mul_comm] at this
        omega
      rw [byteAt_append_right (by omega), ihl, hb _ (by omega), quotient, remainder]
      congr 1
      omega

/-- The blocks of a buffer one after the other are the buffer. -/
theorem byteAt_blocks {n bs : Nat} (hbs : 0 < bs) {g : Nat → List Byte}
    (length : ∀ j < cdiv n bs, (g j).length = blockLength n bs j) :
    ((List.range (cdiv n bs)).flatMap g).length = n ∧
      ∀ b < n, byteAt ((List.range (cdiv n bs)).flatMap g) b = byteAt (g (b / bs)) (b % bs) := by
  have all : min n (cdiv n bs * bs) = n := Nat.min_eq_left (cdiv_mul_ge n hbs)
  have parts := byteAt_blockParts (a := 0) (z := n) (i := 0) (m := cdiv n bs) hbs (by omega) (by omega)
    (part := g) (g := g) (fun j _ hj => by
      have next : (j + 1) * bs = j * bs + bs := Nat.succ_mul _ _
      rw [length j (by omega), blockLength]
      omega) (fun j _ _ k _ => by rw [Nat.zero_max, Nat.sub_self, Nat.zero_add])
  simp only [Nat.zero_add, all, Nat.sub_zero, ← List.range_eq_range'] at parts
  exact parts

/-! ## The loops -/

section
variable {h : Header} {c : List Byte} {st : List Nat} {x g : Nat → List Byte}

/-- DECOMPRESS's loop over blocks that decode gives them one after the other (41_pipeline.md R285, R290). -/
theorem decodeBlocks_ok {j m : Nat}
    (hd : ∀ k, j ≤ k → k < j + m → decodeBlock h c st k (g 0) = some (x k, g k)) (w : Scratch) (out : List Byte)
    (hw : j = 0 ∨ w.bufR = g 0) :
    ∃ w', decodeBlocks h c st (List.range' j m) w out = .ok (w', out ++ (List.range' j m).flatMap g) := by
  induction m generalizing j w out with
  | zero => exact ⟨w, by rw [List.range'_zero, List.flatMap_nil, List.append_nil, decodeBlocks]⟩
  | succ m ih =>
    have this : decodeBlock h c st j w.bufR = some (x j, g j) := by
      rw [← hd j (Nat.le_refl j) (by omega)]
      rcases hw with rfl | hw
      · exact decodeBlock_zero h c st _ _
      · rw [hw]
    have reference : (if j = 0 then g j else w.bufR) = g 0 := by
      by_cases h0 : j = 0
      · rw [if_pos h0, h0]
      · rw [if_neg h0, hw.resolve_left h0]
    obtain ⟨w', hr⟩ := ih (j := j + 1) (fun k h1 h2 => hd k (by omega) (by omega))
      ⟨w.ht, x j, g j, if j = 0 then g j else w.bufR⟩ (out ++ g j) (.inr reference)
    refine ⟨w', ?_⟩
    rw [List.range'_succ, decodeBlocks, this]
    simp only
    rw [hr, List.flatMap_cons, List.append_assoc]

/-- Where DECOMPRESS's loop succeeds every block decodes. -/
theorem decodeBlocks_all {js : List Nat} {w : Scratch} {out : List Byte} {o : Scratch × List Byte}
    (hd : decodeBlocks h c st js w out = .ok o) : ∀ j ∈ js, ∃ r, decodeBlock h c st j r ≠ none := by
  induction js generalizing w out with
  | nil => exact fun j hj => absurd hj List.not_mem_nil
  | cons k js ih =>
    rw [decodeBlocks] at hd
    split at hd
    · cases hd
    · rename_i hk
      intro j hj
      rcases List.mem_cons.mp hj with rfl | hj
      · exact ⟨w.bufR, by rw [hk]; exact Option.some_ne_none _⟩
      · exact ih hd j hj

/-- GET_ITEM_RANGE's loop over blocks that decode gives their parts one after the other (41_pipeline.md R293). -/
theorem decodeRange_ok {a z j m : Nat} {r : List Byte}
    (hd : ∀ k, j ≤ k → k < j + m → decodeBlock h c st k r = some (x k, g k))
    (w : Scratch) (out : List Byte) (hw : w.bufR = r) (hr : hasDelta h.pipeline = true → r = g 0) :
    ∃ w', decodeRange h c st a z (List.range' j m) w out =
      .ok (w', out ++ (List.range' j m).flatMap fun k => rangePart h a z k (g k)) := by
  induction m generalizing j w out with
  | zero => exact ⟨w, by rw [List.range'_zero, List.flatMap_nil, List.append_nil, decodeRange]⟩
  | succ m ih =>
    have rest := fun w out hw => ih (fun k h1 h2 => hd k (by omega) (by omega)) w out hw (j := j + 1)
    rw [List.range'_succ, decodeRange, List.flatMap_cons]
    by_cases h0 : j = 0 ∧ hasDelta h.pipeline = true
    · obtain ⟨rfl, delta⟩ := h0
      obtain ⟨w', hx⟩ := rest w (out ++ rangePart h a z 0 w.bufR) hw
      refine ⟨w', ?_⟩
      rw [if_pos ⟨rfl, delta⟩, hx, hw, hr delta, List.append_assoc]
    · obtain ⟨w', hx⟩ := rest ⟨w.ht, x j, g j, w.bufR⟩ (out ++ rangePart h a z j (g j)) hw
      refine ⟨w', ?_⟩
      rw [if_neg h0, hw, hd j (Nat.le_refl j) (by omega)]
      simp only
      rw [← hw, hx, List.append_assoc]

/-- Where GET_ITEM_RANGE's loop succeeds every block decodes that is not taken from the reference buffer. -/
theorem decodeRange_all {a z : Nat} {js : List Nat} {w : Scratch} {out : List Byte} {o : Scratch × List Byte}
    (hd : decodeRange h c st a z js w out = .ok o) :
    ∀ j ∈ js, (j = 0 ∧ hasDelta h.pipeline = true) ∨ ∃ r, decodeBlock h c st j r ≠ none := by
  induction js generalizing w out with
  | nil => exact fun j hj => absurd hj List.not_mem_nil
  | cons k js ih =>
    intro j hj
    rw [decodeRange] at hd
    split at hd
    · rcases List.mem_cons.mp hj with rfl | hj
      · exact .inl ‹_›
      · exact ih hd j hj
    · split at hd
      · cases hd
      · rename_i hk
        rcases List.mem_cons.mp hj with rfl | hj
        · exact .inr ⟨w.bufR, by rw [hk]; exact Option.some_ne_none _⟩
        · exact ih hd j hj

end

/-! ## The blocks of a byte range (41_pipeline.md R295) -/

theorem rangeBlocks_eq (bs a z : Nat) : rangeBlocks bs a z = List.range' (a / bs) ((z - 1) / bs + 1 - a / bs) := by
  rw [rangeBlocks, ← List.range'_eq_map_range]

/-- A block is one of a range that is not empty exactly when it meets the range. -/
theorem mem_rangeBlocks {bs a z j : Nat} (hbs : 0 < bs) (haz : a < z) :
    j ∈ rangeBlocks bs a z ↔ a < (j + 1) * bs ∧ j * bs < z := by
  have low : a / bs < j + 1 ↔ a < (j + 1) * bs := Nat.div_lt_iff_lt_mul hbs
  have high : j ≤ (z - 1) / bs ↔ j * bs ≤ z - 1 := Nat.le_div_iff_mul_le hbs
  have order : a / bs ≤ (z - 1) / bs := Nat.div_le_div_right (by omega)
  rw [rangeBlocks_eq, List.mem_range'_1]
  omega

theorem hasDelta_iff (f : List Filter) : hasDelta f = true ↔ Filter.delta ∈ f := by
  simp [hasDelta]

end Sys2Proof.Machine
end

section
/-! DECOMPRESS and GET_ITEM_RANGE: the order of their checks, their failures, and what they write. -/

namespace Sys2Proof.Machine

/-! ## A completion that writes the destination -/

/-- `t` is `s` completed with the bytes `v` at the start of its destination and no other byte changed. -/
structure Wrote (s t : State) (r : Results) (stored : Bool) (v : List Byte) : Prop where
  completed : Completed s t r stored
  outside : SameOutside s t s.latched.dstAddr.toNat v.length
  bytes : ∀ k < v.length, t.dstByte k = byteAt v k

theorem complete_wrote {s : State} (hm : s.mem.wf) {v : List Byte} (r : List Nat) (stored : Bool) (w : Scratch)
    (fits : s.latched.dstAddr.toNat + v.length ≤ 4294967296) :
    Wrote s (complete r stored (({ s with work := w } : State).writeDst 0 v)) (Results.ofList r) stored v where
  completed := complete_completed r stored (.of_eq rfl) rfl rfl
  outside _ ha := Memory.read_writeBytes_outside ha
  bytes k hk := by
    rw [byteAt_eq hk]
    exact Memory.read_writeBytes_inside hm fits k hk

/-- A part of the bytes at the start of a destination is read from its place. -/
theorem readBytes_dst {t : State} {v : List Byte} (bytes : ∀ k < v.length, t.dstByte k = byteAt v k) {o n : Nat}
    (ho : o + n ≤ v.length) : t.mem.readBytes (t.latched.dstAddr.toNat + o) n = slice v o n := by
  have hl := slice_length ho
  refine ext_byteAt (by rw [Memory.readBytes_length, hl]) fun k hk => ?_
  rw [Memory.readBytes_length] at hk
  rw [byteAt_readBytes _ _ _ hk, byteAt_slice hk, ← bytes _ (by omega), State.dstByte, Nat.add_assoc]

theorem Wrote.readBytes {s t : State} {r : Results} {stored : Bool} {v : List Byte} (h : Wrote s t r stored v)
    {o n : Nat} (ho : o + n ≤ v.length) : t.mem.readBytes (s.latched.dstAddr.toNat + o) n = slice v o n :=
  h.completed.kept.latched ▸ readBytes_dst h.bytes ho

/-- A failure sets ERR. -/
theorem Failed.status_err {s t : State} {e : Err} {n : Word} (h : Failed s t e n) : t.status.err = true := by
  rw [h.status]

/-- A block that does not decode fails its command; before the first write it leaves memory as it was (log 13). -/
theorem blockFailure_failed (written : List Byte) (s : State) :
    Failed s (blockFailure written s) .truncated 0 ∧
      SameOutside s (blockFailure written s) s.latched.dstAddr.toNat s.latched.dstCap.toNat ∧
      (written = [] → (blockFailure written s).mem = s.mem) := by
  unfold blockFailure
  split
  · exact ⟨raiseError_failed .truncated 0 (.refl s) rfl rfl, fun _ _ => rfl, fun _ => rfl⟩
  · exact ⟨raiseError_failed .truncated 0 (unspecifyDstFrom_hostSide s 0) rfl rfl,
      fun _ ha => read_unspecifyDstFrom_outside ha (Nat.zero_le _), fun h => absurd h ‹_›⟩

/-! ## The order of the checks (41_pipeline.md R285, R293) -/

/-- What DECOMPRESS does once its checks have passed. -/
def State.decompressChunk (s : State) : Step :=
  if (s.srcByte 2).getLsbD 1 then storedCopy s.headerRecord 0 (s.srcWord 4).toNat s
  else if (s.srcWord 4).toNat = 0 then .next (complete [0] false s)
  else
    match payloadMap s.headerRecord s.chunk with
    | .error (e, info) => .next (raiseError e info s)
    | .ok starts =>
      match decodeBlocks s.headerRecord s.chunk starts (List.range s.chunkBlocks) s.work [] with
      | .error written => .next (blockFailure written s)
      | .ok (work, out) => .next (complete [(s.srcWord 4).toNat] false ({ s with work := work }.writeDst 0 out))

/-- What GET_ITEM_RANGE does once its checks have passed. -/
def State.rangeChunk (s : State) : Step :=
  if (s.srcByte 2).getLsbD 1 then storedCopy s.headerRecord s.rangeStart s.rangeEnd s
  else if s.rangeEnd = s.rangeStart then .next (complete [0] false s)
  else
    match payloadMap s.headerRecord s.chunk with
    | .error (e, info) => .next (raiseError e info s)
    | .ok starts =>
      match decodeReference s.headerRecord s.chunk starts s.work with
      | none => .next (blockFailure [] s)
      | some work =>
        match decodeRange s.headerRecord s.chunk starts s.rangeStart s.rangeEnd
          (rangeBlocks (s.srcWord 8).toNat s.rangeStart s.rangeEnd) work [] with
        | .error written => .next (blockFailure written s)
        | .ok (work', out) =>
          .next (complete [s.rangeEnd - s.rangeStart] false ({ s with work := work' }.writeDst 0 out))

theorem afterChecks_append_pass {l k : List (Bool × Err × Nat)} (h : firstFailing l = none) (s : State) (own : Step) :
    afterChecks (l ++ k) s own = afterChecks k s own := by
  rw [afterChecks, firstFailing_append_none h, afterChecks]

theorem afterChecks_append_fail {l : List (Bool × Err × Nat)} {e : Err} {n : Nat} (h : firstFailing l = some (e, n))
    (k : List (Bool × Err × Nat)) (s : State) (own : Step) :
    afterChecks (l ++ k) s own = .next (raiseError e n s) := by
  rw [afterChecks, firstFailing_append_some h]

section
variable {s : State} (hr : RegionsFit s.latched) (ha : HeaderAccepted s)
include hr ha

theorem exec_decompress : exec .decompress s =
    if s.latched.srcLen.toNat < (s.srcWord 12).toNat then .next (raiseError .truncated 0 s)
    else afterChecks
      (supportChecks s.headerRecord ++ [(decide (s.latched.dstCap.toNat < (s.srcWord 4).toNat), .destSmall, 0)]) s
      s.decompressChunk := by
  show execDecompress s = _
  rw [execDecompress, afterRegions_fit rfl rfl rfl hr, sourceHeader_accepted ha]
  rfl

theorem exec_getItemRange : exec .getItemRange s =
    if s.latched.srcLen.toNat < (s.srcWord 12).toNat then .next (raiseError .truncated 0 s)
    else afterChecks
      (supportChecks s.headerRecord ++ [(decide ((s.srcWord 4).toNat < s.rangeEnd), .arg, 6),
        (decide (s.latched.dstCap.toNat < s.rangeEnd - s.rangeStart), .destSmall, 0)]) s s.rangeChunk := by
  show execGetItemRange s = _
  rw [execGetItemRange, afterRegions_fit rfl rfl rfl hr, sourceHeader_accepted ha]
  rfl

/-- Both readers first look whether the chunk is all in the source. -/
theorem exec_reader_cut {i : Instr} (hi : i = .decompress ∨ i = .getItemRange)
    (cut : s.latched.srcLen.toNat < (s.srcWord 12).toNat) : exec i s = .next (raiseError .truncated 0 s) := by
  rcases hi with rfl | rfl
  · rw [exec_decompress hr ha, if_pos cut]
  · rw [exec_getItemRange hr ha, if_pos cut]

/-- Both readers then look whether the chunk is supported. -/
theorem exec_reader_unsupported {i : Instr} (hi : i = .decompress ∨ i = .getItemRange)
    (whole : (s.srcWord 12).toNat ≤ s.latched.srcLen.toNat) (bad : ¬ ChunkSupported s) :
    exec i s = .next (raiseError .unsupported 0 s) := by
  obtain ⟨e, he⟩ := Option.ne_none_iff_exists'.mp fun none => bad ((supportChecks_pass_iff s).mp none)
  obtain rfl := supportChecks_error he
  rcases hi with rfl | rfl
  · rw [exec_decompress hr ha, if_neg (Nat.not_lt.mpr whole), afterChecks_append_fail he]
  · rw [exec_getItemRange hr ha, if_neg (Nat.not_lt.mpr whole), afterChecks_append_fail he]

theorem exec_decompress_supported (whole : (s.srcWord 12).toNat ≤ s.latched.srcLen.toNat) (hs : ChunkSupported s) :
    exec .decompress s = if s.latched.dstCap.toNat < (s.srcWord 4).toNat then .next (raiseError .destSmall 0 s)
      else s.decompressChunk := by
  rw [exec_decompress hr ha, if_neg (Nat.not_lt.mpr whole),
    afterChecks_append_pass ((supportChecks_pass_iff s).mpr hs), afterChecks_cons]
  exact if_congr decide_eq_true_iff rfl rfl

theorem exec_getItemRange_supported (whole : (s.srcWord 12).toNat ≤ s.latched.srcLen.toNat) (hs : ChunkSupported s) :
    exec .getItemRange s = if (s.srcWord 4).toNat < s.rangeEnd then .next (raiseError .arg 6 s)
      else if s.latched.dstCap.toNat < s.rangeEnd - s.rangeStart then .next (raiseError .destSmall 0 s)
      else s.rangeChunk := by
  rw [exec_getItemRange hr ha, if_neg (Nat.not_lt.mpr whole),
    afterChecks_append_pass ((supportChecks_pass_iff s).mpr hs), afterChecks_cons, afterChecks_cons]
  exact if_congr decide_eq_true_iff rfl (if_congr decide_eq_true_iff rfl rfl)

/-! ## Reading blocks -/

theorem reachesBlocks_decompress (h : ReachesBlocks s .decompress) :
    0 < (s.srcWord 4).toNat ∧ (s.srcWord 4).toNat ≤ s.latched.dstCap.toNat ∧
      exec .decompress s = s.decompressChunk := by
  obtain ⟨-, some, room⟩ | ⟨c, -⟩ := h.asked
  · exact ⟨some, room, by rw [exec_decompress_supported hr ha h.whole h.supported, if_neg (Nat.not_lt.mpr room)]⟩
  · cases c

theorem reachesBlocks_getItemRange (h : ReachesBlocks s .getItemRange) :
    s.rangeStart < s.rangeEnd ∧ s.rangeEnd ≤ (s.srcWord 4).toNat ∧
      s.rangeEnd - s.rangeStart ≤ s.latched.dstCap.toNat ∧ exec .getItemRange s = s.rangeChunk := by
  obtain ⟨c, -⟩ | ⟨-, some, inside, room⟩ := h.asked
  · cases c
  · exact ⟨some, inside, room, by rw [exec_getItemRange_supported hr ha h.whole h.supported,
      if_neg (Nat.not_lt.mpr inside), if_neg (Nat.not_lt.mpr room)]⟩

omit hr in
/-- A reader that reaches blocks has blocks to read. -/
theorem ReachesBlocks.blocks {i : Instr} (h : ReachesBlocks s i) :
    (i = .decompress ∨ i = .getItemRange) ∧ 0 < (s.srcWord 8).toNat ∧ 0 < s.chunkBlocks := by
  have some : 0 < (s.srcWord 4).toNat ∧ (i = .decompress ∨ i = .getItemRange) := by
    rcases h.asked with ⟨rfl, some, -⟩ | ⟨rfl, some, inside, -⟩
    · exact ⟨some, .inl rfl⟩
    · exact ⟨by omega, .inr rfl⟩
  exact ⟨some.2, (ha.fields.blockFits some.1).1, chunkBlocks_pos ha some.1⟩

/-- A table that payload_map refuses fails both readers before they write. -/
theorem exec_reader_tableError {i : Instr} (h : ReachesBlocks s i) {e : Err} {n : Nat}
    (hp : payloadMap s.headerRecord s.chunk = .error (e, n)) : exec i s = .next (raiseError e n s) := by
  obtain ⟨rfl | rfl, -, -⟩ := h.blocks ha
  · obtain ⟨some, -, he⟩ := reachesBlocks_decompress hr ha h
    rw [he, State.decompressChunk, if_neg (Bool.eq_false_iff.mp h.coded), if_neg (by omega), hp]
  · obtain ⟨some, -, -, he⟩ := reachesBlocks_getItemRange hr ha h
    rw [he, State.rangeChunk, if_neg (Bool.eq_false_iff.mp h.coded), if_neg (by omega), hp]

section
variable (table : TableAccepted s)
include table

theorem exec_decompress_blocks (h : ReachesBlocks s .decompress) : exec .decompress s =
    match decodeBlocks s.headerRecord s.chunk s.chunkStarts (List.range s.chunkBlocks) s.work [] with
    | .error written => .next (blockFailure written s)
    | .ok (work, out) =>
      .next (complete [(s.srcWord 4).toNat] false (({ s with work := work } : State).writeDst 0 out)) := by
  obtain ⟨some, -, he⟩ := reachesBlocks_decompress hr ha h
  rw [he, State.decompressChunk, if_neg (Bool.eq_false_iff.mp h.coded), if_neg (by omega),
    payloadMap_accepted (chunkBlocks_pos ha some) table]

theorem exec_getItemRange_blocks (h : ReachesBlocks s .getItemRange) : exec .getItemRange s =
    match decodeReference s.headerRecord s.chunk s.chunkStarts s.work with
    | none => .next (blockFailure [] s)
    | some work =>
      match decodeRange s.headerRecord s.chunk s.chunkStarts s.rangeStart s.rangeEnd
        (rangeBlocks (s.srcWord 8).toNat s.rangeStart s.rangeEnd) work [] with
      | .error written => .next (blockFailure written s)
      | .ok (work', out) =>
        .next (complete [s.rangeEnd - s.rangeStart] false (({ s with work := work' } : State).writeDst 0 out)) := by
  obtain ⟨some, -, -, he⟩ := reachesBlocks_getItemRange hr ha h
  obtain ⟨-, -, blocks⟩ := h.blocks ha
  rw [he, State.rangeChunk, if_neg (Bool.eq_false_iff.mp h.coded), if_neg (by omega), payloadMap_accepted blocks table]

/-! ## A block that does not decode (41_pipeline.md R289, R295) -/

theorem exec_decompress_badBlock (h : ReachesBlocks s .decompress) {j : Nat} (hj : j < s.chunkBlocks)
    (bad : ¬ ∃ x, BlockDecodes s j x) :
    ∃ written, exec .decompress s = .next (blockFailure written s) ∧ (j = 0 → written = []) := by
  rw [exec_decompress_blocks hr ha table h]
  cases hd : decodeBlocks s.headerRecord s.chunk s.chunkStarts (List.range s.chunkBlocks) s.work [] with
  | ok o =>
    obtain ⟨r, decodes⟩ := decodeBlocks_all hd j (List.mem_range.mpr hj)
    exact absurd (decodeBlock_none table hj bad r) decodes
  | error written =>
    refine ⟨written, rfl, ?_⟩
    rintro rfl
    obtain ⟨m, hm⟩ : ∃ m, s.chunkBlocks = m + 1 := ⟨s.chunkBlocks - 1, by omega⟩
    rw [hm, List.range_eq_range', List.range'_succ, decodeBlocks, decodeBlock_none table hj bad] at hd
    exact (Except.error.inj hd).symm

theorem exec_getItemRange_badBlock (h : ReachesBlocks s .getItemRange) {j : Nat} (hj : ReadsBlock s .getItemRange j)
    (bad : ¬ ∃ x, BlockDecodes s j x) :
    ∃ written, exec .getItemRange s = .next (blockFailure written s) ∧
      ((∀ k, ReadsBlock s .getItemRange k → j ≤ k) → written = []) := by
  obtain ⟨some, inside, -, -⟩ := reachesBlocks_getItemRange hr ha h
  obtain ⟨-, size, blocks⟩ := h.blocks ha
  have none := decodeBlock_none table hj.1 bad
  have member := fun k => mem_rangeBlocks (j := k) size some
  rw [exec_getItemRange_blocks hr ha table h]
  by_cases reference : j = 0 ∧ hasDelta s.headerRecord.pipeline = true
  · obtain ⟨rfl, delta⟩ := reference
    exact ⟨[], by rw [decodeReference, if_pos delta, none], fun _ => rfl⟩
  · have meets : j ∈ rangeBlocks (s.srcWord 8).toNat s.rangeStart s.rangeEnd := by
      obtain ⟨-, c | ⟨h0, delta⟩ | meets⟩ := hj
      · cases c
      · rw [← hasDelta_iff, ← headerRecord_pipeline] at delta
        exact absurd ⟨h0, delta⟩ reference
      · exact (member j).mpr meets
    cases hw : decodeReference s.headerRecord s.chunk s.chunkStarts s.work with
    | none => exact ⟨[], rfl, fun _ => rfl⟩
    | some work =>
      simp only
      cases hd : decodeRange s.headerRecord s.chunk s.chunkStarts s.rangeStart s.rangeEnd
        (rangeBlocks (s.srcWord 8).toNat s.rangeStart s.rangeEnd) work [] with
      | ok o =>
        rcases decodeRange_all hd j meets with c | ⟨r, decodes⟩
        · exact absurd c reference
        · exact absurd (none r) decodes
      | error written =>
        refine ⟨written, rfl, fun least => ?_⟩
        have first : j = s.rangeStart / (s.srcWord 8).toNat := by
          have start : s.rangeStart / (s.srcWord 8).toNat ∈
              rangeBlocks (s.srcWord 8).toNat s.rangeStart s.rangeEnd := by
            rw [rangeBlocks_eq, List.mem_range'_1]
            have := Nat.div_le_div_right (c := (s.srcWord 8).toNat) (show s.rangeStart ≤ s.rangeEnd - 1 by omega)
            omega
          have upper := least _ ⟨(lt_cdiv size).mpr (by have := ((member _).mp start).2; omega),
            .inr (.inr ((member _).mp start))⟩
          have lower := meets
          rw [rangeBlocks_eq, List.mem_range'_1] at lower
          omega
        obtain ⟨m, hm⟩ : ∃ m, (s.rangeEnd - 1) / (s.srcWord 8).toNat + 1 - s.rangeStart / (s.srcWord 8).toNat = m + 1 := by
          rw [rangeBlocks_eq, List.mem_range'_1] at meets
          exact ⟨_, (Nat.succ_pred_eq_of_pos (by omega)).symm⟩
        rw [rangeBlocks_eq, hm, List.range'_succ, ← first, decodeRange, if_neg reference, none] at hd
        exact (Except.error.inj hd).symm

end

end

/-! ## What the readers write -/

section
variable {s : State} (h : ChunkAtHand s)
include h

/-- The bytes of a stored chunk that lie in a range go to the start of the destination (41_pipeline.md R287). -/
theorem storedCopy_wrote {a z : Nat} (room : z - a ≤ s.latched.dstCap.toNat)
    (length : (s.srcWord 12).toNat = s.srcHeaderLength + (s.srcWord 4).toNat) :
    ∃ t, storedCopy s.headerRecord a z s = .next t ∧
      Wrote s t (resultsOf (BitVec.ofNat 32 (z - a)) 0 0) true
        (s.mem.readBytes (s.latched.srcAddr.toNat + s.srcHeaderLength + a) (z - a)) := by
  have dst := h.regions.dst
  refine ⟨_, if_neg (not_not_intro length), complete_wrote h.mem [z - a] true s.work ?_⟩
  rw [Memory.readBytes_length]
  omega

theorem decompress_stored (stored : (s.srcByte 2).getLsbD 1 = true)
    (room : (s.srcWord 4).toNat ≤ s.latched.dstCap.toNat)
    (length : (s.srcWord 12).toNat = s.srcHeaderLength + (s.srcWord 4).toNat) :
    ∃ t, exec .decompress s = .next t ∧ Wrote s t (resultsOf (s.srcWord 4) 0 0) true
      (s.mem.readBytes (s.latched.srcAddr.toNat + s.srcHeaderLength) (s.srcWord 4).toNat) := by
  rw [exec_decompress_supported h.regions h.header h.whole (.inl stored), if_neg (Nat.not_lt.mpr room),
    State.decompressChunk, if_pos stored]
  have copied := storedCopy_wrote h (a := 0) (z := (s.srcWord 4).toNat) room length
  rwa [Nat.sub_zero, word_ofNat_toNat, Nat.add_zero] at copied

theorem getItemRange_stored (stored : (s.srcByte 2).getLsbD 1 = true) (inside : s.rangeEnd ≤ (s.srcWord 4).toNat)
    (room : s.rangeEnd - s.rangeStart ≤ s.latched.dstCap.toNat)
    (length : (s.srcWord 12).toNat = s.srcHeaderLength + (s.srcWord 4).toNat) :
    ∃ t, exec .getItemRange s = .next t ∧
      Wrote s t (resultsOf (BitVec.ofNat 32 (s.rangeEnd - s.rangeStart)) 0 0) true
        (s.mem.readBytes (s.latched.srcAddr.toNat + s.srcHeaderLength + s.rangeStart)
          (s.rangeEnd - s.rangeStart)) := by
  rw [exec_getItemRange_supported h.regions h.header h.whole (.inl stored), if_neg (Nat.not_lt.mpr inside),
    if_neg (Nat.not_lt.mpr room), State.rangeChunk, if_pos stored]
  exact storedCopy_wrote h room length

/-- A coded chunk of no bytes has no table (41_pipeline.md R291 item 3). -/
theorem decompress_empty (supported : ChunkSupported s) (coded : (s.srcByte 2).getLsbD 1 = false)
    (empty : (s.srcWord 4).toNat = 0) : exec .decompress s = .next (complete [0] false s) := by
  rw [exec_decompress_supported h.regions h.header h.whole supported, if_neg (by omega), State.decompressChunk,
    if_neg (Bool.eq_false_iff.mp coded), if_pos empty]

/-- An empty range of a coded chunk reads no table (41_pipeline.md R296 item 1). -/
theorem getItemRange_empty (supported : ChunkSupported s) (coded : (s.srcByte 2).getLsbD 1 = false)
    (empty : s.rangeEnd = s.rangeStart) (inside : s.rangeEnd ≤ (s.srcWord 4).toNat) :
    exec .getItemRange s = .next (complete [0] false s) := by
  rw [exec_getItemRange_supported h.regions h.header h.whole supported, if_neg (Nat.not_lt.mpr inside),
    if_neg (by omega), State.rangeChunk, if_neg (Bool.eq_false_iff.mp coded), if_pos empty]

/-- The buffer in the chunk is its final blocks one after the other. -/
theorem byteAt_finalBlocks {x : Nat → List Byte} (some : 0 < (s.srcWord 4).toNat)
    (hx : ∀ j, j < s.chunkBlocks → BlockDecodes s j (x j)) :
    ((List.range s.chunkBlocks).flatMap (s.finalBlock x)).length = (s.srcWord 4).toNat ∧
      ∀ b < (s.srcWord 4).toNat, byteAt ((List.range s.chunkBlocks).flatMap (s.finalBlock x)) b = s.chunkByte x b :=
  byteAt_blocks (h.header.fields.blockFits some).1 fun j hj => finalBlock_length (hx j hj)

/-- DECOMPRESS of a coded chunk whose blocks decode writes the buffer (41_pipeline.md R285). -/
theorem decompress_coded {x : Nat → List Byte} (reaches : ReachesBlocks s .decompress) (table : TableAccepted s)
    (hx : ∀ j, j < s.chunkBlocks → BlockDecodes s j (x j)) :
    ∃ t, exec .decompress s = .next t ∧ Wrote s t (resultsOf (s.srcWord 4) 0 0) false
      ((List.range s.chunkBlocks).flatMap (s.finalBlock x)) := by
  obtain ⟨some, room, -⟩ := reachesBlocks_decompress h.regions h.header reaches
  have dst := h.regions.dst
  have length := (byteAt_finalBlocks h some hx).1
  obtain ⟨w, decoded⟩ := decodeBlocks_ok (j := 0) (m := s.chunkBlocks) (x := x) (g := s.finalBlock x)
    (fun k _ hk => decodeBlock_final table (by omega) (hx k (by omega))) s.work [] (.inl rfl)
  rw [← List.range_eq_range', List.nil_append] at decoded
  rw [exec_decompress_blocks h.regions h.header table reaches, decoded]
  refine ⟨_, rfl, ?_⟩
  rw [← ofList_one]
  exact complete_wrote h.mem _ false w (by omega)

omit h in
/-- The part of a block in a byte range. -/
theorem rangePart_spec {h : Header} {j : Nat} {x : List Byte} (a z : Nat)
    (hx : x.length = blockLength h.nbytes h.bs j) :
    (rangePart h a z j x).length = min z (j * h.bs + blockLength h.nbytes h.bs j) - max a (j * h.bs) ∧
      ∀ k < (rangePart h a z j x).length, byteAt (rangePart h a z j x) k = byteAt x (max a (j * h.bs) - j * h.bs + k) := by
  have length : (rangePart h a z j x).length =
      min z (j * h.bs + blockLength h.nbytes h.bs j) - max a (j * h.bs) := by
    simp only [rangePart, slice, List.length_take, List.length_drop]
    omega
  exact ⟨length, fun k hk => byteAt_slice (by rwa [length] at hk)⟩

/-- The blocks of a range that is read give its bytes (41_pipeline.md R293, R295). -/
theorem byteAt_rangeParts {x : Nat → List Byte} (reaches : ReachesBlocks s .getItemRange)
    (hx : ∀ j, ReadsBlock s .getItemRange j → BlockDecodes s j (x j)) :
    ((rangeBlocks (s.srcWord 8).toNat s.rangeStart s.rangeEnd).flatMap fun j =>
        rangePart s.headerRecord s.rangeStart s.rangeEnd j (s.finalBlock x j)).length =
          s.rangeEnd - s.rangeStart ∧
      ∀ k < s.rangeEnd - s.rangeStart,
        byteAt ((rangeBlocks (s.srcWord 8).toNat s.rangeStart s.rangeEnd).flatMap fun j =>
          rangePart s.headerRecord s.rangeStart s.rangeEnd j (s.finalBlock x j)) k =
            s.chunkByte x (s.rangeStart + k) := by
  obtain ⟨some, inside, -, -⟩ := reachesBlocks_getItemRange h.regions h.header reaches
  obtain ⟨-, size, -⟩ := reaches.blocks h.header
  have member := fun j => mem_rangeBlocks (j := j) size some
  rw [rangeBlocks_eq] at member ⊢
  set bs := (s.srcWord 8).toNat
  set a := s.rangeStart
  set z := s.rangeEnd
  have order : a / bs ≤ (z - 1) / bs := Nat.div_le_div_right (by omega)
  have low : a / bs * bs ≤ a := Nat.div_mul_le_self a bs
  have low' : a < (a / bs + 1) * bs := by
    rw [← Nat.div_lt_iff_lt_mul size]
    exact Nat.lt_succ_self _
  have high : z ≤ ((z - 1) / bs + 1) * bs := by
    have : z - 1 < ((z - 1) / bs + 1) * bs := by
      rw [← Nat.div_lt_iff_lt_mul size]
      exact Nat.lt_succ_self _
    omega
  have part : ∀ j, a / bs ≤ j → j < a / bs + ((z - 1) / bs + 1 - a / bs) →
      (rangePart s.headerRecord a z j (s.finalBlock x j)).length = min z ((j + 1) * bs) - max a (j * bs) ∧
      ∀ k < (rangePart s.headerRecord a z j (s.finalBlock x j)).length,
        byteAt (rangePart s.headerRecord a z j (s.finalBlock x j)) k =
          byteAt (s.finalBlock x j) (max a (j * bs) - j * bs + k) := by
    intro j h1 h2
    obtain ⟨m1, m2⟩ := (member j).mp (List.mem_range'_1.mpr ⟨h1, h2⟩)
    have reads : ReadsBlock s .getItemRange j := ⟨(lt_cdiv size).mpr (by omega), .inr (.inr ⟨m1, m2⟩)⟩
    have next : (j + 1) * bs = j * bs + bs := Nat.succ_mul _ _
    have block : s.chunkBlockLength j = min bs ((s.srcWord 4).toNat - j * bs) := rfl
    have length := finalBlock_length (hx j reads)
    have stop : min z (j * bs + s.chunkBlockLength j) = min z ((j + 1) * bs) := by omega
    have spec := rangePart_spec (h := s.headerRecord) a z length
    change (rangePart _ a z j _).length = min z (j * bs + s.chunkBlockLength j) - max a (j * bs) ∧ _ at spec
    rwa [stop] at spec
  have parts := byteAt_blockParts size low low' (z := z) (fun j h1 h2 => (part j h1 h2).1) fun j h1 h2 => (part j h1 h2).2
  rw [Nat.add_sub_cancel' (by omega), Nat.min_eq_left high] at parts
  exact parts

/-- GET_ITEM_RANGE of a coded chunk writes the range's bytes as soon as the blocks it reads decode
(41_pipeline.md R295). -/
theorem getItemRange_coded {x : Nat → List Byte} (reaches : ReachesBlocks s .getItemRange) (table : TableAccepted s)
    (hx : ∀ j, ReadsBlock s .getItemRange j → BlockDecodes s j (x j)) :
    ∃ t v, exec .getItemRange s = .next t ∧
      Wrote s t (resultsOf (BitVec.ofNat 32 (s.rangeEnd - s.rangeStart)) 0 0) false v ∧
      v.length = s.rangeEnd - s.rangeStart ∧
      ∀ k < s.rangeEnd - s.rangeStart, byteAt v k = s.chunkByte x (s.rangeStart + k) := by
  obtain ⟨some, inside, room, -⟩ := reachesBlocks_getItemRange h.regions h.header reaches
  obtain ⟨-, size, blocks⟩ := reaches.blocks h.header
  have dst := h.regions.dst
  obtain ⟨length, bytes⟩ := byteAt_rangeParts h reaches hx
  have member := fun j => mem_rangeBlocks (j := j) size some
  have reference : ∃ w, decodeReference s.headerRecord s.chunk s.chunkStarts s.work = .some w ∧
      (hasDelta s.headerRecord.pipeline = true → w.bufR = s.finalBlock x 0) := by
    unfold decodeReference
    by_cases delta : hasDelta s.headerRecord.pipeline = true
    · have reads : ReadsBlock s .getItemRange 0 :=
        ⟨blocks, .inr (.inl ⟨rfl, by rwa [← hasDelta_iff, ← headerRecord_pipeline]⟩)⟩
      rw [if_pos delta, decodeBlock_zero _ _ _ _ (s.finalBlock x 0), decodeBlock_final table blocks (hx 0 reads)]
      exact ⟨_, rfl, fun _ => rfl⟩
    · rw [if_neg delta]
      exact ⟨_, rfl, fun c => absurd c delta⟩
  obtain ⟨w, hw, reference⟩ := reference
  rw [exec_getItemRange_blocks h.regions h.header table reaches, hw]
  rw [rangeBlocks_eq] at member length bytes ⊢
  obtain ⟨w', decoded⟩ := decodeRange_ok (h := s.headerRecord) (a := s.rangeStart) (z := s.rangeEnd) (x := x)
    (g := s.finalBlock x) (r := w.bufR) (fun k h1 h2 => by
      obtain ⟨m1, m2⟩ := (member k).mp (List.mem_range'_1.mpr ⟨h1, h2⟩)
      have inChunk : k < s.chunkBlocks := (lt_cdiv size).mpr (by omega)
      have final := decodeBlock_final table inChunk (hx k ⟨inChunk, .inr (.inr ⟨m1, m2⟩)⟩)
      cases delta : hasDelta s.headerRecord.pipeline with
      | true => rw [reference delta, final]
      | false => rw [decodeBlock_noDelta delta _ _ _ _ (s.finalBlock x 0), final])
    w [] rfl reference
  simp only [decoded]
  exact ⟨_, _, rfl, complete_wrote h.mem _ false w' (by rw [List.nil_append]; omega), length, bytes⟩

end

end Sys2Proof.Machine
end

section
/-! What a chunk says depends on memory and on where the source stands alone; and what a DECOMPRESS that succeeded says
of its chunk. -/

namespace Sys2Proof.Machine

/-- All that a chunk in the source is read from. -/
def State.sourceView (s : State) : Memory × Word × Word := (s.mem, s.latched.srcAddr, s.latched.srcLen)

section
variable {s u : State} (h : u.sourceView = s.sourceView)
include h

theorem sourceView_srcByte : u.srcByte = s.srcByte := by
  simp only [State.sourceView, Prod.mk.injEq] at h
  obtain ⟨mem, base, -⟩ := h
  funext k
  rw [State.srcByte, State.srcByte, mem, base]

theorem sourceView_srcWord : u.srcWord = s.srcWord := by
  funext k
  rw [State.srcWord, State.srcWord, sourceView_srcByte h]

theorem sourceView_extended : u.srcExtended = s.srcExtended := by
  rw [State.srcExtended, State.srcExtended, sourceView_srcByte h]

theorem sourceView_headerLength : u.srcHeaderLength = s.srcHeaderLength := by
  rw [State.srcHeaderLength, State.srcHeaderLength, sourceView_extended h]

theorem sourceView_filters : u.sourceFilters = s.sourceFilters := by
  rw [State.sourceFilters, State.sourceFilters, sourceView_extended h, sourceView_srcByte h]

theorem sourceView_chunkBlocks : u.chunkBlocks = s.chunkBlocks := by
  simp only [State.chunkBlocks, sourceView_srcWord h]

theorem sourceView_tableEntry : u.tableEntry = s.tableEntry := by
  funext j
  simp only [State.tableEntry, sourceView_srcWord h, sourceView_headerLength h]

theorem sourceView_tableEnd : u.tableEnd = s.tableEnd := by
  simp only [State.tableEnd, sourceView_headerLength h, sourceView_chunkBlocks h]

theorem sourceView_payload : u.payload = s.payload := by
  have view := h
  simp only [State.sourceView, Prod.mk.injEq] at view
  obtain ⟨mem, base, -⟩ := view
  funext j
  simp only [State.payload, sourceView_chunkBlocks h, sourceView_tableEntry h, sourceView_headerLength h,
    sourceView_srcWord h, mem, base]

theorem sourceView_blockDecodes {j : Nat} {x : List Byte} : BlockDecodes u j x ↔ BlockDecodes s j x := by
  simp only [BlockDecodes, sourceView_payload h, State.chunkBlockLength, sourceView_srcWord h]

theorem sourceView_chunkByte (x : Nat → List Byte) (b : Nat) : u.chunkByte x b = s.chunkByte x b := by
  simp only [State.chunkByte, sourceView_filters h, sourceView_srcByte h, sourceView_srcWord h]

theorem sourceView_supported : ChunkSupported u ↔ ChunkSupported s := by
  rw [ChunkSupported, ChunkSupported, sourceView_extended h, sourceView_srcByte h]

theorem sourceView_tableAccepted (ha : TableAccepted s) : TableAccepted u := by
  obtain ⟨room, order, last⟩ := ha
  refine ⟨?_, fun several => ⟨?_, ?_⟩, ?_⟩ <;>
    simp only [sourceView_tableEnd h, sourceView_srcWord h, sourceView_chunkBlocks h, sourceView_tableEntry h] at *
  · exact room
  · exact (order several).first
  · exact (order several).rising
  · exact last

theorem sourceView_headerAccepted (ha : HeaderAccepted s) : HeaderAccepted u := by
  have view := h
  simp only [State.sourceView, Prod.mk.injEq] at view
  obtain ⟨-, -, length⟩ := view
  obtain ⟨long, ⟨version, cbytes, block, blockFits, typesize⟩, extended⟩ := ha
  refine ⟨?_, ⟨?_, ?_, ?_, ?_, ?_⟩, ?_⟩ <;>
    simp only [sourceView_extended h, sourceView_srcByte h, sourceView_srcWord h, length] at *
  · exact long
  · exact version
  · exact cbytes
  · exact block
  · exact blockFits
  · exact typesize
  · exact extended

end

end Sys2Proof.Machine
end

section
/-! The statements of NOP and of the chunk readers, settled. -/

namespace Sys2Proof.Machine

/-- Settles O39. -/
theorem nopCompletes : Obligations.NopCompletes := by
  intro s
  refine ⟨complete [] false s, rfl, complete_completed [] false (.refl s) rfl rfl, rfl, fun inv busy => ?_⟩
  obtain ⟨clear, -⟩ := inv.clear busy
  rw [complete_status, clear]
  rfl

/-- Settles O42. -/
theorem decompressCopiesAStoredChunk : Obligations.DecompressCopiesAStoredChunk := by
  rintro s n h rfl stored room length
  obtain ⟨t, ht, wrote⟩ := decompress_stored h stored room length
  have outside := wrote.outside
  have bytes := wrote.bytes
  rw [Memory.readBytes_length] at outside bytes
  refine ⟨t, ht, wrote.completed, outside, fun k hk => ?_⟩
  rw [bytes k hk, byteAt_readBytes _ _ _ hk, State.srcByte, Nat.add_assoc]

/-- Settles O45. -/
theorem getItemRangeCopiesFromAStoredChunk : Obligations.GetItemRangeCopiesFromAStoredChunk := by
  rintro s a z h stored rfl rfl inside room length
  obtain ⟨t, ht, wrote⟩ := getItemRange_stored h stored inside room length
  have outside := wrote.outside
  have bytes := wrote.bytes
  rw [Memory.readBytes_length] at outside bytes
  refine ⟨t, ht, wrote.completed, outside, fun k hk => ?_⟩
  refine (bytes k hk).trans ((byteAt_readBytes _ _ _ hk).trans ?_)
  rw [State.srcByte, ← Nat.add_assoc, ← Nat.add_assoc]
  rfl

/-- Settles O43: the destination is the blocks of the chunk one after the other. -/
theorem decompressDecodesOneBlock : Obligations.DecompressDecodesOneBlock := by
  rintro s n h supported coded rfl room
  refine ⟨fun empty => ⟨_, decompress_empty h supported coded empty, complete_completed [0] false (.refl s) rfl rfl,
    rfl⟩, fun x some table hx => ?_⟩
  have reaches : ReachesBlocks s .decompress := ⟨h.whole, supported, coded, .inl ⟨rfl, some, room⟩⟩
  obtain ⟨-, size, blocks⟩ := reaches.blocks h.header
  obtain ⟨t, ht, wrote⟩ := decompress_coded h reaches table hx
  obtain ⟨length, bytes⟩ := byteAt_finalBlocks h some hx
  have outside := wrote.outside
  rw [length] at outside
  have block : ∀ j, j < s.chunkBlocks →
      t.mem.readBytes (s.latched.dstAddr.toNat + j * (s.srcWord 8).toNat) (s.chunkBlockLength j) =
        s.finalBlock x j := by
    intro j hj
    have starts := (lt_cdiv size).mp hj
    have blockLength : s.chunkBlockLength j = min (s.srcWord 8).toNat ((s.srcWord 4).toNat - j * (s.srcWord 8).toNat) :=
      rfl
    have final := finalBlock_length (hx j hj)
    have sliced := slice_length (b := (List.range s.chunkBlocks).flatMap (s.finalBlock x))
      (a := j * (s.srcWord 8).toNat) (n := s.chunkBlockLength j) (by omega)
    rw [wrote.readBytes (by omega)]
    refine ext_byteAt (sliced.trans final.symm) fun k hk => ?_
    obtain ⟨column, row⟩ := transpose_place j (show k < (s.srcWord 8).toNat by omega)
    rw [byteAt_slice (by omega), bytes _ (by omega), chunkByte_eq, row, column]
  refine ⟨t, ht, wrote.completed, outside, fun j hj => (block j hj).trans ?_⟩
  by_cases h0 : j = 0
  · rw [h0]
    exact finalBlock_zero s x _
  · have full : s.chunkBlockLength 0 = (s.srcWord 8).toNat := by
      have starts := (lt_cdiv size).mp hj
      have first : 1 * (s.srcWord 8).toNat ≤ j * (s.srcWord 8).toNat := Nat.mul_le_mul_right _ (by omega)
      show min (s.srcWord 8).toNat ((s.srcWord 4).toNat - 0 * (s.srcWord 8).toNat) = _
      omega
    have reference := block 0 blocks
    rw [Nat.zero_mul, Nat.add_zero, full] at reference
    rw [reference, finalBlock_zero s x []]
    rfl

/-- Settles O44: the checks of both readers in their order, then those of the table, then the first block that does not
decode. -/
theorem chunkReaderErrors : Obligations.ChunkReaderErrors := by
  rintro s a z hr ha rfl rfl
  refine ⟨fun cut i hi => ⟨_, exec_reader_cut hr ha hi cut, raiseError_untouched .truncated 0 s⟩,
    fun whole bad i hi => ⟨_, exec_reader_unsupported hr ha hi whole bad, raiseError_untouched .unsupported 0 s⟩,
    fun whole supported => ?_, fun i reaches => ?_⟩
  · have decompress := exec_decompress_supported hr ha whole supported
    have range := exec_getItemRange_supported hr ha whole supported
    have wrongLength : ∀ {a z}, (s.srcWord 12).toNat ≠ s.srcHeaderLength + (s.srcWord 4).toNat →
        storedCopy s.headerRecord a z s = .next (raiseError .header 0 s) := fun length => if_pos length
    refine ⟨fun small => ⟨_, ?_, raiseError_untouched .destSmall 0 s⟩,
      fun room stored length => ⟨_, ?_, raiseError_untouched .header 0 s⟩,
      fun beyond => ⟨_, ?_, raiseError_untouched .arg 6 s⟩,
      fun inside small => ⟨_, ?_, raiseError_untouched .destSmall 0 s⟩,
      fun inside room stored length => ⟨_, ?_, raiseError_untouched .header 0 s⟩⟩
    · rw [decompress, if_pos small]
    · rw [decompress, if_neg (Nat.not_lt.mpr room), State.decompressChunk, if_pos stored, wrongLength length]
    · rw [range]
      exact if_pos beyond
    · rw [range]
      exact (if_neg (Nat.not_lt.mpr inside)).trans (if_pos small)
    · rw [range]
      refine (if_neg (Nat.not_lt.mpr inside)).trans ((if_neg (Nat.not_lt.mpr room)).trans ?_)
      rw [State.rangeChunk, if_pos stored, wrongLength length]
  · obtain ⟨reader, -, -⟩ := reaches.blocks ha
    have tableError := fun {e n} hp => exec_reader_tableError hr ha reaches (e := e) (n := n) hp
    refine ⟨fun short => ⟨_, tableError (payloadMap_short short), raiseError_untouched .truncated 0 s⟩,
      fun room several disorder => ⟨_, tableError ((payloadMap_several several room).1 disorder),
        raiseError_untouched .header 0 s⟩,
      fun room several order last => ⟨_, tableError ?_, raiseError_untouched .truncated 0 s⟩,
      fun table j hj bad => ?_⟩
    · rw [(payloadMap_several several room).2 order, if_pos last]
    · have failure : ∃ written, exec i s = .next (blockFailure written s) ∧
          ((∀ k, ReadsBlock s i k → j ≤ k) → written = []) := by
        rcases reader with rfl | rfl
        · obtain ⟨written, he, first⟩ := exec_decompress_badBlock hr ha table reaches hj.1 bad
          exact ⟨written, he, fun least => first (Nat.le_zero.mp (least 0 ⟨by have := hj.1; omega, .inl rfl⟩))⟩
        · exact exec_getItemRange_badBlock hr ha table reaches hj bad
      obtain ⟨written, he, first⟩ := failure
      obtain ⟨failed, outside, untouched⟩ := blockFailure_failed written s
      exact ⟨_, he, failed, outside, fun least => untouched (first least)⟩

/-- A DECOMPRESS without an error had a chunk that is all there and supported, with room for its bytes; of a stored chunk
the length is right, and of a coded one that has bytes the table is accepted and every block decodes. -/
theorem decompress_success {s t : State} (hr : RegionsFit s.latched) (ht : exec .decompress s = .next t)
    (ok : t.status.err = false) :
    HeaderAccepted s ∧ (s.srcWord 12).toNat ≤ s.latched.srcLen.toNat ∧ ChunkSupported s ∧
      (s.srcWord 4).toNat ≤ s.latched.dstCap.toNat ∧
      ((s.srcByte 2).getLsbD 1 = true → (s.srcWord 12).toNat = s.srcHeaderLength + (s.srcWord 4).toNat) ∧
      ((s.srcByte 2).getLsbD 1 = false → 0 < (s.srcWord 4).toNat →
        TableAccepted s ∧ ∀ j, j < s.chunkBlocks → ∃ x, BlockDecodes s j x) := by
  have fails : ∀ {e n}, ¬ ∃ u, exec .decompress s = .next u ∧ Failed s u e n := by
    rintro e n ⟨u, hu, failed⟩
    obtain rfl := Host.Outcome.next.inj (ht.symm.trans hu)
    rw [failed.status_err] at ok
    cases ok
  have untouched : ∀ {e n}, ¬ ∃ u, exec .decompress s = .next u ∧ FailedUntouched s u e n :=
    fun ⟨u, hu, h⟩ => fails ⟨u, hu, h.failed⟩
  have ha : HeaderAccepted s := by
    cases hs : s.sourceHeader with
    | ok h => exact (sourceHeader_ok hs).1
    | error e => exact absurd (exec_headerError_untouched (.inr (.inl rfl)) hr hs) untouched
  obtain ⟨cut, unsupported, checks, blocks⟩ := chunkReaderErrors s _ _ hr ha rfl rfl
  have whole := Nat.not_lt.mp fun c => untouched (cut c .decompress (.inl rfl))
  have supported : ChunkSupported s := by_contra fun c => untouched (unsupported whole c .decompress (.inl rfl))
  obtain ⟨small, wrongLength, -⟩ := checks whole supported
  have room := Nat.not_lt.mp fun c => untouched (small c)
  refine ⟨ha, whole, supported, room, fun stored => by_contra fun c => untouched (wrongLength room stored c),
    fun coded some => ?_⟩
  have reaches : ReachesBlocks s .decompress := ⟨whole, supported, coded, .inl ⟨rfl, some, room⟩⟩
  obtain ⟨short, disorder, last, bad⟩ := blocks .decompress reaches
  have fits := Nat.not_lt.mp fun c => untouched (short c)
  have order : 1 < s.chunkBlocks → TableInOrder s :=
    fun several => by_contra fun c => untouched (disorder fits several c)
  have table : TableAccepted s :=
    ⟨fits, order, fun several => Nat.not_lt.mp fun c => untouched (last fits several (order several) c)⟩
  refine ⟨table, fun j hj => by_contra fun c => ?_⟩
  obtain ⟨u, hu, failed, -⟩ := bad table j ⟨hj, .inl rfl⟩ c
  exact fails ⟨u, hu, failed⟩

/-- GET_ITEM_RANGE of a chunk that a DECOMPRESS gave the buffer of (41_pipeline.md R296 item 4). -/
theorem getItemRange_of_decompress {s t u : State} (hm : s.mem.wf) (view : u.sourceView = s.sourceView)
    (hs : RegionsFit s.latched) (hu : RegionsFit u.latched) (ht : exec .decompress s = .next t)
    (ok : t.status.err = false) (inside : u.rangeEnd ≤ (s.srcWord 4).toNat)
    (room : u.rangeEnd - u.rangeStart ≤ u.latched.dstCap.toNat) :
    ∃ v w, exec .getItemRange u = .next v ∧
      Wrote u v (resultsOf (BitVec.ofNat 32 (u.rangeEnd - u.rangeStart)) 0 0) ((s.srcByte 2).getLsbD 1) w ∧
      w.length = u.rangeEnd - u.rangeStart ∧
      ∀ k < u.rangeEnd - u.rangeStart, byteAt w k = t.dstByte (u.rangeStart + k) := by
  obtain ⟨ha, whole, supported, space, length, blocks⟩ := decompress_success hs ht ok
  have mem : u.mem = s.mem := congrArg Prod.fst view
  have srcLen : u.latched.srcLen = s.latched.srcLen := congrArg (fun v => v.2.2) view
  have srcAddr : u.latched.srcAddr = s.latched.srcAddr := congrArg (fun v => v.2.1) view
  have word := sourceView_srcWord view
  have byte := sourceView_srcByte view
  have hand : ChunkAtHand s := ⟨hm, hs, ha, whole⟩
  have handU : ChunkAtHand u :=
    ⟨mem ▸ hm, hu, sourceView_headerAccepted view ha, by rwa [word, srcLen]⟩
  cases stored : (s.srcByte 2).getLsbD 1 with
  | true =>
    obtain ⟨t', ht', wrote⟩ := decompress_stored hand stored space (length stored)
    obtain rfl := Host.Outcome.next.inj (ht.symm.trans ht')
    obtain ⟨v, hv, wroteU⟩ := getItemRange_stored handU (by rwa [byte]) (by rwa [word]) room
      (by rw [word, sourceView_headerLength view, length stored])
    refine ⟨v, _, hv, wroteU, Memory.readBytes_length _ _ _, fun k hk => ?_⟩
    rw [byteAt_readBytes _ _ _ hk, wrote.bytes _ (by rw [Memory.readBytes_length]; omega),
      byteAt_readBytes _ _ _ (by omega), mem, srcAddr, sourceView_headerLength view]
    congr 1
    omega
  | false =>
    have supportedU := (sourceView_supported view).mpr supported
    by_cases empty : u.rangeEnd = u.rangeStart
    · refine ⟨_, [], getItemRange_empty handU supportedU (by rwa [byte]) empty (by rwa [word]),
        ⟨?_, fun _ _ => rfl, fun k hk => absurd hk (Nat.not_lt_zero k)⟩, ?_, fun k hk => ?_⟩
      · rw [show u.rangeEnd - u.rangeStart = 0 by omega]
        exact complete_completed [0] false (.refl u) rfl rfl
      · rw [List.length_nil]
        omega
      · omega
    · have order : u.rangeStart ≤ u.rangeEnd := Nat.mul_le_mul_right _ (Nat.le_add_right _ _)
      have some : 0 < (s.srcWord 4).toNat := by omega
      obtain ⟨table, decodes⟩ := blocks stored some
      choose! x hx using decodes
      have reaches : ReachesBlocks s .decompress := ⟨whole, supported, stored, .inl ⟨rfl, some, space⟩⟩
      have reachesU : ReachesBlocks u .getItemRange :=
        ⟨handU.whole, supportedU, by rwa [byte], .inr ⟨rfl, by omega, by rwa [word], room⟩⟩
      obtain ⟨t', ht', wrote⟩ := decompress_coded hand reaches table hx
      obtain rfl := Host.Outcome.next.inj (ht.symm.trans ht')
      obtain ⟨bufferLength, bytes⟩ := byteAt_finalBlocks hand some hx
      obtain ⟨v, w, hv, wroteU, partLength, partBytes⟩ := getItemRange_coded handU reachesU
        (sourceView_tableAccepted view table) (x := x) fun j hj =>
          (sourceView_blockDecodes view).mpr (hx j (sourceView_chunkBlocks view ▸ hj.1))
      refine ⟨v, w, hv, wroteU, partLength, fun k hk => ?_⟩
      rw [partBytes k hk, sourceView_chunkByte view, wrote.bytes _ (by omega), bytes _ (by omega)]

/-- Settles O46: what both readers write is the bytes of one buffer, the blocks of the chunk one after the other. -/
theorem getItemRangeIsASliceOfDecompress : Obligations.GetItemRangeIsASliceOfDecompress := by
  refine ⟨?_, fun s h => ⟨fun x reaches table hx => ?_, fun supported coded empty inside => ?_⟩⟩
  · intro s t u a z hm mem hs hu srcAddr srcLen ht ok ha hz inside room
    have view : u.sourceView = s.sourceView := by rw [State.sourceView, State.sourceView, mem, srcAddr, srcLen]
    have start : a = u.rangeStart := by rw [ha, State.rangeStart, sourceView_srcByte view]
    have stop : z = u.rangeEnd := by rw [hz, State.rangeEnd, sourceView_srcByte view]
    subst start stop
    obtain ⟨v, w, hv, wrote, length, bytes⟩ := getItemRange_of_decompress hm view hs hu ht ok inside room
    exact ⟨v, hv, wrote.completed, length ▸ wrote.outside,
      fun k hk => (wrote.bytes k (length.symm ▸ hk)).trans (bytes k hk)⟩
  · obtain ⟨t, v, ht, wrote, length, bytes⟩ := getItemRange_coded h reaches table hx
    exact ⟨t, ht, wrote.completed, length ▸ wrote.outside,
      fun k hk => (wrote.bytes k (length.symm ▸ hk)).trans (bytes k hk)⟩
  · exact ⟨_, getItemRange_empty h supported coded empty.symm inside,
      complete_completed [0] false (.refl s) rfl rfl, rfl⟩

end Sys2Proof.Machine
end

section
/-! COMPRESS: the order of its argument checks, and which of them are those of LZ_COMPRESS too. -/

namespace Sys2Proof.Machine

/-! ## Check lists -/

theorem firstFailing_cons (b : Bool) (e : Err) (n : Nat) (l : List (Bool × Err × Nat)) :
    firstFailing ((b, e, n) :: l) = if b then some (e, n) else firstFailing l := rfl

/-- The first element whose checks do not pass decides. -/
theorem firstFailing_flatMap {α : Type} {f : α → List (Bool × Err × Nat)} {l : List α} {k : Nat} {c : α}
    {e : Err × Nat} (hk : l[k]? = some c) (pass : ∀ j < k, ∀ d, l[j]? = some d → firstFailing (f d) = none)
    (fails : firstFailing (f c) = some e) : firstFailing (l.flatMap f) = some e := by
  induction l generalizing k with
  | nil => cases hk
  | cons d l ih =>
    rw [List.flatMap_cons]
    cases k with
    | zero =>
      obtain rfl : d = c := by simpa using hk
      exact firstFailing_append_some fails
    | succ k =>
      rw [firstFailing_append_none (pass 0 (Nat.succ_pos k) d rfl)]
      exact ih (by simpa using hk) fun j hj d hd => pass (j + 1) (by omega) d (by simpa using hd)

/-! ## The argument checks (41_pipeline.md R275) -/

/-- The checks of one slot, a code and its meta byte. -/
def slotChecks (ts : Nat) (c : Byte × Byte) : List (Bool × Err × Nat) :=
  [(decide (5 ≤ c.1.toNat), .unsupported, 0), (decide (c.1 = 4) && !truncOk ts (sext8 c.2), .arg, 8)]

theorem slotChecks_pass_iff (ts : Nat) (c : Byte × Byte) :
    firstFailing (slotChecks ts c) = none ↔ c.1.toNat < 5 ∧ (c.1 = 4 → truncOk ts (sext8 c.2) = true) := by
  simp [firstFailing_none_iff, slotChecks]

/-- The argument checks in their order: the four on the configuration, then those of the slots. -/
theorem firstFailing_compressChecks (p : Params) : firstFailing (compressChecks p) =
    if 9 < p.effort then some (.arg, 3)
    else if p.typesize = 0 then some (.arg, 4)
    else if 2147483615 < p.srcLen.toNat then some (.arg, 5)
    else if p.extHdr = false ∧ p.shuf = true ∧ p.bshuf = true then some (.arg, 9)
    else if p.extHdr then firstFailing ((p.fcode.zip p.fmeta).flatMap (slotChecks p.typesize)) else none := by
  have both : (!p.extHdr && p.shuf && p.bshuf) = true ↔ (p.extHdr = false ∧ p.shuf = true ∧ p.bshuf = true) := by
    simp [and_assoc]
  rw [compressChecks, List.cons_append, List.cons_append, List.cons_append, List.cons_append, List.nil_append,
    firstFailing_cons, firstFailing_cons, firstFailing_cons, firstFailing_cons]
  refine if_congr decide_eq_true_iff rfl (if_congr decide_eq_true_iff rfl (if_congr decide_eq_true_iff rfl
    (if_congr both rfl ?_)))
  cases p.extHdr <;> rfl

/-- COMPRESS accepts its arguments where no check fails. -/
theorem CompressAccepts.checks {p : Params} (h : CompressAccepts p) : firstFailing (compressChecks p) = none := by
  have typesize := h.typesize
  rw [firstFailing_compressChecks, if_neg (Nat.not_lt.mpr h.effort), if_neg (by omega), if_neg (Nat.not_lt.mpr h.size),
    if_neg fun ⟨minimal, both⟩ => h.shuffles minimal both]
  split
  · rename_i extended
    rw [firstFailing_none_iff]
    intro c hc
    obtain ⟨slot, hs, hc⟩ := List.mem_flatMap.mp hc
    exact (firstFailing_none_iff _).mp ((slotChecks_pass_iff _ _).mpr (h.slots extended slot hs)) c hc
  · rfl

/-- The first slot whose checks do not pass decides. -/
theorem firstFailing_slots {p : Params} {k : Nat} {c m : Byte} (hc : p.fcode[k]? = some c) (hm : p.fmeta[k]? = some m)
    (before : ∀ (j : Nat) (c' m' : Byte), j < k → p.fcode[j]? = some c' → p.fmeta[j]? = some m' →
      c'.toNat < 5 ∧ (c' = 4 → truncOk p.typesize m'.toInt = true)) {e : Err × Nat}
    (fails : firstFailing (slotChecks p.typesize (c, m)) = some e) :
    firstFailing ((p.fcode.zip p.fmeta).flatMap (slotChecks p.typesize)) = some e := by
  refine firstFailing_flatMap (List.getElem?_zip_eq_some.mpr ⟨hc, hm⟩) (fun j hj d hd => ?_) fails
  obtain ⟨code, info⟩ := List.getElem?_zip_eq_some.mp hd
  exact (slotChecks_pass_iff _ _).mpr (before j d.1 d.2 hj code info)

section
variable {s : State} (hr : RegionsFit s.latched)
include hr

theorem exec_compress_refused {e : Err} {n : Nat} (h : firstFailing (compressChecks s.latched) = some (e, n)) :
    exec .compress s = .next (raiseError e n s) := by
  show execCompress s = _
  rw [execCompress, afterRegions_fit rfl rfl rfl hr, afterChecks, h]

theorem exec_lzCompress_refused :
    (9 < s.latched.effort → exec .lzCompress s = .next (raiseError .arg 3 s)) ∧
    (s.latched.effort ≤ 9 → 262144 < s.latched.srcLen.toNat → exec .lzCompress s = .next (raiseError .arg 5 s)) := by
  refine ⟨fun effort => ?_, fun effort size => ?_⟩
  · show execLzCompress s = _
    rw [execLzCompress, afterRegions_fit rfl rfl rfl hr, afterChecks_cons]
    exact if_pos (decide_eq_true effort)
  · show execLzCompress s = _
    rw [execLzCompress, afterRegions_fit rfl rfl rfl hr, afterChecks_cons, afterChecks_cons]
    refine (if_neg ?_).trans (if_pos (decide_eq_true size))
    rw [decide_eq_true_iff]
    exact Nat.not_lt.mpr effort

end

/-- Settles O41: the first check of the list that fails decides. -/
theorem compressArgumentErrors : Obligations.CompressArgumentErrors := by
  intro s hr
  have checks := firstFailing_compressChecks s.latched
  have refused : ∀ {e n}, firstFailing (compressChecks s.latched) = some (e, n) →
      ∃ t, exec .compress s = .next t ∧ FailedUntouched s t e (BitVec.ofNat 32 n) :=
    fun {e n} h => ⟨_, exec_compress_refused hr h, raiseError_untouched e n s⟩
  obtain ⟨lzEffort, lzSize⟩ := exec_lzCompress_refused hr
  refine ⟨fun effort => refused ?_, fun effort typesize => refused ?_, fun effort typesize size => refused ?_,
    fun effort typesize size minimal shuf bshuf => refused ?_, fun effort typesize size extended k c m hc hm before => ?_,
    fun effort => ⟨_, lzEffort effort, raiseError_untouched .arg 3 s⟩,
    fun effort size => ⟨_, lzSize effort size, raiseError_untouched .arg 5 s⟩⟩
  · rw [checks, if_pos effort]
  · rw [checks, if_neg (Nat.not_lt.mpr effort), if_pos typesize]
  · rw [checks, if_neg (Nat.not_lt.mpr effort), if_neg (by omega), if_pos size]
  · rw [checks, if_neg (Nat.not_lt.mpr effort), if_neg (by omega), if_neg (Nat.not_lt.mpr size),
      if_pos ⟨minimal, shuf, bshuf⟩]
  · rw [if_neg (Nat.not_lt.mpr effort), if_neg (by omega), if_neg (Nat.not_lt.mpr size),
      if_neg (by simp [extended]), if_pos extended] at checks
    have slot := fun {e} fails => checks.trans (firstFailing_slots hc hm before (e := e) fails)
    refine ⟨fun code => refused (slot ?_), fun code bad => refused (slot ?_)⟩
    · rw [slotChecks, firstFailing_cons, if_pos (decide_eq_true code)]
    · have refusedTrunc : (decide (c = 4) && !truncOk s.latched.typesize (sext8 m)) = true := by
        rw [decide_eq_true code, sext8, bad]
        rfl
      have known : ¬ decide (5 ≤ c.toNat) = true := by
        rw [code]
        decide
      rw [slotChecks, firstFailing_cons, if_neg known, firstFailing_cons, if_pos refusedTrunc]

end Sys2Proof.Machine
end

section
/-! COMPRESS: the blocks it codes, the chunk it makes, and what it writes. -/

namespace Sys2Proof.Machine

/-! ## Slices of sequences put together -/

theorem slice_append_left {a b : List Byte} {o n : Nat} (h : o + n ≤ a.length) :
    slice (a ++ b) o n = slice a o n := by
  rw [slice, slice, List.drop_append_of_le_length (by omega), List.take_append_of_le_length (by simp; omega)]

theorem slice_append_right (a b : List Byte) (o n : Nat) : slice (a ++ b) (a.length + o) n = slice b o n := by
  rw [slice, slice, ← List.drop_drop, List.drop_left]

/-- A part of a sequence of parts stands after the parts before it. -/
theorem slice_flatMap_range {g : Nat → List Byte} {n j : Nat} (hj : j < n) :
    slice ((List.range n).flatMap g) ((List.range j).map fun k => (g k).length).sum (g j).length = g j := by
  have split : (List.range n).flatMap g =
      (List.range j).flatMap g ++ (g j ++ (List.range' (j + 1) (n - j - 1)).flatMap g) := by
    have parts : List.range n = List.range j ++ List.range' j (n - j - 1 + 1) := by
      have joined := List.range'_append_1 (s := 0) (m := j) (n := n - j - 1 + 1)
      rwa [Nat.zero_add, show j + (n - j - 1 + 1) = n by omega, ← List.range_eq_range', ← List.range_eq_range',
        eq_comm] at joined
    rw [parts, List.flatMap_append, List.range'_succ, List.flatMap_cons]
  have before : ((List.range j).flatMap g).length = ((List.range j).map fun k => (g k).length).sum :=
    List.length_flatMap
  rw [split, ← before, ← Nat.add_zero ((List.range j).flatMap g).length, slice_append_right,
    slice_append_left (by omega), slice, List.drop_zero, List.take_length]

theorem wordAt_slice (b : List Byte) (k : Nat) : wordAt (slice b k 4) 0 = wordAt b k := by
  rw [wordAt, wordAt, byteAt_slice (by omega), byteAt_slice (by omega), byteAt_slice (by omega),
    byteAt_slice (by omega)]
  rfl

/-! ## The blocks (41_pipeline.md R261, R263, R269) -/

section
variable (s : State) (bs : Nat)

theorem sourceBlock_length (j : Nat) : (s.sourceBlock bs j).length = min bs (s.latched.srcLen.toNat - j * bs) :=
  Memory.readBytes_length _ _ _

theorem filteredBlock_length (j : Nat) : (s.filteredBlock bs j).length = (s.sourceBlock bs j).length :=
  applyFilters_length _ _ _ _ _

theorem blockBytes_srcBytes (j : Nat) : blockBytes bs s.srcBytes j = s.sourceBlock bs j := by
  have hl := blockBytes_length bs s.srcBytes j
  rw [blockLength, srcBytes_length] at hl
  refine ext_byteAt (hl.trans (sourceBlock_length s bs j).symm) fun i hi => ?_
  rw [hl] at hi
  rw [blockBytes, byteAt_slice (by omega), byteAt_srcBytes (by omega), State.sourceBlock, byteAt_readBytes _ _ _ hi,
    State.srcByte, Nat.add_assoc]

/-- The delta reference of COMPRESS, the reconstructed block 0 (41_pipeline.md R265). -/
def State.compressReference : List Byte :=
  undoFilters s.latched.typesize 0 [] s.latched.pipeline
    (applyFilters s.latched.typesize 0 [] s.latched.pipeline (s.sourceBlock bs 0))

theorem filteredBlock_eq {j : Nat} {r : List Byte} (hr : j = 0 ∨ r = s.compressReference bs) :
    forward s.latched.pipeline s.latched.typesize j r (blockBytes bs s.srcBytes j) = s.filteredBlock bs j := by
  rw [forward_eq, blockBytes_srcBytes]
  rcases hr with rfl | rfl
  · exact applyFilters_blockZero _ _ _ _ _
  · rfl

theorem inverse_filteredBlock_zero :
    inverse s.latched.pipeline s.latched.typesize 0 [] (s.filteredBlock bs 0) = s.compressReference bs := by
  rw [inverse_eq, ← filteredBlock_eq s bs (r := []) (.inl rfl), forward_eq, blockBytes_srcBytes, State.compressReference]

theorem codedOffset_succ (j : Nat) : s.codedOffset bs (j + 1) = s.codedOffset bs j + (s.codedBlock bs j).length := by
  simp only [State.codedOffset, List.range_succ, List.map_append, List.sum_append, List.map_cons, List.map_nil,
    List.sum_cons, List.sum_nil, Nat.add_zero, Nat.add_assoc]

end

/-- The codec call of a block that has bytes (41_pipeline.md R269): its stream, or none where that is not shorter. -/
theorem lzEncode_block {e : Nat} {y : List Byte} (he : e ≠ 0) (hy : 0 < y.length) (ht : HashTable) :
    (lzEncode y (y.length - 1) e ht).1 =
      if y.length ≤ (greedyStream e y).length then none else some (greedyStream e y) := by
  have some_bytes : y ≠ [] := List.length_pos_iff.mp hy
  split
  · exact lzEncode_none (.inr (.inr (.inr ‹_›))) ht
  · refine lzEncode_some ?_ ht
    rintro (c | c | c | c)
    · exact he c
    · exact some_bytes c
    · omega
    · omega

section
variable {s : State} {bs pos : Nat}

/-- One round of COMPRESS's loop. -/
theorem codeBlocks_cons (he : s.latched.effort ≠ 0) {j : Nat} (js : List Nat) (c : Coded)
    (hj : 0 < (s.sourceBlock bs j).length) (hr : j = 0 ∨ c.work.bufR = s.compressReference bs) :
    ∃ w : Scratch, w.bufR = s.compressReference bs ∧
      codeBlocks s.latched.pipeline s.latched.typesize s.latched.effort bs s.srcBytes pos (j :: js) c =
        if (s.sourceBlock bs j).length ≤ (s.codedBlock bs j).length then .error w
        else codeBlocks s.latched.pipeline s.latched.typesize s.latched.effort bs s.srcBytes pos js
          ⟨c.starts ++ [pos + c.payload.length], c.payload ++ s.codedBlock bs j, w⟩ := by
  have length := filteredBlock_length s bs j
  have stream := lzEncode_block (y := s.filteredBlock bs j) he (by omega) c.work.ht
  have reference : (if j = 0 then inverse s.latched.pipeline s.latched.typesize 0 [] (s.filteredBlock bs j)
      else c.work.bufR) = s.compressReference bs := by
    by_cases h0 : j = 0
    · rw [if_pos h0, h0, inverse_filteredBlock_zero]
    · rw [if_neg h0, hr.resolve_left h0]
  refine ⟨⟨(lzEncode (s.filteredBlock bs j) ((s.filteredBlock bs j).length - 1) s.latched.effort c.work.ht).2,
    blockBytes bs s.srcBytes j, s.filteredBlock bs j, s.compressReference bs⟩, rfl, ?_⟩
  rw [codeBlocks]
  simp only [filteredBlock_eq s bs hr, reference]
  rcases hz : lzEncode (s.filteredBlock bs j) ((s.filteredBlock bs j).length - 1) s.latched.effort c.work.ht with ⟨o, t⟩
  rw [hz, length] at stream
  change o = if _ ≤ (s.codedBlock bs j).length then none else some (s.codedBlock bs j) at stream
  subst stream
  by_cases h : (s.sourceBlock bs j).length ≤ (s.codedBlock bs j).length
  · simp only [if_pos h]
  · simp only [if_neg h]

/-- COMPRESS's loop gives up where some block's stream is not shorter than it (41_pipeline.md R270 condition 3). -/
theorem codeBlocks_error (he : s.latched.effort ≠ 0) {js : List Nat} {c : Coded}
    (hjs : ∀ j ∈ js, 0 < (s.sourceBlock bs j).length)
    (hr : js.head? = some 0 ∨ c.work.bufR = s.compressReference bs)
    (bad : ∃ j ∈ js, (s.sourceBlock bs j).length ≤ (s.codedBlock bs j).length) :
    ∃ w, codeBlocks s.latched.pipeline s.latched.typesize s.latched.effort bs s.srcBytes pos js c = .error w := by
  induction js generalizing c with
  | nil =>
    obtain ⟨j, hj, -⟩ := bad
    exact absurd hj List.not_mem_nil
  | cons k js ih =>
    obtain ⟨w, hw, step⟩ := codeBlocks_cons (pos := pos) he js c (hjs k List.mem_cons_self)
      (hr.imp (fun h => by simpa using h) id)
    rw [step]
    split
    · exact ⟨w, rfl⟩
    · rename_i good
      obtain ⟨j, hj, hbad⟩ := bad
      rcases List.mem_cons.mp hj with rfl | hj
      · exact absurd hbad good
      · exact ih (fun j hj => hjs j (List.mem_cons_of_mem _ hj)) (.inr hw) ⟨j, hj, hbad⟩

/-- COMPRESS's loop over blocks whose streams are shorter than they are (41_pipeline.md R268). -/
theorem codeBlocks_ok (he : s.latched.effort ≠ 0) {j m : Nat} {c : Coded}
    (hjs : ∀ k, j ≤ k → k < j + m → 0 < (s.sourceBlock bs k).length)
    (good : ∀ k, j ≤ k → k < j + m → (s.codedBlock bs k).length < (s.sourceBlock bs k).length)
    (hr : j = 0 ∨ c.work.bufR = s.compressReference bs) (hpos : pos + c.payload.length = s.codedOffset bs j) :
    ∃ w, codeBlocks s.latched.pipeline s.latched.typesize s.latched.effort bs s.srcBytes pos (List.range' j m) c =
      .ok ⟨c.starts ++ (List.range' j m).map (s.codedOffset bs),
        c.payload ++ (List.range' j m).flatMap (s.codedBlock bs), w⟩ := by
  induction m generalizing j c with
  | zero =>
    refine ⟨c.work, ?_⟩
    rw [List.range'_zero, List.map_nil, List.flatMap_nil, List.append_nil, List.append_nil, codeBlocks]
  | succ m ih =>
    obtain ⟨w, hw, step⟩ := codeBlocks_cons (pos := pos) he (List.range' (j + 1) m) c (hjs j (Nat.le_refl j) (by omega))
      hr
    obtain ⟨w', rest⟩ := ih (j := j + 1)
      (c := ⟨c.starts ++ [pos + c.payload.length], c.payload ++ s.codedBlock bs j, w⟩)
      (fun k h1 h2 => hjs k (by omega) (by omega)) (fun k h1 h2 => good k (by omega) (by omega)) (.inr hw)
      (by rw [codedOffset_succ, ← hpos, List.length_append, Nat.add_assoc])
    refine ⟨w', ?_⟩
    rw [List.range'_succ, step, if_neg (Nat.not_le.mpr (good j (Nat.le_refl j) (by omega))), rest, List.map_cons,
      List.flatMap_cons, hpos, List.append_assoc, List.append_assoc, List.singleton_append]

end

/-! ## The chunk (41_pipeline.md R268, R270, R271) -/

/-- The block-offset table of the coded chunk. -/
def State.codedTable (s : State) (bs : Nat) : List Byte :=
  if 1 < cdiv s.latched.srcLen.toNat bs then
    (List.range (cdiv s.latched.srcLen.toNat bs)).flatMap fun j => le32Bytes (s.codedOffset bs j)
  else []

/-- The payloads of the coded chunk. -/
def State.codedPayloads (s : State) (bs : Nat) : List Byte :=
  (List.range (cdiv s.latched.srcLen.toNat bs)).flatMap (s.codedBlock bs)

/-- The header of the coded chunk. -/
def State.codedHeader (s : State) (bs : Nat) : List Byte :=
  encodeHeader (chunkParams s.latched s.latched.srcLen.toNat bs false (s.codedLength bs))

/-- The coded chunk. -/
def State.codedChunk (s : State) (bs : Nat) : List Byte := s.codedHeader bs ++ s.codedTable bs ++ s.codedPayloads bs

section
variable (s : State) (bs : Nat)

theorem chunkHeader_length (p : Params) (n bs : Nat) (stored : Bool) (cbytes : Nat) :
    (encodeHeader (chunkParams p n bs stored cbytes)).length = p.hlen := encodeHeader_length _

theorem codedTable_length : (s.codedTable bs).length = tableLength (cdiv s.latched.srcLen.toNat bs) := by
  unfold State.codedTable tableLength
  split
  · simp [List.length_flatMap, le32Bytes, leBytes_length, Nat.mul_comm]
  · rfl

theorem codedOffset_eq (j : Nat) : s.codedOffset bs j =
    s.latched.hlen + (s.codedTable bs).length + ((List.range j).map fun k => (s.codedBlock bs k).length).sum := by
  rw [codedTable_length]
  rfl

theorem codedChunk_length : (s.codedChunk bs).length = s.codedLength bs := by
  rw [State.codedLength, codedOffset_eq, State.codedChunk, List.length_append, List.length_append, State.codedHeader,
    chunkHeader_length, State.codedPayloads, List.length_flatMap]

/-- The coded chunk starts with its header. -/
theorem byteAt_codedChunk_header {k : Nat} (hk : k < s.latched.hlen) :
    byteAt (s.codedChunk bs) k = byteAt (s.codedHeader bs) k := by
  have length : (s.codedHeader bs).length = s.latched.hlen := chunkHeader_length _ _ _ _ _
  rw [State.codedChunk, List.append_assoc, byteAt_append_left (by omega)]

/-- The table of several blocks follows the header. -/
theorem wordAt_codedChunk {j : Nat} (several : 1 < cdiv s.latched.srcLen.toNat bs)
    (hj : j < cdiv s.latched.srcLen.toNat bs) :
    wordAt (s.codedChunk bs) (s.latched.hlen + 4 * j) = BitVec.ofNat 32 (s.codedOffset bs j) := by
  have length : (s.codedHeader bs).length = s.latched.hlen := chunkHeader_length _ _ _ _ _
  have table := codedTable_length s bs
  rw [tableLength, if_pos several] at table
  have entry := slice_flatMap_range (g := fun j => le32Bytes (s.codedOffset bs j)) hj
  have four : ∀ v, (le32Bytes v).length = 4 := fun v => leBytes_length 4 v
  simp only [four, List.map_const', List.sum_replicate, List.length_range, smul_eq_mul] at entry
  rw [← wordAt_slice, State.codedChunk, List.append_assoc, ← length, slice_append_right,
    slice_append_left (by omega), State.codedTable, if_pos several, Nat.mul_comm, entry, wordAt_le32Bytes]

/-- Each payload stands at its offset. -/
theorem slice_codedChunk {j : Nat} (hj : j < cdiv s.latched.srcLen.toNat bs) :
    slice (s.codedChunk bs) (s.codedOffset bs j) (s.codedBlock bs j).length = s.codedBlock bs j := by
  have length : (s.codedHeader bs ++ s.codedTable bs).length = s.latched.hlen + (s.codedTable bs).length := by
    rw [List.length_append, State.codedHeader, chunkHeader_length]
  rw [codedOffset_eq, State.codedChunk, ← length, slice_append_right]
  exact slice_flatMap_range hj

theorem codedOffset_le {j k : Nat} (h : j ≤ k) : s.codedOffset bs j ≤ s.codedOffset bs k := by
  induction k, h using Nat.le_induction with
  | base => exact Nat.le_refl _
  | succ k _ ih => exact ih.trans (by rw [codedOffset_succ]; omega)

end

section
variable {s : State} {bs : Nat} (ha : CompressAccepts s.latched)
  (hbs : BlockSizeIs s.latched.effort s.latched.typesize s.latched.srcLen.toNat s.latched.bsize.toNat bs)
include ha hbs

/-- The block size of a source that has bytes. -/
theorem compress_blockSize :
    bs = blockSize s.latched.effort s.latched.typesize s.latched.srcLen.toNat s.latched.bsize.toNat ∧
      bs ≤ 262144 ∧ bs ≤ s.latched.srcLen.toNat ∧ (0 < s.latched.srcLen.toNat → 0 < bs) := by
  obtain rfl := (blockSizeIs_iff ha.effort).mp hbs
  obtain ⟨source, limit⟩ := blockSize_le s.latched.effort s.latched.typesize s.latched.srcLen.toNat
    s.latched.bsize.toNat
  exact ⟨rfl, limit, source, fun some => blockSize_pos some ha.typesize⟩

/-- A block of the source has bytes. -/
theorem sourceBlock_pos {j : Nat} (hj : j < cdiv s.latched.srcLen.toNat bs) : 0 < (s.sourceBlock bs j).length := by
  obtain ⟨-, -, source, pos⟩ := compress_blockSize ha hbs
  have some : 0 < bs := by
    by_contra none
    obtain rfl : bs = 0 := by omega
    rw [cdiv, Nat.div_zero] at hj
    omega
  rw [sourceBlock_length]
  have := (lt_cdiv some).mp hj
  omega

/-- The stream of a block has bytes. -/
theorem codedBlock_pos {j : Nat} (hj : j < cdiv s.latched.srcLen.toNat bs) : 0 < (s.codedBlock bs j).length := by
  have length := filteredBlock_length s bs j
  have some := sourceBlock_pos ha hbs hj
  exact List.length_pos_iff.mpr (greedyStream_ne_nil _ (List.length_pos_iff.mp (by omega)))

/-- COMPRESS makes the stored chunk under the four conditions (41_pipeline.md R270, R271). -/
theorem compressChunk_stored (h : StoresVerbatim s bs) :
    ∃ w, compressChunk s.latched s.srcBytes s.work = storedChunk s.latched s.srcBytes bs w := by
  obtain ⟨size, -⟩ := compress_blockSize ha hbs
  have length := srcBytes_length s
  unfold compressChunk
  simp only [length, ← size]
  by_cases short : s.latched.effort = 0 ∨ s.latched.srcLen.toNat < Config.minBufferSize
  · exact ⟨s.work, by rw [if_pos short]⟩
  · rw [if_neg short]
    obtain ⟨effort, enough⟩ := not_or.mp short
    have blocks : ∀ j ∈ List.range (cdiv s.latched.srcLen.toNat bs), 0 < (s.sourceBlock bs j).length :=
      fun j hj => sourceBlock_pos ha hbs (List.mem_range.mp hj)
    by_cases bad : ∃ j ∈ List.range (cdiv s.latched.srcLen.toNat bs),
        (s.sourceBlock bs j).length ≤ (s.codedBlock bs j).length
    · have first : (List.range (cdiv s.latched.srcLen.toNat bs)).head? = some 0 := by
        obtain ⟨j, hj, -⟩ := bad
        have := List.mem_range.mp hj
        rw [List.head?_range, if_neg (by omega)]
      obtain ⟨w, hw⟩ := codeBlocks_error (pos := s.latched.hlen + tableLength (cdiv s.latched.srcLen.toNat bs))
        (c := ⟨[], [], s.work⟩) effort blocks (.inl first) bad
      exact ⟨w, by rw [hw]⟩
    · have good : ∀ j, j < cdiv s.latched.srcLen.toNat bs →
          (s.codedBlock bs j).length < (s.sourceBlock bs j).length := fun j hj =>
        Nat.lt_of_not_le fun hle => bad ⟨j, List.mem_range.mpr hj, hle⟩
      have long : s.latched.hlen + s.latched.srcLen.toNat ≤ s.codedLength bs := by
        rcases h with c | c | ⟨j, hj, c⟩ | c
        · exact absurd c effort
        · exact absurd c enough
        · exact absurd c (Nat.not_le.mpr (good j hj))
        · exact c
      obtain ⟨w, hw⟩ := codeBlocks_ok (pos := s.latched.hlen + tableLength (cdiv s.latched.srcLen.toNat bs))
        (c := ⟨[], [], s.work⟩) (j := 0) (m := cdiv s.latched.srcLen.toNat bs) effort
        (fun k _ hk => blocks k (List.mem_range.mpr (by omega))) (fun k _ hk => good k (by omega)) (.inl rfl) rfl
      rw [← List.range_eq_range'] at hw
      have total := codedChunk_length s bs
      rw [State.codedChunk, List.length_append, List.length_append, State.codedHeader, chunkHeader_length,
        codedTable_length, State.codedPayloads] at total
      refine ⟨w, ?_⟩
      rw [hw]
      simp only [List.nil_append]
      rw [if_pos (by omega)]

/-- COMPRESS makes the coded chunk otherwise (41_pipeline.md R268). -/
theorem compressChunk_coded (h : ¬ StoresVerbatim s bs) :
    ∃ w, compressChunk s.latched s.srcBytes s.work =
      ⟨false, s.codedChunk bs, cdiv s.latched.srcLen.toNat bs, bs, w⟩ := by
  obtain ⟨size, -⟩ := compress_blockSize ha hbs
  have length := srcBytes_length s
  simp only [StoresVerbatim, not_or, not_exists, not_and, Nat.not_le, Nat.not_lt] at h
  obtain ⟨effort, enough, good, shorter⟩ := h
  obtain ⟨w, hw⟩ := codeBlocks_ok (pos := s.latched.hlen + tableLength (cdiv s.latched.srcLen.toNat bs))
    (c := ⟨[], [], s.work⟩) (j := 0) (m := cdiv s.latched.srcLen.toNat bs) effort
    (fun k _ hk => sourceBlock_pos ha hbs (by omega)) (fun k _ hk => good k (by omega)) (.inl rfl) rfl
  rw [← List.range_eq_range', List.nil_append, List.nil_append, ← State.codedPayloads] at hw
  have total := codedChunk_length s bs
  rw [State.codedChunk, List.length_append, List.length_append, State.codedHeader, chunkHeader_length,
    codedTable_length] at total
  refine ⟨w, ?_⟩
  unfold compressChunk
  simp only [length, ← size]
  rw [if_neg (by simp only [Config.minBufferSize]; omega), hw]
  simp only [total]
  rw [if_neg (Nat.not_le.mpr shorter), List.flatMap_map]
  rfl

end

/-! ## What COMPRESS writes (41_pipeline.md R273, R274, R277) -/

section
variable {s : State} (ha : CompressAccepts s.latched) {r : Compressed}
  (hc : compressChunk s.latched s.srcBytes s.work = r)
include ha hc

theorem exec_compress_accepted : exec .compress s =
    if s.latched.dstCap.toNat < r.chunk.length then
      .next (if r.stored then raiseError .destSmall 0 { s with work := r.work }
        else raiseUnspecified .destSmall 0 { s with work := r.work })
    else .next (complete [r.chunk.length, r.blocks, r.bs] r.stored
      ((({ s with work := r.work } : State).writeDst 0 r.chunk).unspecifyDstFrom r.chunk.length)) := by
  show execCompress s = _
  rw [execCompress, afterRegions_fit rfl rfl rfl ha.regions, afterChecks_pass ha.checks, hc]
  rfl

/-- A chunk that fits is written, and the rest of the destination is unspecified. -/
theorem compress_fits (hm : s.mem.wf) (room : r.chunk.length ≤ s.latched.dstCap.toNat) :
    ∃ t, exec .compress s = .next t ∧
      Completed s t (resultsOf (BitVec.ofNat 32 r.chunk.length) (BitVec.ofNat 32 r.blocks) (BitVec.ofNat 32 r.bs))
        r.stored ∧
      SameOutside s t s.latched.dstAddr.toNat s.latched.dstCap.toNat ∧
      ∀ k < r.chunk.length, t.dstByte k = byteAt r.chunk k := by
  have dst := ha.regions.dst
  refine ⟨_, (exec_compress_accepted ha hc).trans (if_neg (Nat.not_lt.mpr room)),
    complete_completed [r.chunk.length, r.blocks, r.bs] r.stored (.of_eq rfl) rfl rfl,
    ((WithinDst.write (s := s) r.chunk 0 (by omega)).fill r.chunk.length _).outside, fun k hk => ?_⟩
  rw [byteAt_eq hk]
  exact (Memory.read_fill_outside (.inl (Nat.add_lt_add_left hk _))).trans
    (Memory.read_writeBytes_inside hm (show s.latched.dstAddr.toNat + r.chunk.length ≤ 4294967296 by omega) k hk)

/-- A chunk that does not fit fails the command; a stored one leaves memory as it was (log 12). -/
theorem compress_small (small : s.latched.dstCap.toNat < r.chunk.length) :
    ∃ t, exec .compress s = .next t ∧ Failed s t .destSmall 0 ∧
      SameOutside s t s.latched.dstAddr.toNat s.latched.dstCap.toNat ∧ (r.stored = true → t.mem = s.mem) := by
  refine ⟨_, (exec_compress_accepted ha hc).trans (if_pos small), ?_⟩
  cases r.stored with
  | true => exact ⟨raiseError_failed .destSmall 0 (.of_eq rfl) rfl rfl, fun _ _ => rfl, fun _ => rfl⟩
  | false =>
    exact ⟨raiseError_failed .destSmall 0 (.of_eq rfl) rfl rfl, ((WithinDst.refl s).fill 0 _).outside,
      fun c => absurd c Bool.false_ne_true⟩

end

/-- Settles O40. -/
theorem compressSucceedsWithRoom : Obligations.CompressSucceedsWithRoom := by
  rintro s n h bs nb hm ha rfl rfl hbs rfl
  obtain ⟨-, -, -, size⟩ := compress_blockSize ha hbs
  have source := srcBytes_length s
  refine ⟨fun verbatim => ?_, fun coded => ?_⟩
  · obtain ⟨w, hc⟩ := compressChunk_stored ha hbs verbatim
    have header : (encodeHeader (chunkParams s.latched s.srcBytes.length bs true
        (s.latched.hlen + s.srcBytes.length))).length = s.latched.hlen := chunkHeader_length _ _ _ _ _
    have length : (storedChunk s.latched s.srcBytes bs w).chunk.length =
        s.latched.hlen + s.latched.srcLen.toNat := by
      rw [storedChunk, List.length_append, header, source]
    refine ⟨fun room => ?_, fun small => ?_⟩
    · obtain ⟨t, ht, completed, outside, bytes⟩ := compress_fits ha hc hm (by omega)
      have headerAt := headerAt_of_bytes (t := t) (p := s.latched) (stored := true) (n := s.srcBytes.length) (bs := bs)
        (cbytes := s.latched.hlen + s.srcBytes.length) fun k hk => by
          rw [bytes k (by omega), storedChunk, byteAt_append_left (by omega)]
      rw [source, word_ofNat_toNat] at headerAt
      rw [length] at completed
      refine ⟨t, ht, completed, outside, headerAt, fun k hk => ?_⟩
      rw [bytes _ (by omega), storedChunk, byteAt_append_right (by omega), header, Nat.add_sub_cancel_left,
        byteAt_srcBytes hk]
    · obtain ⟨t, ht, failed, -, untouched⟩ := compress_small ha hc (by omega)
      exact ⟨t, ht, failed, untouched rfl⟩
  · obtain ⟨w, hc⟩ := compressChunk_coded ha hbs coded
    have length := codedChunk_length s bs
    simp only [StoresVerbatim, not_or, Nat.not_le, Nat.not_lt] at coded
    obtain ⟨-, enough, -, shorter⟩ := coded
    have blocks : 0 < cdiv s.latched.srcLen.toNat bs := cdiv_pos (by omega) (size (by omega))
    have first := codedBlock_pos ha hbs blocks
    have second : s.codedOffset bs 1 ≤ s.codedLength bs := codedOffset_le s bs blocks
    rw [← Nat.zero_add 1, codedOffset_succ, codedOffset_eq] at second
    refine ⟨blocks, by omega, shorter, fun room => ?_, fun small => ?_⟩
    · obtain ⟨t, ht, completed, outside, bytes⟩ := compress_fits ha hc hm (by rw [length]; exact room)
      have headerAt := headerAt_of_bytes (t := t) (p := s.latched) (stored := false) (n := s.latched.srcLen.toNat)
        (bs := bs) (cbytes := s.codedLength bs) fun k hk => by
          rw [bytes k (by rw [length]; omega), byteAt_codedChunk_header s bs hk, State.codedHeader]
      rw [word_ofNat_toNat] at headerAt
      rw [length] at completed bytes
      refine ⟨t, ht, completed, outside, headerAt, fun several j hj => ?_, fun j hj => ?_⟩
      · have table := codedOffset_le s bs (Nat.zero_le (cdiv s.latched.srcLen.toNat bs))
        rw [codedOffset_eq, codedTable_length, tableLength, if_pos several, ← State.codedLength] at table
        rw [dstWord_eq_wordAt bytes (by omega), wordAt_codedChunk s bs several hj]
      · have stop := codedOffset_le s bs hj
        rw [codedOffset_succ, ← State.codedLength] at stop
        have read := readBytes_dst (t := t) (v := s.codedChunk bs) (by rwa [length]) (o := s.codedOffset bs j)
          (n := (s.codedBlock bs j).length) (by rw [length]; exact stop)
        rwa [completed.kept.latched, slice_codedChunk s bs hj] at read
    · obtain ⟨t, ht, failed, outside, -⟩ := compress_small ha hc (by rw [length]; exact small)
      exact ⟨t, ht, failed, outside⟩

end Sys2Proof.Machine
end

section
/-! A chunk that COMPRESS wrote, as DECOMPRESS reads it from there. -/

namespace Sys2Proof.Machine

/-! ## The slots of an extended header -/

/-- A word is its four bytes. -/
theorem word_bytes_eq {a3 a2 a1 a0 b3 b2 b1 b0 : Byte}
    (h : (a3 ++ a2 ++ a1 ++ a0 : Word) = b3 ++ b2 ++ b1 ++ b0) : a0 = b0 ∧ a1 = b1 ∧ a2 = b2 ∧ a3 = b3 := by
  have value := congrArg BitVec.toNat h
  rw [word_toNat, word_toNat] at value
  have bytes : [a0, a1, a2, a3] = [b0, b1, b2, b3] := by
    rw [← leBytes_leNat [a0, a1, a2, a3], ← leBytes_leNat [b0, b1, b2, b3], value]
    rfl
  simpa using bytes

/-- The six slot bytes and the two bytes after them, from the two words that hold them (40_header.md R229). -/
theorem slots_of_words {t : State} {k : Nat} {w0 w1 : Word} (low : t.dstWord k = w0)
    (high : t.dstWord (k + 4) = (w1.extractLsb' 0 16).setWidth 32) :
    (List.range 6).map (fun i => t.dstByte (k + i)) = slotBytes w0 w1 ∧
      t.dstByte (k + 6) = 0 ∧ t.dstByte (k + 7) = 0 := by
  obtain ⟨l0, l1, l2, l3⟩ := word_bytes_eq (low.trans (lowSlots_word w0).symm)
  obtain ⟨h0, h1, h2, h3⟩ := word_bytes_eq (high.trans (highSlots_word w1).symm)
  refine ⟨?_, h2, h3⟩
  show [t.dstByte k, t.dstByte (k + 1), t.dstByte (k + 2), t.dstByte (k + 3), t.dstByte (k + 4), t.dstByte (k + 5)] = _
  rw [l0, l1, l2, l3, h0, show t.dstByte (k + 5) = _ from h1]
  rfl

section
variable {t u : State} {p : Params} {nbytes bs cbytes : Word} (r : ReadsDestination t u)
  (shuffles : p.extHdr = false → ¬ (p.shuf = true ∧ p.bshuf = true))
include r shuffles

theorem HeaderAt.srcHeaderLength {stored : Bool} (h : HeaderAt t p stored nbytes bs cbytes) :
    u.srcHeaderLength = p.hlen := by
  rw [State.srcHeaderLength, h.srcExtended r shuffles, Params.hlen_eq]

/-- The pipeline of the configuration is the one that the header of a coded chunk names (41_pipeline.md R262). -/
theorem HeaderAt.sourceFilters (h : HeaderAt t p false nbytes bs cbytes) : u.sourceFilters = p.pipeline := by
  rw [State.sourceFilters, h.srcExtended r shuffles, Params.pipeline]
  cases hx : p.extHdr with
  | true =>
    obtain ⟨codes, -⟩ := slots_of_words (h.slots0 hx) (h.slots1 hx)
    obtain ⟨metas, -⟩ := slots_of_words (h.meta0 hx) (h.meta1 hx)
    rw [if_neg Bool.false_ne_true] at codes metas
    simp only [r.srcByte, if_true]
    rw [codes, metas, Params.fcode, Params.fmeta]
  | false =>
    rw [if_neg Bool.false_ne_true, if_neg Bool.false_ne_true, r.srcByte, h.shuf, h.bshuf, h.delta, hx]
    rfl

/-- A coded chunk is supported where its slots hold allocated filter codes (41_pipeline.md R286). -/
theorem HeaderAt.supported (h : HeaderAt t p false nbytes bs cbytes)
    (slots : p.extHdr = true → ∀ c ∈ p.fcode, c.toNat < 5) : ChunkSupported u := by
  right
  rw [h.srcExtended r shuffles]
  cases hx : p.extHdr with
  | true =>
    obtain ⟨codes, codec, -⟩ := slots_of_words (h.slots0 hx) (h.slots1 hx)
    obtain ⟨-, -, xflags⟩ := slots_of_words (h.meta0 hx) (h.meta1 hx)
    rw [if_neg Bool.false_ne_true] at codes
    refine ⟨(r.srcByte 22).trans codec, fun _ => ⟨(r.srcByte 31).trans xflags, fun k hk => ?_⟩⟩
    rw [r.srcByte]
    refine slots hx _ ?_
    rw [Params.fcode, ← codes]
    exact List.mem_map.mpr ⟨k, List.mem_range.mpr hk, rfl⟩
  | false =>
    rw [if_neg Bool.false_ne_true, r.srcByte, codecBits_zero h.codec]
    exact ⟨rfl, fun c => absurd c Bool.false_ne_true⟩

end

theorem CompressAccepts.codes {p : Params} (h : CompressAccepts p) (hx : p.extHdr = true) :
    ∀ c ∈ p.fcode, c.toNat < 5 := by
  intro c hc
  rw [← List.map_fst_zip (l₁ := p.fcode) (l₂ := p.fmeta) (Nat.le_refl 6)] at hc
  obtain ⟨slot, hs, rfl⟩ := List.mem_map.mp hc
  exact (h.slots hx slot hs).1

/-- The parameters with which HDR_ENCODE writes the header of a chunk of `c` bytes in blocks of `bs`. -/
def Params.withChunk (p : Params) (bs c : Nat) : Params :=
  { p with bsize := BitVec.ofNat 32 bs, arg1 := BitVec.ofNat 32 c }

theorem HeaderAt.withChunk {t : State} {p : Params} {stored : Bool} {bs c : Nat}
    (h : HeaderAt t p stored p.srcLen (BitVec.ofNat 32 bs) (BitVec.ofNat 32 c)) :
    HeaderAt t (p.withChunk bs c) stored (p.withChunk bs c).srcLen (p.withChunk bs c).bsize (p.withChunk bs c).arg1 :=
  { h with }

/-- The header that COMPRESS writes is accepted where it is read (40_header.md R234). -/
theorem HeaderAt.accepted_of_compress {t u : State} {p : Params} {stored : Bool} {bs c : Nat}
    (h : HeaderAt t p stored p.srcLen (BitVec.ofNat 32 bs) (BitVec.ofNat 32 c)) (r : ReadsDestination t u)
    (ha : CompressAccepts p) (limit : bs ≤ 262144) (source : bs ≤ p.srcLen.toNat)
    (pos : 0 < p.srcLen.toNat → 0 < bs) (long : p.hlen ≤ c) (wide : c < 4294967296)
    (hl : c ≤ u.latched.srcLen.toNat) : HeaderAccepted u := by
  have hbs : (BitVec.ofNat 32 bs).toNat = bs := by
    rw [BitVec.toNat_ofNat]
    omega
  have hc : (BitVec.ofNat 32 c).toNat = c := by
    rw [BitVec.toNat_ofNat]
    omega
  refine h.withChunk.accepted r ⟨ha.shuffles, ?_, ?_, ?_, fun _ => ha.typesize⟩ (long.trans hl)
  · show p.hlen ≤ (BitVec.ofNat 32 c).toNat
    omega
  · show (BitVec.ofNat 32 bs).toNat ≤ 262144
    omega
  · show 0 < p.srcLen.toNat → 0 < (BitVec.ofNat 32 bs).toNat ∧ (BitVec.ofNat 32 bs).toNat ≤ p.srcLen.toNat
    rw [hbs]
    exact fun some => ⟨pos some, source⟩

/-- A command that ends leaves memory in its canonical form. -/
theorem Ends.mem_wf {s t : State} (h : Ends s t) (hm : s.mem.wf) : t.mem.wf := by
  obtain ⟨m, w, f, within, -, ⟨e, n, rfl⟩ | ⟨r, b, rfl⟩⟩ := h
  · exact within.wf hm
  · exact within.wf hm

/-! ## The blocks of a coded chunk -/

/-- `u` reads the coded chunk that COMPRESS of `s` wrote to `t`, as `CompressSucceedsWithRoom` describes it. -/
structure ReadsCoded (s t u : State) (bs : Nat) : Prop where
  reads : ReadsDestination t u
  latched : t.latched = s.latched
  accepts : CompressAccepts s.latched
  size : BlockSizeIs s.latched.effort s.latched.typesize s.latched.srcLen.toNat s.latched.bsize.toNat bs
  short : s.codedLength bs < 4294967296
  blocks : 1 ≤ cdiv s.latched.srcLen.toNat bs
  header : HeaderAt t s.latched false s.latched.srcLen (BitVec.ofNat 32 bs) (BitVec.ofNat 32 (s.codedLength bs))
  table : 1 < cdiv s.latched.srcLen.toNat bs → ∀ j, j < cdiv s.latched.srcLen.toNat bs →
    t.dstWord (s.latched.hlen + 4 * j) = BitVec.ofNat 32 (s.codedOffset bs j)
  payloads : ∀ j, j < cdiv s.latched.srcLen.toNat bs →
    t.mem.readBytes (s.latched.dstAddr.toNat + s.codedOffset bs j) (s.codedBlock bs j).length = s.codedBlock bs j

section
variable {s t u : State} {bs : Nat} (h : ReadsCoded s t u bs)
include h

theorem ReadsCoded.fields : u.srcWord 4 = s.latched.srcLen ∧ (u.srcWord 8).toNat = bs ∧
    (u.srcWord 12).toNat = s.codedLength bs ∧ u.srcHeaderLength = s.latched.hlen ∧
    u.srcByte 3 = s.latched.typesizeByte := by
  obtain ⟨-, limit, -, -⟩ := compress_blockSize h.accepts h.size
  have short := h.short
  rw [h.reads.srcWord, h.reads.srcWord, h.reads.srcWord, h.header.nbytes, h.header.bs, h.header.cbytes, h.reads.srcByte,
    h.header.typesize, BitVec.toNat_ofNat, BitVec.toNat_ofNat]
  exact ⟨rfl, by omega, by omega, h.header.srcHeaderLength h.reads h.accepts.shuffles, rfl⟩

theorem ReadsCoded.chunkBlocks : u.chunkBlocks = cdiv s.latched.srcLen.toNat bs := by
  obtain ⟨nbytes, size, -⟩ := h.fields
  rw [State.chunkBlocks, nbytes, size]

theorem ReadsCoded.tableEnd : u.tableEnd = s.codedOffset bs 0 := by
  obtain ⟨-, -, -, header, -⟩ := h.fields
  rw [State.tableEnd, h.chunkBlocks, header]
  rfl

theorem ReadsCoded.tableEntry {j : Nat} (several : 1 < u.chunkBlocks) (hj : j < u.chunkBlocks) :
    u.tableEntry j = s.codedOffset bs j := by
  obtain ⟨-, -, -, header, -⟩ := h.fields
  have short := h.short
  rw [h.chunkBlocks] at several hj
  have inside : s.codedOffset bs j ≤ s.codedLength bs := codedOffset_le s bs hj.le
  rw [State.tableEntry, header, h.reads.srcWord, h.table several j hj, BitVec.toNat_ofNat]
  omega

theorem ReadsCoded.tableAccepted : TableAccepted u := by
  obtain ⟨-, -, cbytes, -, -⟩ := h.fields
  have blocks := h.blocks
  rw [← h.chunkBlocks] at blocks
  refine ⟨?_, fun several => ⟨?_, fun j hj => ?_⟩, fun several => ?_⟩
  · rw [h.tableEnd, cbytes]
    exact codedOffset_le s bs (Nat.zero_le _)
  · rw [h.tableEntry several (by omega), h.tableEnd]
  · have some := codedBlock_pos h.accepts h.size (h.chunkBlocks ▸ show j < u.chunkBlocks by omega)
    rw [h.tableEntry several (by omega), h.tableEntry several hj, codedOffset_succ]
    omega
  · rw [h.tableEntry several (by omega), cbytes]
    exact codedOffset_le s bs (h.chunkBlocks ▸ Nat.sub_le _ _)

/-- A payload that is read is the one that was written. -/
theorem ReadsCoded.payload {j : Nat} (hj : j < u.chunkBlocks) : u.payload j = s.codedBlock bs j := by
  obtain ⟨-, -, cbytes, header, -⟩ := h.fields
  have start : (if 1 < u.chunkBlocks then u.tableEntry j else u.srcHeaderLength) = s.codedOffset bs j := by
    by_cases several : 1 < u.chunkBlocks
    · rw [if_pos several, h.tableEntry several hj]
    · obtain rfl : j = 0 := by omega
      rw [if_neg several, ← h.tableEnd, State.tableEnd, if_neg several, Nat.add_zero]
  have stop : (if j + 1 < u.chunkBlocks then u.tableEntry (j + 1) else (u.srcWord 12).toNat) =
      s.codedOffset bs (j + 1) := by
    by_cases next : j + 1 < u.chunkBlocks
    · rw [if_pos next, h.tableEntry (by omega) next]
    · rw [if_neg next, cbytes, State.codedLength, ← h.chunkBlocks, show j + 1 = u.chunkBlocks by omega]
  have written := h.payloads j (h.chunkBlocks ▸ hj)
  rw [State.payload]
  simp only [start, stop]
  rw [codedOffset_succ, Nat.add_sub_cancel_left, h.reads.mem, h.reads.base, h.latched, written]

/-- Every payload decodes to the filtered block (43_lz_codec.md R415). -/
theorem ReadsCoded.blockDecodes {j : Nat} (hj : j < u.chunkBlocks) : BlockDecodes u j (s.filteredBlock bs j) := by
  obtain ⟨nbytes, size, -⟩ := h.fields
  have length : (s.filteredBlock bs j).length = u.chunkBlockLength j := by
    rw [filteredBlock_length, sourceBlock_length, State.chunkBlockLength, nbytes, size]
  refine ⟨?_, length⟩
  rw [h.payload hj]
  exact lzDecode_greedyStream _ length.le

/-- Without truncation the inverse filters give every block of the source back (41_pipeline.md R264, R265). -/
theorem ReadsCoded.finalBlock (lossless : Lossless s.latched.pipeline) (j : Nat) :
    u.finalBlock (s.filteredBlock bs) j = s.sourceBlock bs j := by
  obtain ⟨-, -, -, -, typesize⟩ := h.fields
  have undo := undoFilters_applyFilters lossless h.accepts.typesize
  have reference : undoFilters s.latched.typesize 0 [] s.latched.pipeline (s.filteredBlock bs 0) =
      s.compressReference bs := by
    rw [← inverse_eq, inverse_filteredBlock_zero]
  rw [State.finalBlock, typesize, h.header.sourceFilters h.reads h.accepts.shuffles]
  change undoFilters s.latched.typesize j (undoFilters s.latched.typesize 0 [] _ _) _ _ = _
  rw [reference]
  exact undo j (s.compressReference bs) (s.sourceBlock bs j)

/-- DECOMPRESS of the coded chunk gives the source back. -/
theorem ReadsCoded.decompress (lossless : Lossless s.latched.pipeline) (hand : ChunkAtHand u)
    (some : 0 < s.latched.srcLen.toNat) (room : s.latched.srcLen.toNat ≤ u.latched.dstCap.toNat) :
    ∃ v, exec .decompress u = .next v ∧ Completed u v (resultsOf s.latched.srcLen 0 0) false ∧
      SameOutside u v u.latched.dstAddr.toNat s.latched.srcLen.toNat ∧
      ∀ k, k < s.latched.srcLen.toNat → v.dstByte k = s.srcByte k := by
  obtain ⟨nbytes, size, -⟩ := h.fields
  have coded : (u.srcByte 2).getLsbD 1 = false := by rw [h.reads.srcByte, h.header.flagStored]
  have reaches : ReachesBlocks u .decompress :=
    ⟨hand.whole, h.header.supported h.reads h.accepts.shuffles h.accepts.codes, coded,
      .inl ⟨rfl, by rwa [nbytes], by rwa [nbytes]⟩⟩
  obtain ⟨v, hv, wrote⟩ := decompress_coded hand reaches h.tableAccepted (x := s.filteredBlock bs)
    fun j hj => h.blockDecodes hj
  obtain ⟨length, bytes⟩ := byteAt_finalBlocks hand (x := s.filteredBlock bs) (by rwa [nbytes])
    fun j hj => h.blockDecodes hj
  rw [nbytes] at length bytes
  have outside := wrote.outside
  have completed := wrote.completed
  rw [length] at outside
  rw [nbytes] at completed
  refine ⟨v, hv, completed, outside, fun k hk => ?_⟩
  obtain ⟨-, -, -, pos⟩ := compress_blockSize h.accepts h.size
  have column := Nat.mod_lt k (pos some)
  have place : k / bs * bs + k % bs = k := Nat.div_add_mod' k bs
  rw [wrote.bytes k (by omega), bytes k hk, chunkByte_eq, size, h.finalBlock lossless, State.sourceBlock,
    byteAt_readBytes _ _ _ (by omega), Nat.add_assoc, place, State.srcByte]

end

/-- Settles O47: what COMPRESS wrote is a chunk at hand for DECOMPRESS, which copies a stored one and decodes the blocks
of a coded one. -/
theorem compressDecompressRoundTrip : Obligations.CompressDecompressRoundTrip := by
  intro s t u hm ha lossless ht ok mem hu base length room
  have hbs := (blockSizeIs_iff ha.effort).mpr
    (rfl : blockSize s.latched.effort s.latched.typesize s.latched.srcLen.toNat s.latched.bsize.toNat = _)
  obtain ⟨-, limit, source, pos⟩ := compress_blockSize ha hbs
  obtain ⟨stores, codes⟩ := compressSucceedsWithRoom s _ _ _ _ hm ha rfl rfl hbs rfl
  generalize blockSize s.latched.effort s.latched.typesize s.latched.srcLen.toNat s.latched.bsize.toNat = bs at *
  have wf : u.mem.wf := by
    obtain ⟨t', ht', ends⟩ := execCompress_ends s
    obtain rfl := Host.Outcome.next.inj (ht.symm.trans ht')
    rw [mem]
    exact ends.mem_wf hm
  have succeeds : ∀ {n}, ¬ ∃ t', exec .compress s = .next t' ∧ Failed s t' .destSmall n := by
    rintro n ⟨t', ht', failed⟩
    obtain rfl := Host.Outcome.next.inj (ht.symm.trans ht')
    rw [failed.status_err] at ok
    cases ok
  have size := ha.size
  have header := Params.hlen_eq s.latched
  have hlen : s.latched.hlen ≤ 32 := by
    rw [header]
    split <;> omega
  have hand : ∀ {stored c}, t.results.result0 = BitVec.ofNat 32 c → ReadsDestination t u →
      HeaderAt t s.latched stored s.latched.srcLen (BitVec.ofNat 32 bs) (BitVec.ofNat 32 c) →
      s.latched.hlen ≤ c → c < 4294967296 → ChunkAtHand u := by
    intro stored c result reads headerAt long wide
    rw [result] at length
    have srcLen : u.latched.srcLen.toNat = c := by
      rw [length, BitVec.toNat_ofNat]
      omega
    refine ⟨wf, hu, headerAt.accepted_of_compress reads ha limit source pos long wide srcLen.ge, ?_⟩
    rw [reads.srcWord, headerAt.cbytes, length]
  by_cases verbatim : StoresVerbatim s bs
  · obtain ⟨fits, small⟩ := stores verbatim
    have space := Nat.not_lt.mp fun c => succeeds
      ((small c).imp fun t' h => ⟨h.1, h.2.failed⟩)
    obtain ⟨t', ht', completed, -, headerAt, bytes⟩ := fits space
    obtain rfl := Host.Outcome.next.inj (ht.symm.trans ht')
    have reads : ReadsDestination t u := ⟨mem, by rw [base, completed.kept.latched]⟩
    have nbytes : u.srcWord 4 = s.latched.srcLen := by rw [reads.srcWord, headerAt.nbytes]
    have headerLength := headerAt.srcHeaderLength reads ha.shuffles
    obtain ⟨v, hv, completedU, outside, copied⟩ := decompressCopiesAStoredChunk u s.latched.srcLen.toNat
      (hand (by rw [completed.results]; rfl) reads headerAt (Nat.le_add_right _ _) (by omega)) (by rw [nbytes])
      (by rw [reads.srcByte, headerAt.flagStored]) room (by
        rw [reads.srcWord, headerAt.cbytes, headerLength, BitVec.toNat_ofNat]
        omega)
    rw [nbytes] at completedU
    rw [completed.status]
    refine ⟨v, hv, completedU, outside, fun k hk => ?_⟩
    rw [copied k hk, headerLength, reads.srcByte, bytes k hk]
  · obtain ⟨blocks, long, shorter, fits, small⟩ := codes verbatim
    have space := Nat.not_lt.mp fun c => succeeds ((small c).imp fun t' h => ⟨h.1, h.2.1⟩)
    obtain ⟨t', ht', completed, -, headerAt, table, payloads⟩ := fits space
    obtain rfl := Host.Outcome.next.inj (ht.symm.trans ht')
    have reads : ReadsDestination t u := ⟨mem, by rw [base, completed.kept.latched]⟩
    have coded : ReadsCoded s t u bs :=
      ⟨reads, completed.kept.latched, ha, hbs, by omega, blocks, headerAt, table, payloads⟩
    have some : 0 < s.latched.srcLen.toNat := by
      by_contra none
      exact verbatim (.inr (.inl (by omega)))
    rw [completed.status]
    exact coded.decompress lossless
      (hand (by rw [completed.results]; rfl) reads headerAt long.le (by omega)) some room

end Sys2Proof.Machine
end

section
/-! The filter functions, bit by bit and byte by byte (42_filters.md R320 to R350). -/

namespace Sys2Proof.Machine

/-! ## The shuffles -/

section
variable {ts n : Nat} {x : List Byte} (hn : x.length / ts = n)
include hn

theorem wholeElements_le : n * ts ≤ x.length := hn ▸ Nat.div_mul_le_self _ _

/-- Byte k of element i goes to byte i of plane k (42_filters.md R320). -/
theorem byteAt_shuffle {i k : Nat} (hi : i < n) (hk : k < ts) :
    byteAt (shuffle ts x) (k * n + i) = byteAt x (i * ts + k) := by
  have place := transpose_lt hi hk
  obtain ⟨element, plane⟩ := transpose_place k hi
  rw [shuffle, byteAt_map_range _ _ (place.trans_le (wholeElements_le hn)), hn, if_pos place, element, plane]

/-- Byte i of plane k goes to byte k of element i (42_filters.md R323). -/
theorem byteAt_unshuffle {i k : Nat} (hi : i < n) (hk : k < ts) :
    byteAt (unshuffle ts x) (i * ts + k) = byteAt x (k * n + i) := by
  have place : i * ts + k < n * ts := Nat.mul_comm ts n ▸ transpose_lt hk hi
  obtain ⟨plane, element⟩ := transpose_place i hk
  rw [unshuffle, byteAt_map_range _ _ (place.trans_le (wholeElements_le hn)), hn, if_pos place, plane, element]

/-- Bit q of element i goes to bit i of plane q (42_filters.md R330). -/
theorem bitAt_bitshuffle {i q : Nat} (hi : i < n) (hq : q < 8 * ts) :
    bitAt (bitshuffle ts x) (q * n + i) = bitAt x (i * (8 * ts) + q) := by
  have bytes : ∀ t < n * ts, byteAt (bitshuffle ts x) t = byteOfBits fun b =>
      bitAt x ((8 * t + b) % n * (8 * ts) + (8 * t + b) / n) := fun t ht => by
    rw [bitshuffle, byteAt_map_range _ _ (ht.trans_le (wholeElements_le hn)), hn, if_pos ht]
  have place : q * n + i < 8 * (n * ts) := (transpose_lt hi hq).trans_eq (by ring)
  obtain ⟨element, plane⟩ := transpose_place q hi
  rw [bitAt_byteOfBits bytes place, Nat.div_add_mod, element, plane]

/-- Bit i of plane q goes to bit q of element i (42_filters.md R332). -/
theorem bitAt_bitunshuffle {i q : Nat} (hi : i < n) (hq : q < 8 * ts) :
    bitAt (bitunshuffle ts x) (i * (8 * ts) + q) = bitAt x (q * n + i) := by
  have bytes : ∀ t < n * ts, byteAt (bitunshuffle ts x) t = byteOfBits fun b =>
      bitAt x ((8 * t + b) % (8 * ts) * n + (8 * t + b) / (8 * ts)) := fun t ht => by
    rw [bitunshuffle, byteAt_map_range _ _ (ht.trans_le (wholeElements_le hn)), hn, if_pos ht]
  have place : i * (8 * ts) + q < 8 * (n * ts) := (transpose_lt hq hi).trans_eq (by ring)
  obtain ⟨plane, element⟩ := transpose_place i hq
  rw [bitAt_byteOfBits bytes place, Nat.div_add_mod, plane, element]

/-! The bytes after the last whole element stay where they are. -/

theorem byteAt_shuffle_tail {b : Nat} (whole : n * ts ≤ b) (hb : b < x.length) :
    byteAt (shuffle ts x) b = byteAt x b := by
  rw [shuffle, byteAt_map_range _ _ hb, hn, if_neg (Nat.not_lt.mpr whole)]

theorem byteAt_unshuffle_tail {b : Nat} (whole : n * ts ≤ b) (hb : b < x.length) :
    byteAt (unshuffle ts x) b = byteAt x b := by
  rw [unshuffle, byteAt_map_range _ _ hb, hn, if_neg (Nat.not_lt.mpr whole)]

theorem byteAt_bitshuffle_tail {b : Nat} (whole : n * ts ≤ b) (hb : b < x.length) :
    byteAt (bitshuffle ts x) b = byteAt x b := by
  rw [bitshuffle, byteAt_map_range _ _ hb, hn, if_neg (Nat.not_lt.mpr whole)]

theorem byteAt_bitunshuffle_tail {b : Nat} (whole : n * ts ≤ b) (hb : b < x.length) :
    byteAt (bitunshuffle ts x) b = byteAt x b := by
  rw [bitunshuffle, byteAt_map_range _ _ hb, hn, if_neg (Nat.not_lt.mpr whole)]

end

/-- SHUFFLE undoes UNSHUFFLE: the byte of plane t / n at element t % n goes to that element and back
(42_filters.md R324). -/
theorem shuffle_unshuffle (ts : Nat) (x : List Byte) : shuffle ts (unshuffle ts x) = x := by
  have hl : (unshuffle ts x).length = x.length := unshuffle_length ts x
  have hn : (unshuffle ts x).length / ts = x.length / ts := by rw [hl]
  refine ext_byteAt (by rw [shuffle_length, hl]) fun t ht => ?_
  rw [shuffle_length, hl] at ht
  by_cases whole : t < x.length / ts * ts
  · have element : t % (x.length / ts) < x.length / ts :=
      Nat.mod_lt _ (Nat.pos_of_ne_zero fun empty => by simp [empty] at whole)
    have plane : t / (x.length / ts) < ts := Nat.div_lt_of_lt_mul whole
    have rejoin : t / (x.length / ts) * (x.length / ts) + t % (x.length / ts) = t := Nat.div_add_mod' _ _
    calc byteAt (shuffle ts (unshuffle ts x)) t
        = byteAt (unshuffle ts x) (t % (x.length / ts) * ts + t / (x.length / ts)) := by
          rw [← byteAt_shuffle hn element plane, rejoin]
      _ = byteAt x t := by rw [byteAt_unshuffle rfl element plane, rejoin]
  · rw [byteAt_shuffle_tail hn (Nat.not_lt.mp whole) (hl ▸ ht), byteAt_unshuffle_tail rfl (Nat.not_lt.mp whole) ht]

/-! ## The deltas -/

theorem PreviousElement.deltaWidth {ts w : Nat} (h : PreviousElement ts w) : deltaWidth ts = w := by
  unfold Machine.deltaWidth
  rcases h with ⟨power, rfl⟩ | ⟨eights, long, rfl⟩ | ⟨power, eights, rfl⟩
  · rw [if_pos power]
  · rw [if_neg (by omega), if_pos ⟨eights, long⟩]
  · rw [if_neg power, if_neg eights]

theorem byteAt_deltaRef (ts : Nat) {x : List Byte} {b : Nat} (hb : b < x.length) : byteAt (deltaRef ts x) b =
    byteAt x b ^^^ (if deltaWidth ts ≤ b then byteAt x (b - deltaWidth ts) else 0) :=
  byteAt_map_range _ _ hb

theorem byteAt_deltaXor {x r : List Byte} {b : Nat} (hb : b < x.length) :
    byteAt (deltaXor x r) b = byteAt x b ^^^ byteAt r b :=
  byteAt_map_range _ _ hb

theorem byteAt_undeltaRef (ts : Nat) {x : List Byte} {b : Nat} (hb : b < x.length) : byteAt (undeltaRef ts x) b =
    byteAt x b ^^^ (if deltaWidth ts ≤ b then byteAt (undeltaRef ts x) (b - deltaWidth ts) else 0) := by
  obtain ⟨-, decoded⟩ := undeltaLoop_byteAt (deltaWidth ts) (deltaWidth_pos ts) x [] b
  exact decoded (Nat.zero_le b) (by simpa using hb)

/-! ## Truncation -/

theorem fractionBits_eq_some_iff (ts m : Nat) :
    fractionBits ts = some m ↔ (ts = 4 ∧ m = 23) ∨ (ts = 8 ∧ m = 52) := by
  unfold fractionBits
  split
  · simp [*, eq_comm]
  · split <;> simp [*, eq_comm]

/-- The accepted parameters, in the words of the claims and of the model (42_filters.md R350). -/
theorem precisionAccepted_iff (ts m : Nat) (p : Int) (z : Nat) : PrecisionAccepted ts m p z ↔
    fractionBits ts = some m ∧ p.natAbs ≤ m ∧ clearedBits m p < m ∧ clearedBits m p = z := by
  rw [PrecisionAccepted, fractionBits_eq_some_iff]
  refine and_congr_right fun _ => ?_
  unfold clearedBits
  split <;> omega

theorem truncOk_iff (ts : Nat) (p : Int) : truncOk ts p = true ↔ ∃ m z, PrecisionAccepted ts m p z := by
  simp only [precisionAccepted_iff, truncOk]
  cases fractionBits ts <;> simp

theorem PrecisionAccepted.typesize {ts m z : Nat} {p : Int} (h : PrecisionAccepted ts m p z) : ts = 4 ∨ ts = 8 := by
  obtain ⟨⟨ts4, -⟩ | ⟨ts8, -⟩, -⟩ := h
  · exact .inl ts4
  · exact .inr ts8

/-- A truncated element is the source element with its low z bits at 0 (42_filters.md R350). -/
theorem leNat_slice_truncPrec {ts m z n i : Nat} {p : Int} {x : List Byte} (h : PrecisionAccepted ts m p z)
    (hn : x.length / ts = n) (hi : i < n) :
    leNat (slice (truncPrec ts p x) (i * ts) ts) = leNat (slice x (i * ts) ts) / 2 ^ z * 2 ^ z := by
  obtain ⟨fraction, -, -, cleared⟩ := (precisionAccepted_iff ts m p z).mp h
  have last : i * ts + ts ≤ n * ts := Nat.succ_mul i ts ▸ Nat.mul_le_mul_right ts hi
  have whole := last.trans (wholeElements_le hn)
  have long : (slice x (i * ts) ts).length = ts := slice_length whole
  have long' : (slice (truncPrec ts p x) (i * ts) ts).length = ts := slice_length (by rwa [truncPrec_length])
  have bytes : slice (truncPrec ts p x) (i * ts) ts = leBytes ts (leNat (slice x (i * ts) ts) >>> z <<< z) := by
    refine ext_byteAt (by rw [long', leBytes_length]) fun k hk => ?_
    rw [long'] at hk
    obtain ⟨offset, element⟩ := transpose_place i hk
    rw [byteAt_slice hk, truncPrec, byteAt_map_range _ _ (by omega), hn, if_pos (by omega), offset, element, fraction,
      Option.getD_some, cleared]
  have small : leNat (slice x (i * ts) ts) / 2 ^ z * 2 ^ z < 256 ^ ts := by
    have := leNat_lt (slice x (i * ts) ts)
    rw [long] at this
    exact (Nat.div_mul_le_self _ _).trans_lt this
  rw [bytes, leNat_leBytes, Nat.shiftRight_eq_div_pow, Nat.shiftLeft_eq, Nat.mod_eq_of_lt small]

theorem byteAt_truncPrec_tail {ts n b : Nat} {x : List Byte} (p : Int) (hn : x.length / ts = n) (whole : n * ts ≤ b)
    (hb : b < x.length) : byteAt (truncPrec ts p x) b = byteAt x b := by
  rw [truncPrec, byteAt_map_range _ _ hb, hn, if_neg (Nat.not_lt.mpr whole)]

end Sys2Proof.Machine
end

section
/-! The seven raw filter commands: the order of their checks, and what they write (42_filters.md R321). -/

namespace Sys2Proof.Machine

/-- The commands that run the filter command frame (42_filters.md R321). -/
def rawFilters : List Instr :=
  [.shuffle, .unshuffle, .bitshuffle, .bitunshuffle, .deltaEncode, .deltaDecode, .truncPrec]

/-- A filter command's own argument checks (42_filters.md R321, R333, R352). -/
def State.filterChecks (s : State) (i : Instr) : List (Bool × Err × Nat) :=
  if i = .truncPrec then
    [(decide (s.latched.typesize ≠ 4 ∧ s.latched.typesize ≠ 8), .arg, 8),
     (!truncOk s.latched.typesize s.latched.precision, .arg, 8)]
  else if i = .bitshuffle ∨ i = .bitunshuffle then [typesizeCheck s, octetCheck s]
  else [typesizeCheck s]

/-- The function that a filter command applies to its source (42_filters.md R354). -/
def State.filterImage (s : State) (i : Instr) (x : List Byte) : List Byte :=
  match i with
  | .shuffle => Machine.shuffle s.latched.typesize x
  | .unshuffle => Machine.unshuffle s.latched.typesize x
  | .bitshuffle => Machine.bitshuffle s.latched.typesize x
  | .bitunshuffle => Machine.bitunshuffle s.latched.typesize x
  | .deltaEncode => if s.latched.refBlock then deltaRef s.latched.typesize x else deltaXor x s.refBytes
  | .deltaDecode => if s.latched.refBlock then undeltaRef s.latched.typesize x else deltaXor x s.refBytes
  | .truncPrec => Machine.truncPrec s.latched.typesize s.latched.precision x
  | _ => x

/-- Each command is the frame around its own checks and its own function. -/
theorem exec_filter : ∀ i ∈ rawFilters, ∀ s : State,
    exec i s = filterCommand i (s.filterChecks i) (s.filterImage i) s := by
  simp only [rawFilters, List.forall_mem_cons, List.not_mem_nil, false_implies, implies_true, and_true]
  exact ⟨fun _ => rfl, fun _ => rfl, fun _ => rfl, fun _ => rfl, fun _ => rfl, fun _ => rfl, fun _ => rfl⟩

theorem filterImage_length (s : State) (i : Instr) (x : List Byte) : (s.filterImage i x).length = x.length := by
  unfold State.filterImage
  split
  case h_1 => exact shuffle_length _ _
  case h_2 => exact unshuffle_length _ _
  case h_3 => exact bitshuffle_length _ _
  case h_4 => exact bitunshuffle_length _ _
  case h_5 =>
    split
    · exact deltaRef_length _ _
    · exact deltaXor_length _ _
  case h_6 =>
    split
    · exact undeltaRef_length _ _
    · exact deltaXor_length _ _
  case h_7 => exact truncPrec_length _ _ _
  case h_8 => rfl

/-! ## The checks -/

theorem usesBoth_of_rawFilter : ∀ i ∈ rawFilters, usesSrc i = true ∧ usesDst i = true := by decide

/-- The regions of a filter command, with the reference of the delta commands (20_memory.md R108, R109). -/
theorem regionError_filter {i : Instr} {p : Params} (hi : i ∈ rawFilters) (hr : RegionsFit p)
    (ref : i ∈ ([.deltaEncode, .deltaDecode] : List Instr) → p.refBlock = false → ReferenceFits p) :
    regionError i p = none := by
  by_cases delta : i ∈ ([.deltaEncode, .deltaDecode] : List Instr)
  · exact regionError_delta (by simpa using delta) hr (ref delta)
  · obtain ⟨src, dst⟩ := usesBoth_of_rawFilter i hi
    have noRef : usesRef i p = false := Bool.eq_false_iff.mpr fun uses => delta ((usesRef_iff i p).mp uses).1
    exact (regionError_none_iff src dst noRef).mpr hr

theorem firstFailing_append (l k : List (Bool × Err × Nat)) :
    firstFailing (l ++ k) = (firstFailing l).or (firstFailing k) := by
  cases h : firstFailing l with
  | none => rw [firstFailing_append_none h, Option.none_or]
  | some e => rw [firstFailing_append_some h, Option.some_or]

/-- The parameter of TRUNC_PREC is ARG0[7:0], signed (42_filters.md R352). -/
theorem truncOk_precision_iff (p : Params) : truncOk p.typesize p.precision = true ↔
    ∃ m z, PrecisionAccepted p.typesize m (p.arg0.extractLsb' 0 8).toInt z :=
  truncOk_iff p.typesize p.precision

/-- A command's own checks, in their order. -/
theorem firstFailing_filterChecks (s : State) (i : Instr) : firstFailing (s.filterChecks i) =
    if i = .truncPrec then if truncOk s.latched.typesize s.latched.precision then none else some (.arg, 8)
    else if s.latched.typesize = 0 then some (.arg, 4)
    else if (i = .bitshuffle ∨ i = .bitunshuffle) ∧ s.elements % 8 ≠ 0 then some (.arg, 7)
    else none := by
  unfold State.filterChecks
  split
  · rw [firstFailing_cons, firstFailing_cons, firstFailing]
    by_cases accepted : truncOk s.latched.typesize s.latched.precision
    · obtain ⟨m, z, h⟩ := (truncOk_iff _ _).mp accepted
      have size := h.typesize
      rw [if_neg (by rw [decide_eq_true_iff]; omega), if_neg (by simp [accepted]), if_pos accepted]
    · simp [accepted]
  · split
    · rename_i bits
      rw [typesizeCheck, octetCheck, firstFailing_cons, firstFailing_cons, firstFailing]
      exact if_congr decide_eq_true_iff rfl (if_congr (decide_eq_true_iff.trans (and_iff_right bits).symm) rfl rfl)
    · rename_i bytes
      rw [typesizeCheck, firstFailing_cons, firstFailing, if_neg (c := _ ∧ _) fun h => bytes h.1]
      exact if_congr decide_eq_true_iff rfl rfl

section
variable {s : State} {i : Instr} (hi : i ∈ rawFilters)
  (ref : i ∈ ([.deltaEncode, .deltaDecode] : List Instr) → s.latched.refBlock = false → ReferenceFits s.latched)
include hi ref

/-- The first check of the frame that fails decides: the size of the source, the command's own checks, the room. -/
theorem filter_refused (hr : RegionsFit s.latched) {e : Err} {n : Nat}
    (h : (if 262144 < s.latched.srcLen.toNat then some (.arg, 5)
      else (firstFailing (s.filterChecks i)).or
        (if s.latched.dstCap.toNat < s.latched.srcLen.toNat then some (.destSmall, 0) else none)) = some (e, n)) :
    ∃ t, exec i s = .next t ∧ FailedUntouched s t e (BitVec.ofNat 32 n) := by
  have checks : firstFailing ([(decide (Config.maxBlockSize < s.latched.src.len), .arg, 5)] ++ s.filterChecks i ++
      [(decide (s.latched.dst.len < s.latched.src.len), .destSmall, 0)]) = some (e, n) := by
    rw [List.append_assoc, List.singleton_append, firstFailing_cons, firstFailing_append, firstFailing_cons,
      firstFailing, ← h]
    refine if_congr decide_eq_true_iff rfl (congrArg _ (if_congr decide_eq_true_iff rfl rfl))
  refine ⟨_, ?_, raiseError_untouched e n s⟩
  rw [exec_filter i hi, filterCommand, afterRegions_pass (regionError_filter hi hr ref), afterChecks, checks]

/-- With every check passed the command writes the image of its source and nothing else. -/
theorem filter_completes (hm : s.mem.wf) (hf : FilterFits s.latched) (pass : firstFailing (s.filterChecks i) = none) :
    ∃ t, exec i s = .next t ∧ Filtered s t s.latched.srcLen.toNat ∧
      ∀ b < s.latched.srcLen.toNat, t.dstByte b = byteAt (s.filterImage i s.srcBytes) b := by
  obtain ⟨t, ht, filtered, -, -, bytes⟩ := filterCommand_filtered hm hf (regionError_filter hi hf.regions ref) pass
    ((filterImage_length s i s.srcBytes).trans (srcBytes_length s))
  exact ⟨t, (exec_filter i hi s).trans ht, filtered, bytes⟩

end

/-- The own checks of every command but TRUNC_PREC pass for whole octets of elements of at least one byte. -/
theorem filterChecks_pass {s : State} {i : Instr} (kind : i ≠ .truncPrec) (hts : 1 ≤ s.latched.typesize)
    (octets : i = .bitshuffle ∨ i = .bitunshuffle → s.elements % 8 = 0) :
    firstFailing (s.filterChecks i) = none := by
  rw [firstFailing_filterChecks, if_neg kind, if_neg (Nat.ne_of_gt hts), if_neg fun h => h.2 (octets h.1)]

/-! ## The elements of the source -/

theorem srcBytes_elements (s : State) : s.srcBytes.length / s.latched.typesize = s.elements := by
  rw [srcBytes_length, State.elements]

section
variable {s : State} {i : Nat} (hi : i < s.elements)
include hi

theorem elementByte_lt {k : Nat} (hk : k < s.latched.typesize) : i * s.latched.typesize + k < s.latched.srcLen.toNat :=
  (transpose_lt hk hi).trans_le (Nat.mul_div_le _ _)

theorem planeByte_lt {k : Nat} (hk : k < s.latched.typesize) : k * s.elements + i < s.latched.srcLen.toNat :=
  (transpose_lt hi hk).trans_le (Nat.div_mul_le_self _ _)

theorem elementBit_lt {q : Nat} (hq : q < 8 * s.latched.typesize) :
    i * (8 * s.latched.typesize) + q < 8 * s.latched.srcLen.toNat :=
  (transpose_lt hq hi).trans_le (by rw [Nat.mul_assoc]; exact Nat.mul_le_mul_left 8 (Nat.mul_div_le _ _))

theorem planeBit_lt {q : Nat} (hq : q < 8 * s.latched.typesize) : q * s.elements + i < 8 * s.latched.srcLen.toNat :=
  (transpose_lt hi hq).trans_le
    (by rw [Nat.mul_left_comm]; exact Nat.mul_le_mul_left 8 (Nat.div_mul_le_self _ _))

end

theorem bitAt_srcBytes {s : State} {a : Nat} (h : a < 8 * s.latched.srcLen.toNat) : bitAt s.srcBytes a = s.srcBit a := by
  rw [bitAt, byteAt_srcBytes (by omega), State.srcBit]

theorem dstBit_of_bytes {t : State} {y : List Byte} {n a : Nat} (bytes : ∀ b < n, t.dstByte b = byteAt y b)
    (h : a < 8 * n) : t.dstBit a = bitAt y a := by
  rw [State.dstBit, bytes _ (by omega), bitAt]

/-- Every command but the delta commands copies the bytes after the last whole element. -/
theorem filterImage_tail {s : State} {i : Instr} (kind : i ∉ ([.deltaEncode, .deltaDecode] : List Instr)) {b : Nat}
    (whole : s.elements * s.latched.typesize ≤ b) (hb : b < s.latched.srcLen.toNat) :
    byteAt (s.filterImage i s.srcBytes) b = s.srcByte b := by
  have inside : b < s.srcBytes.length := srcBytes_length s ▸ hb
  rw [← byteAt_srcBytes hb]
  unfold State.filterImage
  split
  case h_1 => exact byteAt_shuffle_tail (srcBytes_elements s) whole inside
  case h_2 => exact byteAt_unshuffle_tail (srcBytes_elements s) whole inside
  case h_3 => exact byteAt_bitshuffle_tail (srcBytes_elements s) whole inside
  case h_4 => exact byteAt_bitunshuffle_tail (srcBytes_elements s) whole inside
  case h_5 => exact absurd List.mem_cons_self kind
  case h_6 => exact absurd (List.mem_cons_of_mem _ List.mem_cons_self) kind
  case h_7 => exact byteAt_truncPrec_tail _ (srcBytes_elements s) whole inside
  case h_8 => rfl

end Sys2Proof.Machine
end

section
/-! The statements of the filters, settled. -/

namespace Sys2Proof.Machine

/-- Settles O22. -/
theorem shuffleMovesBytesToPlanes : Obligations.ShuffleMovesBytesToPlanes := by
  intro s hm hf hts
  obtain ⟨t, ht, filtered, bytes⟩ := filter_completes (i := .shuffle) (by decide) (fun h => absurd h (by decide)) hm hf
    (filterChecks_pass (by decide) hts fun h => absurd h (by decide))
  refine ⟨t, ht, filtered, fun i k hi hk => ?_, fun b whole hb => ?_⟩
  · rw [bytes _ (planeByte_lt hi hk), State.filterImage, byteAt_shuffle (srcBytes_elements s) hi hk,
      byteAt_srcBytes (elementByte_lt hi hk)]
  · rw [bytes b hb, filterImage_tail (by decide) whole hb]

/-- Settles O23. -/
theorem unshuffleMovesBytesToElements : Obligations.UnshuffleMovesBytesToElements := by
  intro s hm hf hts
  obtain ⟨t, ht, filtered, bytes⟩ := filter_completes (i := .unshuffle) (by decide) (fun h => absurd h (by decide)) hm hf
    (filterChecks_pass (by decide) hts fun h => absurd h (by decide))
  refine ⟨t, ht, filtered, fun i k hi hk => ?_, fun b whole hb => ?_⟩
  · rw [bytes _ (elementByte_lt hi hk), State.filterImage, byteAt_unshuffle (srcBytes_elements s) hi hk,
      byteAt_srcBytes (planeByte_lt hi hk)]
  · rw [bytes b hb, filterImage_tail (by decide) whole hb]

/-- Settles O24. -/
theorem bitshuffleMovesBitsToPlanes : Obligations.BitshuffleMovesBitsToPlanes := by
  intro s hm hf hts octets
  obtain ⟨t, ht, filtered, bytes⟩ := filter_completes (i := .bitshuffle) (by decide) (fun h => absurd h (by decide)) hm
    hf (filterChecks_pass (by decide) hts fun _ => octets)
  refine ⟨t, ht, filtered, fun i q hi hq => ?_, fun b whole hb => ?_⟩
  · rw [dstBit_of_bytes bytes (planeBit_lt hi hq), State.filterImage, bitAt_bitshuffle (srcBytes_elements s) hi hq,
      bitAt_srcBytes (elementBit_lt hi hq)]
  · rw [bytes b hb, filterImage_tail (by decide) whole hb]

/-- Settles O25. -/
theorem bitunshuffleMovesBitsToElements : Obligations.BitunshuffleMovesBitsToElements := by
  intro s hm hf hts octets
  obtain ⟨t, ht, filtered, bytes⟩ := filter_completes (i := .bitunshuffle) (by decide) (fun h => absurd h (by decide)) hm
    hf (filterChecks_pass (by decide) hts fun _ => octets)
  refine ⟨t, ht, filtered, fun i q hi hq => ?_, fun b whole hb => ?_⟩
  · rw [dstBit_of_bytes bytes (elementBit_lt hi hq), State.filterImage, bitAt_bitunshuffle (srcBytes_elements s) hi hq,
      bitAt_srcBytes (planeBit_lt hi hq)]
  · rw [bytes b hb, filterImage_tail (by decide) whole hb]

/-- Settles O26. -/
theorem deltaEncodeAgainstPreviousElement : Obligations.DeltaEncodeAgainstPreviousElement := by
  intro s w hm hf hts first width
  obtain ⟨t, ht, filtered, bytes⟩ := filter_completes (i := .deltaEncode) (by decide) (fun _ h => by simp [first] at h)
    hm hf (filterChecks_pass (by decide) hts fun h => absurd h (by decide))
  refine ⟨t, ht, filtered, fun b hb => ?_⟩
  rw [bytes b hb, State.filterImage, if_pos first, byteAt_deltaRef _ (srcBytes_length s ▸ hb), width.deltaWidth,
    byteAt_srcBytes hb]
  split
  · rw [byteAt_srcBytes (by omega)]
  · rfl

/-- Settles O27. -/
theorem deltaDecodeAgainstPreviousElement : Obligations.DeltaDecodeAgainstPreviousElement := by
  intro s w hm hf hts first width
  obtain ⟨t, ht, filtered, bytes⟩ := filter_completes (i := .deltaDecode) (by decide) (fun _ h => by simp [first] at h)
    hm hf (filterChecks_pass (by decide) hts fun h => absurd h (by decide))
  rw [State.filterImage, if_pos first] at bytes
  refine ⟨t, ht, filtered, fun b hb => ?_⟩
  rw [bytes b hb, byteAt_undeltaRef _ (srcBytes_length s ▸ hb), width.deltaWidth, byteAt_srcBytes hb]
  split
  · rw [bytes _ (by omega)]
  · rfl

/-- Settles O28: both commands apply the same function. -/
theorem deltaAgainstReferenceBlock : Obligations.DeltaAgainstReferenceBlock := by
  intro s i hi hm hf hts other ref
  have image : s.filterImage i s.srcBytes = deltaXor s.srcBytes s.refBytes := by
    rcases hi with rfl | rfl <;> rw [State.filterImage, other] <;> rfl
  obtain ⟨t, ht, filtered, bytes⟩ := filter_completes (i := i) (by rcases hi with rfl | rfl <;> decide) (fun _ _ => ref) hm
    hf (filterChecks_pass (by rcases hi with rfl | rfl <;> decide) hts fun h => by
      rcases hi with rfl | rfl <;> exact absurd h (by decide))
  refine ⟨t, ht, filtered, fun b hb => ?_⟩
  rw [bytes b hb, image, byteAt_deltaXor (srcBytes_length s ▸ hb), byteAt_srcBytes hb, byteAt_refBytes hb]

/-- Settles O29. -/
theorem truncPrecClearsLowBits : Obligations.TruncPrecClearsLowBits := by
  intro s m z hm hf (accepted : PrecisionAccepted s.latched.typesize m s.latched.precision z)
  have pass : firstFailing (s.filterChecks .truncPrec) = none := by
    rw [firstFailing_filterChecks, if_pos rfl, if_pos ((truncOk_iff _ _).mpr ⟨m, z, accepted⟩)]
  obtain ⟨t, ht, filtered, bytes⟩ := filter_completes (i := .truncPrec) (by decide) (fun h => absurd h (by decide)) hm hf
    pass
  refine ⟨t, ht, filtered, fun i hi => ?_, fun b whole hb => ?_⟩
  · have size := accepted.typesize
    have last := elementByte_lt hi (k := s.latched.typesize - 1) (by omega)
    have room : i * s.latched.typesize + s.latched.typesize ≤ s.latched.srcLen.toNat := by omega
    have image := filterImage_length s .truncPrec s.srcBytes
    rw [srcBytes_length] at image
    have written : t.mem.readBytes (t.latched.dstAddr.toNat + i * s.latched.typesize) s.latched.typesize =
        slice (s.filterImage .truncPrec s.srcBytes) (i * s.latched.typesize) s.latched.typesize :=
      readBytes_dst (image ▸ bytes) (image ▸ room)
    have source : slice s.srcBytes (i * s.latched.typesize) s.latched.typesize =
        s.mem.readBytes (s.latched.srcAddr.toNat + i * s.latched.typesize) s.latched.typesize :=
      slice_readBytes _ _ _ _ _ room
    rw [filtered.completed.kept.latched] at written
    rw [written, State.filterImage, leNat_slice_truncPrec accepted (srcBytes_elements s) hi, source]
  · rw [bytes b hb, filterImage_tail (by decide) whole hb]

/-- Settles O30: the first check of the frame that fails decides. -/
theorem filterArgumentErrors : Obligations.FilterArgumentErrors := by
  intro s i hi hr ref
  have refused := fun {e n} h => filter_refused hi ref hr (e := e) (n := n) h
  have own := firstFailing_filterChecks s i
  refine ⟨fun long => refused ?_, fun block kind typesize => refused ?_, fun block kind bad => refused ?_,
    fun block kind typesize octets => refused ?_, fun block typesize octets precision small => refused ?_⟩
  · rw [if_pos long]
  · rw [if_neg (Nat.not_lt.mpr block), own, if_neg kind, if_pos typesize, Option.some_or]
  · have refusedTrunc : ¬ truncOk s.latched.typesize s.latched.precision = true := fun ok => by
      obtain ⟨m, z, accepted⟩ := (truncOk_precision_iff _).mp ok
      exact bad m z accepted
    rw [if_neg (Nat.not_lt.mpr block), own, if_pos kind, if_neg refusedTrunc, Option.some_or]
  · have bits : i = .bitshuffle ∨ i = .bitunshuffle := by simpa using kind
    have other : i ≠ .truncPrec := by rcases bits with rfl | rfl <;> decide
    rw [if_neg (Nat.not_lt.mpr block), own, if_neg other, if_neg (Nat.ne_of_gt typesize), if_pos ⟨bits, octets⟩,
      Option.some_or]
  · have pass : firstFailing (s.filterChecks i) = none := by
      by_cases kind : i = .truncPrec
      · rw [own, if_pos kind, if_pos ((truncOk_precision_iff _).mpr (precision kind))]
      · exact filterChecks_pass kind (typesize kind) fun bits => octets (by simpa using bits)
    rw [if_neg (Nat.not_lt.mpr block), pass, Option.none_or, if_pos small]

/-- Settles O31. -/
theorem shuffleInverse : Obligations.ShuffleInverse :=
  fun ts x hts => ⟨unshuffle_shuffle hts x, shuffle_unshuffle ts x⟩

/-- Settles O32. -/
theorem bitshuffleInverse : Obligations.BitshuffleInverse :=
  fun _ x hts => ⟨fun _ => bitunshuffle_bitshuffle hts x, bitunshuffleAligned_bitshuffleAligned hts x⟩

/-- Settles O33. -/
theorem deltaInverse : Obligations.DeltaInverse :=
  fun ts x r _ _ => ⟨undeltaRef_deltaRef ts x, deltaXor_deltaXor x r⟩

end Sys2Proof.Machine
end

section
/-! Tokens run one by one: what a step of the token decoder answers, what a token appends to the destination, and the bytes
of the stream that it takes (43_lz_codec.md R400 to R406, R420 to R425). -/

namespace Sys2Proof

/-! ## The bytes of a token (30_encoding.md R178) -/

theorem tokenBytes_length {i : Instr} (h : i.isToken = true) : (tokenBytes i).length = tokenLength i := by
  cases i
  case litFirst marker lits => exact Nat.add_comm _ _
  case lit lits => exact Nat.add_comm _ _
  case matchShortNear l d => rfl
  case matchShortFar l x => rfl
  case matchLongNear ext d =>
    simp only [tokenBytes, nearBytes, tokenLength, List.length_cons, List.length_append, List.length_nil,
      extensionBytes_length]
    omega
  case matchLongFar ext x =>
    simp only [tokenBytes, farBytes, tokenLength, List.length_cons, List.length_append, List.length_nil,
      extensionBytes_length]
    omega
  all_goals exact absurd h Bool.false_ne_true

/-- A control byte and the literals it counts are a literal run with its L bits. -/
theorem literalBytes_fields {ctrl : Byte} {lits : List Byte} (h : lits.length = (controlF ctrl).toNat + 1) :
    literalBytes (controlL ctrl) lits = ctrl :: lits := by
  rw [literalBytes, h, Nat.add_sub_cancel, BitVec.ofNat_toNat, BitVec.setWidth_eq, control_fields]

/-- What is read as a short match are that match's bytes, and what follows them. -/
theorem readShortMatch_ok {ctrl : Byte} {b rest : List Byte} {i : Instr}
    (h : readShortMatch (controlL ctrl) (controlF ctrl) b = .ok (i, rest)) : ctrl :: b = tokenBytes i ++ rest := by
  unfold readShortMatch at h
  split at h
  · rename_i d after hd
    cases h
    obtain ⟨high, low, -⟩ := readDistance_ok_near hd
    rw [tokenBytes, nearBytes, ← high, control_fields, low]
    rfl
  · rename_i x after hx
    cases h
    obtain ⟨escape, low⟩ := readDistance_ok_far hx
    rw [tokenBytes, farBytes, ← escape, control_fields, low]
    rfl
  · cases h

/-- The same of a long match, whose control byte has L = 7. -/
theorem readLongMatch_ok {ctrl : Byte} (h7 : controlL ctrl = 7) {b rest : List Byte} {i : Instr}
    (h : readLongMatch (controlF ctrl) b = .ok (i, rest)) : ctrl :: b = tokenBytes i ++ rest := by
  unfold readLongMatch at h
  split at h
  · cases h
  · rename_i ext after he
    split at h
    · rename_i d after' hd
      cases h
      obtain ⟨high, low, -⟩ := readDistance_ok_near hd
      rw [tokenBytes, nearBytes, ← high, ← h7, control_fields, readExtension_some he, low, List.cons_append,
        List.append_assoc, List.singleton_append]
    · rename_i x after' hx
      cases h
      obtain ⟨escape, low⟩ := readDistance_ok_far hx
      rw [tokenBytes, farBytes, ← escape, ← h7, control_fields, readExtension_some he, low, List.cons_append,
        List.append_assoc]
      rfl
    · cases h

/-- The decoder takes exactly the bytes of the token that it reads (30_encoding.md R170 to R177). -/
theorem decodeToken_ok {first : Bool} {b rest : List Byte} {i : Instr} (h : decodeToken first b = .ok (i, rest)) :
    b = tokenBytes i ++ rest := by
  cases b with
  | nil => cases h
  | cons ctrl b =>
    cases first with
    | true =>
      obtain ⟨lits, rfl, count, rfl⟩ := readLiterals_ok ((decodeToken_first ctrl b).symm.trans h)
      rw [tokenBytes, literalBytes_fields count, List.cons_append]
    | false =>
      by_cases h0 : controlL ctrl = 0
      · obtain ⟨lits, rfl, count, rfl⟩ := readLiterals_ok ((decodeToken_literal h0 b).symm.trans h)
        rw [tokenBytes, ← h0, literalBytes_fields count, List.cons_append]
      · by_cases h7 : controlL ctrl = 7
        · exact readLongMatch_ok h7 ((decodeToken_long h7 b).symm.trans h)
        · exact readShortMatch_ok ((decodeToken_short h0 h7 b).symm.trans h)

end Sys2Proof

namespace Sys2Proof.Machine

/-! ## The decoder's move (43_lz_codec.md R401) -/

section
variable {s : State} (alone : RunsAlone s) (running : s.dec.running = true)
  (src : s.latched.srcAddr.toNat + s.latched.srcLen.toNat ≤ 4294967296)
include alone running src

theorem step_token {i : Instr} {rest : List Byte} (h : decodeToken s.dec.first s.fetchBytes = .ok (i, rest)) :
    step s = exec i s := by
  rw [step_alone alone, runStep, if_pos running, tokenStep, if_pos ((Region.valid_iff _).mpr src), h]

theorem step_tokenCutShort {e : DecodeError} (h : decodeToken s.dec.first s.fetchBytes = .error e) :
    step s = .next (raiseError .truncated s.dec.ip s) := by
  rw [step_alone alone, runStep, if_pos running, tokenStep, if_pos ((Region.valid_iff _).mpr src), h]

end

/-! ## A token that passes its checks, and one that does not (43_lz_codec.md R404, R406) -/

theorem literalToken_spec {i : Instr} {lits : List Byte} (h : i = .lit lits ∨ ∃ marker, i = .litFirst marker lits) :
    i.isToken = true ∧ tokenLength i = 1 + lits.length ∧ ∀ out, tokenOutput i out = some lits := by
  rcases h with rfl | ⟨marker, rfl⟩ <;> exact ⟨rfl, rfl, fun _ => rfl⟩

section
variable {s : State} {i : Instr} (ht : i.isToken = true) (runs : TokenRuns s)
include ht runs

theorem exec_token_appends {new : List Byte} (ho : tokenOutput i s.decoded = some new)
    (hi : s.dec.ip + tokenLength i ≤ s.latched.srcLen.toNat) (hc : s.dec.op + new.length ≤ s.latched.dstCap.toNat) :
    ∃ t, exec i s = .next t ∧ Appended s t (tokenLength i) new.length ∧
      t.mem = s.mem.writeBytes (s.latched.dstAddr.toNat + s.dec.op) new := by
  rw [exec_token ht, runToken_pass runs.src runs.dst ho hi hc]
  split
  · rename_i last
    exact ⟨_, rfl, ⟨fun _ ha => Memory.read_writeBytes_outside ha, .of_eq rfl, rfl, fun more => absurd last more,
      fun _ => complete_completed _ false (.of_eq rfl) rfl rfl⟩, rfl⟩
  · rename_i more
    exact ⟨_, rfl, ⟨fun _ ha => Memory.read_writeBytes_outside ha, .of_eq rfl, rfl, fun _ => ⟨rfl, rfl, rfl, rfl⟩,
      fun last => absurd last more⟩, rfl⟩

theorem exec_token_fails (h : ∀ new, tokenOutput i s.decoded = some new →
      s.latched.srcLen.toNat < s.dec.ip + tokenLength i ∨ s.latched.dstCap.toNat < s.dec.op + new.length) :
    exec i s = .next (raiseError .truncated s.dec.ip s) := by
  rw [exec_token ht, runToken_fail runs.src runs.dst h]

end

/-! ## The output in the destination (43_lz_codec.md R410) -/

/-- What stands before a place, and what is written there. -/
theorem Memory.readBytes_writeBytes_after {m : Memory} {a n : Nat} {v : List Byte} (hm : m.wf)
    (hv : a + n + v.length ≤ Config.memBytes) :
    (m.writeBytes (a + n) v).readBytes a (n + v.length) = m.readBytes a n ++ v := by
  have length := Memory.readBytes_length m a n
  refine ext_byteAt (by rw [Memory.readBytes_length, List.length_append, length]) fun k hk => ?_
  rw [Memory.readBytes_length] at hk
  rw [byteAt_readBytes _ _ _ hk]
  by_cases before : k < n
  · rw [byteAt_append_left (length.symm ▸ before), byteAt_readBytes _ _ _ before,
      Memory.read_writeBytes_outside (by omega)]
  · have place : a + k = a + n + (k - n) := by omega
    rw [byteAt_append_right (by omega), length, place, Memory.read_writeBytes_inside hm hv _ (by omega),
      byteAt_eq (by omega)]

/-- After a token the destination holds the output so far and the bytes the token appended. -/
theorem readBytes_appended {s t : State} {new : List Byte} (runs : TokenRuns s)
    (hc : s.dec.op + new.length ≤ s.latched.dstCap.toNat)
    (mem : t.mem = s.mem.writeBytes (s.latched.dstAddr.toNat + s.dec.op) new) :
    t.mem.readBytes s.latched.dstAddr.toNat (s.dec.op + new.length) = s.decoded ++ new := by
  have dst := runs.dst
  rw [mem]
  exact Memory.readBytes_writeBytes_after runs.mem (show _ ≤ 4294967296 by omega)

end Sys2Proof.Machine
end

section
/-! The token program of LZ_DECOMPRESS from its start to its end, beside the decoder's loop (43_lz_codec.md R401, R406,
R410). -/

namespace Sys2Proof.Machine

/-! ## The decoder's loop, token by token (43_lz_codec.md R401) -/

theorem decodeLoop_nil (cap fuel ip : Nat) (first : Bool) (out : List Byte) :
    decodeLoop cap fuel first ip [] out = .ok out := by
  cases fuel <;> rfl

section
variable {cap fuel ip : Nat} {first : Bool} {x out : List Byte}

theorem decodeLoop_cutShort {e : DecodeError} (hx : x ≠ []) (h : decodeToken first x = .error e) :
    decodeLoop cap (fuel + 1) first ip x out = .error (ip, out) := by
  cases x with
  | nil => exact absurd rfl hx
  | cons b x => rw [decodeLoop, h]

theorem decodeLoop_fails {i : Instr} {rest : List Byte} (h : decodeToken first x = .ok (i, rest))
    (bad : ∀ new, tokenOutput i out = some new → cap < out.length + new.length) :
    decodeLoop cap (fuel + 1) first ip x out = .error (ip, out) := by
  cases x with
  | nil => cases h
  | cons b x =>
    rw [decodeLoop, h]
    cases ho : tokenOutput i out with
    | none => simp only [ho]
    | some new =>
      simp only [ho]
      exact if_pos (bad new ho)

theorem decodeLoop_appends {i : Instr} {rest new : List Byte} (h : decodeToken first x = .ok (i, rest))
    (ho : tokenOutput i out = some new) (hc : out.length + new.length ≤ cap) :
    decodeLoop cap (fuel + 1) first ip x out = decodeLoop cap fuel false (ip + tokenLength i) rest (out ++ new) := by
  cases x with
  | nil => cases h
  | cons b x =>
    rw [decodeLoop, h]
    simp only [ho]
    exact if_neg (Nat.not_lt.mpr hc)

end

/-! ## The output of a token program -/

/-- The destination of `s` starts with the bytes `out` in the memory of `t`, and no other byte has changed. -/
def OutputStands (s t : State) (out : List Byte) : Prop :=
  t.mem.readBytes s.latched.dstAddr.toNat out.length = out ∧ SameOutside s t s.latched.dstAddr.toNat out.length

/-- `t` is the end of the LZ_DECOMPRESS of `s` that an outcome of lz_decode stands for (43_lz_codec.md R406, R410). -/
def DecodeEnds (s t : State) : Except (Nat × List Byte) (List Byte) → Prop
  | .ok out => Completed s t (resultsOf (BitVec.ofNat 32 out.length) 0 0) false ∧ OutputStands s t out
  | .error (ip0, out) => Failed s t .truncated (BitVec.ofNat 32 ip0) ∧ OutputStands s t out

/-- `u` is `s` in the middle of its LZ_DECOMPRESS: a token is left to read, and so far the output alone has changed memory
(43_lz_codec.md R400). -/
structure Decoding (s u : State) : Prop where
  mem : u.mem.wf
  kept : SameHostSide s u
  busy : u.seq = .busy
  running : u.dec.running = true
  status : u.status = s.status
  results : u.results = s.results
  errInfo : u.errInfo = s.errInfo
  left : u.dec.ip < s.latched.srcLen.toNat
  room : u.dec.op ≤ s.latched.dstCap.toNat
  outside : SameOutside s u s.latched.dstAddr.toNat u.dec.op

/-- What the decoder's loop has left to do at the position of `u` in the stream of `s`. -/
def State.decodeRest (s u : State) (fuel : Nat) : Except (Nat × List Byte) (List Byte) :=
  decodeLoop s.latched.dstCap.toNat fuel u.dec.first u.dec.ip (s.srcBytes.drop u.dec.ip) u.decoded

theorem RunsAlone.of_kept {s u : State} (h : RunsAlone s) (kept : SameHostSide s u) (busy : u.seq = .busy) :
    RunsAlone u :=
  ⟨kept.host.trans h.host, busy, kept.abortReq.trans h.abortReq, kept.rejected.trans h.rejected,
    kept.misused.trans h.misused, kept.hung.trans h.hung⟩

namespace Decoding

section
variable {s u : State} (h : Decoding s u)
include h

theorem tokenRuns (hr : RegionsFit s.latched) : TokenRuns u :=
  ⟨h.mem, h.kept.latched.symm ▸ hr.src, h.kept.latched.symm ▸ hr.dst⟩

/-- No token has touched the source, which lies apart from the destination (20_memory.md R109). -/
theorem fetchBytes (hr : RegionsFit s.latched) : u.fetchBytes = s.srcBytes.drop u.dec.ip := by
  have length := srcBytes_length s
  have left := h.left
  have room := h.room
  have apart := hr.apart
  rw [← BitVec.toNat_inj, ← BitVec.toNat_inj] at apart
  simp only [BitVec.ofNat_eq_ofNat, BitVec.toNat_ofNat, Nat.zero_mod] at apart
  rw [State.fetchBytes, h.kept.latched]
  refine ext_byteAt (by rw [Memory.readBytes_length, List.length_drop, length]; rfl) fun k hk => ?_
  rw [Memory.readBytes_length] at hk
  have inside : u.dec.ip + k < s.latched.srcLen.toNat := Nat.add_lt_of_lt_sub' hk
  rw [byteAt_readBytes _ _ _ hk, byteAt_drop, byteAt_srcBytes inside, State.srcByte, Nat.add_assoc]
  refine h.outside _ ?_
  show s.latched.srcAddr.toNat + _ < _ ∨ _ ≤ s.latched.srcAddr.toNat + _
  omega

theorem outputStands : OutputStands s u u.decoded := by
  refine ⟨?_, (decoded_length u).symm ▸ h.outside⟩
  rw [decoded_length, State.decoded, h.kept.latched]
  rfl

/-- A failing token leaves the output of the tokens before it (43_lz_codec.md R406). -/
theorem fails : DecodeEnds s (raiseError .truncated u.dec.ip u) (.error (u.dec.ip, u.decoded)) :=
  ⟨raiseError_failed .truncated u.dec.ip h.kept h.status h.results, h.outputStands⟩

section
variable {t : State} {n : Nat} {new : List Byte} (hr : RegionsFit s.latched)
  (hc : u.dec.op + new.length ≤ s.latched.dstCap.toNat) (appended : Appended u t n new.length)
  (mem : t.mem = u.mem.writeBytes (u.latched.dstAddr.toNat + u.dec.op) new)
include hr hc appended mem

theorem outputStands_append : OutputStands s t (u.decoded ++ new) := by
  have bytes := readBytes_appended (h.tokenRuns hr) (h.kept.latched.symm ▸ hc) mem
  have changed := appended.outside
  rw [h.kept.latched] at bytes changed
  have length : (u.decoded ++ new).length = u.dec.op + new.length := by rw [List.length_append, decoded_length]
  rw [OutputStands, length]
  exact ⟨bytes, fun a ha => (changed a (by omega)).trans (h.outside a (by omega))⟩

/-- The token at the end of the stream completes the command (43_lz_codec.md R407, R410). -/
theorem completes (last : u.dec.ip + n = s.latched.srcLen.toNat) : DecodeEnds s t (.ok (u.decoded ++ new)) := by
  have done := appended.done (h.kept.latched.symm ▸ last)
  have length : (u.decoded ++ new).length = u.dec.op + new.length := by rw [List.length_append, decoded_length]
  refine ⟨⟨length.symm ▸ done.results, ?_, done.errInfo.trans h.errInfo, done.seq, done.dec, h.kept.trans done.kept⟩,
    h.outputStands_append hr hc appended mem⟩
  rw [done.status, h.status]

/-- Any other token leaves the program running behind it. -/
theorem goesOn (more : u.dec.ip + n < s.latched.srcLen.toNat) :
    Decoding s t ∧ t.dec.ip = u.dec.ip + n ∧ t.dec.first = false ∧ t.decoded = u.decoded ++ new := by
  obtain ⟨dec, seq, status, results⟩ := appended.on (h.kept.latched.symm ▸ Nat.ne_of_lt more)
  have kept := h.kept.trans appended.kept
  have length : (u.decoded ++ new).length = u.dec.op + new.length := by rw [List.length_append, decoded_length]
  have op : t.dec.op = (u.decoded ++ new).length := by rw [dec, length]
  have ip : t.dec.ip = u.dec.ip + n := by rw [dec]
  obtain ⟨bytes, outside⟩ := h.outputStands_append hr hc appended mem
  refine ⟨⟨?_, kept, seq.trans h.busy, ?_, status.trans h.status, results.trans h.results,
    appended.errInfo.trans h.errInfo, ip.symm ▸ more, by rw [op, length]; exact hc, op.symm ▸ outside⟩, ip, ?_, ?_⟩
  · rw [mem]
    exact Memory.writeBytes_wf h.mem _ _
  · rw [dec]
    exact h.running
  · rw [dec]
  · rw [State.decoded, op, kept.latched]
    exact bytes

end

end

section
variable {s u : State} (alone : RunsAlone s) (hr : RegionsFit s.latched)
include alone hr

/-- A step of the program is a round of the decoder's loop: both end alike, or both go on from one position to a later
one. -/
theorem step_decodeRest (h : Decoding s u) (fuel : Nat) :
    (∃ t, step u = .next t ∧ DecodeEnds s t (s.decodeRest u (fuel + 1))) ∨
      ∃ t, step u = .next t ∧ Decoding s t ∧ u.dec.ip < t.dec.ip ∧ s.decodeRest t fuel = s.decodeRest u (fuel + 1) := by
  have left := h.left
  have runs := h.tokenRuns hr
  have stream := h.fetchBytes hr
  have length := congrArg List.length stream
  rw [List.length_drop, srcBytes_length] at length
  have aloneU := alone.of_kept h.kept h.busy
  rw [State.decodeRest, ← stream]
  cases read : decodeToken u.dec.first u.fetchBytes with
  | error e =>
    rw [decodeLoop_cutShort (List.ne_nil_of_length_pos (by omega)) read]
    exact .inl ⟨_, step_tokenCutShort aloneU h.running runs.src read, h.fails⟩
  | ok r =>
    obtain ⟨i, rest⟩ := r
    have token := decodeToken_isToken read
    have step_i := step_token aloneU h.running runs.src read
    by_cases bad : ∀ new, tokenOutput i u.decoded = some new → s.latched.dstCap.toNat < u.decoded.length + new.length
    · rw [decodeLoop_fails read bad]
      refine .inl ⟨_, step_i.trans (exec_token_fails token runs fun new ho => .inr ?_), h.fails⟩
      rw [h.kept.latched, ← decoded_length]
      exact bad new ho
    · simp only [not_forall, Nat.not_lt] at bad
      obtain ⟨new, ho, hc⟩ := bad
      rw [decodeLoop_appends read ho hc]
      rw [decoded_length] at hc
      have taken := decodeToken_ok read
      have count := congrArg List.length taken
      rw [length, List.length_append, tokenBytes_length token] at count
      obtain ⟨t, ht, appended, mem⟩ := exec_token_appends token runs ho
        (by rw [h.kept.latched]; omega) (h.kept.latched.symm ▸ hc)
      by_cases last : u.dec.ip + tokenLength i = s.latched.srcLen.toNat
      · have nothing : rest = [] := List.length_eq_zero_iff.mp (by omega)
        rw [nothing, decodeLoop_nil]
        exact .inl ⟨t, step_i.trans ht, h.completes hr hc appended mem last⟩
      · obtain ⟨next, ip, first, decoded⟩ := h.goesOn hr hc appended mem (by omega)
        have tail : s.srcBytes.drop t.dec.ip = rest := by
          rw [ip, ← List.drop_drop, ← stream, taken, ← tokenBytes_length token, List.drop_left]
        refine .inr ⟨t, step_i.trans ht, next, ip ▸ Nat.lt_add_of_pos_right (tokenLength_pos token), ?_⟩
        rw [State.decodeRest, tail, ip, first, decoded]

/-- The program ends as the decoder's loop does, after at most one step for each byte that is left. -/
theorem ends {fuel : Nat} (h : Decoding s u) (hf : s.latched.srcLen.toNat ≤ u.dec.ip + fuel) :
    ∃ k t, k ≤ fuel ∧ runSteps k u = some t ∧ DecodeEnds s t (s.decodeRest u fuel) := by
  induction fuel generalizing u with
  | zero => exact absurd h.left (Nat.not_lt.mpr hf)
  | succ fuel ih =>
    rcases step_decodeRest alone hr h fuel with ⟨t, ht, done⟩ | ⟨t, ht, next, progress, same⟩
    · exact ⟨1, t, by omega, by rw [runSteps, ht]; rfl, done⟩
    · obtain ⟨k, v, hk, run, done⟩ := ih next (by omega)
      exact ⟨k + 1, v, by omega, by rw [runSteps, ht]; exact run, same ▸ done⟩

end

end Decoding

/-! ## LZ_DECOMPRESS (43_lz_codec.md R407, R410) -/

theorem exec_lzDecompress {s : State} (hr : RegionsFit s.latched) : exec .lzDecompress s =
    if s.latched.srcLen.toNat = 0 then .next (complete [0] false s) else .next { s with dec := ⟨true, 0, 0, true⟩ } :=
  afterRegions_fit (i := .lzDecompress) rfl rfl rfl hr

/-- The decoder at its start has read and written nothing (43_lz_codec.md R400). -/
theorem decoding_start {s : State} (hm : s.mem.wf) (busy : s.seq = .busy) (nonempty : 0 < s.latched.srcLen.toNat) :
    Decoding s { s with dec := ⟨true, 0, 0, true⟩ } :=
  ⟨hm, .of_eq rfl, busy, rfl, rfl, rfl, rfl, nonempty, Nat.zero_le _, fun _ _ => rfl⟩

/-- Run alone, LZ_DECOMPRESS ends as lz_decode does: its start is one step, and every token one more (log 3). -/
theorem lzDecompress_ends {s : State} (hm : s.mem.wf) (alone : RunsAlone s) (idle : s.dec = Decoder.idle)
    (opcode : s.latched.opcode = 0x11) (hr : RegionsFit s.latched) :
    ∃ k t, k ≤ s.latched.srcLen.toNat + 1 ∧ runSteps k s = some t ∧
      DecodeEnds s t (lzDecode s.srcBytes s.latched.dstCap.toNat) := by
  have length := srcBytes_length s
  have decoded : decodeCommand s.latched.opcode = .ok .lzDecompress := by
    rw [opcode]
    decide
  have start : step s = exec .lzDecompress s := by
    rw [step_alone alone, runStep, if_neg (by rw [idle]; exact Bool.false_ne_true), commandStep, decoded]
  rw [exec_lzDecompress hr] at start
  by_cases empty : s.latched.srcLen.toNat = 0
  · rw [if_pos empty] at start
    refine ⟨1, _, by omega, by rw [runSteps, start]; rfl, ?_⟩
    rw [List.length_eq_zero_iff.mp (length.trans empty)]
    exact ⟨complete_completed [0] false (.refl s) rfl rfl, rfl, fun _ _ => rfl⟩
  · rw [if_neg empty] at start
    have decoding := decoding_start hm alone.busy (Nat.pos_of_ne_zero empty)
    obtain ⟨k, t, hk, run, done⟩ := decoding.ends alone hr (fuel := s.srcBytes.length) (by omega)
    exact ⟨k + 1, t, by omega, by rw [runSteps, start]; exact run, done⟩

end Sys2Proof.Machine
end

section
/-! LZ_COMPRESS: what it does with the answer of the encoder, and the inputs too short to be coded (43_lz_codec.md R391,
R395, R396). -/

namespace Sys2Proof.Machine

/-! ## The stream of an input -/

/-- The stream of an input that is compressible is what the encoder returns, and decodes to it (43_lz_codec.md R415). -/
theorem greedyStream_of_compressible {e cap : Nat} {x : List Byte} (h : ¬ NotCompressible e x cap) :
    0 < (greedyStream e x).length ∧ (greedyStream e x).length ≤ cap ∧ (greedyStream e x).length < x.length ∧
      ∀ c, x.length ≤ c → lzDecode (greedyStream e x) c = .ok x := by
  simp only [NotCompressible, not_or, Nat.not_lt, Nat.not_le] at h
  obtain ⟨-, nonempty, room, shorter⟩ := h
  exact ⟨List.length_pos_iff.mpr (greedyStream_ne_nil e nonempty), room, shorter, fun _ => lzDecode_greedyStream e⟩

/-- Where no look-up is left the rest of the input becomes literals (43_lz_codec.md R383). -/
theorem greedyFrom_tail (e : Nat) {x : List Byte} {fuel p : Nat} (seen : List Nat) (lits : List Byte) (first : Bool)
    (hf : x.length ≤ p + fuel) (hp : x.length < p + 4) :
    greedyFrom e x fuel p seen lits first = literalStream first (lits ++ x.drop p) := by
  induction fuel generalizing p lits with
  | zero => rw [greedyFrom, List.drop_of_length_le (show x.length ≤ p from hf), List.append_nil]
  | succ fuel ih =>
    rw [greedyFrom]
    by_cases inside : p < x.length
    · rw [if_pos inside, if_neg (by omega), ih _ (by omega) (by omega), List.append_assoc, byteAt_eq inside,
        List.singleton_append, ← List.drop_eq_getElem_cons inside]
    · rw [if_neg inside, List.drop_of_length_le (by omega), List.append_nil]

/-- At most 4 bytes are looked up once, in an empty table, and are all literals (43_lz_codec.md R396). -/
theorem greedyStream_short (e : Nat) {x : List Byte} (h : x.length ≤ 4) : greedyStream e x = literalStream true x := by
  by_cases four : x.length = 4
  · have one : x.take 1 = [byteAt x 0] := take_succ_byteAt (x := x) (p := 0) (by omega)
    have step : greedyStream e x = greedyFrom e x 3 1 [0] [byteAt x 0] true := by
      rw [greedyStream, four, greedyFrom, if_pos (by omega), if_pos (by omega)]
      rfl
    rw [step, greedyFrom_tail e _ _ _ (by omega) (by omega), ← one, List.take_append_drop]
  · exact greedyFrom_tail e _ _ _ (by omega) (by omega)

/-- A literal run is longer than its literals. -/
theorem literalStream_length_gt {first : Bool} {lits : List Byte} (nonempty : lits ≠ []) (h : lits.length ≤ 32) :
    lits.length < (literalStream first lits).length := by
  rw [literalStream_cons nonempty, List.take_of_length_le h, List.length_append, List.length_cons]
  omega

/-- Inputs of at most 4 bytes, and any input without room, are not compressible (43_lz_codec.md R396). -/
theorem notCompressible_of_small {e cap : Nat} {x : List Byte} (h : x.length ≤ 4 ∨ cap = 0) :
    NotCompressible e x cap := by
  by_cases nonempty : x ≠ []
  case neg => exact .inr (.inl (not_not.mp nonempty))
  rcases h with short | rfl
  · refine .inr (.inr (.inr ?_))
    rw [greedyStream_short e short]
    exact (literalStream_length_gt nonempty (by omega)).le
  · exact .inr (.inr (.inl (List.length_pos_iff.mpr (greedyStream_ne_nil e nonempty))))

/-! ## The command (43_lz_codec.md R395) -/

/-- What LZ_COMPRESS leaves in the internal arrays, before it writes. -/
def State.withTable (s : State) (ht : HashTable) : State :=
  { s with work := { s.work with ht := ht, bufA := s.srcBytes } }

section
variable {s : State} (hr : RegionsFit s.latched) (effort : s.latched.effort ≤ 9) (size : s.latched.srcLen.toNat ≤ 262144)
include hr effort size

theorem exec_lzCompress_accepted {answer : Option (List Byte)} {ht : HashTable}
    (h : lzEncode s.srcBytes s.latched.dst.len s.latched.effort s.work.ht = (answer, ht)) :
    exec .lzCompress s = .next (answer.elim (complete [0] false (s.withTable ht).unspecifyDst)
      fun out => complete [out.length] false ((s.withTable ht).writeDst 0 out)) := by
  have checks : firstFailing [(decide (Config.effortMax < s.latched.effort), Err.arg, 3),
      (decide (Config.maxBlockSize < s.latched.src.len), Err.arg, 5)] = none := by
    rw [firstFailing_cons, firstFailing_cons]
    exact (if_neg (mt of_decide_eq_true (Nat.not_lt.mpr effort))).trans
      (if_neg (mt of_decide_eq_true (Nat.not_lt.mpr size)))
  show execLzCompress s = _
  rw [execLzCompress, afterRegions_fit rfl rfl rfl hr, afterChecks_pass checks]
  cases answer <;> simp only [h] <;> rfl

/-- With the return value 0 the destination may hold anything. -/
theorem lzCompress_notCompressible (h : NotCompressible s.latched.effort s.srcBytes s.latched.dstCap.toNat) :
    ∃ t, exec .lzCompress s = .next t ∧ Completed s t (resultsOf 0 0 0) false ∧
      SameOutside s t s.latched.dstAddr.toNat s.latched.dstCap.toNat := by
  have answer : (lzEncode s.srcBytes s.latched.dst.len s.latched.effort s.work.ht).1 = none := lzEncode_none h _
  exact ⟨_, exec_lzCompress_accepted hr effort size (Prod.ext answer rfl),
    complete_completed [0] false (.of_eq rfl) rfl rfl,
    fun _ ha => read_unspecifyDstFrom_outside (o := 0) ha (Nat.zero_le _)⟩

/-- Otherwise the stream stands at the start of the destination. -/
theorem lzCompress_compressible (hm : s.mem.wf)
    (h : ¬ NotCompressible s.latched.effort s.srcBytes s.latched.dstCap.toNat) :
    ∃ t, exec .lzCompress s = .next t ∧
      Wrote s t (resultsOf (BitVec.ofNat 32 (greedyStream s.latched.effort s.srcBytes).length) 0 0) false
        (greedyStream s.latched.effort s.srcBytes) := by
  have dst := hr.dst
  obtain ⟨-, room, -⟩ := greedyStream_of_compressible h
  have answer : (lzEncode s.srcBytes s.latched.dst.len s.latched.effort s.work.ht).1 =
    some (greedyStream s.latched.effort s.srcBytes) := lzEncode_some h _
  exact ⟨_, exec_lzCompress_accepted hr effort size (Prod.ext answer rfl), complete_wrote hm _ false _ (by omega)⟩

end

end Sys2Proof.Machine
end

section
/-! The statements of the LZ codec and its tokens, settled. -/

namespace Sys2Proof.Machine

/-- Settles O50: the start of the decoder, then its tokens beside the decoder's loop. -/
theorem lzDecompressRunsTheStream : Obligations.LzDecompressRunsTheStream := by
  intro s hm alone idle opcode hr
  obtain ⟨k, t, hk, run, ends⟩ := lzDecompress_ends hm alone idle opcode hr
  refine ⟨k, t, hk, run, ?_⟩
  rw [show s.mem.readBytes s.latched.srcAddr.toNat s.latched.srcLen.toNat = s.srcBytes from rfl]
  cases outcome : lzDecode s.srcBytes s.latched.dstCap.toNat with
  | ok out => exact outcome ▸ ends
  | error failure => exact outcome ▸ ends

/-- Settles O51: the encoder's bytes are the greedy stream, whose tokens the decoder reads back. -/
theorem codecRoundTrip : Obligations.CodecRoundTrip := by
  refine fun inp cap e ht => ⟨fun h => lzEncode_none h ht, fun h => ?_⟩
  exact ⟨_, lzEncode_some h ht, rfl, greedyStream_of_compressible h⟩

/-- Settles O10. -/
theorem tokenCutShortFails : Obligations.TokenCutShortFails :=
  fun s _ alone running src read => ⟨_, step_tokenCutShort alone running src read, raiseError_untouched .truncated _ s⟩

/-- Settles O48. -/
theorem lzCompressWritesADecodableStream : Obligations.LzCompressWritesADecodableStream := by
  rintro s x z hm hr effort size source rfl
  obtain rfl : x = s.srcBytes := source
  have length : s.srcBytes.length = s.latched.srcLen.toNat := srcBytes_length s
  refine ⟨lzCompress_notCompressible hr effort size, fun h => ?_, fun small => notCompressible_of_small ?_⟩
  · obtain ⟨t, ht, wrote⟩ := lzCompress_compressible hr effort size hm h
    obtain ⟨nonempty, room, shorter, decodes⟩ := greedyStream_of_compressible h
    refine ⟨t, ht, wrote.completed, wrote.outside, ?_, nonempty, room, length ▸ shorter, decodes _ length.le⟩
    refine (wrote.readBytes (o := 0) (Nat.zero_add _).le).trans ?_
    rw [slice, List.drop_zero, List.take_length]
  · exact small.imp (fun short => length.symm ▸ short) fun noRoom => by rw [noRoom]; rfl

/-- Settles O52. -/
theorem literalTokenAppendsItsBytes : Obligations.LiteralTokenAppendsItsBytes := by
  intro s i lits form _ runs source room
  obtain ⟨token, size, output⟩ := literalToken_spec form
  have dst := runs.dst
  obtain ⟨t, ht, appended, mem⟩ := exec_token_appends token runs (output _) (by omega) room
  refine ⟨t, ht, size ▸ appended, ?_⟩
  rw [mem]
  exact Memory.readBytes_writeBytes runs.mem (show _ ≤ 4294967296 by omega)

/-- Settles O53: the destination holds the match copy, each of whose bytes is the one `dist` before it. -/
theorem matchTokenCopiesEarlierOutput : Obligations.MatchTokenCopiesEarlierOutput := by
  intro s i len dist _ form runs source reach room
  have held : dist ≤ s.decoded.length := (decoded_length s).symm ▸ reach
  obtain ⟨new, hnew, rfl, copy⟩ := matchOutput_some (len := len) held
  obtain ⟨t, ht, appended, mem⟩ := exec_token_appends (matchForm_isToken form) runs
    ((tokenOutput_match form _).trans hnew) source room
  refine ⟨t, ht, appended, fun k hk => ?_⟩
  have bytes : ∀ j < s.dec.op + new.length, t.dstByte j = byteAt (copyMatch dist new.length s.decoded) j := by
    intro j hj
    rw [← copy, ← readBytes_appended runs room mem, byteAt_readBytes _ _ _ hj, State.dstByte, appended.kept.latched]
  rw [bytes _ (by omega), bytes _ (by omega)]
  have length := decoded_length s
  exact byteAt_copyMatch (matchForm_distance form) held (by omega) (by omega)

/-- Settles O54: in each case no output of the token passes its checks. -/
theorem tokenBoundsErrors : Obligations.TokenBoundsErrors := by
  intro s i n _ runs h
  have fails : i.isToken = true → (∀ new, tokenOutput i s.decoded = some new →
      s.latched.srcLen.toNat < s.dec.ip + tokenLength i ∨ s.latched.dstCap.toNat < s.dec.op + new.length) →
      ∃ t, exec i s = .next t ∧ FailedUntouched s t .truncated (BitVec.ofNat 32 s.dec.ip) := fun token bad =>
    ⟨_, exec_token_fails token runs bad, raiseError_untouched .truncated _ s⟩
  rcases h with ⟨⟨lits, form, rfl⟩ | ⟨dist, form, reach⟩, bounds⟩ | ⟨dist, form, beyond⟩
  · obtain ⟨token, -, output⟩ := literalToken_spec form
    refine fails token fun new ho => ?_
    obtain rfl := Option.some.inj ((output _).symm.trans ho)
    exact bounds
  · refine fails (matchForm_isToken form) fun new ho => ?_
    obtain ⟨copied, hcopied, rfl, -⟩ := matchOutput_some (len := n) ((decoded_length s).symm ▸ reach)
    obtain rfl := Option.some.inj (hcopied.symm.trans ((tokenOutput_match form _).symm.trans ho))
    exact bounds
  · refine fails (matchForm_isToken form) fun new ho => ?_
    rw [tokenOutput_match form, matchOutput_none ((decoded_length s).symm ▸ beyond)] at ho
    cases ho

/-- Settles O7. -/
theorem stepRunsTheTokenAtIp : Obligations.StepRunsTheTokenAtIp :=
  fun _ _ _ alone running src read => step_token alone running src read

/-- Settles O49. -/
theorem lzDecompressStartsTheDecoder : Obligations.LzDecompressStartsTheDecoder := by
  intro s hr
  rw [exec_lzDecompress hr]
  refine ⟨fun empty => ?_, fun nonempty => if_neg fun h => nonempty (BitVec.eq_of_toNat_eq h)⟩
  rw [if_pos (by rw [empty]; rfl)]
  exact ⟨_, rfl, complete_completed [0] false (.refl s) rfl rfl, rfl⟩

end Sys2Proof.Machine
end

section
/-! The engine's own move under the invariant: it always answers, and it ends the command with DONE set or goes on with
a token program (10_state.md R46; 60_exceptions.md R450, R451, R456). -/

namespace Sys2Proof.Machine

/-! ## What a move answers -/

/-- The command of `s` goes on in `t` as a token program (43_lz_codec.md R401). -/
structure GoesOn (s t : State) : Prop where
  running : t.dec.running = true
  seq : t.seq = s.seq
  abortPassed : t.abortPassed = s.abortPassed

theorem Ends.idle {s t : State} (h : Ends s t) : t.seq = .idle := by
  obtain ⟨m, w, f, -, -, ⟨e, n, rfl⟩ | ⟨r, b, rfl⟩⟩ := h <;> rfl

/-- Success and failure both set DONE (60_exceptions.md R450, R451). -/
theorem Ends.done {s t : State} (h : Ends s t) : t.status.done = true := by
  obtain ⟨m, w, f, -, -, ⟨e, n, rfl⟩ | ⟨r, b, rfl⟩⟩ := h <;> rfl

theorem runToken_answers {s : State} (i : Instr) (hf : RegionsFit s.latched) (running : s.dec.running = true) :
    ∃ t, runToken i s = .next t ∧ (Ends s t ∨ GoesOn s t) := by
  by_cases bad : ∀ new, tokenOutput i s.decoded = some new →
      s.latched.srcLen.toNat < s.dec.ip + tokenLength i ∨ s.latched.dstCap.toNat < s.dec.op + new.length
  · exact ⟨_, runToken_fail hf.src hf.dst bad, .inl (ends_raise s _ _)⟩
  · simp only [not_forall, not_or, Nat.not_lt] at bad
    obtain ⟨new, ho, hi, hc⟩ := bad
    rw [runToken_pass hf.src hf.dst ho hi hc]
    split
    · exact ⟨_, rfl, .inl (ends_lastToken i _ hc)⟩
    · exact ⟨_, rfl, .inr ⟨running, rfl, rfl⟩⟩

theorem tokenStep_answers {s : State} (p : TokenProgram s) (running : s.dec.running = true) :
    ∃ t, tokenStep s = .next t ∧ (Ends s t ∨ GoesOn s t) := by
  rw [tokenStep, if_pos ((Region.valid_iff s.latched.src).mpr p.regions.src)]
  cases read : decodeToken s.dec.first s.fetchBytes with
  | error e => exact ⟨_, rfl, .inl (ends_raise s _ _)⟩
  | ok r =>
    show ∃ t, exec r.1 s = .next t ∧ _
    rw [exec_token (decodeToken_isToken read)]
    exact runToken_answers r.1 p.regions running

theorem commandStep_unallocated {s : State} {e : DecodeError} (h : decodeCommand s.latched.opcode = .error e) :
    commandStep s = .next (raiseError .badCmd 0 s) := by
  rw [commandStep, h]

theorem commandStep_command {s : State} {i : Instr} (h : decodeCommand s.latched.opcode = .ok i) :
    commandStep s = exec i s := by
  rw [commandStep, h]

theorem commandStep_answers (s : State) : ∃ t, commandStep s = .next t ∧ (Ends s t ∨ GoesOn s t) := by
  cases decoded : decodeCommand s.latched.opcode with
  | error e => exact ⟨_, commandStep_unallocated decoded, .inl (ends_raise s _ _)⟩
  | ok i =>
    obtain ⟨command, -⟩ := decodeCommand_ok decoded
    obtain ⟨t, ht, ends | ⟨-, -, -, rfl⟩⟩ := exec_command_cases command s
    · exact ⟨t, (commandStep_command decoded).trans ht, .inl ends⟩
    · exact ⟨_, (commandStep_command decoded).trans ht, .inr ⟨rfl, rfl, rfl⟩⟩

/-- The move of the command or of its token program always answers a next state (log 16). -/
theorem runStep_answers {s : State} (h : s.Inv) : ∃ t, runStep s = .next t ∧ (Ends s t ∨ GoesOn s t) := by
  cases running : s.dec.running with
  | true =>
    rw [runStep, if_pos running]
    exact tokenStep_answers (h.program running) running
  | false =>
    rw [runStep, if_neg (by rw [running]; exact Bool.false_ne_true)]
    exact commandStep_answers s

/-! ## The end of a misused command -/

theorem unspecifyNamedDst_unnamed {s : State} (h : s.latched.namesDst = false) : s.unspecifyNamedDst = s := by
  rw [State.unspecifyNamedDst, h]
  exact if_neg Bool.false_ne_true

/-- The mark of a misuse keeps the move's answer but for what `Settled` leaves open, and that at the end only; where the
command names no destination, no byte of memory either (70_reset_and_hazards.md R512). -/
theorem settle_answers (b : Bool) (t : State) :
    ∃ u, settle b (.next t) = .next u ∧ Settled t u ∧ (t.seq = .busy → u = t) ∧
      (t.latched.namesDst = false → u.mem = t.mem) := by
  by_cases marked : b = true ∧ t.seq = .idle
  · obtain ⟨rfl, idle⟩ := marked
    refine ⟨t.afterMisuse, by simp [settle, idle], afterMisuse_settled idle, fun busy => ?_, fun unnamed => ?_⟩
    · rw [idle] at busy
      cases busy
    · rw [afterMisuse_eq, unspecifyNamedDst_unnamed unnamed]
  · exact ⟨t, by simp [settle, marked], .refl t, fun _ => rfl, fun _ => rfl⟩

/-- A failure stays the same failure: a misuse opens the RESULT registers of a success only. -/
theorem Failed.settled {s t u : State} {e : Err} {info : Word} (h : Failed s t e info) (g : Settled t u) :
    Failed s u e info where
  results := (g.results (.inr (congrArg Status.err h.status))).trans h.results
  status := g.status.trans h.status
  errInfo := g.errInfo.trans h.errInfo
  seq := g.seq.trans h.seq
  dec := g.dec.trans h.dec
  kept := h.kept.trans g.frame.kept

/-! ## DONE and the interrupt output (60_exceptions.md R456) -/

/-- Going past a sampling point of a pending ABORT keeps the invariant (log 9). -/
theorem passAbort_inv {s : State} (h : s.Inv) (req : s.abortReq = true) :
    ({ s with abortPassed := true, free := s.free + 1 } : State).Inv :=
  h.of_engine rfl h.mem h.regs (fun _ => req) h.owned

theorem settle_runStep_done {s u : State} {b : Bool} (h : s.Inv) (busy : s.seq = .busy)
    (hu : settle b (runStep s) = .next u) (idle : u.seq = .idle) : u.status.done = true := by
  obtain ⟨t, ht, answer⟩ := runStep_answers h
  obtain ⟨v, hv, settled, -⟩ := settle_answers b t
  rw [ht, hv] at hu
  cases hu
  rw [settled.status]
  rcases answer with ends | on
  · exact ends.done
  · rw [settled.seq, on.seq, busy] at idle
    cases idle

/-- BUSY is left with DONE set only. -/
theorem engineStep_done {s t : State} (h : s.Inv) (busy : s.seq = .busy) (ht : engineStep s = .next t)
    (idle : t.seq = .idle) : t.status.done = true := by
  have moves : ¬ t = s := fun same => by
    rw [same, busy] at idle
    cases idle
  rcases engineStep_cases s with ⟨-, hx⟩ | ⟨-, -, hx⟩ | ⟨-, -, -, hx⟩ | ⟨-, -, -, -, -, -, hx⟩ |
    ⟨-, -, -, req, -, -, hx⟩ | ⟨-, -, -, -, hx⟩ <;> rw [hx] at ht
  · exact absurd (Host.Outcome.next.inj ht).symm moves
  · exact absurd (Host.Outcome.next.inj ht).symm moves
  · obtain ⟨done, -⟩ := freeStatus_ok s.free (s.reportsStored && Config.freeFlag s.free)
    exact Host.Outcome.next.inj ht ▸ done
  · exact Host.Outcome.next.inj ht ▸ rfl
  · exact settle_runStep_done (passAbort_inv h req) busy ht idle
  · exact settle_runStep_done h busy ht idle

/-- While BUSY DONE is clear (70_reset_and_hazards.md R511). -/
theorem State.Inv.irq_of_busy {s : State} (h : s.Inv) (busy : s.seq = .busy) : s.irq = false := by
  obtain ⟨clear, -⟩ := h.clear busy
  rw [State.irq, clear]
  exact Bool.and_false _

/-- A look at the output returns its level, and one at an asserted output observes the end of the command (log 11). -/
theorem irqLook_eq (s : State) :
    irqLook s =
      { s with
        rdata := if s.irq then 1 else 0
        owned := s.owned && !s.irq
        unobserved := if s.irq then [] else s.unobserved } := by
  cases level : s.irq with
  | false => simp [irqLook, level]
  | true =>
    have done : s.status.done = true := (Bool.and_eq_true_iff.mp level).2
    simp [irqLook, level, State.observe, done]

end Sys2Proof.Machine
end

section
/-! A pending ABORT: what comes before it, and the moves at which it ends the command (60_exceptions.md R452, R458). -/

namespace Sys2Proof.Machine

/-! ## What comes before an ABORT (60_exceptions.md R458) -/

/-- A value that is no row of the opcode table is no command (30_encoding.md R150). -/
theorem decodeCommand_unallocated {o : Byte} (h : o ∉ opcodeTable.map Prod.fst) :
    decodeCommand o = .error (.unknownOpcode o) := by
  have missing : opcodeTable.find? (fun row => row.1 == o) = none := by
    refine List.find?_eq_none.mpr fun row hrow same => h ?_
    exact List.mem_map.mpr ⟨row, hrow, beq_iff_eq.mp same⟩
  rw [decodeCommand, missing]

theorem abortable_iff (s : State) :
    s.abortable = true ↔ s.dec.running = true ∨
      ∃ i, decodeCommand s.latched.opcode = .ok i ∧ regionError i s.latched = none := by
  rw [State.abortable, Bool.or_eq_true]
  cases decodeCommand s.latched.opcode <;> simp

/-- Where the opcode or a region check fails, the move is made as without the ABORT. -/
theorem step_notAbortable {s : State} (host : s.host = []) (busy : s.seq = .busy) (rejected : s.rejected = false)
    (hung : s.hung = false) (ha : s.abortable = false) : step s = settle s.misused (runStep s) := by
  rw [step_engine host, engineStep_live busy hung rejected, ha, Bool.and_false]
  exact if_neg Bool.false_ne_true

/-- The regions of a token program have passed their checks (43_lz_codec.md R410). -/
theorem TokenProgram.regionError_none {s : State} {i : Instr} (p : TokenProgram s)
    (decoded : decodeCommand s.latched.opcode = .ok i) : regionError i s.latched = none := by
  have lz : decodeCommand 0x11 = .ok .lzDecompress := by decide
  rw [p.opcode, lz] at decoded
  cases decoded
  exact (regionError_none_iff rfl rfl rfl).mpr p.regions

/-- A region check fails before any token program runs. -/
theorem State.Inv.not_running {s : State} {i : Instr} {n : Nat} (h : s.Inv)
    (decoded : decodeCommand s.latched.opcode = .ok i) (fails : regionError i s.latched = some n) :
    s.dec.running = false := by
  refine Bool.eq_false_iff.mpr fun running => ?_
  rw [(h.program running).regionError_none decoded] at fails
  cases fails

/-! ## The moves with an ABORT pending (60_exceptions.md R452) -/

/-- The engine's next move is its own and finds ABORT_REQ set. -/
structure AbortPending (s : State) : Prop where
  host : s.host = []
  busy : s.seq = .busy
  rejected : s.rejected = false
  hung : s.hung = false
  abortReq : s.abortReq = true

theorem AbortPending.of_kept {s t : State} (h : AbortPending s) (kept : SameHostSide s t) (busy : t.seq = .busy) :
    AbortPending t :=
  ⟨kept.host.trans h.host, busy, kept.rejected.trans h.rejected, kept.hung.trans h.hung,
    kept.abortReq.trans h.abortReq⟩

/-- The end of an aborted command is the failure with code 8 and ERRINFO 0 (60_exceptions.md R440). -/
theorem finishAborted_failed (s : State) : Failed s (finishAborted s) .aborted 0 := by
  rw [finishAborted_eq]
  exact raiseError_failed .aborted 0 (.of_eq rfl) rfl rfl

section
variable {s : State} (pending : AbortPending s) (ha : s.abortable = true)
include pending ha

theorem step_abortable :
    step s = if s.honoursAbort then .next (finishAborted s)
      else settle s.misused (runStep { s with abortPassed := true, free := s.free + 1 }) := by
  rw [step_engine pending.host, engineStep_live pending.busy pending.hung pending.rejected, pending.abortReq, ha,
    Bool.and_self]
  exact if_pos rfl

/-- The move that honours the ABORT. -/
theorem step_honoured (honours : s.honoursAbort = true) :
    ∃ t, step s = .next t ∧ Failed s t .aborted 0 ∧
      SameOutside s t s.latched.dstAddr.toNat s.latched.dstCap.toNat :=
  ⟨_, (step_abortable pending ha).trans (if_pos honours), finishAborted_failed s, (finishAborted_frame s).outside⟩

/-- The move that goes past it: the command's own, with the request counted as passed. -/
theorem step_passed (passes : s.honoursAbort = false) :
    step s = settle s.misused (runStep { s with abortPassed := true, free := s.free + 1 }) :=
  (step_abortable pending ha).trans (if_neg (by rw [passes]; exact Bool.false_ne_true))

/-- A command that goes past an ABORT and is still BUSY ends at the move after. -/
theorem step_passed_ends (h : s.Inv) (passes : s.honoursAbort = false) :
    ∃ t, step s = .next t ∧
      (t.seq = .busy → t.abortPassed = true ∧ ∃ u, step t = .next u ∧ Failed t u .aborted 0 ∧
        SameOutside t u t.latched.dstAddr.toNat t.latched.dstCap.toNat) := by
  obtain ⟨t, ht, answer⟩ := runStep_answers (passAbort_inv h pending.abortReq)
  obtain ⟨u, hu, settled, same, -⟩ := settle_answers s.misused t
  refine ⟨u, (step_passed pending ha passes).trans (ht ▸ hu), fun busy => ?_⟩
  rw [settled.seq] at busy
  obtain rfl := same busy
  rcases answer with ends | on
  · rw [ends.idle] at busy
    cases busy
  · have pendingNext := pending.of_kept ((passAbort_frame s).trans (runStep_frame ht)).kept busy
    refine ⟨on.abortPassed, step_honoured pendingNext ((abortable_iff u).mpr (.inl on.running)) ?_⟩
    rw [State.honoursAbort, on.abortPassed, Bool.true_or]

end

end Sys2Proof.Machine
end

section
/-! The statements of failures, the interrupt and ABORT, settled. -/

namespace Sys2Proof.Machine

/-- Settles O9: E_BADCMD comes before the ABORT, and with no command named a misuse leaves nothing open. -/
theorem unallocatedOpcodeIsRefused : Obligations.UnallocatedOpcodeIsRefused := by
  intro s host busy rejected hung still opcode
  have unknown := decodeCommand_unallocated (o := s.latched.opcode) opcode
  have notAbortable : s.abortable = false := by
    simp [Bool.eq_false_iff, abortable_iff, still, unknown]
  have unnamed : s.latched.namesDst = false := by
    simp [Bool.eq_false_iff, namesDst_iff, unknown]
  have run : runStep s = .next (raiseError .badCmd 0 s) := by
    rw [runStep, still, if_neg Bool.false_ne_true, commandStep_unallocated unknown]
  obtain ⟨t, ht, settled, -, mem⟩ := settle_answers s.misused (raiseError .badCmd 0 s)
  refine ⟨t, ?_, (raiseError_untouched .badCmd 0 s).failed.settled settled, mem unnamed⟩
  rw [step_notAbortable host busy rejected hung notAbortable, run, ht]

/-- Settles O17: DONE is clear while BUSY by the invariant, and BUSY is left with DONE set only. -/
theorem interruptComesWithCompletion : Obligations.InterruptComesWithCompletion := by
  refine ⟨fun s t h busy host ht => ?_, fun s rest host => ?_⟩
  · rw [step_engine host] at ht
    refine ⟨h.irq_of_busy busy, fun idle => ?_, (engineStep_inv h ht).irq_of_busy⟩
    have done := engineStep_done h busy ht idle
    refine ⟨done, ?_⟩
    rw [State.irq, done, (engineStep_frame ht).kept.ie, Bool.and_true]
  · rw [step_outside host (by simp), outsideStep, irqLook_eq]
    rfl

/-- Settles O18: a failing region check comes first; else the free choice at the first move honours the ABORT or goes
past it once. -/
theorem abortEndsWithinTwoMoves : Obligations.AbortEndsWithinTwoMoves := by
  intro s h host busy rejected hung req
  simp only [decode_opcodeWord]
  refine ⟨fun i n decoded fails unmisused => ?_, fun passed => ?_⟩
  · have still := h.not_running decoded fails
    have notAbortable : s.abortable = false := by
      simp [Bool.eq_false_iff, abortable_iff, still, decoded, fails]
    have run : runStep s = exec i s := by
      rw [runStep, still, if_neg Bool.false_ne_true, commandStep_command decoded]
    obtain ⟨t, ht, refused⟩ := exec_regionRefused fails
    refine ⟨t, ?_, ht, refused⟩
    rw [step_notAbortable host busy rejected hung notAbortable, unmisused, settle_false, run, ht]
  · have pending : AbortPending s := ⟨host, busy, rejected, hung, req⟩
    have ha := (abortable_iff s).mpr passed
    cases honours : s.honoursAbort with
    | true => exact .inl (step_honoured pending ha honours)
    | false =>
      obtain ⟨first, -⟩ := Bool.or_eq_false_iff.mp honours
      refine .inr ⟨first, fun unmisused => ?_, step_passed_ends pending ha h honours⟩
      rw [step_passed pending ha honours, unmisused, settle_false]

end Sys2Proof.Machine
end

section
/-! Reset and STATUS as the host reads them, and the engine's move of a state of the invariant (10_state.md R37;
70_reset_and_hazards.md R500 to R502, R517). -/

namespace Sys2Proof.Machine

/-! ## Reset (70_reset_and_hazards.md R500 to R502) -/

/-- STATUS of an IDLE engine with no flag set. -/
theorem statusWord_cleared : statusWord .idle Status.clear = 0 := by decide

/-- Only ID reads other than 0 after a reset. -/
theorem windowWord_resetEngine (s : State) {off : Nat} (h : off ≠ 0x00) : (resetEngine s).windowWord off = 0 := by
  unfold State.windowWord
  split
  case h_1 => exact absurd rfl h
  case h_2 => exact ctrlWord_eq false
  case h_3 => exact statusWord_cleared
  all_goals rfl

theorem windowRead_resetEngine (s : State) (off : Nat) :
    (resetEngine s).windowRead .word off = if off = 0 then 0x4C5A3737 else 0 := by
  by_cases h : off = 0
  · subst h
    rfl
  · rw [if_neg h, State.windowRead, windowWord_resetEngine s h, ite_self]

/-- Memory after a reset: an ended command's destination is unspecified (70_reset_and_hazards.md R501). -/
theorem resetEngine_mem (s : State) :
    (resetEngine s).mem = if s.seq = .busy then s.unspecifyNamedDst.mem else s.mem :=
  apply_ite State.mem _ _ _

theorem resetEngine_mem_of_idle {s : State} (h : s.seq = .idle) : (resetEngine s).mem = s.mem := by
  rw [resetEngine_mem, h]
  exact if_neg (by simp)

theorem resetEngine_outside (s : State) :
    SameOutside s (resetEngine s) s.latched.dstAddr.toNat s.latched.dstCap.toNat := by
  intro a ha
  rw [resetEngine_mem]
  split
  · exact unspecifyNamedDst_outside s a ha
  · rfl

/-- RST and a CTRL write with SRST are the same reset, whatever else the write holds (10_state.md R36). -/
theorem step_reset {s : State} {rest : List HostEvent}
    (h : s.host = .rst :: rest ∨ ∃ v : Word, v.getLsbD 3 = true ∧ s.host = .regWrite .word 0x04 v :: rest) :
    step s = .next (resetEngine { s with host := rest }) := by
  rcases h with h | ⟨v, srst, h⟩
  · exact step_outside h (by simp)
  · rw [step_wordWrite h (by decide) (by decide)]
    exact congrArg Host.Outcome.next (writeCtrl_reset srst)

/-! ## STATUS (10_state.md R37, 70_reset_and_hazards.md R517) -/

/-- A bit put below the others is bit 0. -/
theorem getLsbD_append_ofBool {n : Nat} (x : BitVec n) (b : Bool) (i : Nat) :
    (x ++ BitVec.ofBool b).getLsbD i = if i = 0 then b else x.getLsbD (i - 1) := by
  rw [BitVec.getLsbD_append]
  cases i <;> simp

/-- STATUS bit by bit: BUSY, DONE, ERR and STORED in bits 0 to 3, ERRCODE above them. -/
theorem getLsbD_statusWord (q : Seq) (st : Status) (i : Nat) :
    (statusWord q st).getLsbD i =
      if i = 0 then decide (q = .busy) else if i - 1 = 0 then st.done else if i - 1 - 1 = 0 then st.err
      else if i - 1 - 1 - 1 = 0 then st.stored
      else ((0 : BitVec 16) ++ st.errCode ++ (0 : BitVec 4)).getLsbD (i - 1 - 1 - 1 - 1) := by
  rw [← getLsbD_append_ofBool, ← getLsbD_append_ofBool, ← getLsbD_append_ofBool, ← getLsbD_append_ofBool]
  rfl

/-- A write to STATUS clears the bits of DONE and ERR that it has set, and no other. -/
theorem statusWord_acknowledge (q : Seq) (st : Status) (v : Word) :
    statusWord q (st.acknowledge v) = statusWord q st &&& ~~~(v &&& 6) := by
  refine BitVec.eq_of_getLsbD_eq fun i hi => ?_
  have six : (6 : Word).getLsbD i = decide (i = 1 ∨ i = 2) := by interval_cases i <;> rfl
  rw [BitVec.getLsbD_and, BitVec.getLsbD_not, BitVec.getLsbD_and, six, getLsbD_statusWord, getLsbD_statusWord]
  rcases i with _ | _ | _ | i <;> simp [Status.acknowledge, hi]

/-- STATUS is read at its own offset only. -/
theorem windowWord_status (s : State) (st : Status) {off : Nat} (h : off ≠ 0x08) :
    ({ s with status := st } : State).windowWord off = s.windowWord off := by
  unfold State.windowWord
  split
  case h_3 => exact absurd rfl h
  all_goals rfl

/-- IRQ falls with DONE (60_exceptions.md R456). -/
theorem irq_acknowledge (s : State) (v : Word) :
    ({ s with status := s.status.acknowledge v } : State).irq = (s.irq && !v.getLsbD 1) :=
  (Bool.and_assoc _ _ _).symm

/-! ## The invariant at reset, and the move of a state that has it -/

theorem reset_inv : State.reset.Inv where
  mem := Memory.wf_nil
  regs := zero_legal
  latched := zero_legal
  work := ⟨List.Pairwise.nil, fun _ hc => (List.not_mem_nil hc).elim, Nat.zero_le _, Nat.zero_le _, Nat.zero_le _⟩
  errCode := Nat.zero_le _
  err := fun he => by cases he
  clear := fun hb => by cases hb
  still := fun _ => rfl
  program := fun hr => by cases hr
  passed := fun hp => by cases hp
  owned := fun hb => by cases hb

theorem settle_runStep_goesOn {s : State} (h : s.Inv) (b : Bool) : ∃ t, settle b (runStep s) = .next t := by
  obtain ⟨t, ht, -⟩ := runStep_answers h
  obtain ⟨u, hu, -⟩ := settle_answers b t
  exact ⟨u, ht ▸ hu⟩

/-- The engine's move answers a next state: the one fault of a token needs regions that the invariant excludes
(log 16). -/
theorem engineStep_goesOn {s : State} (h : s.Inv) : ∃ t, engineStep s = .next t := by
  rcases engineStep_cases s with ⟨-, hx⟩ | ⟨-, -, hx⟩ | ⟨-, -, -, hx⟩ | ⟨-, -, -, -, -, -, hx⟩ |
    ⟨-, -, -, req, -, -, hx⟩ | ⟨-, -, -, -, hx⟩ <;> rw [hx]
  · exact ⟨_, rfl⟩
  · exact ⟨_, rfl⟩
  · exact ⟨_, rfl⟩
  · exact ⟨_, rfl⟩
  · exact settle_runStep_goesOn (passAbort_inv h req) _
  · exact settle_runStep_goesOn h _

end Sys2Proof.Machine
end

section
/-! What a command does depends on no internal array: with other contents of HT and the block buffers every instruction
answers the same, those arrays apart (70_reset_and_hazards.md R503; 10_state.md R47, R48). -/

namespace Sys2Proof.Machine

/-- The same state with these contents of HT and the block buffers. -/
def State.withWork (w : Scratch) (s : State) : State := { s with work := w }

@[simp] theorem State.withWork_latched (w : Scratch) (s : State) : (s.withWork w).latched = s.latched := rfl
@[simp] theorem State.withWork_mem (w : Scratch) (s : State) : (s.withWork w).mem = s.mem := rfl
@[simp] theorem State.withWork_sourceHeader (w : Scratch) (s : State) :
    (s.withWork w).sourceHeader = s.sourceHeader := rfl

/-- Two answers that differ in the internal arrays only. -/
inductive SameButWork : Step → Step → Prop
  | next (t : State) (w : Scratch) : SameButWork (.next t) (.next (t.withWork w))
  | fault (f : Fault) : SameButWork (.fault f) (.fault f)
  | refused (r : Refusal) : SameButWork (.refused r) (.refused r)

/-! ## Choices that do not depend on the arrays -/

theorem SameButWork.ite {p : Prop} [Decidable p] {o o' u u' : Step} (ho : SameButWork o o') (hu : SameButWork u u') :
    SameButWork (if p then o else u) (if p then o' else u') := by
  split
  · exact ho
  · exact hu

theorem SameButWork.afterRegions {i : Instr} {s : State} {w : Scratch} {o o' : Step} (h : SameButWork o o') :
    SameButWork (afterRegions i s o) (afterRegions i (s.withWork w) o') := by
  rw [Machine.afterRegions, Machine.afterRegions, State.withWork_latched]
  cases regionError i s.latched with
  | none => exact h
  | some n => exact .next (raiseError .arg n s) w

theorem SameButWork.afterChecks {l : List (Bool × Err × Nat)} {s : State} {w : Scratch} {o o' : Step}
    (h : SameButWork o o') : SameButWork (afterChecks l s o) (afterChecks l (s.withWork w) o') := by
  rw [Machine.afterChecks, Machine.afterChecks]
  cases firstFailing l with
  | none => exact h
  | some c => exact .next (raiseError c.1 c.2 s) w

/-- The block loops begin with block 0 (41_pipeline.md R261). -/
theorem eq_zero_of_mem_head?_range {n j : Nat} (h : j ∈ (List.range n).head?) : j = 0 := by
  cases n with
  | zero => cases h
  | succ n =>
    rw [List.head?_range, if_neg (Nat.succ_ne_zero n)] at h
    exact (Option.some.inj h).symm

/-! ## The encoder (43_lz_codec.md R382, 41_pipeline.md R263, R265) -/

/-- From two tables lz_encode gives one answer; the tables that it leaves may differ. -/
theorem lzEncode_answer (inp : List Byte) (cap e : Nat) (ht ht' : HashTable) :
    ∃ answer t u, lzEncode inp cap e ht = (answer, t) ∧ lzEncode inp cap e ht' = (answer, u) :=
  ⟨(lzEncode inp cap e ht).1, (lzEncode inp cap e ht).2, (lzEncode inp cap e ht').2, rfl,
    Prod.ext (lzEncode_fst inp cap e ht' ht) rfl⟩

/-- What the block loop of COMPRESS answers apart from the arrays: the table entries and the payloads. -/
def codedBytes (o : Except Scratch Coded) : Option (List Nat × List Byte) :=
  o.toOption.map fun c => (c.starts, c.payload)

/-- Of the arrays a block reads the delta reference only, and block 0, which sets it, does not read it either. -/
theorem codeBlocks_work (f : List Filter) (ts e bs : Nat) (src : List Byte) (pos : Nat) {js : List Nat} {st : List Nat}
    {p : List Byte} {v w : Scratch} (h : ∀ j ∈ js.head?, j = 0 ∨ v.bufR = w.bufR) :
    codedBytes (codeBlocks f ts e bs src pos js ⟨st, p, w⟩) =
      codedBytes (codeBlocks f ts e bs src pos js ⟨st, p, v⟩) := by
  induction js generalizing st p v w with
  | nil => rfl
  | cons j js ih =>
    have filtered : forward f ts j w.bufR (blockBytes bs src j) = forward f ts j v.bufR (blockBytes bs src j) := by
      rcases h j rfl with rfl | hr
      · exact forward_blockZero f ts _ _ _
      · rw [hr]
    rw [codeBlocks, codeBlocks]
    dsimp only
    rw [filtered]
    generalize forward f ts j v.bufR (blockBytes bs src j) = y
    obtain ⟨answer, t, u, hv, hw⟩ := lzEncode_answer y (y.length - 1) e v.ht w.ht
    rw [hv, hw]
    cases answer with
    | none => rfl
    | some out =>
      refine ih fun k _ => .inr ?_
      dsimp only
      split
      · rfl
      · exact (h j rfl).resolve_left ‹_›

/-- The chunk is the same, and only the arrays that COMPRESS leaves may differ. -/
theorem compressChunk_work (p : Params) (src : List Byte) (v w : Scratch) :
    ∃ w', compressChunk p src w = { compressChunk p src v with work := w' } := by
  have blocks := fun pos bs => codeBlocks_work p.pipeline p.typesize p.effort bs src pos (st := []) (p := [])
    (v := v) (w := w) (js := List.range (cdiv src.length bs)) fun _ hj => .inl (eq_zero_of_mem_head?_range hj)
  unfold compressChunk
  dsimp only
  generalize p.hlen + tableLength _ = pos
  generalize blockSize p.effort p.typesize src.length p.bsize.toNat = bs at *
  split
  · exact ⟨w, rfl⟩
  · specialize blocks pos bs
    generalize codeBlocks p.pipeline p.typesize p.effort bs src pos _ ⟨[], [], w⟩ = a at blocks ⊢
    generalize codeBlocks p.pipeline p.typesize p.effort bs src pos _ ⟨[], [], v⟩ = b at blocks ⊢
    cases a with
    | error t =>
      cases b with
      | error u => exact ⟨t, rfl⟩
      | ok d => cases blocks
    | ok c =>
      cases b with
      | error u => cases blocks
      | ok d =>
        obtain ⟨starts, payload, t⟩ := c
        obtain ⟨_, _, u⟩ := d
        cases blocks
        dsimp only
        split
        · exact ⟨t, rfl⟩
        · exact ⟨t, rfl⟩

/-! ## The decoder (41_pipeline.md R290, R295) -/

/-- DECOMPRESS decodes block 0 first, into the delta reference. -/
theorem decodeBlocks_work (h : Header) (c : List Byte) (st : List Nat) {js : List Nat} {v w : Scratch}
    {out : List Byte} (hj : ∀ j ∈ js.head?, j = 0 ∨ v.bufR = w.bufR) :
    (decodeBlocks h c st js w out).map Prod.snd = (decodeBlocks h c st js v out).map Prod.snd := by
  induction js generalizing v w out with
  | nil => rfl
  | cons j js ih =>
    have same : decodeBlock h c st j w.bufR = decodeBlock h c st j v.bufR := by
      rcases hj j rfl with rfl | hr
      · exact decodeBlock_zero h c st _ _
      · rw [hr]
    rw [decodeBlocks, decodeBlocks, same]
    cases decodeBlock h c st j v.bufR with
    | none => rfl
    | some b =>
      refine ih fun k _ => .inr ?_
      dsimp only
      split
      · rfl
      · exact (hj j rfl).resolve_left ‹_›

/-- GET_ITEM_RANGE reads the delta reference only where the pipeline has a delta step. -/
theorem decodeRange_work (h : Header) (c : List Byte) (st : List Nat) (a z : Nat) {js : List Nat} {v w : Scratch}
    {out : List Byte} (hr : hasDelta h.pipeline = true → v.bufR = w.bufR) :
    (decodeRange h c st a z js w out).map Prod.snd = (decodeRange h c st a z js v out).map Prod.snd := by
  induction js generalizing v w out with
  | nil => rfl
  | cons j js ih =>
    rw [decodeRange, decodeRange]
    split
    · rename_i reference
      rw [hr reference.2]
      exact ih hr
    · have same : decodeBlock h c st j w.bufR = decodeBlock h c st j v.bufR := by
        cases delta : hasDelta h.pipeline with
        | false => exact decodeBlock_noDelta delta c st j _ _
        | true => rw [hr delta]
      rw [same]
      cases decodeBlock h c st j v.bufR with
      | none => rfl
      | some b => exact ih hr

/-- Block 0 as the delta reference is the same whatever stood in the arrays before. -/
theorem decodeReference_work (h : Header) (c : List Byte) (st : List Nat) (v w : Scratch) :
    Option.Rel (fun x y => hasDelta h.pipeline = true → x.bufR = y.bufR) (decodeReference h c st v)
      (decodeReference h c st w) := by
  unfold decodeReference
  split
  · cases decodeBlock h c st 0 [] with
    | none => exact .none
    | some b => exact .some fun _ => rfl
  · exact .some fun delta => absurd delta ‹_›

/-! ## The commands and the tokens -/

theorem filterCommand_withWork (w : Scratch) (i : Instr) (l : List (Bool × Err × Nat)) (f : List Byte → List Byte)
    (s : State) : SameButWork (filterCommand i l f s) (filterCommand i l f (s.withWork w)) :=
  .afterRegions (.afterChecks (.next _ { w with bufA := s.srcBytes, bufB := f s.srcBytes }))

theorem runToken_withWork (w : Scratch) (i : Instr) (s : State) :
    SameButWork (runToken i s) (runToken i (s.withWork w)) := by
  refine .ite (p := (s.latched.src.valid && s.latched.dst.valid) = true) ?_ (.fault _)
  show SameButWork (match tokenOutput i s.decoded with | none => _ | some _ => _)
    (match tokenOutput i s.decoded with | none => _ | some _ => _)
  cases tokenOutput i s.decoded with
  | none => exact .next _ w
  | some new => exact .ite (.next _ w) (.ite (.next _ w) (.next _ w))

theorem storedCopy_withWork (w : Scratch) (h : Header) (a c : Nat) (s : State) :
    SameButWork (storedCopy h a c s) (storedCopy h a c (s.withWork w)) :=
  .ite (.next _ w) (.next _ w)

theorem blockFailure_withWork (w : Scratch) (written : List Byte) (s : State) :
    blockFailure written (s.withWork w) = (blockFailure written s).withWork w := by
  unfold blockFailure
  split <;> rfl

/-- What COMPRESS does with the chunk it has made. -/
def finishCompress (r : Compressed) (s : State) : Step :=
  if s.latched.dst.len < r.chunk.length then
    .next (if r.stored then raiseError .destSmall 0 (s.withWork r.work)
      else raiseUnspecified .destSmall 0 (s.withWork r.work))
  else
    .next (complete [r.chunk.length, r.blocks, r.bs] r.stored
      (((s.withWork r.work).writeDst 0 r.chunk).unspecifyDstFrom r.chunk.length))

theorem execCompress_eq (s : State) : execCompress s =
    afterRegions .compress s (afterChecks (compressChecks s.latched) s
      (finishCompress (compressChunk s.latched s.srcBytes s.work) s)) := rfl

theorem finishCompress_withWork (v w : Scratch) (r : Compressed) (s : State) :
    SameButWork (finishCompress r s) (finishCompress { r with work := v } (s.withWork w)) := by
  refine .ite ?_ (.next _ v)
  show SameButWork (.next (if r.stored = true then _ else _)) (.next (if r.stored = true then _ else _))
  split
  · exact .next _ v
  · exact .next _ v

theorem execCompress_withWork (w : Scratch) (s : State) :
    SameButWork (execCompress s) (execCompress (s.withWork w)) := by
  obtain ⟨v, hv⟩ := compressChunk_work s.latched s.srcBytes s.work w
  rw [execCompress_eq, execCompress_eq]
  refine .afterRegions (.afterChecks ?_)
  show SameButWork _ (finishCompress (compressChunk s.latched s.srcBytes w) (s.withWork w))
  rw [hv]
  exact finishCompress_withWork v w _ s

/-- The end of a block loop of the chunk readers. -/
def finishBlocks (r : List Nat) (s : State) : Except (List Byte) (Scratch × List Byte) → Step
  | .error written => .next (blockFailure written s)
  | .ok (work, out) => .next (complete r false ((s.withWork work).writeDst 0 out))

theorem finishBlocks_withWork {o o' : Except (List Byte) (Scratch × List Byte)}
    (h : o'.map Prod.snd = o.map Prod.snd) (r : List Nat) (w : Scratch) (s : State) :
    SameButWork (finishBlocks r s o) (finishBlocks r (s.withWork w) o') := by
  cases o with
  | error written =>
    cases o' with
    | error _ =>
      cases h
      rw [finishBlocks, finishBlocks, blockFailure_withWork]
      exact .next _ w
    | ok _ => cases h
  | ok p =>
    cases o' with
    | error _ => cases h
    | ok q =>
      obtain ⟨v, out⟩ := p
      obtain ⟨u, _⟩ := q
      cases h
      exact .next _ u

/-- The end of GET_ITEM_RANGE, once block 0 has been decoded as the delta reference. -/
def finishRange (r : List Nat) (s : State) (blocks : Scratch → Except (List Byte) (Scratch × List Byte)) :
    Option Scratch → Step
  | none => .next (blockFailure [] s)
  | some work => finishBlocks r s (blocks work)

theorem finishRange_withWork {R : Scratch → Scratch → Prop} {x x' : Option Scratch} (h : Option.Rel R x x')
    {f : Scratch → Except (List Byte) (Scratch × List Byte)}
    (hf : ∀ u v, R u v → (f v).map Prod.snd = (f u).map Prod.snd) (r : List Nat) (w : Scratch) (s : State) :
    SameButWork (finishRange r s f x) (finishRange r (s.withWork w) f x') := by
  cases h with
  | none =>
    rw [finishRange, finishRange, blockFailure_withWork]
    exact .next _ w
  | some same => exact finishBlocks_withWork (hf _ _ same) r w s

theorem execDecompress_withWork (w : Scratch) (s : State) :
    SameButWork (execDecompress s) (execDecompress (s.withWork w)) := by
  rw [execDecompress, execDecompress, State.withWork_sourceHeader]
  refine .afterRegions ?_
  cases s.sourceHeader with
  | error e => exact .next (raiseError e.1 e.2 s) w
  | ok h =>
    refine .ite (.next _ w) (.afterChecks (.ite (storedCopy_withWork w h 0 h.nbytes s) (.ite (.next _ w) ?_)))
    dsimp only [State.withWork_latched, State.withWork_mem]
    cases payloadMap h (s.mem.readBytes s.latched.src.base h.cbytes) with
    | error e => exact .next (raiseError e.1 e.2 s) w
    | ok starts =>
      exact finishBlocks_withWork (decodeBlocks_work h _ starts fun _ hj => .inl (eq_zero_of_mem_head?_range hj)) _ w s

theorem execGetItemRange_withWork (w : Scratch) (s : State) :
    SameButWork (execGetItemRange s) (execGetItemRange (s.withWork w)) := by
  rw [execGetItemRange, execGetItemRange, State.withWork_sourceHeader]
  refine .afterRegions ?_
  cases s.sourceHeader with
  | error e => exact .next (raiseError e.1 e.2 s) w
  | ok h =>
    refine .ite (.next _ w) (.afterChecks (.ite (storedCopy_withWork w h _ _ s) (.ite (.next _ w) ?_)))
    dsimp only [State.withWork_latched, State.withWork_mem]
    cases payloadMap h (s.mem.readBytes s.latched.src.base h.cbytes) with
    | error e => exact .next (raiseError e.1 e.2 s) w
    | ok starts =>
      exact finishRange_withWork (decodeReference_work h _ starts s.work w)
        (fun _ _ same => decodeRange_work h _ starts _ _ same) _ w s

theorem execChunkSizes_withWork (w : Scratch) (s : State) :
    SameButWork (execChunkSizes s) (execChunkSizes (s.withWork w)) := by
  rw [execChunkSizes, execChunkSizes, State.withWork_sourceHeader]
  refine .afterRegions ?_
  cases s.sourceHeader with
  | error e => exact .next (raiseError e.1 e.2 s) w
  | ok h => exact .next _ w

theorem execHdrEncode_withWork (w : Scratch) (s : State) :
    SameButWork (execHdrEncode s) (execHdrEncode (s.withWork w)) := by
  rw [execHdrEncode, execHdrEncode]
  dsimp only [State.withWork_latched]
  generalize encodeHeader s.latched.headerParams = header
  exact .afterRegions (.afterChecks (.next _ w))

theorem execLzCompress_withWork (w : Scratch) (s : State) :
    SameButWork (execLzCompress s) (execLzCompress (s.withWork w)) := by
  refine .afterRegions (.afterChecks ?_)
  show SameButWork
    (match lzEncode s.srcBytes s.latched.dst.len s.latched.effort s.work.ht with | (some _, _) => _ | (none, _) => _)
    (match lzEncode s.srcBytes s.latched.dst.len s.latched.effort w.ht with | (some _, _) => _ | (none, _) => _)
  obtain ⟨answer, t, u, hs, hw⟩ := lzEncode_answer s.srcBytes s.latched.dst.len s.latched.effort s.work.ht w.ht
  rw [hs, hw]
  cases answer with
  | none => exact .next _ { w with ht := u, bufA := s.srcBytes }
  | some out => exact .next _ { w with ht := u, bufA := s.srcBytes }

/-- With other contents of the arrays every instruction answers the same, those arrays apart. -/
theorem exec_withWork (w : Scratch) (i : Instr) (s : State) : SameButWork (exec i s) (exec i (s.withWork w)) := by
  cases i
  case nop => exact .next _ w
  case compress => exact execCompress_withWork w s
  case decompress => exact execDecompress_withWork w s
  case chunkSizes => exact execChunkSizes_withWork w s
  case getItemRange => exact execGetItemRange_withWork w s
  case hdrEncode => exact execHdrEncode_withWork w s
  case lzCompress => exact execLzCompress_withWork w s
  case lzDecompress => exact .afterRegions (i := .lzDecompress) (.ite (.next _ w) (.next _ w))
  case shuffle => exact filterCommand_withWork w _ _ _ s
  case unshuffle => exact filterCommand_withWork w _ _ _ s
  case bitshuffle => exact filterCommand_withWork w _ _ _ s
  case bitunshuffle => exact filterCommand_withWork w _ _ _ s
  case deltaEncode =>
    exact filterCommand_withWork w .deltaEncode [typesizeCheck s]
      (fun x => if s.latched.refBlock then deltaRef s.latched.typesize x else deltaXor x s.refBytes) s
  case deltaDecode =>
    exact filterCommand_withWork w .deltaDecode [typesizeCheck s]
      (fun x => if s.latched.refBlock then undeltaRef s.latched.typesize x else deltaXor x s.refBytes) s
  case truncPrec => exact filterCommand_withWork w _ _ _ s
  all_goals
    rw [exec_token rfl, exec_token rfl]
    exact runToken_withWork w _ s

end Sys2Proof.Machine
end

section
/-! The statements of reset, of STATUS and of the whole machine, settled. -/

namespace Sys2Proof.Machine

/-- Settles O56: no command runs after a reset, and every register and array is at its least value. -/
theorem invariantAtReset : Obligations.InvariantAtReset := reset_inv

/-- Settles O13: RST and SRST both answer `resetEngine`. -/
theorem resetLeavesTheResetState : Obligations.ResetLeavesTheResetState := by
  intro s rest h
  exact ⟨_, step_reset h, windowRead_resetEngine _, rfl, rfl, rfl, rfl, rfl,
    fun idle => resetEngine_mem_of_idle (s := { s with host := rest }) idle,
    resetEngine_outside { s with host := rest }⟩

/-- Settles O16: the write acknowledges DONE and ERR, and STATUS is the only word that shows them. -/
theorem statusWriteClearsDoneAndErr : Obligations.StatusWriteClearsDoneAndErr := by
  intro s v rest h
  refine ⟨_, step_wordWrite h (by decide) (by decide), ?_, fun o ho => windowRead_congr ?_ _, ?_, rfl, rfl, rfl⟩
  · rw [windowRead_reached (by decide) (by decide), windowRead_reached (by decide) (by decide)]
    exact statusWord_acknowledge s.seq s.status v
  · exact windowWord_status { s with host := rest } _ ho
  · exact irq_acknowledge { s with host := rest } v

/-- Settles O58: the engine's move goes on by the invariant, and an event of the outside world always has its effect. -/
theorem everyStepGoesOn : Obligations.EveryStepGoesOn := by
  intro s h
  rcases step_cases s with ⟨-, hx⟩ | ⟨rest, -, hx⟩ | ⟨ev, rest, -, -, hx⟩ <;> rw [hx]
  · exact engineStep_goesOn h
  · exact engineStep_goesOn (setHost_inv h rest)
  · exact ⟨_, rfl⟩

/-- Settles O59: the answers of `exec` with the two contents of the arrays are related by `SameButWork`. -/
theorem noStateSurvivesACommand : Obligations.NoStateSurvivesACommand := by
  intro s t i w ht
  have same := exec_withWork w i s
  rw [ht] at same
  generalize answer : exec i (s.withWork w) = o at same
  cases same with
  | next _ w' => exact ⟨w', answer⟩

end Sys2Proof.Machine
end

section
/-! Decode and encode agree in both places of the decoder, the CMD word and the token stream (30_encoding.md sections 1
and 3), and a number placed at the fetch runs as what the opcode table reads from it (log 2). -/

namespace Sys2Proof

/-! ## Commands (30_encoding.md R150) -/

/-- No opcode stands in two rows of the table, so each row is what its opcode selects. -/
theorem decodeCommand_of_mem : ∀ row ∈ opcodeTable, decodeCommand row.1 = .ok row.2 := by decide

theorem encode_of_mem : ∀ row ∈ opcodeTable, encode row.2 = .word (row.1.setWidth 32) := by decide

/-- Every command has its row. -/
theorem exists_mem_opcodeTable {i : Instr} (h : i.isToken = false) : ∃ row ∈ opcodeTable, row.2 = i := by
  cases i
  case litFirst | lit | matchShortNear | matchShortFar | matchLongNear | matchLongFar => cases h
  all_goals decide

theorem decode_encode_command {i : Instr} (h : i.isToken = false) (first : Bool) :
    decode first (encode i) = .ok i := by
  obtain ⟨row, mem, rfl⟩ := exists_mem_opcodeTable h
  rw [encode_of_mem row mem, Machine.decode_opcodeWord, decodeCommand_of_mem row mem]

/-! ## Tokens (30_encoding.md R170 to R177) -/

theorem encode_token {i : Instr} (h : i.isToken = true) : encode i = .stream (tokenBytes i) := by
  cases i
  case litFirst | lit | matchShortNear | matchShortFar | matchLongNear | matchLongFar => rfl
  all_goals cases h

/-- A stream that holds one token and no more decodes to it. -/
theorem decode_stream {first : Bool} {bytes : List Byte} {i : Instr} (h : decodeToken first bytes = .ok (i, [])) :
    decode first (.stream bytes) = .ok i := by
  rw [decode, h]

theorem decode_encode_token {i : Instr} (ht : i.isToken = true) (hw : i.wellFormed = true) :
    decode i.isFirstToken (encode i) = .ok i := by
  have read := decodeToken_tokenBytes ht hw []
  rw [List.append_nil] at read
  rw [encode_token ht, decode_stream read]

/-- A control byte's count is that of a literal run that fits: F + 1 is 1 to 32 (30_encoding.md R171). -/
theorem literalsFit_of_count {f : BitVec 5} {lits : List Byte} (h : lits.length = f.toNat + 1) :
    literalsFit lits = true := by
  have bound : f.toNat < 32 := f.isLt
  rw [literalsFit, Bool.and_eq_true, decide_eq_true_iff, decide_eq_true_iff]
  omega

theorem readShortMatch_wellFormed {l : BitVec 3} {f : BitVec 5} {b rest : List Byte} {i : Instr}
    (hl : shortLengthFits l = true) (h : readShortMatch l f b = .ok (i, rest)) :
    i.wellFormed = true ∧ i.isFirstToken = false := by
  unfold readShortMatch at h
  split at h
  · rename_i d after near
    cases h
    obtain ⟨-, -, fits⟩ := readDistance_ok_near near
    exact ⟨Bool.and_eq_true_iff.mpr ⟨hl, fits⟩, rfl⟩
  · cases h
    exact ⟨hl, rfl⟩
  · cases h

theorem readLongMatch_wellFormed {f : BitVec 5} {b rest : List Byte} {i : Instr}
    (h : readLongMatch f b = .ok (i, rest)) : i.wellFormed = true ∧ i.isFirstToken = false := by
  unfold readLongMatch at h
  split at h
  · cases h
  · split at h
    · rename_i d after' near
      cases h
      obtain ⟨-, -, fits⟩ := readDistance_ok_near near
      exact ⟨fits, rfl⟩
    · cases h
      exact ⟨rfl, rfl⟩
    · cases h

/-- The decoder never reads an ill-formed token, and reads a first token exactly in the first place. -/
theorem decodeToken_wellFormed {first : Bool} {b rest : List Byte} {i : Instr}
    (h : decodeToken first b = .ok (i, rest)) : i.wellFormed = true ∧ i.isFirstToken = first := by
  cases b with
  | nil => cases h
  | cons ctrl b =>
    cases first with
    | true =>
      obtain ⟨lits, rfl, count, -⟩ := readLiterals_ok ((decodeToken_first ctrl b).symm.trans h)
      exact ⟨literalsFit_of_count count, rfl⟩
    | false =>
      by_cases h0 : controlL ctrl = 0
      · obtain ⟨lits, rfl, count, -⟩ := readLiterals_ok ((decodeToken_literal h0 b).symm.trans h)
        exact ⟨literalsFit_of_count count, rfl⟩
      · by_cases h7 : controlL ctrl = 7
        · exact readLongMatch_wellFormed ((decodeToken_long h7 b).symm.trans h)
        · exact readShortMatch_wellFormed (shortLengthFits_of_ne h0 h7) ((decodeToken_short h0 h7 b).symm.trans h)

/-! ## Numbers of the opcode table (log 19) -/

theorem tableStream_length (nbits w : Nat) : (tableStream nbits w).length = nbits / 8 + 64 := by
  rw [tableStream, List.length_append, List.length_map, List.length_range, List.length_replicate]

/-- CMD[31:8] select nothing, so a command's number is its low byte. -/
theorem decode_commandNumber (first : Bool) (w : Nat) :
    decode first (.word (BitVec.ofNat 32 w)) = decodeCommand (BitVec.ofNat 8 w) := by
  have low : (BitVec.ofNat 32 w).extractLsb' 0 8 = BitVec.ofNat 8 w := by
    apply BitVec.eq_of_toNat_eq
    rw [BitVec.extractLsb'_toNat, BitVec.toNat_ofNat, BitVec.toNat_ofNat, Nat.shiftRight_zero]
    omega
  rw [decode, low]

theorem decodeTableWord_command {nbits w : Nat} {i : Instr} (hn : isCommandNumber nbits w = true)
    (h : decodeTableWord nbits w = some i) : decodeCommand (BitVec.ofNat 8 w) = .ok i := by
  rw [decodeTableWord, if_pos hn, decode_commandNumber] at h
  split at h
  · rename_i j read
    cases h
    exact read
  · cases h

theorem decodeTableWord_token {nbits w : Nat} {i : Instr} (hn : ¬ isCommandNumber nbits w = true)
    (h : decodeTableWord nbits w = some i) : ∃ rest, decodeToken false (tableStream nbits w) = .ok (i, rest) := by
  rw [decodeTableWord, if_neg hn] at h
  split at h
  · rename_i j rest read
    cases h
    exact ⟨rest, read⟩
  · cases h

end Sys2Proof

namespace Sys2Proof.Machine

/-! ## A number placed at the fetch (log 2) -/

theorem withFetchWord_runsAlone (s : State) (nbits w : Nat) : RunsAlone (s.withFetchWord nbits w) := by
  unfold State.withFetchWord
  split <;> exact ⟨rfl, rfl, rfl, rfl, rfl, rfl⟩

/-- A command's number is the latched opcode of an engine that runs no token program. -/
theorem withFetchWord_command (s : State) {nbits w : Nat} (hn : isCommandNumber nbits w = true) :
    (s.withFetchWord nbits w).dec = Decoder.idle ∧ (s.withFetchWord nbits w).latched.opcode = BitVec.ofNat 8 w := by
  rw [State.withFetchWord, if_pos hn]
  exact ⟨rfl, rfl⟩

/-- A token's number is the stream of a token program at ip = 0, in a source from address 0, past its first token. -/
theorem withFetchWord_token (s : State) {nbits w : Nat} (hn : ¬ isCommandNumber nbits w = true) :
    (s.withFetchWord nbits w).dec = ⟨true, 0, s.dec.op, false⟩ ∧
      (s.withFetchWord nbits w).latched.srcAddr = 0 ∧
      (s.withFetchWord nbits w).latched.srcLen = BitVec.ofNat 32 (tableStream nbits w).length ∧
      (s.withFetchWord nbits w).mem = s.mem.writeBytes 0 (tableStream nbits w) := by
  rw [State.withFetchWord, if_neg hn]
  exact ⟨rfl, rfl, rfl, rfl⟩

section
variable {s : State} {nbits w : Nat} (hn : ¬ isCommandNumber nbits w = true) (bits : nbits ≤ 4096)
include hn bits

/-- The placed stream is short enough for SRC_LEN and for memory. -/
theorem withFetchWord_srcLen :
    (s.withFetchWord nbits w).latched.srcLen.toNat = (tableStream nbits w).length ∧
      (tableStream nbits w).length ≤ 4294967296 := by
  obtain ⟨-, -, len, -⟩ := withFetchWord_token s hn
  have length := tableStream_length nbits w
  rw [len, BitVec.toNat_ofNat]
  omega

/-- The token decoder fetches the stream that was placed. -/
theorem fetchBytes_withFetchWord (hm : s.mem.wf) :
    (s.withFetchWord nbits w).fetchBytes = tableStream nbits w := by
  obtain ⟨dec, addr, -, mem⟩ := withFetchWord_token s hn
  obtain ⟨len, fits⟩ := withFetchWord_srcLen (s := s) hn bits
  have base : (s.withFetchWord nbits w).latched.srcAddr.toNat + 0 = 0 := by rw [addr]; rfl
  rw [State.fetchBytes, Params.src, dec, base, len, Nat.sub_zero, mem]
  exact Memory.readBytes_writeBytes hm (by rw [Nat.zero_add]; exact fits)

end

/-- Settles O2: a command by its row of the opcode table, a token by reading its bytes back with nothing after them. -/
theorem decodeOfEncode : Obligations.DecodeOfEncode := by
  intro i hw
  cases token : i.isToken with
  | true => exact decode_encode_token token hw
  | false => exact decode_encode_command token _

/-- Settles O3. -/
theorem tokenReadIsItsEncoding : Obligations.TokenReadIsItsEncoding :=
  fun _ _ _ _ h => ⟨decodeToken_ok h, decodeToken_isToken h, decodeToken_wellFormed h⟩

/-- Settles O8: a command's number is latched as the opcode, and a token's number is what the decoder fetches. -/
theorem placedNumberIsRun : Obligations.PlacedNumberIsRun := by
  intro s nbits w i hm bits h
  have alone := withFetchWord_runsAlone s nbits w
  by_cases hn : isCommandNumber nbits w = true
  · obtain ⟨dec, opcode⟩ := withFetchWord_command s hn
    have still : (s.withFetchWord nbits w).dec.running = false := by rw [dec]; rfl
    rw [step_engine alone.host]
    exact engineStep_command alone.busy alone.abortReq alone.rejected alone.misused alone.hung still
      (opcode ▸ decodeTableWord_command hn h)
  · obtain ⟨rest, read⟩ := decodeTableWord_token hn h
    obtain ⟨dec, addr, -, -⟩ := withFetchWord_token s hn
    obtain ⟨len, fits⟩ := withFetchWord_srcLen (s := s) hn bits
    have running : (s.withFetchWord nbits w).dec.running = true := by rw [dec]
    have later : (s.withFetchWord nbits w).dec.first = false := by rw [dec]
    have src : (s.withFetchWord nbits w).latched.srcAddr.toNat + (s.withFetchWord nbits w).latched.srcLen.toNat ≤
        4294967296 := by rw [addr, len]; simpa using fits
    exact step_token alone running src (by rw [later, fetchBytes_withFetchWord hn bits hm, read])

end Sys2Proof.Machine
end
